-- ==== Sys2Proof/Word.lean ====
section
/-! DEFINITION. The words of the register window and the bytes of the medium. -/

namespace Sys2Proof

/-- A register of the window: 16 bits (R185). -/
abbrev Word := BitVec 16

/-- A byte of a payload, a slot or the medium. -/
abbrev Byte := BitVec 8

end Sys2Proof
end

