-- ==== Sys2Proof/Syntax.lean ====
section
/-! DEFINITION. The commands of the SK240: one constructor of `Instr` per row of spec/opcode_table.json. -/

namespace Sys2Proof

/-- Bytes that stand at given offsets in place of what the medium holds there. -/
abbrev Patch := List (Nat × Byte)

/-- The stage of a RECORD PROGRAM that an end reached (R121). -/
inductive ProgramStage where
  | body
  | header
  deriving DecidableEq, Repr

/-- What a failed, timed-out or cut program or erase leaves on the medium: the stage a RECORD PROGRAM
had reached (R121), and the bytes left within the bytes the operation concerns (R120-R122; log 9). -/
structure Remnant where
  stage : ProgramStage
  bytes : Patch
  deriving DecidableEq, Repr

/-- How one attempt of a read ends at the bank (R120, R124). -/
inductive ReadAttempt where
  /-- The bank shows ready; the bytes read are those of the medium, but for the bytes of the patch. -/
  | ready (noise : Patch)
  /-- The bank did not show ready within the timeout. -/
  | timeout
  deriving DecidableEq, Repr

/-- How a BANK PROBE ends (R123). -/
inductive ProbeAnswer where
  | present
  | timeout
  deriving DecidableEq, Repr

/-- How a program or an erase ends (R119). -/
inductive MediumEnd where
  | done
  | failed (left : Remnant)
  | timeout (left : Remnant)
  deriving DecidableEq, Repr

/-- A write that a port state can refuse (the row REFUSED_WRITE, R152). -/
inductive RefusedTarget where
  | command (code : Word)
  | data (word : Word)
  deriving DecidableEq, Repr

/-- The commands: the rows of spec/opcode_table.json in the table's order. -/
inductive Instr where
  | hardReset (cut : Remnant)
  | pfwAsserted
  | pfwDeasserted
  | store
  | storeBundle
  | remove
  | fetch
  | describe
  | enumerate
  | sync
  | setOption
  | readOption
  | healthReport
  | eraseStore
  | badCommand (code : Word)
  | dataWrite (word : Word)
  | dataRead
  | statusRead
  | abort
  | portReset
  | acknowledge (word : Word)
  | intmaskWrite (word : Word)
  | registerWrite (address : BitVec 4) (word : Word)
  | dataTimeout
  | idleTimerExpiry
  | attemptTimeout (left : Remnant)
  | bankProbe (answer : ProbeAnswer)
  | headerRead (attempt : ReadAttempt)
  | recordRead (attempt : ReadAttempt)
  | blankCheck (attempt : ReadAttempt)
  | recordProgram (outcome : MediumEnd)
  | headerProgram (outcome : MediumEnd)
  | segmentErase (outcome : MediumEnd)
  | commitBegin
  | reclaimSelection
  | slotWaitEnd
  | writeThroughComplete
  | syncComplete
  | drainEnd
  | commitHaltEnd
  | resetAsserted (cut : Remnant)
  | powerLoss (cut : Remnant)
  | refusedWrite (target : RefusedTarget)
  deriving DecidableEq, Repr

end Sys2Proof
end

