-- ==== Sys2Proof/Decode.lean ====
section
/-! DEFINITION. The decoder over the rows of spec/opcode_table.json that give bits: there are none. -/

namespace Sys2Proof

/-- No row of the table gives an encoding ("fields": [] on all 43 rows, no row a "fixed"): a word of
`nbits` bits spells no command. -/
def decodeTableWord (_nbits _w : Nat) : Option Instr := none

end Sys2Proof
end

