-- ==== Sys2Proof/Config.lean ====
section
/-! DEFINITION. The fixed numbers of the SK240 and the one value its specification leaves free. -/

namespace Sys2Proof.Config

/-- Staging slots (R38). -/
abbrev slotCount : Nat := 16
/-- Bytes of one staging slot, and the largest payload (R3, R38). -/
abbrev slotBytes : Nat := 1024
/-- Words of the read frame (R155). -/
abbrev frameWords : Nat := 512
/-- Entries plus reservations the Key Index can hold (R16). -/
abbrev indexCapacity : Nat := 1024
/-- The highest sequence number that can be assigned (R5). -/
abbrev lastSequence : Nat := 4294967294
/-- The highest valid tag (R2). -/
abbrev lastTag : Nat := 65534
/-- The rated erase endurance of a segment (R66). -/
abbrev eraseLimit : Nat := 100000
/-- Tags the Refresh List can hold (R114). -/
abbrev refreshCapacity : Nat := 8
/-- Program failures in succession that stop a unit or a job (R89, R107). -/
abbrev failureLimit : Nat := 3
/-- Usable segments below which the store is worn (R77). -/
abbrev minimumUsable : Nat := 4
/-- The fairness count at which RECLAIM is granted before COMMIT (R131). -/
abbrev fairnessLimit : Nat := 8
/-- The value at which a health counter stays (R182). -/
abbrev counterLimit : Nat := 65535
/-- Segment numbers run below this (R58). -/
abbrev segmentCount : Nat := 128
/-- Pages of a segment; page 0 holds the segment header (R58). -/
abbrev segmentPages : Nat := 128
/-- Bytes of a page (R58). -/
abbrev pageBytes : Nat := 256
/-- Bytes of a segment (R58). -/
abbrev segmentBytes : Nat := 32768
/-- The format identifier of a FORMATTED slot (R188). -/
abbrev formatId : Nat := 0x52400001
/-- What IDENT reads (R185). -/
abbrev ident : Word := 0x5240#16
/-- Rounds within one step in which the consequences of an event may follow one another (log 4). -/
abbrev settleRounds : Nat := 4096

/-- FREE VALUE (log 1). R129: a request lodged in the step in which the arbiter makes a grant "either takes
part in that grant or waits for the next one. Either may occur." Whether it takes part, for the `n`-th grant
and the `k`-th requester, is this constant's, which has no body. -/
opaque freshTakesPart : (n k : Nat) → Bool

end Sys2Proof.Config
end

