-- ==== Sys2Proof/Machine/State.lean ====
section
/-! DEFINITION. The state of the SK240: every register, list, table, counter, mode and pin its
specification names, grouped by the block that owns it (spec/00_scope.md, Block Diagram), the queue of
commands that wait, and the state right after a hard reset. -/

namespace Sys2Proof.Machine

/-! ## Names -/

/-- Port states (R150). -/
inductive PortState where
  | mounting
  | idle
  | executing
  | receiving
  | sending
  | draining
  deriving DecidableEq, Repr

/-- RESULT codes (R160), in the order of their numbers 0 to 14. -/
inductive ResultCode where
  | none
  | badCommand
  | badParameter
  | notFound
  | tagProtected
  | storeFull
  | indexFull
  | unreadable
  | lost
  | dataTimeout
  | aborted
  | readOnly
  | pendingWrites
  | powerFail
  | writeFailed
  deriving DecidableEq, Repr

/-- A set of interrupt causes (R159), one flag per cause. -/
structure Causes where
  done : Bool
  data : Bool
  mounted : Bool
  deferred : Bool
  health : Bool
  drained : Bool
  deriving DecidableEq, Repr

/-- The empty set of causes. -/
abbrev Causes.empty : Causes := ⟨false, false, false, false, false, false⟩

/-- The option table (R161). -/
structure Options where
  writeBack : Nat
  readRetries : Nat
  refresh : Nat
  idleDelay : Nat
  lowWatermark : Nat
  dataTimeout : Nat
  retireAlert : Nat
  wearAlert : Nat
  wearSpread : Nat
  deriving DecidableEq, Repr

/-- The defaults of the option table (R161). -/
abbrev Options.defaults : Options := ⟨1, 3, 1, 20, 3, 50, 8, 90, 20⟩

/-! ## Records and index entries -/

/-- The kinds of record (R1). -/
inductive RecordKind where
  | data
  | tombstone
  | loss
  deriving DecidableEq, Repr

/-- A record (R1): its header fields and its payload. `position` is (i, n), absent for a standalone record. -/
structure Record where
  kind : RecordKind
  tag : Nat
  sequence : Nat
  length : Nat
  protect : Bool
  bundle : Nat
  position : Option (Nat × Nat)
  prior : Nat
  payload : List Byte
  deriving DecidableEq, Repr

/-- What an index entry locates, with the fields its kind has (R15). -/
inductive EntryKind where
  | live (length : Nat) (protect : Bool) (damaged : Bool)
  | tombstone (prior : Nat)
  | lost (prior : Nat)
  deriving DecidableEq, Repr

/-- An entry of the Key Index (R15). -/
structure IndexEntry where
  tag : Nat
  kind : EntryKind
  sequence : Nat
  segment : Nat
  page : Nat
  pages : Nat
  deriving DecidableEq, Repr

/-! ## The Command Port -/

/-- What one member of a bundle, or the one record of a STORE or REMOVE, will append (R41, R165). -/
structure Member where
  tag : Nat
  length : Nat
  protect : Bool
  deriving DecidableEq, Repr

/-- Which command will append. -/
inductive WorkKind where
  | store
  | remove
  | bundle (identifier : Nat)
  deriving DecidableEq, Repr

/-- What a STORE, REMOVE or STORE BUNDLE that has passed its checks is to append, and whether its OPTION
carries THROUGH (R56). -/
structure Work where
  kind : WorkKind
  members : List Member
  through : Bool
  deriving DecidableEq, Repr

/-- Retire reasons (R59). -/
inductive RetireReason where
  | program
  | erase
  | worn
  deriving DecidableEq, Repr

/-- The stage of the processing of one segment by ERASE STORE or the background erase (R148, R175). -/
inductive EraseStage where
  | erase
  | format
  | retire (reason : RetireReason)
  deriving DecidableEq, Repr

/-- The ends that ERASE STORE records (R176). -/
inductive RecordedEnd where
  | abort
  | powerFail
  deriving DecidableEq, Repr

/-- ERASE STORE in progress (R174-R176). -/
structure EraseProgress where
  /-- OPTION carried DISCARD. -/
  discard : Bool
  /-- The start of R174 is still to be made, after the operation in flight. -/
  taking : Bool
  /-- Segments of the work list not yet taken, in order. -/
  todo : List Nat
  /-- The segment in hand and its stage. -/
  hand : Option (Nat × EraseStage)
  /-- The first ABORT or PFW# recorded. -/
  firstEnd : Option RecordedEnd
  /-- A port reset has been recorded. -/
  portReset : Bool
  deriving DecidableEq, Repr

/-- What the command in progress is doing. -/
inductive Activity where
  | none
  /-- Slot wait (R50). -/
  | slotWait (work : Work)
  /-- Receiving the payload of one member into its slot (R154); `member` counts from 0. -/
  | payload (work : Work) (slots : List Nat) (member : Nat)
  /-- Receiving a bundle's descriptor of `members` members (R165). -/
  | descriptor (members : Nat) (through : Bool)
  /-- Write-through wait for the entries in these slots (R56). -/
  | throughWait (slots : List Nat)
  /-- FETCH waiting for or holding its medium read of the entry looked up (R168). -/
  | fetch (entry : IndexEntry)
  /-- Sending `words` words of the read frame (R154). -/
  | sending (words : Nat)
  /-- SYNC waiting for the PWL to empty (R172). -/
  | syncWait
  /-- ERASE STORE (R174). -/
  | eraseStore (progress : EraseProgress)
  deriving DecidableEq, Repr

/-- What background work never changes in the port: the registers the host writes, REFUSED, the option
table, the enable mask, the read frame, the bundle identifier rotation and the data bus. -/
structure Window where
  tag : Word
  length : Word
  count : Word
  option : Word
  value : Word
  command : Word
  seqlo : Word
  seqhi : Word
  refused : Bool
  options : Options
  mask : Causes
  frame : List Word
  nextBundle : Nat
  busOut : Option Word
  deriving DecidableEq, Repr

/-- The port state, the command in progress, and how the last one ended (R150, R153, R154, R156, R160).
`dataTimer` is the length with which the data-phase timer runs, in units of 10 ms. -/
structure Port where
  state : PortState
  activity : Activity
  residue : Nat
  result : ResultCode
  detail : Nat
  dataTimer : Option Nat
  deriving DecidableEq, Repr

/-- The idle timer, with the length it runs with in units of 10 ms, and the idle qualification (R102, R162). -/
structure IdleTimer where
  running : Option Nat
  qualified : Bool
  deriving DecidableEq, Repr

/-! ## The Staging Buffer -/

/-- Slot states (R38). -/
inductive SlotState where
  | free
  | reserved
  | pending
  deriving DecidableEq, Repr

/-- A staging slot: its state and its 1024 bytes (R38). -/
structure Slot where
  state : SlotState
  bytes : List Byte
  deriving DecidableEq, Repr

/-- Kinds of PWL entry (R41). -/
inductive PwlKind where
  | write
  | delete
  deriving DecidableEq, Repr

/-- An entry of the Pending Write List (R41). -/
structure PwlEntry where
  kind : PwlKind
  tag : Nat
  length : Nat
  protect : Bool
  bundle : Nat
  position : Option (Nat × Nat)
  slot : Nat
  inCommit : Bool
  deriving DecidableEq, Repr

/-- The Staging Buffer: the slots, by number, and the PWL from head to tail. -/
structure Staging where
  slots : List Slot
  pwl : List PwlEntry
  deriving DecidableEq, Repr

/-! ## The Key Index -/

/-- The Key Index: entries in ascending order of tag (R16), the next-sequence counter (R5) and the
reservation count (R21). -/
structure KeyIndex where
  entries : List IndexEntry
  nextSequence : Nat
  reservations : Nat
  deriving DecidableEq, Repr

/-! ## The Segment Manager -/

/-- Segment states (R60). -/
inductive SegmentState where
  | erasePending
  | erased
  | open
  | filled
  | reclaiming
  | retiring
  | retired
  deriving DecidableEq, Repr

/-- Retire marks (R60). -/
inductive RetireMark where
  | none
  | marked
  | unmarked
  deriving DecidableEq, Repr

/-- A record of the Segment Table (R60). `reason` and `mark` are absent outside RETIRING and RETIRED. -/
structure Segment where
  number : Nat
  state : SegmentState
  eraseCount : Nat
  writePointer : Nat
  live : Nat
  dead : Nat
  pending : Nat
  lowSequence : Nat
  openSequence : Nat
  reason : Option RetireReason
  mark : Option RetireMark
  deriving DecidableEq, Repr

/-- The open bundle range: its segment, first page and page count (R71). -/
structure BundleRange where
  segment : Nat
  page : Nat
  pages : Nat
  deriving DecidableEq, Repr

/-- Space states (R75). -/
inductive SpaceState where
  | normal
  | lowSpace
  | full
  deriving DecidableEq, Repr

/-- Reasons for READ_ONLY (R77); the store is WRITABLE while none is set. -/
structure Reasons where
  worn : Bool
  sequence : Bool
  degraded : Bool
  deriving DecidableEq, Repr

/-- The Segment Manager. -/
structure Space where
  present : List Nat
  segments : List Segment
  freeList : List Nat
  openCounter : Nat
  range : Option BundleRange
  state : SpaceState
  reasons : Reasons
  deriving DecidableEq, Repr

/-! ## The Commit Engine -/

/-- Halt reasons (R79). -/
inductive HaltReason where
  | noSpace
  | medium
  | readOnly
  deriving DecidableEq, Repr

/-- Commit states (R79). -/
inductive CommitState where
  | idle
  | running
  | waiting
  | halted (reason : HaltReason)
  deriving DecidableEq, Repr

/-- What the engine holds with its unit (R79): its first sequence number, a tombstone's prior sequence,
and the member of a bundle that is to be written next, from 0 (R86). -/
structure CommitUnit where
  first : Nat
  prior : Nat
  member : Nat
  deriving DecidableEq, Repr

/-- The Commit Engine. -/
structure Commit where
  state : CommitState
  unit : Option CommitUnit
  failures : Nat
  deriving DecidableEq, Repr

/-! ## The Reclaimer -/

/-- The object of a reclaim job (R97). -/
inductive JobKind where
  | segment (victim : Nat)
  | refresh (tag : Nat)
  deriving DecidableEq, Repr

/-- Job states (R97); IDLE is the absence of a job. -/
inductive JobState where
  | select
  | copyRead
  | copyProgram
  | erase
  | formatMark
  | retireMark
  deriving DecidableEq, Repr

/-- The copy buffer: one record, with the segment and first page of its source (R97). -/
structure CopyBuffer where
  record : Record
  segment : Nat
  page : Nat
  deriving DecidableEq, Repr

/-- A reclaim job (R97). `subject` is the entry of the record being dealt with; `deferred` says that a
claim was answered DEFER (R71), `abandoning` that PFW# or ERASE STORE ends the job after the operation in
flight (R116). -/
structure Job where
  kind : JobKind
  state : JobState
  cursor : Nat
  subject : Option IndexEntry
  buffer : Option CopyBuffer
  lossNumber : Nat
  failures : Nat
  reason : Option RetireReason
  deferred : Bool
  abandoning : Bool
  deriving DecidableEq, Repr

/-- The quantities that the order of choice reads (R99). -/
structure Quantities where
  retiring : List Nat
  refreshList : List Nat
  space : SpaceState
  commit : CommitState
  qualified : Bool
  free : Nat
  exclusion : List Nat
  /-- The FILLED segments with their dead pages. -/
  dead : List (Nat × Nat)
  minErase : Nat
  maxErase : Nat
  deriving DecidableEq, Repr

/-- The Reclaimer. -/
structure Reclaim where
  job : Option Job
  refreshList : List Nat
  exclusion : List Nat
  /-- The MODEL's own field: the quantities of R99 as the last selection that found no choice read them; none
  while a selection is due whatever they are (log 24). -/
  evaluated : Option Quantities
  deriving DecidableEq, Repr

/-! ## The Medium Sequencer -/

/-- What one slot or header position reads as (R125). -/
inductive Finding (α : Type) where
  | blank
  | valid (value : α)
  | corrupt
  deriving DecidableEq, Repr

/-- The findings of a segment's three header slots (R59, R125): the erase count, the open sequence with
the segment number, and the retire reason. -/
structure PageFindings where
  formatted : Finding Nat
  opened : Finding (Nat × Nat)
  retired : Finding RetireReason
  deriving DecidableEq, Repr

/-- The findings of a HEADER READ (R125). -/
inductive Findings where
  | page (slots : PageFindings)
  | record (header : Finding Record)
  deriving DecidableEq, Repr

/-- A segment header slot with the fields to be programmed (R59, R122). -/
inductive SlotContent where
  | formatted (eraseCount : Nat)
  | opened (openSequence : Nat)
  | retired (reason : RetireReason)
  deriving DecidableEq, Repr

/-- The medium operations (R119). A record read carries the tag and sequence it is checked against (R4). -/
inductive Op where
  | bankProbe (bank : Nat)
  | headerReadPage (segment : Nat)
  | headerReadRecord (segment page : Nat)
  | recordRead (segment page pages tag sequence : Nat)
  | blankCheck (segment page : Nat)
  | recordProgram (segment page : Nat) (record : Record)
  | headerProgram (segment : Nat) (slot : SlotContent)
  | segmentErase (segment : Nat)
  deriving DecidableEq, Repr

/-- Who holds the medium port (R128). A FETCH read is `detached` when its command has ended before the
read's outcome (R155). -/
inductive Requester where
  | fetch (tag : Nat) (detached : Bool)
  | commit
  | reclaimer
  | background
  | mount
  | eraseStore
  deriving DecidableEq, Repr

/-- The operation in flight: attempts that have ended, attempts allowed, and the findings of the last
attempt that did not time out (R124, R125). -/
structure InFlight where
  requester : Requester
  op : Op
  attempts : Nat
  allowed : Nat
  seen : Option Findings
  deriving DecidableEq, Repr

/-- A request at the arbiter: absent, lodged in the present step, or standing from an earlier one (R129). -/
inductive Request where
  | absent
  | fresh
  | standing
  deriving DecidableEq, Repr

/-- The requests lodged at the arbiter (R128). -/
structure Requests where
  read : Request
  commit : Request
  reclaimer : Request
  background : Request
  deriving DecidableEq, Repr

/-- The Medium Sequencer and its arbiter. -/
structure Sequencer where
  inFlight : Option InFlight
  requests : Requests
  fairness : Nat
  pin : Option Nat
  deriving DecidableEq, Repr

/-! ## Mount and the background erase -/

/-- Where mount stands (R135): the bank being probed, the segments whose page 0 is still to be read, the
candidates still to be scanned with the position reached in the first, or the BLANK CHECK of RESOLVE. -/
inductive MountPhase where
  | probe (bank : Nat)
  | headers (todo : List Nat)
  | scan (todo : List Nat) (page : Nat)
  | resolve (segment : Nat)
  deriving DecidableEq, Repr

/-- Header findings kept for one segment, after R137's check of the segment number. -/
structure HeaderInfo where
  segment : Nat
  formatted : Finding Nat
  opened : Finding Nat
  retired : Finding RetireReason
  deriving DecidableEq, Repr

/-- How a candidate's scan ended (R140). -/
inductive ScanEnd where
  | blank
  | corrupt
  | full
  deriving DecidableEq, Repr

/-- A segment that holds records (R138): `retire` marks row 2. -/
structure Candidate where
  segment : Nat
  openSequence : Nat
  retire : Bool
  scanEnd : Option ScanEnd
  writePointer : Nat
  lowSequence : Nat
  deriving DecidableEq, Repr

/-- A found record: its header and place, and whether it has been discarded (R141). -/
structure Found where
  record : Record
  segment : Nat
  page : Nat
  discarded : Bool
  deriving DecidableEq, Repr

/-- A bundle run in progress (R141): identifier, member count, next position, last sequence, and the
number of found records in it. -/
structure Run where
  bundle : Nat
  members : Nat
  next : Nat
  lastSequence : Nat
  found : Nat
  deriving DecidableEq, Repr

/-- Mount's working state (R135). `found` stands newest first. -/
structure MountWork where
  phase : MountPhase
  present : List Nat
  headers : List HeaderInfo
  candidates : List Candidate
  found : List Found
  run : Option Run
  highestSequence : Nat
  torn : Nat
  truncated : Nat
  discarded : Nat
  recovered : Nat
  unreadable : Nat
  timeouts : Nat
  deriving DecidableEq, Repr

/-- Mount's working state as mount begins: the probe of select 0 (R135, R137). -/
abbrev MountWork.begin : MountWork :=
  { phase := .probe 0, present := [], headers := [], candidates := [], found := [], run := none,
    highestSequence := 0, torn := 0, truncated := 0, discarded := 0,
    recovered := 0, unreadable := 0, timeouts := 0 }

/-- The mount report (R147). -/
structure MountReport where
  banks : Nat
  erasePending : Nat
  erased : Nat
  opened : Nat
  filled : Nat
  retiring : Nat
  retired : Nat
  live : Nat
  tombstone : Nat
  lost : Nat
  notIndexed : Nat
  degraded : Bool
  torn : Nat
  truncated : Nat
  discarded : Nat
  recovered : Nat
  unreadable : Nat
  timeouts : Nat
  deriving DecidableEq, Repr

/-- A mount report with nothing in it: what stands until mount has made one (log 11). -/
abbrev MountReport.blank : MountReport :=
  { banks := 0, erasePending := 0, erased := 0, opened := 0, filled := 0, retiring := 0, retired := 0,
    live := 0, tombstone := 0, lost := 0, notIndexed := 0, degraded := false, torn := 0, truncated := 0,
    discarded := 0, recovered := 0, unreadable := 0, timeouts := 0 }

/-- The background erase after mount (R148). -/
structure Background where
  todo : List Nat
  hand : Option (Nat × EraseStage)
  deriving DecidableEq, Repr

/-! ## Drain and health -/

/-- Drain outcomes (R180). -/
inductive DrainOutcome where
  | none
  | emptied
  | halted
  | cutShort
  deriving DecidableEq, Repr

/-- The drain: whether one has begun and not yet ended, and the drain result (R180). -/
structure Drain where
  running : Bool
  outcome : DrainOutcome
  left : Nat
  deriving DecidableEq, Repr

/-- The health counters (R182). -/
structure Counters where
  recoveredReads : Nat
  unreadableReads : Nat
  programFailures : Nat
  eraseFailures : Nat
  mediumTimeouts : Nat
  lostRecords : Nat
  refreshDrops : Nat
  deriving DecidableEq, Repr

/-- The health conditions (R183). -/
structure Conditions where
  spareLow : Bool
  wearHigh : Bool
  spaceFull : Bool
  storeReadOnly : Bool
  recordsLost : Bool
  deriving DecidableEq, Repr

/-- The Health Monitor. -/
structure Health where
  counters : Counters
  conditions : Conditions
  deriving DecidableEq, Repr

/-- The supply and RESET#: the part runs, is held by RESET#, or has no supply (R136, R189). -/
inductive Power where
  | on
  | held
  | off
  deriving DecidableEq, Repr

/-! ## The state -/

/-- The state of the part, its medium and its queue of commands. -/
structure State where
  /-- Commands that wait, first in first out. -/
  pending : List Instr
  power : Power
  /-- The filtered PFW# input is asserted (R189). -/
  pfw : Bool
  window : Window
  port : Port
  /-- The pending cause set (R159). -/
  causes : Causes
  idle : IdleTimer
  staging : Staging
  index : KeyIndex
  space : Space
  commit : Commit
  /-- The MODEL's own field: at the end of the last step the Commit Engine was IDLE with entries staged, so that it
  begins its unit in this one (R79; log 5). -/
  commitDue : Bool
  reclaim : Reclaim
  sequencer : Sequencer
  mount : Option MountWork
  mountReport : MountReport
  background : Background
  drain : Drain
  health : Health
  /-- The bytes of the bank devices; an address not listed reads FFh (R188). -/
  medium : List Host.Cell
  /-- The MODEL's own counter behind the free value of R129 (log 1). -/
  choices : Nat
  deriving DecidableEq, Repr

/-- Why the machine stops with a fault. -/
inductive Fault where
  /-- Raised by the answers of the medium (ATTEMPT_TIMEOUT, HEADER_READ, RECORD_READ, BLANK_CHECK,
  RECORD_PROGRAM, HEADER_PROGRAM, SEGMENT_ERASE) when the operation in flight names a segment, a page or
  a bank select that does not exist (R58, R119). Safe: the spec requests operations only for segments
  that exist, so no run of the part meets it (log 28). -/
  | noSuchAddress
  deriving DecidableEq, Repr

/-- Why the model gives a command no meaning. -/
inductive Refusal where
  /-- Raised by an arm of the dispatch whose command has no meaning yet. Safe: the model stops. -/
  | notModelled (mnemonic : String)
  deriving DecidableEq, Repr

/-- The part right after a hard reset: MOUNTING, every chip state at the value its rule gives, and mount's
first BANK PROBE granted (R5, R20, R55, R64, R79, R98, R134, R135, R163, R180, R182). Mount's reads use the
default READ_RETRIES (R135). -/
def State.reset : State :=
  { pending := []
    power := .on
    pfw := false
    window :=
      { tag := 0, length := 0, count := 0, option := 0, value := 0, command := 0, seqlo := 0, seqhi := 0,
        refused := false, options := Options.defaults, mask := Causes.empty,
        frame := List.replicate Config.frameWords 0, nextBundle := 1, busOut := none }
    port := { state := .mounting, activity := .none, residue := 0, result := .none, detail := 0,
              dataTimer := none }
    causes := Causes.empty
    idle := { running := none, qualified := false }
    staging :=
      { slots := List.replicate Config.slotCount ⟨.free, List.replicate Config.slotBytes 0⟩, pwl := [] }
    index := { entries := [], nextSequence := 1, reservations := 0 }
    space := { present := [], segments := [], freeList := [], openCounter := 1, range := none,
               state := .normal, reasons := ⟨false, false, false⟩ }
    commit := { state := .idle, unit := none, failures := 0 }
    commitDue := false
    reclaim := { job := none, refreshList := [], exclusion := [], evaluated := none }
    sequencer :=
      { inFlight := some ⟨.mount, .bankProbe 0, 0, 1, none⟩
        requests := ⟨.absent, .absent, .absent, .absent⟩, fairness := 0, pin := none }
    mount := some MountWork.begin
    mountReport := MountReport.blank
    background := { todo := [], hand := none }
    drain := { running := false, outcome := .none, left := 0 }
    health :=
      { counters := ⟨0, 0, 0, 0, 0, 0, 0⟩, conditions := ⟨false, false, false, false, false⟩ }
    medium := []
    choices := 0 }

end Sys2Proof.Machine
end

