-- ==== Sys2Proof/Machine/Ops.lean ====
section
/-! DEFINITION. The named operations over the medium, the slots, the PWL, the Segment Table, the index, the
arbiter's requests, the causes and the port, which the meanings are written with. -/

namespace Sys2Proof.Machine

/-! ## The bytes of the medium -/

/-- What an erased byte reads (R188). -/
def erasedByte : Byte := 0xFF#8

/-- The byte at an address; an address not listed is erased (R188). -/
def Memory.read : List Host.Cell → Nat → Byte
  | [], _ => erasedByte
  | (b, v) :: rest, a => if a = b then v else Memory.read rest a

/-- The medium with one byte set; an erased byte is not listed. -/
def Memory.write : List Host.Cell → Nat → Byte → List Host.Cell
  | [], a, v => if v = erasedByte then [] else [(a, v)]
  | (b, w) :: rest, a, v =>
    if a < b then
      if v = erasedByte then (b, w) :: rest else (a, v) :: (b, w) :: rest
    else if a = b then
      if v = erasedByte then rest else (a, v) :: rest
    else (b, w) :: Memory.write rest a v

/-- The canonical form: addresses strictly rising, no entry an erased byte. -/
def Memory.wf (m : List Host.Cell) : Bool :=
  decide (m.Pairwise fun x y => x.1 < y.1) && m.all fun c => decide (c.2 ≠ erasedByte)

/-- Bytes written one after another from an address. -/
def Memory.writeBytes (m : List Host.Cell) (a : Nat) : List Byte → List Host.Cell
  | [] => m
  | v :: rest => Memory.writeBytes (Memory.write m a v) (a + 1) rest

/-- `n` bytes from an address. -/
def Memory.readBytes (m : List Host.Cell) (a : Nat) : Nat → List Byte
  | 0 => []
  | n + 1 => Memory.read m a :: Memory.readBytes m (a + 1) n

/-- The bytes of a patch that lie at offsets `lo` to `hi - 1`, set from a base address. -/
def Memory.patch (m : List Host.Cell) (base lo hi : Nat) : Patch → List Host.Cell
  | [] => m
  | (o, v) :: rest =>
    Memory.patch (if lo ≤ o ∧ o < hi then Memory.write m (base + o) v else m) base lo hi rest

/-- `n` bytes from an address returned to the erased state. -/
def Memory.erase (m : List Host.Cell) (a n : Nat) : List Host.Cell :=
  m.filter fun c => !(decide (a ≤ c.1) && decide (c.1 < a + n))

/-- Every byte of a range reads erased. -/
def Memory.blank (m : List Host.Cell) (a n : Nat) : Bool :=
  m.all fun c => !(decide (a ≤ c.1) && decide (c.1 < a + n)) || c.2 == erasedByte

/-- The address of a byte of a page of a segment (R58). -/
def mediumAddress (segment page byte : Nat) : Nat :=
  (segment * Config.segmentPages + page) * Config.pageBytes + byte

/-! ## Words and bytes -/

/-- Words that carry `n` bytes (R154). -/
def wordsFor (n : Nat) : Nat := (n + 1) / 2

/-- Pages of a record with a payload of `n` bytes (R3). -/
def pagesFor (n : Nat) : Nat := (32 + n + 4 + 255) / 256

/-- The low half of a word. -/
def lowByte (w : Word) : Byte := w.extractLsb' 0 8

/-- The high half of a word. -/
def highByte (w : Word) : Byte := w.extractLsb' 8 8

/-- A word from its low and high halves. -/
def joinBytes (low high : Byte) : Word := high ++ low

/-- A byte string as words: byte 2i in the low half of word i, byte 2i + 1 in its high half, a missing
last byte 0 (R154). -/
def packWords : List Byte → List Word
  | [] => []
  | [b] => [joinBytes b 0]
  | b :: c :: rest => joinBytes b c :: packWords rest

/-- A health counter one higher, staying at its limit (R182). -/
def bump (n : Nat) : Nat := if n < Config.counterLimit then n + 1 else n

/-! ## Causes -/

/-- The cause DONE is raised (R159). -/
def State.raiseDone (s : State) : State := { s with causes := { s.causes with done := true } }
/-- The cause DATA is raised (R159). -/
def State.raiseData (s : State) : State := { s with causes := { s.causes with data := true } }
/-- The cause MOUNTED is raised (R145). -/
def State.raiseMounted (s : State) : State := { s with causes := { s.causes with mounted := true } }
/-- The cause DEFERRED is raised (R91). -/
def State.raiseDeferred (s : State) : State := { s with causes := { s.causes with deferred := true } }
/-- The cause HEALTH is raised (R183). -/
def State.raiseHealth (s : State) : State := { s with causes := { s.causes with health := true } }
/-- The cause DRAINED is raised (R180). -/
def State.raiseDrained (s : State) : State := { s with causes := { s.causes with drained := true } }

/-! ## Requests at the arbiter (R128, R129) -/

/-- A request lodged, unless it is lodged already. -/
def Request.lodge : Request → Request
  | .absent => .fresh
  | .fresh => .fresh
  | .standing => .standing

/-- A request that outlives the step in which it was lodged. -/
def Request.age : Request → Request
  | .absent => .absent
  | .fresh => .standing
  | .standing => .standing

/-- A request is lodged. -/
def Request.lodged : Request → Bool
  | .absent => false
  | .fresh => true
  | .standing => true

/-- The FETCH path lodges its request. -/
def State.lodgeRead (s : State) : State :=
  { s with sequencer.requests.read := s.sequencer.requests.read.lodge }
/-- The Commit Engine lodges its request. -/
def State.lodgeCommit (s : State) : State :=
  { s with sequencer.requests.commit := s.sequencer.requests.commit.lodge }
/-- The Reclaimer lodges its request. -/
def State.lodgeReclaimer (s : State) : State :=
  { s with sequencer.requests.reclaimer := s.sequencer.requests.reclaimer.lodge }
/-- The background erase lodges its request. -/
def State.lodgeBackground (s : State) : State :=
  { s with sequencer.requests.background := s.sequencer.requests.background.lodge }

/-- The FETCH path's request withdrawn. -/
def State.withdrawRead (s : State) : State := { s with sequencer.requests.read := .absent }
/-- The Commit Engine's request withdrawn. -/
def State.withdrawCommit (s : State) : State := { s with sequencer.requests.commit := .absent }
/-- The Reclaimer's request withdrawn; withdrawn while lodged it sets the fairness count to 0 (R131). That it does so
at PFW# and at ERASE STORE too, for which R131, R134 and R178 have the count kept, is the model's choice (log 39). -/
def State.withdrawReclaimer (s : State) : State :=
  if s.sequencer.requests.reclaimer.lodged then
    { s with sequencer := { s.sequencer with
        requests := { s.sequencer.requests with reclaimer := .absent }, fairness := 0 } }
  else s
/-- The background erase's request withdrawn, a request of the RECLAIM class like the Reclaimer's (R131). ERASE STORE
alone withdraws it, where R134 has the count kept; that it is 0 there is the model's choice (log 39). -/
def State.withdrawBackground (s : State) : State :=
  if s.sequencer.requests.background.lodged then
    { s with sequencer := { s.sequencer with
        requests := { s.sequencer.requests with background := .absent }, fairness := 0 } }
  else s

/-- The medium port is free (R129). -/
def State.portFree (s : State) : Bool := s.sequencer.inFlight.isNone

/-- An operation of a requester holds the medium port from its grant, with the attempts it may make
(R124: `1 + READ_RETRIES` for a read, as the option stands at the grant). -/
def State.issue (s : State) (who : Requester) (op : Op) (allowed : Nat) : State :=
  { s with sequencer.inFlight := some ⟨who, op, 0, allowed, none⟩ }

/-- The attempts a read granted now may make (R124). -/
def State.readAttempts (s : State) : Nat := 1 + s.window.options.readRetries

/-- The medium port becomes free, and a read pin is released (R129, R133). -/
def State.releasePort (s : State) : State :=
  { s with sequencer := { s.sequencer with inFlight := none, pin := none } }

/-! ## Segments (R60-R66) -/

/-- A segment's record in the Segment Table, if the segment exists. -/
def State.segment? (s : State) (n : Nat) : Option Segment :=
  s.space.segments.find? fun g => g.number == n

/-- One segment's record changed. -/
def State.updateSegment (s : State) (n : Nat) (f : Segment → Segment) : State :=
  { s with space.segments := s.space.segments.map fun g => if g.number = n then f g else g }

/-- A segment number that exists: its bank is present (R58). -/
def State.segmentExists (s : State) (n : Nat) : Bool :=
  decide (n < 128) && s.space.present.contains (n / 32)

/-- F: the number of segments in the free list (R65). -/
def State.freeCount (s : State) : Nat := s.space.freeList.length

/-- Segments in a state (R74). -/
def State.countState (s : State) (state : SegmentState) : Nat :=
  s.space.segments.countP fun g => g.state == state

/-- The retired count (R74). -/
def State.retiredCount (s : State) : Nat := s.countState .retired

/-- The existing segments that are not RETIRED (R74). -/
def State.usable (s : State) : List Segment := s.space.segments.filter fun g => g.state != .retired

/-- The usable count (R74). -/
def State.usableCount (s : State) : Nat := s.usable.length

/-- The maximum erase count over usable segments, 0 when there is none (R74, R184). -/
def State.maxErase (s : State) : Nat := s.usable.foldl (fun m g => max m g.eraseCount) 0

/-- The minimum erase count over usable segments, 0 when there is none (R74, R184). -/
def State.minErase (s : State) : Nat :=
  match s.usable with
  | [] => 0
  | g :: rest => rest.foldl (fun m h => min m h.eraseCount) g.eraseCount

/-- The OPEN segment, if there is one (R68). -/
def State.openSegment (s : State) : Option Segment := s.space.segments.find? fun g => g.state == .open

/-- A segment taken out of OPEN: its unwritten pages become dead (R62, R69). -/
def Segment.close (g : Segment) (state : SegmentState) : Segment :=
  { g with state := state, dead := g.dead + (Config.segmentPages - g.writePointer),
           writePointer := Config.segmentPages }

/-- Pages granted whose program outcome, install or move will not come: pending falls, they stay dead (R62). -/
def Segment.dropPending (g : Segment) (k : Nat) : Segment := { g with pending := g.pending - k }

/-- Granted pages whose record has become located: pending and dead fall, live rises (R62). -/
def Segment.makeLive (g : Segment) (k : Nat) : Segment :=
  { g with pending := g.pending - k, dead := g.dead - k, live := g.live + k }

/-- Pages whose record is no longer located: live falls, dead rises (R62). -/
def Segment.makeDead (g : Segment) (k : Nat) : Segment :=
  { g with live := g.live - k, dead := g.dead + k }

/-- Pages granted to records of which `low` is the lowest sequence (R62, R63). -/
def Segment.grantPages (g : Segment) (k low : Nat) : Segment :=
  { g with writePointer := g.writePointer + k, dead := g.dead + k, pending := g.pending + k,
           lowSequence := if g.lowSequence = 0 ∨ low < g.lowSequence then low else g.lowSequence }

/-- A segment formatted after an erase: ERASED with its counts reset (R62, R66). -/
def Segment.format (g : Segment) : Segment :=
  { g with state := .erased, writePointer := 1, live := 0, dead := 0, pending := 0,
           lowSequence := 0, openSequence := 0, reason := none, mark := none }

/-- A segment number put in its place in the free list: ascending by erase count, then by number (R65). -/
def insertFree (count : Nat → Nat) (n : Nat) : List Nat → List Nat
  | [] => [n]
  | m :: rest =>
    if count n < count m ∨ (count n = count m ∧ n < m) then n :: m :: rest
    else m :: insertFree count n rest

/-- A segment's erase count, 0 for one that does not exist. -/
def State.eraseCountOf (s : State) (n : Nat) : Nat :=
  match s.segment? n with
  | some g => g.eraseCount
  | none => 0

/-- A WAITING Commit Engine requests the port again (R90). -/
def State.wakeWaiting (s : State) : State :=
  if s.commit.state = .waiting then s.lodgeCommit else s

/-- F changes: the exclusion set is emptied (R103) and a WAITING engine requests again (R90). The space
state is re-evaluated among the step's consequences (R75, R76). -/
def State.setFreeList (s : State) (l : List Nat) : State :=
  ({ s with space.freeList := l, reclaim.exclusion := [] } : State).wakeWaiting

/-- FORMATTED programmed DONE after an erase: the segment becomes ERASED and enters the free list (R66). -/
def State.formatSegment (s : State) (n : Nat) : State :=
  let t := s.updateSegment n Segment.format
  t.setFreeList (insertFree t.eraseCountOf n t.space.freeList)

/-! ## The Key Index -/

/-- The entry of a tag, or none (R25). -/
def State.lookup (s : State) (tag : Nat) : Option IndexEntry :=
  s.index.entries.find? fun e => e.tag == tag

/-- An entry put in its tag's place, replacing the tag's entry if there is one (R16). -/
def insertEntry (e : IndexEntry) : List IndexEntry → List IndexEntry
  | [] => [e]
  | x :: rest =>
    if e.tag < x.tag then e :: x :: rest
    else if e.tag = x.tag then e :: rest
    else x :: insertEntry e rest

/-- The index with a tag's entry created or replaced. -/
def State.putEntry (s : State) (e : IndexEntry) : State :=
  { s with index.entries := insertEntry e s.index.entries }

/-- The index with a tag's entry removed. -/
def State.removeEntry (s : State) (tag : Nat) : State :=
  { s with index.entries := s.index.entries.filter fun e => e.tag != tag }

/-! ## Slots and the PWL -/

/-- The numbers of the FREE slots, ascending (R39). -/
def freeSlots (slots : List Slot) : List Nat :=
  (List.range slots.length).filter fun i =>
    match slots[i]? with
    | some x => x.state == .free
    | none => false

/-- Slots put in a state. -/
def setSlots (slots : List Slot) (numbers : List Nat) (state : SlotState) : List Slot :=
  numbers.foldl (fun ss n => ss.modify n fun x => { x with state := state }) slots

/-- Slots reserved for the command in progress (R39). -/
def State.reserveSlots (s : State) (numbers : List Nat) : State :=
  { s with staging.slots := setSlots s.staging.slots numbers .reserved }

/-- Every RESERVED slot returns to FREE (R52); they all belong to the one command in progress (R40). -/
def State.freeReserved (s : State) : State :=
  { s with staging.slots :=
      s.staging.slots.map fun x => if x.state = .reserved then { x with state := .free } else x }

/-- The bytes of a slot. -/
def State.slotBytes (s : State) (n : Nat) : List Byte :=
  match s.staging.slots[n]? with
  | some x => x.bytes
  | none => []

/-- Entries removed from the PWL with their slots freed; the order of the others is unchanged (R41, R53). -/
def Staging.removeEntries (g : Staging) (gone : PwlEntry → Bool) : Staging :=
  { slots := setSlots g.slots ((g.pwl.filter gone).map (·.slot)) .free
    pwl := g.pwl.filter fun e => !gone e }

/-- Entries appended at the tail, their slots PENDING (R43, R44, R46). -/
def Staging.append (g : Staging) (entries : List PwlEntry) : Staging :=
  { slots := setSlots g.slots (entries.map (·.slot)) .pending
    pwl := g.pwl ++ entries }

/-- The tail-most PWL entry of a tag (R25). -/
def State.tailEntry (s : State) (tag : Nat) : Option PwlEntry :=
  s.staging.pwl.reverse.find? fun e => e.tag == tag

/-- A WRITE entry for the tag is in the PWL (R22). -/
def State.hasWrite (s : State) (tag : Nat) : Bool :=
  s.staging.pwl.any fun e => e.tag == tag && e.kind == .write

/-! ## The port -/

/-- The idle timer starts from zero, unless IDLE_DELAY is 0 (R162). -/
def State.startIdle (s : State) : State :=
  { s with idle.running :=
      if s.window.options.idleDelay = 0 then none else some s.window.options.idleDelay }

/-- The idle timer stops, with its count discarded (R162). -/
def State.stopIdle (s : State) : State := { s with idle.running := none }

/-- The port enters IDLE; with the PWL empty the idle timer starts (R162). -/
def State.enterIdle (s : State) : State :=
  let t := { s with port.state := .idle }
  if t.staging.pwl.isEmpty then t.startIdle else t.stopIdle

/-- The port enters DRAINING and a drain begins; the idle timer stops and the qualification ends
(R163, R178, R180). -/
def State.enterDraining (s : State) : State :=
  { s with port := { s.port with state := .draining }
           drain := { s.drain with running := true }
           idle := ⟨none, false⟩ }

/-- The command in progress is over: reserved slots are freed, RESIDUE becomes 0, the data-phase timer
stops, and the port enters IDLE, or DRAINING with PFW# asserted (R52, R153, R176). -/
def State.leaveCommand (s : State) : State :=
  let t : State :=
    { s.freeReserved with port := { s.port with activity := .none, residue := 0, dataTimer := none } }
  if t.pfw then t.enterDraining else t.enterIdle

/-- A command ends with a RESULT (R153, R160). -/
def State.endCommand (s : State) (code : ResultCode) (detail : Nat) : State :=
  ({ s with port := { s.port with result := code, detail := detail } } : State).leaveCommand.raiseDone

/-- Entries leave the PWL by commit (R53). When the list empties with the port IDLE, the idle timer starts (R162). -/
def State.removeCommitted (s : State) (gone : PwlEntry → Bool) : State :=
  let t := { s with staging := s.staging.removeEntries gone }
  if t.staging.pwl.isEmpty && !s.staging.pwl.isEmpty && decide (s.port.state = .idle) then t.startIdle else t

/-- The data-phase timer restarts from zero with the length DATA_TIMEOUT has (R156). -/
def State.restartTimer (s : State) : State :=
  { s with port := { s.port with dataTimer := some s.window.options.dataTimeout } }

/-- Words put into the read frame from word 0 (R155; log 23). -/
def State.fillFrame (s : State) (words : List Word) : State :=
  { s with window := { s.window with frame := words ++ s.window.frame.drop words.length } }

/-- The port enters SENDING with `n` words of the frame: RESIDUE, DATA and the timer (R154, R156). -/
def State.enterSending (s : State) (n : Nat) : State :=
  ({ s with port := { s.port with state := .sending, activity := .sending n, residue := n } }
    : State).restartTimer.raiseData

/-! ## Health counters (R182) -/

/-- RECOVERED_READS + 1. -/
def State.countRecovered (s : State) : State :=
  { s with health := { s.health with counters :=
      { s.health.counters with recoveredReads := bump s.health.counters.recoveredReads } } }
/-- UNREADABLE_READS + 1. -/
def State.countUnreadable (s : State) : State :=
  { s with health := { s.health with counters :=
      { s.health.counters with unreadableReads := bump s.health.counters.unreadableReads } } }
/-- PROGRAM_FAILURES + 1. -/
def State.countProgramFailure (s : State) : State :=
  { s with health := { s.health with counters :=
      { s.health.counters with programFailures := bump s.health.counters.programFailures } } }
/-- ERASE_FAILURES + 1. -/
def State.countEraseFailure (s : State) : State :=
  { s with health := { s.health with counters :=
      { s.health.counters with eraseFailures := bump s.health.counters.eraseFailures } } }
/-- MEDIUM_TIMEOUTS + 1. -/
def State.countTimeout (s : State) : State :=
  { s with health := { s.health with counters :=
      { s.health.counters with mediumTimeouts := bump s.health.counters.mediumTimeouts } } }
/-- LOST_RECORDS + 1. -/
def State.countLost (s : State) : State :=
  { s with health := { s.health with counters :=
      { s.health.counters with lostRecords := bump s.health.counters.lostRecords } } }
/-- REFRESH_DROPS + 1. -/
def State.countRefreshDrop (s : State) : State :=
  { s with health := { s.health with counters :=
      { s.health.counters with refreshDrops := bump s.health.counters.refreshDrops } } }

/-! ## Resets (R135, R136) -/

/-- All chip state at its reset value; the queue, the PFW# input, the medium and the model's own counter stay. -/
def State.chipReset (s : State) : State :=
  { State.reset with pending := s.pending, pfw := s.pfw, medium := s.medium, choices := s.choices }

/-- All chip state lost, with no mount begun, until the release of RESET# or the return of the supply. -/
def State.chipLost (s : State) (power : Power) : State :=
  { s.chipReset with
    power := power
    mount := none
    sequencer := { State.reset.sequencer with inFlight := none } }

end Sys2Proof.Machine
end

