-- ==== Sys2Proof/Machine/Medium.lean ====
section
/-! DEFINITION. The stored formats and their checks (R188), what the operations do to the medium (R121,
R122), and what reads of it find (R4, R125, R126). -/

namespace Sys2Proof.Machine

/-! ## The two checks (R188) -/

/-- A function applied `n` times. -/
def repeatStep {α : Type} (f : α → α) : Nat → α → α
  | 0, x => x
  | n + 1, x => repeatStep f n (f x)

/-- One bit of the 16-bit check: generator 1021h, most significant bit first. -/
def crc16Bit (c : BitVec 16) : BitVec 16 := if c.msb then (c <<< 1) ^^^ 0x1021#16 else c <<< 1

/-- The 16-bit check over bytes in ascending order: initial value FFFFh, no final inversion (R188). -/
def crc16 (bytes : List Byte) : BitVec 16 :=
  bytes.foldl (fun c b => repeatStep crc16Bit 8 (c ^^^ (b.setWidth 16).shiftLeft 8)) 0xFFFF#16

/-- One bit of the 32-bit check: generator 04C11DB7h with the least significant bit of each byte first, so
the register runs reflected and the generator stands as EDB88320h (log 10). -/
def crc32Bit (c : BitVec 32) : BitVec 32 :=
  if c.getLsbD 0 then (c >>> 1) ^^^ 0xEDB88320#32 else c >>> 1

/-- The 32-bit check over bytes in ascending order: initial value FFFFFFFFh, the final value inverted (R188). -/
def crc32 (bytes : List Byte) : BitVec 32 :=
  ~~~ (bytes.foldl (fun c b => repeatStep crc32Bit 8 (c ^^^ b.setWidth 32)) 0xFFFFFFFF#32)

/-! ## Little-endian fields -/

/-- The `n` low bytes of a number, low byte first. -/
def leBytes : (n value : Nat) → List Byte
  | 0, _ => []
  | n + 1, value => BitVec.ofNat 8 value :: leBytes n (value / 256)

/-- The number that bytes stand for, low byte first. -/
def leValue : List Byte → Nat
  | [] => 0
  | b :: rest => b.toNat + 256 * leValue rest

/-- The field of `n` bytes at a place of a byte string. -/
def field (bytes : List Byte) (place n : Nat) : Nat := leValue ((bytes.drop place).take n)

/-! ## Records (R1, R4, R188) -/

/-- The kind byte of a record header. -/
def RecordKind.byte : RecordKind → Nat
  | .data => 1
  | .tombstone => 2
  | .loss => 3

/-- Bytes 0 to 29 of a record header. -/
def headerFields (r : Record) : List Byte :=
  leBytes 1 r.kind.byte ++ leBytes 1 (if r.protect then 1 else 0) ++ leBytes 2 r.tag ++
    leBytes 4 r.sequence ++ leBytes 2 r.length ++ leBytes 1 r.bundle ++
    leBytes 1 (r.position.getD (0, 0)).1 ++ leBytes 1 (r.position.getD (0, 0)).2 ++ leBytes 3 0 ++
    leBytes 4 r.prior ++ leBytes 10 0

/-- The 32 bytes of a record header, with its check. -/
def recordHeader (r : Record) : List Byte :=
  headerFields r ++ leBytes 2 (crc16 (headerFields r)).toNat

/-- The body of a record: payload and payload check (R121). -/
def recordBody (r : Record) : List Byte :=
  r.payload ++ leBytes 4 (crc32 (recordHeader r ++ r.payload)).toNat

/-- A whole record as it stands on the medium. -/
def recordBytes (r : Record) : List Byte := recordHeader r ++ recordBody r

/-- The kind a kind byte names. -/
def kindOfByte : Nat → Option RecordKind
  | 1 => some .data
  | 2 => some .tombstone
  | 3 => some .loss
  | _ => none

/-- The position fields are consistent with the bundle identifier (R4). -/
def positionValid (bundle i n : Nat) : Bool :=
  (bundle == 0 && i == 0 && n == 0) ||
    (decide (1 ≤ bundle) && decide (2 ≤ n) && decide (n ≤ 8) && decide (1 ≤ i) && decide (i ≤ n))

/-- The conditions of R4 on a header's fields that depend on its kind. -/
def kindFieldsValid (r : Record) : Bool :=
  match r.kind with
  | .data => decide (r.length ≤ Config.slotBytes) && r.prior == 0
  | .tombstone =>
    r.length == 0 && !r.protect && r.bundle == 0 && decide (1 ≤ r.prior) && decide (r.prior < r.sequence)
  | .loss =>
    r.length == 0 && !r.protect && r.bundle == 0 && decide (1 ≤ r.prior) && decide (r.prior < r.sequence)

/-- The record a header's fields give, before its conditions are checked. -/
def headerRecord (h : List Byte) (kind : RecordKind) : Record :=
  { kind := kind
    tag := field h 2 2
    sequence := field h 4 4
    length := field h 8 2
    protect := field h 1 1 % 2 == 1
    bundle := field h 10 1
    position := if field h 10 1 = 0 then none else some (field h 11 1, field h 12 1)
    prior := field h 16 4
    payload := [] }

/-- What a record header position reads as, from its 32 bytes (R4, R125, R188). That one of the attribute bits 7-1
set makes it corrupt, as a nonzero byte written 0 does, is the model's choice (log 41). -/
def headerFinding (h : List Byte) : Finding Record :=
  if h.all (· == erasedByte) then .blank
  else
    match kindOfByte (field h 0 1) with
    | none => .corrupt
    | some kind =>
      let r := headerRecord h kind
      if field h 30 2 == (crc16 (h.take 30)).toNat &&
          decide (1 ≤ r.tag) && decide (r.tag ≤ Config.lastTag) &&
          decide (1 ≤ r.sequence) && decide (r.sequence ≤ Config.lastSequence) &&
          kindFieldsValid r && positionValid r.bundle (field h 11 1) (field h 12 1) &&
          decide (field h 1 1 < 2) && field h 13 3 == 0 && leValue ((h.drop 20).take 10) == 0 then
        .valid r
      else .corrupt

/-! ## Segment header slots (R59, R188) -/

/-- The retire reason's byte. -/
def RetireReason.byte : RetireReason → Nat
  | .program => 1
  | .erase => 2
  | .worn => 3

/-- Where a slot stands on page 0. -/
def SlotContent.place : SlotContent → Nat
  | .formatted _ => 0
  | .opened _ => 16
  | .retired _ => 32

/-- The first 14 bytes of a slot. -/
def slotFields (segment : Nat) : SlotContent → List Byte
  | .formatted count => leBytes 4 Config.formatId ++ leBytes 4 count ++ leBytes 6 0
  | .opened sequence => leBytes 4 sequence ++ leBytes 1 segment ++ leBytes 9 0
  | .retired reason => leBytes 1 reason.byte ++ leBytes 13 0

/-- The 16 bytes of a slot, with its check. -/
def slotBytes (segment : Nat) (slot : SlotContent) : List Byte :=
  slotFields segment slot ++ leBytes 2 (crc16 (slotFields segment slot)).toNat

/-- A slot's bytes are blank, or fail their check or ranges, or give a value (R125). -/
def slotFinding {α : Type} (b : List Byte) (value : Option α) : Finding α :=
  if b.all (· == erasedByte) then .blank
  else if field b 14 2 == (crc16 (b.take 14)).toNat then
    match value with
    | some v => .valid v
    | none => .corrupt
  else .corrupt

/-- The FORMATTED slot: its erase count, with the format identifier and the count's range checked. -/
def formattedFinding (b : List Byte) : Finding Nat :=
  slotFinding b
    (if field b 0 4 == Config.formatId && decide (field b 4 4 ≤ Config.eraseLimit) && field b 8 6 == 0 then
      some (field b 4 4)
    else none)

/-- The OPENED slot: its open sequence and segment number, with the ranges of both checked (R58, R63, R125). -/
def openedFinding (b : List Byte) : Finding (Nat × Nat) :=
  slotFinding b
    (if decide (1 ≤ field b 0 4) && decide (field b 0 4 ≤ Config.lastSequence) &&
        decide (field b 4 1 < Config.segmentCount) && field b 5 9 == 0 then
      some (field b 0 4, field b 4 1)
    else none)

/-- The reason a reason byte names. -/
def reasonOfByte : Nat → Option RetireReason
  | 1 => some .program
  | 2 => some .erase
  | 3 => some .worn
  | _ => none

/-- The RETIRED slot: its reason. -/
def retiredFinding (b : List Byte) : Finding RetireReason :=
  slotFinding b (if field b 1 13 == 0 then reasonOfByte (field b 0 1) else none)

/-- The findings of the 48 bytes of a segment header (R125). -/
def pageFindings (b : List Byte) : PageFindings :=
  { formatted := formattedFinding (b.take 16)
    opened := openedFinding ((b.drop 16).take 16)
    retired := retiredFinding ((b.drop 32).take 16) }

/-- A finding is corrupt. -/
def Finding.isCorrupt {α : Type} : Finding α → Bool
  | .corrupt => true
  | .blank => false
  | .valid _ => false

/-- A HEADER READ attempt with these findings is a mismatch: some finding is corrupt (R125). -/
def Findings.anyCorrupt : Findings → Bool
  | .page p => p.formatted.isCorrupt || p.opened.isCorrupt || p.retired.isCorrupt
  | .record h => h.isCorrupt

/-! ## Reads of the medium -/

/-- The medium as one attempt reads it: the bytes of the patch stand over those of the medium, from the
operation's first byte (log 6). -/
def readView (m : List Host.Cell) (base : Nat) (noise : Patch) : List Host.Cell :=
  Memory.patch m base 0 Config.segmentBytes noise

/-- The findings of one HEADER READ attempt of a segment's page 0. -/
def readPageHeader (m : List Host.Cell) (segment : Nat) (noise : Patch) : PageFindings :=
  pageFindings (Memory.readBytes (readView m (mediumAddress segment 0 0) noise) (mediumAddress segment 0 0) 48)

/-- The finding of one HEADER READ attempt of a record header position. -/
def readRecordHeader (m : List Host.Cell) (segment page : Nat) (noise : Patch) : Finding Record :=
  headerFinding
    (Memory.readBytes (readView m (mediumAddress segment page 0) noise) (mediumAddress segment page 0) 32)

/-- One attempt of a RECORD READ: the record, when every condition of R4 holds, the tag and sequence those
of the entry, and the record lies in the pages read (log 27). -/
def readRecord (m : List Host.Cell) (segment page pages tag sequence : Nat) (noise : Patch) :
    Option Record :=
  let base := mediumAddress segment page 0
  let view := readView m base noise
  let header := Memory.readBytes view base 32
  match headerFinding header with
  | .blank => none
  | .corrupt => none
  | .valid r =>
    if r.tag == tag && r.sequence == sequence && decide (36 + r.length ≤ pages * Config.pageBytes) then
      let payload := Memory.readBytes view (base + 32) r.length
      let check := leValue (Memory.readBytes view (base + 32 + r.length) 4)
      if check = (crc32 (header ++ payload)).toNat then some { r with payload := payload } else none
    else none

/-- One attempt of a BLANK CHECK from a page to the end of its segment: every byte reads erased (R126). -/
def readBlank (m : List Host.Cell) (segment page : Nat) (noise : Patch) : Bool :=
  let base := mediumAddress segment page 0
  Memory.blank (readView m base noise) base ((Config.segmentPages - page) * Config.pageBytes)

/-! ## What programs and erases do to the medium -/

/-- What a RECORD PROGRAM that did not end DONE leaves (R121): in the body stage part or all of the body
and a blank header; in the header stage the whole body and part of the header. -/
def programRemnant (m : List Host.Cell) (segment page : Nat) (r : Record) (left : Remnant) :
    List Host.Cell :=
  let base := mediumAddress segment page 0
  match left.stage with
  | .body => Memory.patch m base 32 (32 + (recordBody r).length) left.bytes
  | .header => Memory.patch (Memory.writeBytes m (base + 32) (recordBody r)) base 0 32 left.bytes

/-- What an operation that did not end DONE leaves on the medium (R120-R122). Reads change nothing. -/
def Op.leave (m : List Host.Cell) (left : Remnant) : Op → List Host.Cell
  | .recordProgram segment page record => programRemnant m segment page record left
  | .headerProgram segment slot =>
    Memory.patch m (mediumAddress segment 0 slot.place) 0 16 left.bytes
  | .segmentErase segment => Memory.patch m (mediumAddress segment 0 0) 0 Config.segmentBytes left.bytes
  | .bankProbe _ => m
  | .headerReadPage _ => m
  | .headerReadRecord _ _ => m
  | .recordRead _ _ _ _ _ => m
  | .blankCheck _ _ => m

/-- What an operation that ends DONE does to the medium: the body, then the header, of a record (R121); the
bytes of one slot; all 128 pages of a segment erased (R122). -/
def Op.complete (m : List Host.Cell) : Op → List Host.Cell
  | .recordProgram segment page record =>
    let base := mediumAddress segment page 0
    Memory.writeBytes (Memory.writeBytes m (base + 32) (recordBody record)) base (recordHeader record)
  | .headerProgram segment slot =>
    Memory.writeBytes m (mediumAddress segment 0 slot.place) (slotBytes segment slot)
  | .segmentErase segment => Memory.erase m (mediumAddress segment 0 0) Config.segmentBytes
  | .bankProbe _ => m
  | .headerReadPage _ => m
  | .headerReadRecord _ _ => m
  | .recordRead _ _ _ _ _ => m
  | .blankCheck _ _ => m

/-- The medium after the end of a program or an erase. -/
def Op.apply (m : List Host.Cell) (op : Op) : MediumEnd → List Host.Cell
  | .done => op.complete m
  | .failed left => op.leave m left
  | .timeout left => op.leave m left

/-- While mount runs, the segments that exist are those of its present set (R137). -/
def State.mountedSegment (s : State) (n : Nat) : Bool :=
  match s.mount with
  | some m => decide (n < 128) && m.present.contains (n / 32)
  | none => s.segmentExists n

/-- The segment and pages an operation names exist (R58, R119). -/
def State.opExists (s : State) : Op → Bool
  | .bankProbe bank => decide (bank < 4)
  | .headerReadPage segment => s.mountedSegment segment
  | .headerReadRecord segment page => s.mountedSegment segment && decide (page < Config.segmentPages)
  | .recordRead segment page pages _ _ =>
    s.segmentExists segment && decide (page + pages ≤ Config.segmentPages)
  | .blankCheck segment page => s.mountedSegment segment && decide (page < Config.segmentPages)
  | .recordProgram segment page record =>
    s.segmentExists segment && decide (page + pagesFor record.length ≤ Config.segmentPages)
  | .headerProgram segment _ => s.segmentExists segment
  | .segmentErase segment => s.segmentExists segment

/-- The medium after what is cut in flight by a hard reset, RESET# or the loss of the supply (R121, R136). -/
def State.cutMedium (s : State) (left : Remnant) : List Host.Cell :=
  match s.sequencer.inFlight with
  | some f => f.op.leave s.medium left
  | none => s.medium

end Sys2Proof.Machine
end

