-- ==== Sys2Proof/Machine/Operands.lean ====
section
/-! DEFINITION. What the port reads from the host's words: OPTION flags, setting codes and ranges, bundle
descriptors; and the visible state of a tag, which the commands read. -/

namespace Sys2Proof.Machine

/-! ## OPTION flags (R186) -/

/-- PROTECT, bit 0. -/
def optProtect (w : Word) : Bool := w.getLsbD 0
/-- REPLACE, bit 1. -/
def optReplace (w : Word) : Bool := w.getLsbD 1
/-- THROUGH, bit 2. -/
def optThrough (w : Word) : Bool := w.getLsbD 2
/-- DISCARD, bit 3. -/
def optDiscard (w : Word) : Bool := w.getLsbD 3

/-- A tag is valid from 1 to 65534 (R2). -/
def validTag (tag : Nat) : Bool := decide (1 ≤ tag) && decide (tag ≤ Config.lastTag)

/-- A payload length is valid from 0 to 1024 (R3). -/
def validLength (n : Nat) : Bool := decide (n ≤ Config.slotBytes)

/-! ## The option table (R161, R186) -/

/-- A setting's value by its code, or none for an unknown code (R186). -/
def readSetting (o : Options) (code : Nat) : Option Nat :=
  match code with
  | 1 => some o.writeBack
  | 2 => some o.readRetries
  | 3 => some o.refresh
  | 4 => some o.idleDelay
  | 5 => some o.lowWatermark
  | 6 => some o.dataTimeout
  | 7 => some o.retireAlert
  | 8 => some o.wearAlert
  | 9 => some o.wearSpread
  | _ => none

/-- The least and greatest value of a setting (R161). -/
def settingRange (code : Nat) : Option (Nat × Nat) :=
  match code with
  | 1 => some (0, 1)
  | 2 => some (0, 7)
  | 3 => some (0, 1)
  | 4 => some (0, 255)
  | 5 => some (2, 16)
  | 6 => some (0, 255)
  | 7 => some (1, 64)
  | 8 => some (1, 100)
  | 9 => some (0, 100)
  | _ => none

/-- The table with a setting at a value; an unknown code leaves it. -/
def putSetting (o : Options) (code v : Nat) : Options :=
  match code with
  | 1 => { o with writeBack := v }
  | 2 => { o with readRetries := v }
  | 3 => { o with refresh := v }
  | 4 => { o with idleDelay := v }
  | 5 => { o with lowWatermark := v }
  | 6 => { o with dataTimeout := v }
  | 7 => { o with retireAlert := v }
  | 8 => { o with wearAlert := v }
  | 9 => { o with wearSpread := v }
  | _ => o

/-- The table after SET OPTION, or none when the code is unknown or the value out of range (R161, R173). -/
def setSetting (o : Options) (code v : Nat) : Option Options :=
  match settingRange code with
  | none => none
  | some (lo, hi) => if lo ≤ v ∧ v ≤ hi then some (putSetting o code v) else none

/-- Every setting lies in its range (R161). -/
def Options.inRange (o : Options) : Bool :=
  decide (o.writeBack ≤ 1) && decide (o.readRetries ≤ 7) && decide (o.refresh ≤ 1) &&
    decide (o.idleDelay ≤ 255) && decide (2 ≤ o.lowWatermark) && decide (o.lowWatermark ≤ 16) &&
    decide (o.dataTimeout ≤ 255) && decide (1 ≤ o.retireAlert) && decide (o.retireAlert ≤ 64) &&
    decide (1 ≤ o.wearAlert) && decide (o.wearAlert ≤ 100) && decide (o.wearSpread ≤ 100)

/-! ## Bundle descriptors (R165, R186) -/

/-- One member as its descriptor gives it: what it appends, and its REPLACE option. -/
structure DescriptorMember where
  member : Member
  replace : Bool
  deriving DecidableEq, Repr

/-- Word `i` of the read frame. -/
def State.frameWord (s : State) (i : Nat) : Word := s.window.frame.getD i 0

/-- Member `i` (from 0) of the descriptor in the read frame: words 3i, 3i + 1 and 3i + 2. -/
def State.descriptorMember (s : State) (i : Nat) : DescriptorMember :=
  { member :=
      { tag := (s.frameWord (3 * i)).toNat
        length := (s.frameWord (3 * i + 1)).toNat
        protect := optProtect (s.frameWord (3 * i + 2)) }
    replace := optReplace (s.frameWord (3 * i + 2)) }

/-- The members of a descriptor of `n`, in position order. -/
def State.descriptor (s : State) (n : Nat) : List DescriptorMember :=
  (List.range n).map s.descriptorMember

/-! ## The visible state of a tag (R9) -/

/-- What the host sees for a tag. -/
inductive Visible where
  | staged (entry : PwlEntry)
  | stored (entry : IndexEntry)
  | damaged (entry : IndexEntry)
  | lost (entry : IndexEntry)
  | absent
  deriving DecidableEq, Repr

/-- The visible state a tag has without PWL entries (R9). -/
def visibleInIndex : Option IndexEntry → Visible
  | none => .absent
  | some e =>
    match e.kind with
    | .live _ _ false => .stored e
    | .live _ _ true => .damaged e
    | .lost _ => .lost e
    | .tombstone _ => .absent

/-- The visible state of a tag: the PWL first, the Key Index second (R9). -/
def State.visible (s : State) (tag : Nat) : Visible :=
  match s.tailEntry tag with
  | some e =>
    match e.kind with
    | .write => .staged e
    | .delete => .absent
  | none => visibleInIndex (s.lookup tag)

/-- The length of the DATA record an entry locates (R15). -/
def IndexEntry.length (e : IndexEntry) : Nat :=
  match e.kind with
  | .live n _ _ => n
  | .tombstone _ => 0
  | .lost _ => 0

/-- The protect attribute of the record an entry locates (R15). -/
def IndexEntry.protect (e : IndexEntry) : Bool :=
  match e.kind with
  | .live _ p _ => p
  | .tombstone _ => false
  | .lost _ => false

/-- The visible record is protected (R11). -/
def Visible.isProtected : Visible → Bool
  | .staged e => e.protect
  | .stored e => e.protect
  | .damaged e => e.protect
  | .lost _ => false
  | .absent => false

/-- The tag is visible (R36, R44). -/
def Visible.isPresent : Visible → Bool
  | .staged _ => true
  | .stored _ => true
  | .damaged _ => true
  | .lost _ => true
  | .absent => false

/-- The state code DESCRIBE reports (R186). -/
def Visible.code : Visible → Nat
  | .absent => 0
  | .staged _ => 1
  | .stored _ => 2
  | .damaged _ => 3
  | .lost _ => 4

/-- The length DESCRIBE reports (R37). -/
def Visible.length : Visible → Nat
  | .staged e => e.length
  | .stored e => e.length
  | .damaged e => e.length
  | .lost _ => 0
  | .absent => 0

/-- The sequence DESCRIBE reports (R37). -/
def Visible.sequence : Visible → Nat
  | .staged _ => 0
  | .stored e => e.sequence
  | .damaged e => e.sequence
  | .lost e => e.sequence
  | .absent => 0

/-- A tag put into an ascending list, once. -/
def insertTag (t : Nat) : List Nat → List Nat
  | [] => [t]
  | x :: rest => if t < x then t :: x :: rest else if t = x then x :: rest else x :: insertTag t rest

/-- Every tag that has an index entry or a PWL entry, ascending, each once (R36). -/
def State.knownTags (s : State) : List Nat :=
  (s.staging.pwl.map (·.tag)).foldl (fun l t => insertTag t l)
    ((s.index.entries.map (·.tag)).foldr insertTag [])

/-- The walk of ENUMERATE: the visible tags from `t`, lowest first, up to `m` (R36). -/
def State.listing (s : State) (t m : Nat) : List Nat :=
  (s.knownTags.filter fun x => decide (t ≤ x) && (s.visible x).isPresent).take m

end Sys2Proof.Machine
end

