-- ==== Sys2Proof/Machine/Flags.lean ====
section
/-! DEFINITION. The flags and words that show the state: STATUS, the cause set and mask, RESULT, the register
window's reads, the health conditions and the health report. -/

namespace Sys2Proof.Machine

/-- A word with one bit at a place. -/
def flagBit (b : Bool) (place : Nat) : Word := if b then (1#16) <<< place else 0

/-- Causes as INTPEND, acknowledge and INTMASK show them (R185). -/
def Causes.toWord (c : Causes) : Word :=
  flagBit c.done 0 ||| flagBit c.data 1 ||| flagBit c.mounted 2 ||| flagBit c.deferred 3 |||
    flagBit c.health 4 ||| flagBit c.drained 5

/-- The causes a word names; bits 15-6 are ignored (R185). -/
def Causes.ofWord (w : Word) : Causes :=
  { done := w.getLsbD 0, data := w.getLsbD 1, mounted := w.getLsbD 2, deferred := w.getLsbD 3,
    health := w.getLsbD 4, drained := w.getLsbD 5 }

/-- The causes of the first set that the second does not name (R159). -/
def Causes.minus (a b : Causes) : Causes :=
  { done := a.done && !b.done, data := a.data && !b.data, mounted := a.mounted && !b.mounted,
    deferred := a.deferred && !b.deferred, health := a.health && !b.health,
    drained := a.drained && !b.drained }

/-- Two sets of causes have one in common. -/
def Causes.meets (a b : Causes) : Bool :=
  (a.done && b.done) || (a.data && b.data) || (a.mounted && b.mounted) ||
    (a.deferred && b.deferred) || (a.health && b.health) || (a.drained && b.drained)

/-- INT# is asserted while a pending cause is enabled (R159). -/
def State.intAsserted (s : State) : Bool := s.causes.meets s.window.mask

/-- The store mode is READ_ONLY (R77). -/
def Reasons.readOnly (r : Reasons) : Bool := r.worn || r.sequence || r.degraded

/-- The store mode is READ_ONLY (R77). -/
def State.readOnly (s : State) : Bool := s.space.reasons.readOnly

/-- The Commit Engine is HALTED (R91). -/
def CommitState.isHalted : CommitState → Bool
  | .halted _ => true
  | .idle => false
  | .running => false
  | .waiting => false

/-- Any health condition is active (R183). -/
def Conditions.any (c : Conditions) : Bool :=
  c.spareLow || c.wearHigh || c.spaceFull || c.storeReadOnly || c.recordsLost

/-- The STATUS flag BUSY (R150). -/
def PortState.busy : PortState → Bool
  | .mounting => true
  | .executing => true
  | .draining => true
  | .idle => false
  | .receiving => false
  | .sending => false

/-- The STATUS flag DATA_REQUEST (R150). -/
def PortState.dataRequest : PortState → Bool
  | .receiving => true
  | .sending => true
  | .mounting => false
  | .executing => false
  | .draining => false
  | .idle => false

/-- STATUS (R151, R185). -/
def State.status (s : State) : Word :=
  flagBit s.port.state.busy 0 ||| flagBit s.port.state.dataRequest 1 |||
    flagBit (decide (s.port.result ≠ .none)) 2 ||| flagBit s.window.refused 3 |||
    flagBit (!s.staging.pwl.isEmpty) 4 ||| flagBit s.commit.state.isHalted 5 |||
    flagBit s.readOnly 6 ||| flagBit s.health.conditions.any 7

/-- The number of a RESULT code (R160). -/
def ResultCode.number : ResultCode → Nat
  | .none => 0
  | .badCommand => 1
  | .badParameter => 2
  | .notFound => 3
  | .tagProtected => 4
  | .storeFull => 5
  | .indexFull => 6
  | .unreadable => 7
  | .lost => 8
  | .dataTimeout => 9
  | .aborted => 10
  | .readOnly => 11
  | .pendingWrites => 12
  | .powerFail => 13
  | .writeFailed => 14

/-- RESULT: the code in bits 7-0, the detail in bits 11-8 (R185). -/
def State.resultWord (s : State) : Word :=
  BitVec.ofNat 16 (s.port.result.number + 256 * s.port.detail)

/-- What DATA reads: the next reply word in SENDING, FFFFh otherwise (R152, R154). -/
def State.dataWord (s : State) : Word :=
  match s.port.activity with
  | .sending n =>
    if s.port.state = .sending then s.frameWord (n - s.port.residue) else 0xFFFF#16
  | _ => 0xFFFF#16

/-- What a register reads (R152, R185). The reads of DATA and STATUS change state, by their own rows; a
read of any other register changes none. -/
def State.readRegister (s : State) (address : BitVec 4) : Word :=
  match address.toNat with
  | 0 => s.dataWord
  | 1 => s.window.tag
  | 2 => s.window.length
  | 3 => s.window.count
  | 4 => s.window.option
  | 5 => s.window.value
  | 6 => s.window.command
  | 7 => s.status
  | 8 => s.resultWord
  | 9 => 0
  | 10 => s.causes.toWord
  | 11 => s.window.mask.toWord
  | 12 => BitVec.ofNat 16 s.port.residue
  | 13 => s.window.seqlo
  | 14 => s.window.seqhi
  | _ => Config.ident

/-! ## Health conditions (R183) -/

/-- A LOST entry is in the index. -/
def EntryKind.isLost : EntryKind → Bool
  | .lost _ => true
  | .live _ _ _ => false
  | .tombstone _ => false

/-- The conditions as the quantities they read stand (R183). -/
def State.conditionsNow (s : State) : Conditions :=
  { spareLow := decide (s.window.options.retireAlert ≤ s.retiredCount)
    wearHigh := decide (s.window.options.wearAlert * 1000 ≤ s.maxErase)
    spaceFull := decide (s.space.state = .full)
    storeReadOnly := s.readOnly
    recordsLost := s.index.entries.any fun e => e.kind.isLost }

/-- A condition is active in the second set and not in the first. -/
def Conditions.rises (old new : Conditions) : Bool :=
  (new.spareLow && !old.spareLow) || (new.wearHigh && !old.wearHigh) ||
    (new.spaceFull && !old.spaceFull) || (new.storeReadOnly && !old.storeReadOnly) ||
    (new.recordsLost && !old.recordsLost)

/-- The conditions re-evaluated; a rise raises HEALTH (R183). None when nothing changes. -/
def healthRefresh (s : State) : Option State :=
  let new := s.conditionsNow
  let old := s.health.conditions
  if new = old then none
  else
    let t := { s with health := { s.health with conditions := new } }
    some (if old.rises new then t.raiseHealth else t)

/-! ## The health report (R184, R187) -/

/-- The low 16 bits of a number as a word. -/
def word (n : Nat) : Word := BitVec.ofNat 16 n

/-- Two values in one word, the first in bits 7-0 and the second in bits 15-8 (R187). -/
def twoBytes (low high : Nat) : Word := word (low + 256 * high)

/-- The number of a space state (R187). -/
def SpaceState.number : SpaceState → Nat
  | .normal => 0
  | .lowSpace => 1
  | .full => 2

/-- The number of a commit state (R187). -/
def CommitState.number : CommitState → Nat
  | .idle => 0
  | .running => 1
  | .waiting => 2
  | .halted _ => 3

/-- The number of a halt reason, 0 when the engine is not HALTED (R187). -/
def CommitState.reasonNumber : CommitState → Nat
  | .halted .noSpace => 1
  | .halted .medium => 2
  | .halted .readOnly => 3
  | .idle => 0
  | .running => 0
  | .waiting => 0

/-- The number of a drain outcome (R187). -/
def DrainOutcome.number : DrainOutcome → Nat
  | .none => 0
  | .emptied => 1
  | .halted => 2
  | .cutShort => 3

/-- Entries of a kind in the index (R184). -/
def State.countEntries (s : State) (p : EntryKind → Bool) : Nat :=
  s.index.entries.countP fun e => p e.kind

/-- A LIVE entry. -/
def EntryKind.isLive : EntryKind → Bool
  | .live _ _ _ => true
  | .tombstone _ => false
  | .lost _ => false

/-- A TOMBSTONE entry. -/
def EntryKind.isTombstone : EntryKind → Bool
  | .tombstone _ => true
  | .live _ _ _ => false
  | .lost _ => false

/-- Words 0 to 22 of the report: counters, conditions, segments, index and PWL (R187). -/
def State.reportStore (s : State) : List Word :=
  let c := s.health.counters
  let h := s.health.conditions
  [word c.recoveredReads, word c.unreadableReads, word c.programFailures, word c.eraseFailures,
   word c.mediumTimeouts, word c.lostRecords, word c.refreshDrops,
   flagBit h.spareLow 0 ||| flagBit h.wearHigh 1 ||| flagBit h.spaceFull 2 |||
     flagBit h.storeReadOnly 3 ||| flagBit h.recordsLost 4,
   word s.freeCount, word s.retiredCount, word s.usableCount,
   word s.minErase, word (s.minErase / 65536), word s.maxErase, word (s.maxErase / 65536),
   twoBytes (s.countState .erasePending) (s.countState .erased),
   twoBytes (s.countState .open) (s.countState .filled),
   twoBytes (s.countState .reclaiming) (s.countState .retiring),
   twoBytes (s.countState .retired) 0,
   word (s.countEntries EntryKind.isLive), word (s.countEntries EntryKind.isTombstone),
   word (s.countEntries EntryKind.isLost),
   word s.staging.pwl.length]

/-- Words 23 to 38 of the report: states, drain result and mount report (R187). -/
def State.reportStates (s : State) : List Word :=
  let r := s.space.reasons
  let m := s.mountReport
  [word s.space.state.number ||| flagBit r.worn 8 ||| flagBit r.sequence 9 ||| flagBit r.degraded 10,
   twoBytes s.commit.state.number s.commit.state.reasonNumber,
   twoBytes s.drain.outcome.number s.drain.left,
   word m.banks ||| flagBit m.degraded 8 ||| flagBit (decide (m.torn ≠ 0)) 9,
   twoBytes m.erasePending m.erased, twoBytes m.opened m.filled, twoBytes m.retiring m.retired,
   word m.live, word m.tombstone, word m.lost,
   word m.notIndexed, word m.truncated, word (min m.discarded Config.counterLimit),
   word m.recovered, word m.unreadable, word m.timeouts]

/-- The value that makes the sum of all words 0 modulo 65536 (R187, word 39). -/
def reportCheck (words : List Word) : Word := 0 - words.foldl (· + ·) 0

/-- The 40 words of the health report (R187). -/
def State.report (s : State) : List Word :=
  let body := s.reportStore ++ s.reportStates
  body ++ [reportCheck body]

end Sys2Proof.Machine
end

