-- ==== Sys2Proof/Machine/Segments.lean ====
section
/-! DEFINITION. The Segment Manager: page claims, opening and closing, the space state, the store mode, and
retirement (R66-R77). -/

namespace Sys2Proof.Machine

/-! ## Space (R75, R76, R103) -/

/-- The Reclaimer passes this segment over: it is in the exclusion set, or F is 0 and it is FILLED with
live pages (R103). -/
def State.excluded (s : State) (g : Segment) : Bool :=
  s.reclaim.exclusion.contains g.number ||
    (decide (s.freeCount = 0) && g.state == .filled && decide (0 < g.live))

/-- The victim of the reclaim job in progress. -/
def State.victim? (s : State) : Option Nat :=
  match s.reclaim.job with
  | some j =>
    match j.kind with
    | .segment v => some v
    | .refresh _ => none
  | none => none

/-- A segment is eligible for space reclamation (R76). -/
def State.eligible (s : State) (g : Segment) : Bool :=
  (g.state == .filled && decide (1 ≤ g.dead) && !s.excluded g) ||
    (g.state == .reclaiming && s.victim? == some g.number)

/-- Some segment is eligible for space reclamation (R76). -/
def State.anyEligible (s : State) : Bool := s.space.segments.any s.eligible

/-- The space state outside FULL (R75). -/
def State.spaceByFree (s : State) : SpaceState :=
  if s.freeCount ≤ s.window.options.lowWatermark then .lowSpace else .normal

/-- The space state re-evaluated: FULL is left when F is 2 or more or a segment is eligible (R76), and
outside FULL it follows F (R75). None when nothing changes. -/
def spaceRefresh (s : State) : Option State :=
  if s.space.state = .full ∧ s.freeCount < 2 ∧ s.anyEligible = false then none
  else if s.space.state = s.spaceByFree then none
  else some { s with space := { s.space with state := s.spaceByFree } }

/-! ## Store mode (R77) -/

/-- WORN is added when the usable count is below 4 (R77). -/
def State.checkWorn (s : State) : State :=
  if s.usableCount < Config.minimumUsable then
    { s with space := { s.space with reasons := { s.space.reasons with worn := true } } }
  else s

/-- SEQUENCE is added to the reasons (R7). -/
def State.addSequenceReason (s : State) : State :=
  { s with space := { s.space with reasons := { s.space.reasons with sequence := true } } }

/-- A request for `k` sequence numbers: the first of them, or a refusal that adds SEQUENCE to the store
mode's reasons (R6, R7). Each request is judged by the counter alone: that a loss marker may so take a single
number that remains after a bundle's refusal, which R7 says is left unused, is the model's choice (log 44). -/
def State.takeNumbers (s : State) (k : Nat) : Option Nat × State :=
  if Config.lastSequence < s.index.nextSequence + k - 1 then (none, s.addSequenceReason)
  else
    (some s.index.nextSequence,
     { s with index := { s.index with nextSequence := s.index.nextSequence + k } })

/-! ## Page claims (R67-R71) -/

/-- Who claims pages, and what is to be written (R67, R70). -/
inductive Claim where
  | commitData
  | commitTombstone
  | copy
  | lossMarker
  deriving DecidableEq, Repr

/-- The claim is the Reclaimer's. -/
def Claim.byReclaimer : Claim → Bool
  | .copy => true
  | .lossMarker => true
  | .commitData => false
  | .commitTombstone => false

/-- The claim may open a new segment (R70). -/
def State.mayOpen (s : State) : Claim → Bool
  | .commitData => if s.port.state = .draining then decide (1 ≤ s.freeCount) else decide (2 ≤ s.freeCount)
  | .commitTombstone => decide (1 ≤ s.freeCount)
  | .copy => decide (1 ≤ s.freeCount)
  | .lossMarker => decide (2 ≤ s.freeCount)

/-- The answer to a page claim (R67). -/
inductive ClaimAnswer where
  | granted (segment page : Nat)
  | opening (segment openSequence : Nat)
  | deferred
  | noRoom
  deriving DecidableEq, Repr

/-- The OPEN segment, if any, closed: it becomes FILLED with its unwritten pages dead (R69). -/
def State.closeOpen (s : State) : State :=
  match s.openSegment with
  | some g => s.updateSegment g.number fun x => x.close .filled
  | none => s

/-- A segment opened: counts 0, write pointer 1, its open sequence from the open counter (R63, R68). -/
def Segment.openWith (g : Segment) (sequence : Nat) : Segment :=
  { g with state := .open, writePointer := 1, live := 0, dead := 0, pending := 0, lowSequence := 0,
           openSequence := sequence }

/-- The head of the free list opened; F falls by one and the open counter rises (R63, R65, R68), past its last
value too, which is the model's choice (log 26). -/
def State.openHead (s : State) (h : Nat) (rest : List Nat) : State :=
  let t := (s.updateSegment h fun x => x.openWith s.space.openCounter).setFreeList rest
  { t with space := { t.space with openCounter := s.space.openCounter + 1 } }

/-- The claim in the OPEN segment, when its `k` pages fit: the pages granted (R67). -/
def State.claimInOpen (s : State) (k low : Nat) : Option (Nat × Nat × State) :=
  match s.openSegment with
  | some g =>
    if g.writePointer + k - 1 ≤ 127 then
      some (g.number, g.writePointer, s.updateSegment g.number fun x => x.grantPages k low)
    else none
  | none => none

/-- A page claim for `k` pages whose records have `low` as their lowest sequence (R67). -/
def State.claimPages (s : State) (claim : Claim) (k low : Nat) : ClaimAnswer × State :=
  if claim.byReclaimer && s.space.range.isSome then (.deferred, s)
  else
    match s.claimInOpen k low with
    | some (segment, page, t) => (.granted segment page, t)
    | none =>
      match s.space.freeList with
      | h :: rest =>
        if s.mayOpen claim then (.opening h s.space.openCounter, s.closeOpen.openHead h rest)
        else (.noRoom, s)
      | [] => (.noRoom, s)

/-- An open bundle range closes (R71). -/
def State.closeRange (s : State) : State := { s with space := { s.space with range := none } }

/-! ## Retirement (R73) -/

/-- What went wrong with a program or an erase. -/
inductive Failure where
  | failed
  | timeout
  deriving DecidableEq, Repr

/-- The Health Monitor counts the failure of a program (R182). -/
def State.countProgramEnd (s : State) : Failure → State
  | .failed => s.countProgramFailure
  | .timeout => s.countTimeout

/-- The Health Monitor counts the failure of an erase (R182). -/
def State.countEraseEnd (s : State) : Failure → State
  | .failed => s.countEraseFailure
  | .timeout => s.countTimeout

/-- The retirement report of the OPEN segment, into which a program failed: the failed operation's `k`
pending pages become plain dead, and the segment leaves OPEN for RETIRING with reason PROGRAM (R73). -/
def Segment.retireOpen (g : Segment) (k : Nat) : Segment :=
  let h := g.dropPending k
  { h.close .retiring with reason := some .program, mark := some .none }

/-- The retirement report of a failed program in the OPEN segment (R73, R182). -/
def State.reportProgramFailure (s : State) (segment k : Nat) (failure : Failure) : State :=
  (s.updateSegment segment fun g => g.retireOpen k).countProgramEnd failure

/-- A segment becomes RETIRED: live pages 0, the reason recorded at RETIRING or now, and its mark (R60, R73). -/
def Segment.retire (g : Segment) (reason : RetireReason) (mark : RetireMark) : Segment :=
  { g with state := .retired, live := 0, reason := some (g.reason.getD reason), mark := some mark }

/-- Retirement completes; the usable count falls and the store mode is re-evaluated (R73, R77). -/
def State.completeRetirement (s : State) (segment : Nat) (reason : RetireReason) (mark : RetireMark) : State :=
  (s.updateSegment segment fun g => g.retire reason mark).checkWorn

/-- The outcome of a RETIRED slot program: the segment becomes RETIRED whatever it is, MARKED if it ended
DONE; a failure is counted by the Sequencer (R73, R127). -/
def State.retiredProgramEnd (s : State) (segment : Nat) (reason : RetireReason) : MediumEnd → State
  | .done => s.completeRetirement segment reason .marked
  | .failed _ => (s.countProgramEnd .failed).completeRetirement segment reason .unmarked
  | .timeout _ => (s.countProgramEnd .timeout).completeRetirement segment reason .unmarked

/-- The erase count after an erase that ended DONE (R66); it does not pass 100,000 (log 16). -/
def State.raiseErase (s : State) (segment : Nat) : State :=
  s.updateSegment segment fun g => { g with eraseCount := min (g.eraseCount + 1) Config.eraseLimit }

/-- The segment has reached the wear limit (R66). -/
def State.isWorn (s : State) (segment : Nat) : Bool := decide (Config.eraseLimit ≤ s.eraseCountOf segment)

/-- The retire reason recorded for a segment (R113, R175); PROGRAM where none is recorded. -/
def State.recordedReason (s : State) (segment : Nat) : RetireReason :=
  match s.segment? segment with
  | some g => g.reason.getD .program
  | none => .program

/-- The segment's RETIRED slot was found written at mount: its retirement needs no program (R73, R143). -/
def State.isUnmarked (s : State) (segment : Nat) : Bool :=
  match s.segment? segment with
  | some g => g.mark == some .unmarked
  | none => false

/-! ## What follows the operations on a segment that is erased (R66) -/

/-- What the eraser does next with its segment. -/
inductive EraseNext where
  /-- Request this operation next, at this stage. -/
  | stage (next : EraseStage)
  /-- The segment is ERASED or RETIRED. -/
  | finished
  deriving DecidableEq, Repr

/-- The outcome of a SEGMENT ERASE (R66, R73). -/
def State.eraseEnd (s : State) (segment : Nat) : MediumEnd → EraseNext × State
  | .done => (.stage .format, s.raiseErase segment)
  | .failed _ => (.stage (.retire .erase), s.countEraseEnd .failed)
  | .timeout _ => (.stage (.retire .erase), s.countEraseEnd .timeout)

/-- The outcome of the FORMATTED program that follows an erase (R66): at the wear limit retirement with
reason WORN follows whatever it is, no failure is counted (R182), and the low sequence is 0 after DONE (R63); the
segment's other fields stand until it is RETIRED (log 17). -/
def State.formatEnd (s : State) (segment : Nat) (outcome : MediumEnd) : EraseNext × State :=
  if s.isWorn segment then
    (.stage (.retire .worn),
     match outcome with
     | .done => s.updateSegment segment fun g => { g with lowSequence := 0 }
     | .failed _ => s
     | .timeout _ => s)
  else
    match outcome with
    | .done => (.finished, s.formatSegment segment)
    | .failed _ => (.stage (.retire .program), s.countProgramEnd .failed)
    | .timeout _ => (.stage (.retire .program), s.countProgramEnd .timeout)

/-- The operation an eraser requests at a stage (R66, R73). -/
def State.eraseOp (s : State) (segment : Nat) : EraseStage → Op
  | .erase => .segmentErase segment
  | .format => .headerProgram segment (.formatted (s.eraseCountOf segment))
  | .retire reason => .headerProgram segment (.retired reason)

end Sys2Proof.Machine
end

