-- ==== Sys2Proof/Machine/Staging.lean ====
section
/-! DEFINITION. The Staging Buffer and the waits of the commands that append: reservation of slots, slot
wait, payloads, appends, coalescing, write-through (R38-R57, R164-R167). -/

namespace Sys2Proof.Machine

/-- The RESULT a wait ended by a halt gives (R51, R91). -/
def HaltReason.code : HaltReason → ResultCode
  | .noSpace => .storeFull
  | .readOnly => .readOnly
  | .medium => .writeFailed

/-! ## Appends (R43-R46) -/

/-- The entry a standalone append adds. -/
def standaloneEntry (kind : PwlKind) (m : Member) (slot : Nat) : PwlEntry :=
  { kind := kind, tag := m.tag, length := m.length, protect := m.protect, bundle := 0, position := none,
    slot := slot, inCommit := false }

/-- The entry a new standalone entry for its tag coalesces away: standalone and not in commit (R45). -/
def coalesced (tag : Nat) (e : PwlEntry) : Bool :=
  e.tag == tag && e.bundle == 0 && !e.inCommit

/-- A standalone append, with the coalescing of R45 in the same step. -/
def State.appendStandalone (s : State) (e : PwlEntry) : State :=
  { s with staging := (s.staging.removeEntries (coalesced e.tag)).append [e] }

/-- The entries of a bundle's members, in position order (R46). -/
def bundleEntries (identifier n : Nat) : Nat → List Member → List Nat → List PwlEntry
  | i, m :: ms, slot :: slots =>
    { kind := .write, tag := m.tag, length := m.length, protect := m.protect, bundle := identifier,
      position := some (i, n), slot := slot, inCommit := false } ::
      bundleEntries identifier n (i + 1) ms slots
  | _, [], _ => []
  | _, _ :: _, [] => []

/-- What a command's work appends (R43, R44, R46). -/
def State.appendWork (s : State) (w : Work) (slots : List Nat) : State :=
  match w.kind with
  | .bundle identifier =>
    { s with staging := s.staging.append (bundleEntries identifier w.members.length 1 w.members slots) }
  | .store =>
    match w.members, slots with
    | m :: _, slot :: _ => s.appendStandalone (standaloneEntry .write m slot)
    | _, _ => s
  | .remove =>
    match w.members, slots with
    | m :: _, slot :: _ =>
      s.appendStandalone (standaloneEntry .delete { m with length := 0, protect := false } slot)
    | _, _ => s

/-- After the append (R56): in write-back the command completes; in write-through it ends with the halt's
code if the Commit Engine is HALTED, and otherwise waits for its entries. -/
def State.completeAppend (s : State) (w : Work) (slots : List Nat) : State :=
  if w.through || s.window.options.writeBack == 0 then
    match s.commit.state with
    | .halted r => s.endCommand r.code 0
    | .idle | .running | .waiting =>
      { s with port := { s.port with state := .executing, activity := .throughWait slots, residue := 0,
                                     dataTimer := none } }
  else s.endCommand .none 0

/-! ## Slots and payloads (R39, R50, R154, R166) -/

/-- The first member at or after `i` with a payload. -/
def nextPayload (members : List Member) (i : Nat) : Option Nat :=
  ((List.range members.length).drop i).find? fun j =>
    match members[j]? with
    | some m => decide (0 < m.length)
    | none => false

/-- The length of member `i`. -/
def Work.lengthOf (w : Work) (i : Nat) : Nat :=
  match w.members[i]? with
  | some m => m.length
  | none => 0

/-- The port enters RECEIVING for the payload of member `i` (R154, R156). -/
def State.enterPayload (s : State) (w : Work) (slots : List Nat) (i : Nat) : State :=
  ({ s with port := { s.port with state := .receiving, activity := .payload w slots i,
                                  residue := wordsFor (w.lengthOf i) } } : State).restartTimer.raiseData

/-- The command goes on from member `i`: it receives the next payload, or appends when none is left (R43,
R44, R46, R50, R154). A REMOVE has no payload. -/
def State.proceed (s : State) (w : Work) (slots : List Nat) (i : Nat) : State :=
  match nextPayload w.members i with
  | some j => s.enterPayload w slots j
  | none => (s.appendWork w slots).completeAppend w slots

/-- The slots a command needs (R39). -/
def Work.slotsNeeded (w : Work) : Nat := w.members.length

/-- The slots reserved together, the lowest-numbered FREE ones, and the command goes on (R39). -/
def State.reserveAndProceed (s : State) (w : Work) : State :=
  let slots := (freeSlots s.staging.slots).take w.slotsNeeded
  (s.reserveSlots slots).proceed w slots 0

/-- A command that has passed its checks reserves its slots at once, or ends with the halt's code when the
Commit Engine is HALTED, or enters the slot wait (R39, R50, R51). -/
def State.enterReserve (s : State) (w : Work) : State :=
  if w.slotsNeeded ≤ (freeSlots s.staging.slots).length then s.reserveAndProceed w
  else
    match s.commit.state with
    | .halted r => s.endCommand r.code 0
    | .idle | .running | .waiting =>
      { s with port := { s.port with state := .executing, activity := .slotWait w, residue := 0,
                                     dataTimer := none } }

/-- Enough slots are FREE for the waiting command: its reservation is made (R50). -/
def slotWaitEnd (s : State) : Option State :=
  match s.port.activity with
  | .slotWait w =>
    if w.slotsNeeded ≤ (freeSlots s.staging.slots).length then some (s.reserveAndProceed w) else none
  | _ => none

/-- A slot with one word of a payload of `n` bytes written at word `i` (R154). -/
def Slot.writeWord (x : Slot) (n i : Nat) (w : Word) : Slot :=
  { x with bytes :=
      if 2 * i + 1 < n then (x.bytes.set (2 * i) (lowByte w)).set (2 * i + 1) (highByte w)
      else x.bytes.set (2 * i) (lowByte w) }

/-- A payload word taken (R154): it fills the next two bytes of the member's slot, RESIDUE falls, the timer
restarts, and at 0 the command goes on. -/
def State.takePayloadWord (s : State) (w : Work) (slots : List Nat) (i : Nat) (word : Word) : State :=
  let n := w.lengthOf i
  let place := wordsFor n - s.port.residue
  let t := ({ s with
    staging := { s.staging with
      slots := s.staging.slots.modify (slots.getD i 0) fun x => x.writeWord n place word }
    port := { s.port with residue := s.port.residue - 1 } } : State).restartTimer
  if s.port.residue ≤ 1 then t.proceed w slots (i + 1) else t

/-! ## Ends of the waits (R56) -/

/-- The awaited entries have left the PWL: the write-through command completes with NONE (R56). -/
def writeThroughComplete (s : State) : Option State :=
  match s.port.activity with
  | .throughWait slots =>
    if s.staging.pwl.any fun e => slots.contains e.slot then none else some (s.endCommand .none 0)
  | _ => none

/-- The PWL is empty while SYNC waits: SYNC completes with NONE (R172). -/
def syncComplete (s : State) : Option State :=
  match s.port.activity with
  | .syncWait => if s.staging.pwl.isEmpty then some (s.endCommand .none 0) else none
  | _ => none

/-- The wait of a command in progress ends with a halt's code (R51, R56, R91, R172). -/
def State.endWaits (s : State) (code : ResultCode) : State :=
  match s.port.activity with
  | .slotWait _ => s.endCommand code 0
  | .throughWait _ => s.endCommand code 0
  | .syncWait => s.endCommand code 0
  | .none => s
  | .payload _ _ _ => s
  | .descriptor _ _ => s
  | .fetch _ => s
  | .sending _ => s
  | .eraseStore _ => s

/-! ## Reservations (R21) -/

/-- The tags of the command in progress that has passed its checks and has not appended (R21). -/
def Activity.reservingTags : Activity → List Nat
  | .slotWait w =>
    match w.kind with
    | .remove => []
    | .store => w.members.map (·.tag)
    | .bundle _ => w.members.map (·.tag)
  | .payload w _ _ => w.members.map (·.tag)
  | .none => []
  | .descriptor _ _ => []
  | .throughWait _ => []
  | .fetch _ => []
  | .sending _ => []
  | .syncWait => []
  | .eraseStore _ => []

/-- The distinct tags that need a reservation: no index entry, and a WRITE accepted and not yet installed (R21). -/
def State.reservingTags (s : State) : List Nat :=
  (((s.staging.pwl.filter fun e => e.kind == .write).map (·.tag) ++ s.port.activity.reservingTags).foldr
    insertTag []).filter fun t => (s.lookup t).isNone

/-- The reservation count set to the number of tags that need a reservation; R21 keeps it equal to that
number at every step (log 31). -/
def State.refreshReservations (s : State) : State :=
  { s with index := { s.index with reservations := s.reservingTags.length } }

end Sys2Proof.Machine
end

