-- ==== Sys2Proof/Machine/Commit.lean ====
section
/-! DEFINITION. The Commit Engine: begin steps, claims, installs, program failures, halts (R79-R96), and the
Key Index's installs (R26-R29). -/

namespace Sys2Proof.Machine

/-! ## The unit at the head (R47, R79, R82) -/

/-- The entries of the unit at the head: one standalone entry, or the n members of a bundle (R47). -/
def unitEntries (pwl : List PwlEntry) : List PwlEntry :=
  match pwl with
  | [] => []
  | e :: _ =>
    match e.position with
    | some (_, n) => pwl.take n
    | none => [e]

/-- The pages of a unit: the sum over its records (R3, R82). -/
def unitPages (entries : List PwlEntry) : Nat := (entries.map fun e => pagesFor e.length).sum

/-- The record the engine writes for an entry of its unit, `i` places after the first (R82). -/
def State.unitRecord (s : State) (u : CommitUnit) (e : PwlEntry) (i : Nat) : Record :=
  match e.kind with
  | .write =>
    { kind := .data, tag := e.tag, sequence := u.first + i, length := e.length, protect := e.protect,
      bundle := e.bundle, position := e.position, prior := 0, payload := (s.slotBytes e.slot).take e.length }
  | .delete =>
    { kind := .tombstone, tag := e.tag, sequence := u.first + i, length := 0, protect := false,
      bundle := 0, position := none, prior := u.prior, payload := [] }

/-- The in-commit flag set on the first `n` entries (R42). -/
def flagHead (n : Nat) (pwl : List PwlEntry) : List PwlEntry :=
  (pwl.take n).map (fun e => { e with inCommit := true }) ++ pwl.drop n

/-- The in-commit flag cleared on every entry (R42). -/
def clearFlags (pwl : List PwlEntry) : List PwlEntry := pwl.map fun e => { e with inCommit := false }

/-! ## Halts (R45, R91-R94) -/

/-- The head is a standalone entry that a later standalone entry for its tag supersedes (R45). -/
def headSuperseded : List PwlEntry → Bool
  | [] => false
  | e :: rest => e.bundle == 0 && rest.any fun x => x.tag == e.tag && x.bundle == 0

/-- The PWL at a halt: flags cleared, and a released standalone head that is superseded removed (R42, R45), also when
its flag was clear before the halt, which is the model's choice (log 34). -/
def Staging.release (g : Staging) : Staging :=
  let t : Staging := { g with pwl := clearFlags g.pwl }
  match t.pwl with
  | [] => t
  | e :: _ => if headSuperseded t.pwl then t.removeEntries fun x => x.slot == e.slot else t

/-- The engine enters HALTED (R91): the unit is dropped, flags are cleared, DEFERRED is raised, and the wait
of the command in progress ends with the halt's code. -/
def State.enterHalt (s : State) (reason : HaltReason) : State :=
  let t : State := { s with staging := s.staging.release, commit := ⟨.halted reason, none, 0⟩ }
  (t.withdrawCommit.raiseDeferred).endWaits reason.code

/-! ## The begin step (R80, R81) -/

/-- The unit takes `k` numbers and requests the port; a refusal halts the engine (R80). -/
def State.holdNumbers (s : State) (k prior : Nat) : State :=
  match s.takeNumbers k with
  | (some first, t) =>
    ({ t with commit := { t.commit with state := .running, unit := some ⟨first, prior, 0⟩ } }
      : State).lodgeCommit
  | (none, t) => t.enterHalt .readOnly

/-- A DELETE discarded: its entry is removed with its slot freed, and nothing is written (R29, R81). -/
def State.discardDelete (s : State) (e : PwlEntry) : State :=
  { s.removeCommitted (fun x => x.slot == e.slot) with commit := ⟨.running, none, 0⟩ }

/-- The engine begins the unit at the head (R80): store mode, flags, and the Key Index's claim. -/
def State.beginUnit (s : State) : State :=
  if s.readOnly then s.enterHalt .readOnly
  else
    match s.staging.pwl with
    | [] => { s with commit := ⟨.idle, none, 0⟩ }
    | e :: _ =>
      let n := (unitEntries s.staging.pwl).length
      let t : State := { s with staging := { s.staging with pwl := flagHead n s.staging.pwl } }
      match e.kind with
      | .write => t.holdNumbers n 0
      | .delete =>
        match t.lookup e.tag with
        | none => t.discardDelete e
        | some x =>
          match x.kind with
          | .tombstone _ => t.discardDelete e
          | .live _ _ _ => t.holdNumbers 1 x.sequence
          | .lost _ => t.holdNumbers 1 x.sequence

/-- ERASE STORE is the command in progress. -/
def State.erasing (s : State) : Bool :=
  match s.port.activity with
  | .eraseStore _ => true
  | _ => false

/-- A RUNNING engine that holds no unit begins the next one, or becomes IDLE when the PWL is empty (R79, R84,
R87, R88). -/
def commitNext (s : State) : Option State :=
  if s.commit.state = .running ∧ s.commit.unit = none then
    some (if s.staging.pwl.isEmpty then { s with commit := ⟨.idle, none, 0⟩ } else s.beginUnit)
  else none

/-- The begin step of an engine that holds no unit while the PWL holds entries: an IDLE engine begins in the
step after the append (R79, R80). -/
def commitBegin (s : State) : Option State :=
  if (s.commit.state = .idle ∨ s.commit.state = .running) ∧ s.commit.unit = none ∧ s.erasing = false ∧
      s.staging.pwl.isEmpty = false then
    some s.beginUnit
  else none

/-- The engine was IDLE with entries staged at the end of the step before, so it begins in this one (R79; log 5). -/
def commitStart (s : State) : Option State := if s.commitDue then commitBegin s else none

/-- The engine is IDLE with entries staged: it begins its unit in the step to come (R79; log 5). -/
def State.noteCommitDue (s : State) : State :=
  { s with commitDue := decide (s.commit.state = .idle) && !s.staging.pwl.isEmpty }

/-- A halt ends: HALTED is cleared and the unit now at the head is begun (R92, R93). -/
def State.leaveHalt (s : State) : State :=
  ({ s with commit := ⟨.running, none, 0⟩ } : State).beginUnit

/-- A NO_SPACE halt ends while the port is not DRAINING and the space state is not FULL (R92). -/
def commitHaltEnd (s : State) : Option State :=
  if s.commit.state = .halted .noSpace ∧ s.port.state ≠ .draining ∧ s.space.state ≠ .full then
    some s.leaveHalt
  else none

/-! ## The grant (R83, R86, R90) -/

/-- A commit claim answered NO_ROOM: with no segment eligible the space state becomes FULL; the engine waits
for space, or halts with NO_SPACE when none is eligible or the port is DRAINING (R76, R83, R90). That FULL is entered
in DRAINING too is the model's choice (log 35). -/
def State.commitNoRoom (s : State) : State :=
  if s.anyEligible then
    if s.port.state = .draining then s.enterHalt .noSpace
    else { s with commit := { s.commit with state := .waiting } }
  else
    ({ s with space := { s.space with state := .full } } : State).enterHalt .noSpace

/-- The RECORD PROGRAM of member `u.member` of the unit, its pages counted from the unit's first page (R86). -/
def State.programMember (s : State) (u : CommitUnit) (entries : List PwlEntry) (segment page : Nat) : State :=
  match entries[u.member]? with
  | some e =>
    s.issue .commit
      (.recordProgram segment (page + unitPages (entries.take u.member)) (s.unitRecord u e u.member)) 1
  | none => s

/-- The unit is a bundle. -/
def isBundle (entries : List PwlEntry) : Bool :=
  match entries with
  | [] => false
  | e :: _ => e.bundle != 0

/-- What the unit writes, for the page claim (R70, R83). -/
def unitClaim (entries : List PwlEntry) : Claim :=
  match entries with
  | [] => .commitData
  | e :: _ =>
    match e.kind with
    | .write => .commitData
    | .delete => .commitTombstone

/-- COMMIT is granted (R83, R86): the next member of an open bundle range, or a page claim. -/
def State.grantCommit (s : State) : State :=
  match s.commit.unit with
  | none => s
  | some u =>
    let entries := unitEntries s.staging.pwl
    match s.space.range with
    | some r => s.programMember u entries r.segment r.page
    | none =>
      let k := unitPages entries
      let t : State := { s with commit := { s.commit with state := .running } }
      match t.claimPages (unitClaim entries) k u.first with
      | (.granted segment page, t) =>
        let range := if isBundle entries then some ⟨segment, page, k⟩ else none
        ({ t with space := { t.space with range := range } } : State).programMember u entries segment page
      | (.opening segment sequence, t) => t.issue .commit (.headerProgram segment (.opened sequence)) 1
      | (.deferred, t) => t
      | (.noRoom, t) => t.commitNoRoom

/-! ## Installs (R26-R28, R84, R87) -/

/-- An install of this sequence for the tag would be stale (R27). -/
def State.stale (s : State) (tag sequence : Nat) : Bool :=
  match s.lookup tag with
  | some e => decide (sequence < e.sequence)
  | none => false

/-- The entry that locates a written record (R26). -/
def entryOf (r : Record) (segment page : Nat) : IndexEntry :=
  { tag := r.tag
    kind :=
      match r.kind with
      | .data => .live r.length r.protect false
      | .tombstone => .tombstone r.prior
      | .loss => .lost r.prior
    sequence := r.sequence, segment := segment, page := page, pages := pagesFor r.length }

/-- The pages of the record an index entry locates become dead, if the tag has an entry (R26, R62). -/
def State.supersede (s : State) (tag : Nat) : State :=
  match s.lookup tag with
  | some old => s.updateSegment old.segment fun g => g.makeDead old.pages
  | none => s

/-- A written record installed (R26): the entry created or replaced, and the pages re-counted (R62). -/
def State.installRecord (s : State) (r : Record) (segment page : Nat) : State :=
  (((s.supersede r.tag).updateSegment segment fun g => g.makeLive (pagesFor r.length))).putEntry
    (entryOf r segment page)

/-- Records installed one after another from a first page, each in the pages after the last (R28). -/
def State.installAll (s : State) (segment page : Nat) : List Record → State
  | [] => s
  | r :: rest => (s.installRecord r segment page).installAll segment (page + pagesFor r.length) rest

/-- The unit is finished: its entries leave the PWL (R53, R84, R87). -/
def State.finishUnit (s : State) (entries : List PwlEntry) : State :=
  { s.removeCommitted (fun x => entries.any fun e => e.slot == x.slot) with commit := ⟨.running, none, 0⟩ }

/-- An install refused as stale: the pages written are dead, the flags are cleared, and the unit is begun
again (R27, R84, R87). -/
def State.refuseInstall (s : State) (segment k : Nat) : State :=
  { s.updateSegment segment fun g => g.dropPending k with
    staging := { s.staging with pwl := clearFlags s.staging.pwl }
    commit := ⟨.running, none, 0⟩ }

/-- The records of a unit from an entry on, in order. -/
def State.unitRecords (s : State) (u : CommitUnit) : Nat → List PwlEntry → List Record
  | _, [] => []
  | i, e :: rest => s.unitRecord u e i :: s.unitRecords u (i + 1) rest

/-- The commit install of a unit whose records lie from a first page (R26, R28): all of it, or none when a
member is stale. -/
def State.commitInstall (s : State) (u : CommitUnit) (segment page : Nat) : State :=
  let entries := unitEntries s.staging.pwl
  let records := s.unitRecords u 0 entries
  let t := s.closeRange
  if records.any fun r => s.stale r.tag r.sequence then t.refuseInstall segment (unitPages entries)
  else (t.installAll segment page records).finishUnit entries

/-- A RECORD PROGRAM of the engine ended DONE (R84, R86, R87). -/
def State.commitProgramDone (s : State) (segment page : Nat) : State :=
  match s.commit.unit with
  | none => s
  | some u =>
    if u.member + 1 < (unitEntries s.staging.pwl).length then
      ({ s with commit := { s.commit with unit := some { u with member := u.member + 1 } } }
        : State).lodgeCommit
    else
      s.commitInstall u segment
        (match s.space.range with
         | some r => r.page
         | none => page)

/-- A program failure of the unit (R88, R89), `k` pages being pending for it: the segment is reported, the
range closes, and the unit is retried, or the third failure halts the engine. With ERASE STORE waiting to
discard the PWL there is no retry (R54), and after a third failure no halt and no DEFERRED either, which is the
model's choice (log 37). -/
def State.commitFailure (s : State) (segment k : Nat) (failure : Failure) : State :=
  let pending :=
    match s.space.range with
    | some r => r.pages
    | none => k
  let t := (s.reportProgramFailure segment pending failure).closeRange
  if s.erasing then { t with commit := ⟨.running, none, 0⟩ }
  else if s.commit.failures + 1 < Config.failureLimit then
    { t with commit := ⟨.running, none, s.commit.failures + 1⟩ }
  else t.enterHalt .medium

/-! ## Discard (R54) -/

/-- A bundle range abandoned: its pages stay dead and the OPEN segment is closed (R54, R71). -/
def State.abandonRange (s : State) : State :=
  match s.space.range with
  | some r =>
    (s.updateSegment r.segment fun g => (g.dropPending r.pages).close .filled).closeRange
  | none => s

/-- ERASE STORE with DISCARD: every entry leaves the PWL, every PENDING slot is freed, and the engine becomes
IDLE (R54). -/
def State.discardStaged (s : State) : State :=
  let t := s.abandonRange
  ({ t with
    staging :=
      { slots := t.staging.slots.map fun x => if x.state = .pending then { x with state := .free } else x
        pwl := [] }
    commit := ⟨.idle, none, 0⟩ } : State).withdrawCommit

end Sys2Proof.Machine
end

