-- ==== Sys2Proof/Machine/Reclaim.lean ====
section
/-! DEFINITION. The Reclaimer: selection, the copy loop, tombstone drops, loss markers, erase and retirement of
victims, refresh and abandonment (R97-R117), and the Key Index's claims for it (R18, R30-R33). -/

namespace Sys2Proof.Machine

/-! ## Claims on the Key Index -/

/-- The tag's entry, if it locates this segment and first page (R30). -/
def State.located (s : State) (tag segment page : Nat) : Option IndexEntry :=
  match s.lookup tag with
  | some e => if e.segment = segment ∧ e.page = page then some e else none
  | none => none

/-- The damaged flag set on a LIVE kind; other kinds carry none. -/
def EntryKind.damage : EntryKind → EntryKind
  | .live n p _ => .live n p true
  | .tombstone p => .tombstone p
  | .lost p => .lost p

/-- The damaged flag cleared on a LIVE kind (R19). -/
def EntryKind.repair : EntryKind → EntryKind
  | .live n p _ => .live n p false
  | .tombstone p => .tombstone p
  | .lost p => .lost p

/-- The damaged claim (R18): taken when the entry is LIVE with the named sequence, segment and first page. -/
def State.damagedClaim (s : State) (tag sequence segment page : Nat) : Option State :=
  match s.located tag segment page with
  | some e =>
    if e.kind.isLive && e.sequence == sequence then some (s.putEntry { e with kind := e.kind.damage })
    else none
  | none => none

/-- The reclaim move (R31): taken when the tag's entry still locates the source; otherwise the copy is dead
on arrival. -/
def State.reclaimMove (s : State) (b : CopyBuffer) (segment page : Nat) : State :=
  let k := pagesFor b.record.length
  match s.located b.record.tag b.segment b.page with
  | some e =>
    ((s.updateSegment segment fun g => g.makeLive k).updateSegment b.segment fun g => g.makeDead k).putEntry
      { e with kind := e.kind.repair, segment := segment, page := page }
  | none => s.updateSegment segment fun g => g.dropPending k

/-- The loss replacement (R33): taken when the entry is LIVE and locates the lost record with its sequence;
otherwise the marker is dead. -/
def State.lossReplacement (s : State) (b : CopyBuffer) (segment page : Nat) : State :=
  match s.located b.record.tag b.segment b.page with
  | some e =>
    if e.kind.isLive && e.sequence == b.record.prior then
      (((s.updateSegment segment fun g => g.makeLive 1).updateSegment b.segment
        fun g => g.makeDead e.pages).putEntry
          { e with kind := .lost b.record.prior, sequence := b.record.sequence, segment := segment,
                   page := page, pages := 1 }).countLost
    else s.updateSegment segment fun g => g.dropPending 1
  | none => s.updateSegment segment fun g => g.dropPending 1

/-- The drop condition (R108): no segment other than the victim that may still be scanned has a low sequence
from 1 to the tombstone's prior sequence. -/
def State.dropCondition (s : State) (victim prior : Nat) : Bool :=
  s.space.segments.all fun g =>
    g.number == victim ||
      !(g.state == .open || g.state == .filled || g.state == .reclaiming || g.state == .retiring ||
        (g.state == .retired && g.mark == some .unmarked)) ||
      !(decide (1 ≤ g.lowSequence) && decide (g.lowSequence ≤ prior))

/-! ## The job -/

/-- A job as it begins (R99). -/
def Job.begin (kind : JobKind) : Job :=
  { kind := kind, state := .select, cursor := 1, subject := none, buffer := none, lossNumber := 0,
    failures := 0, reason := none, deferred := false, abandoning := false }

/-- The Reclaimer with this job; a selection is due when it ends (R99). -/
def State.setJob (s : State) (j : Job) : State :=
  { s with reclaim := { s.reclaim with job := some j, evaluated := none } }

/-- The job has ended; a WAITING engine requests the port again (R90, R97). -/
def State.endJob (s : State) : State :=
  ({ s with reclaim := { s.reclaim with job := none } } : State).wakeWaiting

/-- A refresh job ends and its tag leaves the head of the Refresh List (R115). -/
def State.endRefresh (s : State) : State :=
  ({ s with reclaim := { s.reclaim with refreshList := s.reclaim.refreshList.drop 1 } } : State).endJob

/-- A victim whose job is abandoned: RECLAIMING returns to FILLED, or becomes RETIRING with reason WORN when
an erase has brought its count to 100,000; RETIRING stays (R72, R116). -/
def Segment.abandonVictim (g : Segment) : Segment :=
  if g.state = .reclaiming then
    if Config.eraseLimit ≤ g.eraseCount then
      { g with state := .retiring, reason := some .worn, mark := some .none }
    else { g with state := .filled }
  else g

/-- The job is abandoned (R116): the victim leaves RECLAIMING, the request is withdrawn, and the victim enters
the exclusion set when the cause says so (R103). -/
def State.abandonJob (s : State) (exclude : Bool) : State :=
  match s.reclaim.job with
  | none => s
  | some j =>
    match j.kind with
    | .refresh _ => s.withdrawReclaimer.endJob
    | .segment v =>
      let t := (s.updateSegment v Segment.abandonVictim).withdrawReclaimer
      let exclusion := if exclude then t.reclaim.exclusion ++ [v] else t.reclaim.exclusion
      ({ t with reclaim := { t.reclaim with exclusion := exclusion } } : State).endJob

/-- The job's operation holds the medium port. -/
def State.reclaimerInFlight (s : State) : Bool :=
  match s.sequencer.inFlight with
  | some f => f.requester == .reclaimer
  | none => false

/-- The Refresh List and the exclusion set are emptied (R98, R116), and what was chosen from before goes (log 24). -/
def State.emptyReclaimLists (s : State) : State :=
  { s with reclaim := { s.reclaim with refreshList := [], exclusion := [], evaluated := none } }

/-- A job to be abandoned is abandoned once no operation of it is in flight; when ERASE STORE is the cause, the
Refresh List and the exclusion set are emptied in the same step (R98, R116). -/
def jobAbandon (s : State) : Option State :=
  match s.reclaim.job with
  | some j =>
    if j.abandoning && !s.reclaimerInFlight then
      let t := s.abandonJob false
      some (if s.erasing then t.emptyReclaimLists else t)
    else none
  | none => none

/-- The job in progress, if any, is to be abandoned (R116). -/
def State.markAbandon (s : State) : State :=
  { s with reclaim := { s.reclaim with job := s.reclaim.job.map fun j => { j with abandoning := true } } }

/-- ERASE STORE begins executing: a job in progress is to be abandoned, its lists with it; with no job they are
emptied at once (R98, R116; log 43). -/
def State.yieldToErase (s : State) : State :=
  if s.reclaim.job.isNone then s.emptyReclaimLists else s.markAbandon

/-! ## Choosing the work (R99-R103) -/

/-- The better of two segments by a rule, the earlier one winning where the rule does not decide. -/
def pickBy (better : Segment → Segment → Bool) : List Segment → Option Segment
  | [] => none
  | g :: rest =>
    match pickBy better rest with
    | some h => if better h g then some h else some g
    | none => some g

/-- More dead pages; then the lower erase count; then the lower number (R101). -/
def moreDead (a b : Segment) : Bool :=
  decide (b.dead < a.dead) ||
    (decide (a.dead = b.dead) &&
      (decide (a.eraseCount < b.eraseCount) ||
        (decide (a.eraseCount = b.eraseCount) && decide (a.number < b.number))))

/-- The lower erase count; then the lower number (R102). -/
def lessWorn (a b : Segment) : Bool :=
  decide (a.eraseCount < b.eraseCount) ||
    (decide (a.eraseCount = b.eraseCount) && decide (a.number < b.number))

/-- The lower number. -/
def lowerNumber (a b : Segment) : Bool := decide (a.number < b.number)

/-- The best FILLED segment with at least `dead` dead pages that is not excluded. -/
def State.filledWith (s : State) (dead : Nat) (better : Segment → Segment → Bool) : Option Segment :=
  pickBy better
    (s.space.segments.filter fun g => g.state == .filled && decide (dead ≤ g.dead) && !s.excluded g)

/-- Line 1: the lowest-numbered RETIRING segment (R100). -/
def State.chooseRetiring (s : State) : Option JobKind :=
  (pickBy lowerNumber (s.space.segments.filter fun g => g.state == .retiring && !s.excluded g)).map
    fun g => .segment g.number

/-- Line 2: the head of the Refresh List (R100). -/
def State.chooseRefresh (s : State) : Option JobKind := s.reclaim.refreshList.head?.map .refresh

/-- The OPEN segment as a space victim in FULL (R101). -/
def State.openVictim (s : State) : Option Segment :=
  match s.openSegment with
  | some g =>
    if s.space.state = .full ∧ 1 ≤ g.dead ∧ 1 ≤ s.freeCount ∧ g.pending = 0 ∧ s.space.range = none ∧
        s.excluded g = false then some g
    else none
  | none => none

/-- Line 3: space reclamation (R101). -/
def State.chooseSpace (s : State) : Option JobKind :=
  if s.space.state ≠ .normal ∨ s.commit.state = .waiting then
    match s.filledWith 1 moreDead with
    | some g => some (.segment g.number)
    | none => s.openVictim.map fun g => .segment g.number
  else none

/-- The idle qualification holds (R102). -/
def State.idleHolds (s : State) : Bool :=
  s.idle.qualified && decide (s.window.options.idleDelay ≠ 0)

/-- Line 4: idle reclamation by dead pages (R102). -/
def State.chooseIdle (s : State) : Option JobKind :=
  if s.idleHolds then (s.filledWith 64 moreDead).map fun g => .segment g.number else none

/-- Line 5: wear-driven idle reclamation (R102). -/
def State.chooseWear (s : State) : Option JobKind :=
  if s.idleHolds && decide (s.window.options.wearSpread ≠ 0) && decide (s.space.state = .normal) &&
      decide (s.window.options.wearSpread * 100 ≤ s.maxErase - s.minErase) then
    (s.filledWith 0 lessWorn).map fun g => .segment g.number
  else none

/-- The first line of the order of choice that yields one (R100). -/
def State.choice (s : State) : Option JobKind :=
  match s.chooseRetiring with
  | some k => some k
  | none =>
    match s.chooseRefresh with
    | some k => some k
    | none =>
      match s.chooseSpace with
      | some k => some k
      | none =>
        match s.chooseIdle with
        | some k => some k
        | none => s.chooseWear

/-- A victim as the selection claim leaves it: FILLED and OPEN become RECLAIMING, RETIRING stays (R72). -/
def Segment.select (g : Segment) : Segment :=
  match g.state with
  | .filled => { g with state := .reclaiming }
  | .open => g.close .reclaiming
  | .retiring => g
  | .erasePending => g
  | .erased => g
  | .reclaiming => g
  | .retired => g

/-- The job begun on a choice (R99). -/
def State.beginJob (s : State) (kind : JobKind) : State :=
  match kind with
  | .segment v => (s.updateSegment v Segment.select).setJob (Job.begin kind)
  | .refresh _ => s.setJob (Job.begin kind)

/-- The Reclaimer makes selections: not in MOUNTING or DRAINING, nor while ERASE STORE holds the medium (R98). -/
def State.maySelect (s : State) : Bool :=
  decide (s.port.state ≠ .mounting) && decide (s.port.state ≠ .draining) && !s.erasing

/-- The quantities that the order of choice reads, as they stand (R99). -/
def State.quantities (s : State) : Quantities :=
  { retiring := (s.space.segments.filter fun g => g.state == .retiring).map (·.number)
    refreshList := s.reclaim.refreshList
    space := s.space.state
    commit := s.commit.state
    qualified := s.idle.qualified
    free := s.freeCount
    exclusion := s.reclaim.exclusion
    dead := (s.space.segments.filter fun g => g.state == .filled).map fun g => (g.number, g.dead)
    minErase := s.minErase
    maxErase := s.maxErase }

/-- The Reclaimer with this note of its last selection (log 24). -/
def State.noteSelection (s : State) (note : Option Quantities) : State :=
  { s with reclaim := { s.reclaim with evaluated := note } }

/-- An IDLE Reclaimer evaluates selection: a quantity of R99 has changed since the selection that last found no
choice, or a job, ERASE STORE or a mode without selection has ended since (R98, R99). -/
def State.selectionDue (s : State) : Bool :=
  s.reclaim.job.isNone && s.maySelect && decide (s.reclaim.evaluated ≠ some s.quantities)

/-- A selection that is due: the job that the order of choice gives is begun, or the quantities read are noted
(R99, R100). While no selection is made the note is dropped, so that one is due afterwards (R98). -/
def reclaimSelection (s : State) : Option State :=
  if s.selectionDue then
    match s.choice with
    | some kind => some (s.beginJob kind)
    | none => some (s.noteSelection (some s.quantities))
  else if s.maySelect = false ∧ s.reclaim.evaluated ≠ none then some (s.noteSelection none)
  else none

/-! ## Finishing a record -/

/-- The job is finished with the record being dealt with: a segment job goes on after it, a refresh job
ends (R104, R107, R115). -/
def State.finishRecord (s : State) (j : Job) : State :=
  match j.kind with
  | .refresh _ => s.endRefresh
  | .segment _ =>
    let cursor :=
      match j.subject with
      | some e => e.page + e.pages
      | none => j.cursor
    s.setJob { j with state := .select, cursor := cursor, subject := none, buffer := none,
                      lossNumber := 0, failures := 0, deferred := false }

/-- A job ended for want of room or after three failures: a segment job is abandoned with its victim
excluded, a refresh job ends with REFRESH_DROPS + 1 (R103, R115, R116). -/
def State.failJob (s : State) (j : Job) : State :=
  match j.kind with
  | .segment _ => s.abandonJob true
  | .refresh _ => s.endRefresh.countRefreshDrop

/-- A job in this state lodges a request for its next operation (R97). -/
def State.requestFor (s : State) (j : Job) : State := (s.setJob j).lodgeReclaimer

/-! ## The walk (R104, R108, R113) -/

/-- The located record of a segment with the lowest first page at or above the cursor (R104). -/
def State.nextLocated (s : State) (segment cursor : Nat) : Option IndexEntry :=
  s.index.entries.foldl
    (fun best e =>
      if e.segment = segment ∧ cursor ≤ e.page then
        match best with
        | some b => if e.page < b.page then some e else some b
        | none => some e
      else best)
    none

/-- The walk of a victim has ended (R104, R111, R113): a RECLAIMING one is erased, a RETIRING one is marked
RETIRED, with no program when its slot is written already. -/
def State.walkEnded (s : State) (j : Job) (v : Nat) : State :=
  match s.segment? v with
  | some g =>
    if g.state = .retiring then
      if s.isUnmarked v then (s.completeRetirement v .program .unmarked).endJob
      else s.requestFor { j with state := .retireMark, reason := some (s.recordedReason v) }
    else s.setJob { j with state := .erase }
  | none => s.endJob

/-- A tombstone dropped (R32): its entry is removed and its page becomes dead. -/
def State.dropTombstone (s : State) (j : Job) (e : IndexEntry) : State :=
  ((s.removeEntry e.tag).updateSegment e.segment fun g => g.makeDead 1).setJob
    { j with cursor := e.page + e.pages }

/-- A segment job in SELECT (R104, R108). -/
def State.walk (s : State) (j : Job) (v : Nat) : State :=
  match s.nextLocated v j.cursor with
  | none => s.walkEnded j v
  | some e =>
    match e.kind with
    | .tombstone prior =>
      if s.dropCondition v prior then s.dropTombstone j e
      else s.requestFor { j with state := .copyRead, subject := some e }
    | .live _ _ _ => s.requestFor { j with state := .copyRead, subject := some e }
    | .lost _ => s.requestFor { j with state := .copyRead, subject := some e }

/-- A refresh job in SELECT (R115). -/
def State.refreshLookup (s : State) (j : Job) (tag : Nat) : State :=
  match s.lookup tag with
  | some e =>
    match e.kind with
    | .live _ _ false => s.requestFor { j with state := .copyRead, subject := some e }
    | .live _ _ true => s.endRefresh
    | .tombstone _ => s.endRefresh
    | .lost _ => s.endRefresh
  | none => s.endRefresh

/-- A job in SELECT finds the next record to deal with, or decides that none remains (R104, R115). -/
def jobSelect (s : State) : Option State :=
  match s.reclaim.job with
  | some j =>
    if j.state = .select ∧ j.abandoning = false then
      match j.kind with
      | .segment v => some (s.walk j v)
      | .refresh tag => some (s.refreshLookup j tag)
    else none
  | none => none

/-- A job whose request is neither lodged nor granted lodges it: an ERASE once no read pin is held on the
victim (R111), a deferred claim once the bundle range has closed (R71). -/
def jobRequest (s : State) : Option State :=
  match s.reclaim.job with
  | some j =>
    if s.reclaimerInFlight || s.sequencer.requests.reclaimer.lodged || j.abandoning then none
    else if j.state = .erase ∧ s.sequencer.pin ≠ s.victim? then some s.lodgeReclaimer
    else if j.deferred = true ∧ s.space.range = none then some (s.requestFor { j with deferred := false })
    else none
  | none => none

/-! ## Copy reads (R105, R109, R110, R115) -/

/-- A copy of a record: standalone, with the fields of its source (R8). -/
def Record.copy (r : Record) : Record := { r with bundle := 0, position := none }

/-- A loss marker is built and its program requested; a refused number abandons the job (R109, steps 1 to 3;
a number left after a bundle's refusal is given, log 44). -/
def State.lossMarker (s : State) (j : Job) (e : IndexEntry) : State :=
  match s.takeNumbers 1 with
  | (none, t) => t.abandonJob true
  | (some number, t) =>
    t.requestFor { j with
      state := .copyProgram
      lossNumber := number
      buffer := some
        { record :=
            { kind := .loss, tag := e.tag, sequence := number, length := 0, protect := false, bundle := 0,
              position := none, prior := e.sequence, payload := [] }
          segment := e.segment, page := e.page } }

/-- The record of a tombstone or loss marker rebuilt from its index entry (R8, R110). -/
def IndexEntry.rewrite (e : IndexEntry) (kind : RecordKind) (prior : Nat) : CopyBuffer :=
  { record :=
      { kind := kind, tag := e.tag, sequence := e.sequence, length := 0, protect := false, bundle := 0,
        position := none, prior := prior, payload := [] }
    segment := e.segment, page := e.page }

/-- A copy read ended DONE or RECOVERED (R105). -/
def State.copyReadGood (s : State) (r : Record) : State :=
  match s.reclaim.job with
  | none => s
  | some j =>
    match j.subject with
    | none => s
    | some e =>
      s.requestFor { j with state := .copyProgram, buffer := some ⟨r.copy, e.segment, e.page⟩ }

/-- A copy read ended UNREADABLE (R105): the damaged claim and a loss marker for a LIVE entry of a segment
job (R109); the claim alone for a refresh job (R115); a rewrite for a tombstone or loss marker (R110). -/
def State.copyReadBad (s : State) : State :=
  match s.reclaim.job with
  | none => s
  | some j =>
    match j.subject with
    | none => s
    | some e =>
      match e.kind with
      | .tombstone prior =>
        s.requestFor { j with state := .copyProgram, buffer := some (e.rewrite .tombstone prior) }
      | .lost prior =>
        s.requestFor { j with state := .copyProgram, buffer := some (e.rewrite .loss prior) }
      | .live _ _ _ =>
        match s.damagedClaim e.tag e.sequence e.segment e.page with
        | none => s.finishRecord j
        | some t =>
          match j.kind with
          | .segment _ => t.lossMarker j e
          | .refresh _ => t.endRefresh

/-! ## Copy programs (R106, R107, R109) -/

/-- The job writes a loss marker (R106). -/
def Job.claim (j : Job) : Claim := if j.lossNumber = 0 then .copy else .lossMarker

/-- RECLAIM is granted to a job in COPY_PROGRAM (R106): the source's location is asked, then pages are
claimed. -/
def State.grantCopy (s : State) (j : Job) (b : CopyBuffer) : State :=
  match s.located b.record.tag b.segment b.page with
  | none => s.finishRecord j
  | some _ =>
    match s.claimPages j.claim (pagesFor b.record.length) b.record.sequence with
    | (.granted segment page, t) => t.issue .reclaimer (.recordProgram segment page b.record) 1
    | (.opening segment sequence, t) =>
      t.issue .reclaimer (.headerProgram segment (.opened sequence)) 1
    | (.deferred, t) => t.setJob { j with deferred := true }
    | (.noRoom, t) => t.failJob j

/-- RECLAIM is granted to the Reclaimer: its operation is chosen from the job as it stands (R97, R128). -/
def State.grantReclaimer (s : State) : State :=
  match s.reclaim.job with
  | none => s
  | some j =>
    match j.state with
    | .select => s
    | .copyRead =>
      match j.subject with
      | some e =>
        s.issue .reclaimer (.recordRead e.segment e.page e.pages e.tag e.sequence) s.readAttempts
      | none => s
    | .copyProgram =>
      match j.buffer with
      | some b => s.grantCopy j b
      | none => s
    | .erase =>
      match s.victim? with
      | some v => if s.sequencer.pin = some v then s else s.issue .reclaimer (.segmentErase v) 1
      | none => s
    | .formatMark =>
      match s.victim? with
      | some v => s.issue .reclaimer (s.eraseOp v .format) 1
      | none => s
    | .retireMark =>
      match s.victim?, j.reason with
      | some v, some r => s.issue .reclaimer (s.eraseOp v (.retire r)) 1
      | _, _ => s

/-- A copy, rewrite or marker program ended DONE (R107, R109): the claim is made and the record is finished. -/
def State.copyProgramDone (s : State) (segment page : Nat) : State :=
  match s.reclaim.job with
  | none => s
  | some j =>
    match j.buffer with
    | none => s
    | some b =>
      (if j.lossNumber = 0 then s.reclaimMove b segment page
       else s.lossReplacement b segment page).finishRecord j

/-- A program failure of the job (R107, R109), `k` pages being pending for it: below the limit the program is
requested again, a loss marker with a new number. -/
def State.copyFailure (s : State) (segment k : Nat) (failure : Failure) : State :=
  let t := s.reportProgramFailure segment k failure
  match s.reclaim.job with
  | none => t
  | some j =>
    if j.failures + 1 < Config.failureLimit then
      let j' := { j with failures := j.failures + 1 }
      match j.subject with
      | some e => if j.lossNumber = 0 then t.requestFor j' else t.lossMarker j' e
      | none => t.requestFor j'
    else t.failJob j

/-! ## Erase, format and retirement of the victim (R111-R113) -/

/-- What the job does after an outcome of the victim's erase or format (R112). -/
def State.jobNext (s : State) (j : Job) : EraseNext → State
  | .finished => s.endJob
  | .stage .erase => s.setJob { j with state := .erase }
  | .stage .format => s.requestFor { j with state := .formatMark }
  | .stage (.retire r) => s.requestFor { j with state := .retireMark, reason := some r }

/-- The SEGMENT ERASE of the victim ended (R112). -/
def State.jobEraseEnd (s : State) (segment : Nat) (outcome : MediumEnd) : State :=
  match s.reclaim.job with
  | none => s
  | some j =>
    let r := s.eraseEnd segment outcome
    r.2.jobNext j r.1

/-- The FORMATTED program of the victim ended (R112). -/
def State.jobFormatEnd (s : State) (segment : Nat) (outcome : MediumEnd) : State :=
  match s.reclaim.job with
  | none => s
  | some j =>
    let r := s.formatEnd segment outcome
    r.2.jobNext j r.1

/-- The RETIRED program of the victim ended (R113). -/
def State.jobRetireEnd (s : State) (segment : Nat) (reason : RetireReason) (outcome : MediumEnd) : State :=
  (s.retiredProgramEnd segment reason outcome).endJob

/-! ## Offers to the Refresh List (R114) -/

/-- A tag offered to the Refresh List: appended, or dropped when present or when the list is full. -/
def State.offerRefresh (s : State) (tag : Nat) : State :=
  if s.reclaim.refreshList.contains tag || decide (Config.refreshCapacity ≤ s.reclaim.refreshList.length) then
    s.countRefreshDrop
  else { s with reclaim := { s.reclaim with refreshList := s.reclaim.refreshList ++ [tag] } }

end Sys2Proof.Machine
end

