-- ==== Sys2Proof/Machine/Reading.lean ====
section
/-! DEFINITION. The FETCH path: the lookup, the delivery of a payload, the medium read and its outcome, and
what is left of a FETCH whose command ends first (R9, R18, R48, R133, R155, R168). -/

namespace Sys2Proof.Machine

/-- LENGTH loaded (R168, R169). -/
def State.loadLength (s : State) (n : Nat) : State :=
  { s with window := { s.window with length := word n } }

/-- SEQLO and SEQHI loaded with the halves of a sequence number (R185). -/
def State.loadSequence (s : State) (n : Nat) : State :=
  { s with window := { s.window with seqlo := word n, seqhi := word (n / 65536) } }

/-- A payload placed in the read frame, with LENGTH and the sequence loaded: the port enters SENDING, or the
FETCH completes when the length is 0 (R154, R168). -/
def State.deliver (s : State) (payload : List Byte) (length sequence : Nat) : State :=
  let t := ((s.fillFrame (packWords payload)).loadLength length).loadSequence sequence
  if length = 0 then t.endCommand .none 0 else t.enterSending (wordsFor length)

/-- FETCH lodges its READ request for the record an entry locates, and waits in EXECUTING (R168). -/
def State.requestRead (s : State) (e : IndexEntry) : State :=
  ({ s with port := { s.port with state := .executing, activity := .fetch e, residue := 0, dataTimer := none } }
    : State).lodgeRead

/-- FETCH acts on the visible state of its tag (R168). -/
def State.fetchLookup (s : State) (tag : Nat) : State :=
  match s.visible tag with
  | .staged e => s.deliver ((s.slotBytes e.slot).take e.length) e.length 0
  | .absent => s.endCommand .notFound 0
  | .lost e => ((s.loadLength 0).loadSequence e.sequence).endCommand .lost 0
  | .stored e => s.requestRead e
  | .damaged e => s.requestRead e

/-- READ is granted: a RECORD READ of the entry looked up, with a read pin on its segment (R128, R133). -/
def State.grantRead (s : State) : State :=
  match s.port.activity with
  | .fetch e =>
    let t := s.issue (.fetch e.tag false) (.recordRead e.segment e.page e.pages e.tag e.sequence) s.readAttempts
    { t with sequencer := { t.sequencer with pin := some e.segment } }
  | _ => s

/-- How a RECORD READ ends (R124). -/
inductive ReadOutcome where
  | done (record : Record)
  | recovered (record : Record)
  | unreadable
  deriving DecidableEq, Repr

/-- The offer a FETCH read that ends RECOVERED makes while REFRESH is 1 (R114). -/
def State.offerAfter (s : State) (tag : Nat) : ReadOutcome → State
  | .recovered _ => if s.window.options.refresh = 1 then s.offerRefresh tag else s
  | .done _ => s
  | .unreadable => s

/-- The FETCH in progress takes the outcome of its read: the payload is delivered; or the damaged claim is
made, and taken it ends the command with UNREADABLE, refused it begins the FETCH again (R18, R168). -/
def State.takeRead (s : State) (e : IndexEntry) : ReadOutcome → State
  | .done r => s.deliver r.payload e.length e.sequence
  | .recovered r => s.deliver r.payload e.length e.sequence
  | .unreadable =>
    match s.damagedClaim e.tag e.sequence e.segment e.page with
    | some t => t.endCommand .unreadable 0
    | none => s.fetchLookup e.tag

/-- A FETCH read without its command has ended: it fills no frame (R155). That it still makes the damaged claim when
it ended UNREADABLE, for the record that the operation names, as R10 and R18 say of any FETCH read, is the model's
choice: R130 and R155 name only its pin, its counters and its offer (log 42). -/
def State.detachedEnd (s : State) (op : Op) : ReadOutcome → State
  | .done _ => s
  | .recovered _ => s
  | .unreadable =>
    match op with
    | .recordRead segment page _ tag sequence => (s.damagedClaim tag sequence segment page).getD s
    | .bankProbe _ => s
    | .headerReadPage _ => s
    | .headerReadRecord _ _ => s
    | .blankCheck _ _ => s
    | .recordProgram _ _ _ => s
    | .headerProgram _ _ => s
    | .segmentErase _ => s

/-- The outcome of a FETCH read. A detached read makes its offer (R155) and, by
the model's choice, its claim (log 42), and delivers nothing. -/
def State.fetchOutcome (s : State) (op : Op) (tag : Nat) (detached : Bool) (outcome : ReadOutcome) : State :=
  let t := s.offerAfter tag outcome
  if detached then t.detachedEnd op outcome
  else
    match t.port.activity with
    | .fetch e => t.takeRead e outcome
    | _ => t

/-- A FETCH read in flight runs on without its command (R155). -/
def InFlight.detach (f : InFlight) : InFlight :=
  match f.requester with
  | .fetch tag _ => { f with requester := .fetch tag true }
  | .commit => f
  | .reclaimer => f
  | .background => f
  | .mount => f
  | .eraseStore => f

/-- FETCH is the command in progress. -/
def Activity.isFetch : Activity → Bool
  | .fetch _ => true
  | _ => false

/-- A FETCH in progress is about to be ended by port reset or PFW#: its lodged request is withdrawn, and a
read of it in flight is detached (R128, R155, R158, R177). -/
def State.leaveFetch (s : State) : State :=
  if s.port.activity.isFetch then
    let t := s.withdrawRead
    { t with sequencer := { t.sequencer with inFlight := t.sequencer.inFlight.map InFlight.detach } }
  else s

end Sys2Proof.Machine
end

