-- ==== Sys2Proof/Machine/EraseStore.lean ====
section
/-! DEFINITION. The background erase after mount (R148, R149) and ERASE STORE (R174-R176). -/

namespace Sys2Proof.Machine

/-! ## One segment's erase, format and retirement (R66, R148, R175) -/

/-- The outcome of the operation an eraser made at a stage. -/
def State.eraserEnd (s : State) (segment : Nat) (stage : EraseStage) (outcome : MediumEnd) :
    EraseNext × State :=
  match stage with
  | .erase => s.eraseEnd segment outcome
  | .format => s.formatEnd segment outcome
  | .retire reason => (.finished, s.retiredProgramEnd segment reason outcome)

/-! ## The background erase -/

/-- The background erase with a segment in hand, or none. -/
def State.setHand (s : State) (hand : Option (Nat × EraseStage)) : State :=
  { s with background := { s.background with hand := hand } }

/-- RECLAIM is granted to the background erase: the operation of the segment in hand, or the erase of the
next segment of its set (R148). -/
def State.grantBackground (s : State) : State :=
  match s.background.hand with
  | some (n, stage) => s.issue .background (s.eraseOp n stage) 1
  | none =>
    match s.background.todo with
    | n :: rest =>
      ({ s with background := ⟨rest, some (n, .erase)⟩ } : State).issue .background (.segmentErase n) 1
    | [] => s

/-- The outcome of an operation of the background erase (R148). -/
def State.backgroundEnd (s : State) (outcome : MediumEnd) : State :=
  match s.background.hand with
  | none => s
  | some (n, stage) =>
    let r := s.eraserEnd n stage outcome
    match r.1 with
    | .stage next => r.2.setHand (some (n, next))
    | .finished => r.2.setHand none

/-- The background erase holds the medium port. -/
def State.backgroundInFlight (s : State) : Bool :=
  match s.sequencer.inFlight with
  | some f => f.requester == .background
  | none => false

/-- The background erase lodges a request while it has work left (R128, R148). -/
def backgroundRequest (s : State) : Option State :=
  if (s.background.hand.isSome || !s.background.todo.isEmpty) && !s.backgroundInFlight &&
      !s.sequencer.requests.background.lodged && !s.erasing then
    some s.lodgeBackground
  else none

/-- The ERASE_PENDING segments, ascending (R148). -/
def State.pendingErases (s : State) : List Nat :=
  (s.space.segments.filter fun g => g.state == .erasePending).map (·.number)

/-! ## ERASE STORE: its progress -/

/-- What ERASE STORE is at, if it is the command in progress. -/
def State.erasure (s : State) : Option EraseProgress :=
  match s.port.activity with
  | .eraseStore p => some p
  | _ => none

/-- ERASE STORE at this point of its work. -/
def State.setErasure (s : State) (p : EraseProgress) : State :=
  { s with port := { s.port with activity := .eraseStore p } }

/-- An ABORT or PFW# recorded; only the first counts (R176). -/
def State.recordEnd (s : State) (e : RecordedEnd) : State :=
  match s.erasure with
  | some p => if p.firstEnd = none then s.setErasure { p with firstEnd := some e } else s
  | none => s

/-- A port reset recorded (R176). -/
def State.recordPortReset (s : State) : State :=
  match s.erasure with
  | some p => s.setErasure { p with portReset := true }
  | none => s

/-! ## ERASE STORE: its end (R176) -/

/-- The code of a recorded end. -/
def RecordedEnd.code : RecordedEnd → ResultCode
  | .abort => .aborted
  | .powerFail => .powerFail

/-- The command ends: without RESULT and DONE when a port reset is recorded, else with the code of the first
end recorded, else with NONE (R176). -/
def State.endErasure (s : State) : State :=
  match s.erasure with
  | none => s
  | some p =>
    if p.portReset then s.leaveCommand
    else
      match p.firstEnd with
      | some e => s.endCommand e.code 0
      | none => s.endCommand .none 0

/-- A RETIRED segment with mark UNMARKED remains, which a later mount may scan (R176). -/
def State.keepsUnmarked (s : State) : Bool :=
  s.space.segments.any fun g => g.state == .retired && g.mark == some .unmarked

/-- What completion makes of the index and the store mode (R176). -/
def State.emptyStore (s : State) : State :=
  let kept := s.keepsUnmarked
  { s with
    index :=
      { entries := []
        nextSequence := if kept then s.index.nextSequence else 1
        reservations := 0 }
    space := { s.space with reasons :=
      { s.space.reasons with degraded := false, sequence := s.space.reasons.sequence && kept } } }

/-- ERASE STORE stops early: the background erase begins again on the ERASE_PENDING segments that remain
(R176). -/
def State.stopErasure (s : State) : State :=
  ({ s with background := ⟨s.pendingErases, none⟩ } : State).endErasure

/-- An end of ERASE STORE has been recorded. -/
def State.endRecorded (s : State) : Bool :=
  match s.erasure with
  | some p => p.portReset || p.firstEnd.isSome
  | none => false

/-! ## ERASE STORE: a segment (R175) -/

/-- The segment as ERASE STORE takes it in hand: no live page, and not OPEN (R62, R175). -/
def Segment.clear (g : Segment) : Segment :=
  let h := g.makeDead g.live
  if h.state = .open then h.close .filled else h

/-- Every entry that locates a record in a segment removed, its live pages dead (R35, R175). -/
def State.clearSegment (s : State) (n : Nat) : State :=
  ({ s with index := { s.index with entries := s.index.entries.filter fun e => e.segment != n } }
    : State).updateSegment n Segment.clear

/-- ERASE STORE's operation on the segment in hand, at a stage (R132, R175). -/
def State.eraseStage (s : State) (n : Nat) (stage : EraseStage) : State :=
  match s.erasure with
  | none => s
  | some p =>
    (s.setErasure { p with hand := some (n, stage) }).issue .eraseStore (s.eraseOp n stage) 1

/-- The segment in hand is RETIRING. -/
def State.isRetiring (s : State) (n : Nat) : Bool :=
  match s.segment? n with
  | some g => g.state == .retiring
  | none => false

/-- The segments not yet taken. -/
def State.setTodo (s : State) (rest : List Nat) : State :=
  match s.erasure with
  | some p => s.setErasure { p with todo := rest }
  | none => s

/-- ERASE STORE goes on with the segments it has not taken: completion when none is left, the early end when
one is recorded, else the next segment, a RETIRING one whose slot is written already being retired at once
(R175, R176). -/
def State.eraseFrom : List Nat → State → State
  | [], s => s.emptyStore.endErasure
  | n :: rest, s =>
    if s.endRecorded then s.stopErasure
    else
      let t := s.clearSegment n
      if t.isRetiring n then
        if t.isUnmarked n then State.eraseFrom rest (t.completeRetirement n .program .unmarked)
        else (t.setTodo rest).eraseStage n (.retire (t.recordedReason n))
      else (t.setTodo rest).eraseStage n .erase

/-- The outcome of an operation of ERASE STORE (R175): the next stage of the segment in hand, or the next
segment. -/
def State.eraseStoreEnd (s : State) (outcome : MediumEnd) : State :=
  match s.erasure with
  | none => s
  | some p =>
    match p.hand with
    | none => s
    | some (n, stage) =>
      let r := s.eraserEnd n stage outcome
      match r.1 with
      | .stage next => r.2.eraseStage n next
      | .finished => State.eraseFrom p.todo (r.2.setErasure { p with hand := none })

/-! ## ERASE STORE: its start (R174) -/

/-- A segment of the work list comes before another: lower open sequence, then lower number (R174). -/
def olderSegment (a b : Segment) : Bool :=
  decide (a.openSequence < b.openSequence) ||
    (decide (a.openSequence = b.openSequence) && decide (a.number < b.number))

/-- A segment put in its place in a work list. -/
def insertOlder (g : Segment) : List Segment → List Segment
  | [] => [g]
  | h :: rest => if olderSegment g h then g :: h :: rest else h :: insertOlder g rest

/-- The work list: every segment neither ERASED nor RETIRED, in ascending open sequence (R174). -/
def State.workList (s : State) : List Nat :=
  ((s.space.segments.filter fun g => g.state != .erased && g.state != .retired).foldr insertOlder []).map
    (·.number)

/-- The discard, the abandonment of reclaim work with its lists, and the end of the background erase (R174, steps 2
and 3). What could be abandoned and emptied at acceptance has been (log 43); left for here are a job whose own
operation was in flight, and a tag that a FETCH read left by its command has offered since. -/
def State.clearWork (s : State) (discard : Bool) : State :=
  let t := (if discard then s.discardStaged else s).abandonJob false
  ({ t.emptyReclaimLists with background := ⟨[], none⟩ } : State).withdrawBackground

/-- The start of ERASE STORE once no operation is in flight (R132, R174). -/
def eraseStoreStart (s : State) : Option State :=
  match s.erasure with
  | some p =>
    if p.taking && s.portFree then
      let t := s.clearWork p.discard
      some (State.eraseFrom t.workList (t.setErasure { p with taking := false }))
    else none
  | none => none

end Sys2Proof.Machine
end

