-- ==== Sys2Proof/Machine/Sequencer.lean ====
section
/-! DEFINITION. The arbiter over the medium port: its order, the fairness count and the grant (R128-R132). -/

namespace Sys2Proof.Machine

/-- Who can be granted the port by the arbiter; the exclusive holders are not (R128). -/
inductive Applicant where
  | read
  | commit
  | background
  | reclaimer
  deriving DecidableEq, Repr

/-- The orders of grant (R130). -/
inductive GrantOrder where
  | exclusive
  | drain
  | space
  | normal
  deriving DecidableEq, Repr

/-- The order in force (R130). -/
def State.grantOrder (s : State) : GrantOrder :=
  if s.mount.isSome || s.erasing then .exclusive
  else if s.port.state = .draining then .drain
  else if s.space.state ≠ .normal ∨ s.commit.state = .waiting then .space
  else .normal

/-- The order of classes; within RECLAIM the background erase comes first (R130). -/
def GrantOrder.applicants : GrantOrder → List Applicant
  | .exclusive => []
  | .drain => [.commit]
  | .space => [.read, .background, .reclaimer, .commit]
  | .normal => [.read, .commit, .background, .reclaimer]

/-- The applicant's request at the arbiter. -/
def Requests.of (r : Requests) : Applicant → Request
  | .read => r.read
  | .commit => r.commit
  | .background => r.background
  | .reclaimer => r.reclaimer

/-- The applicant's request taken from the arbiter. -/
def Requests.clear (r : Requests) : Applicant → Requests
  | .read => { r with read := .absent }
  | .commit => { r with commit := .absent }
  | .background => { r with background := .absent }
  | .reclaimer => { r with reclaimer := .absent }

/-- The applicant's place in the free value of R129. -/
def Applicant.place : Applicant → Nat
  | .read => 0
  | .commit => 1
  | .background => 2
  | .reclaimer => 3

/-- The applicant is of the RECLAIM class (R128). -/
def Applicant.isReclaim : Applicant → Bool
  | .background => true
  | .reclaimer => true
  | .read => false
  | .commit => false

/-- The applicants the order admits whose requests are lodged. -/
def State.lodgedApplicants (s : State) : List Applicant :=
  s.grantOrder.applicants.filter fun a => (s.sequencer.requests.of a).lodged

/-- The request takes part in this grant: it stands from an earlier step, or it was lodged in this one and
the free value says that it does (R129, log 1). The value is drawn anew for each grant, so that a request that
waited out one grant of its step may be shut out of a second one of the same step, which is the model's choice
(log 1). -/
def State.takesPart (s : State) (a : Applicant) : Bool :=
  match s.sequencer.requests.of a with
  | .absent => false
  | .fresh => Config.freshTakesPart s.choices a.place
  | .standing => true

/-- The applicants that take part in this grant. When a single request is lodged it is granted; and some
request is granted when any is lodged (R129). -/
def State.participants (s : State) : List Applicant :=
  match s.lodgedApplicants with
  | [] => []
  | [a] => [a]
  | a :: b :: rest =>
    match (a :: b :: rest).filter s.takesPart with
    | [] => a :: b :: rest
    | part => part

/-- With the fairness count at 8 a grant under NORMAL for which both COMMIT and RECLAIM apply goes to
RECLAIM, READ keeping its place (R131). -/
def State.preferred (s : State) (part : List Applicant) : List Applicant :=
  if s.grantOrder = .normal ∧ Config.fairnessLimit ≤ s.sequencer.fairness ∧
      part.any Applicant.isReclaim = true then
    part.filter fun a => a != .commit
  else part

/-- The request that is granted. -/
def State.chosen (s : State) : Option Applicant := (s.preferred s.participants).head?

/-- A RECLAIM request is lodged at the grant: one that takes part, or under DRAIN, which admits none, one
that is lodged (R131, log 15). -/
def State.reclaimApplies (s : State) : Bool :=
  match s.grantOrder with
  | .drain => s.sequencer.requests.background.lodged || s.sequencer.requests.reclaimer.lodged
  | .exclusive => false
  | .space => s.participants.any Applicant.isReclaim
  | .normal => s.participants.any Applicant.isReclaim

/-- The fairness count after a grant (R131). -/
def State.fairnessAfter (s : State) : Applicant → Nat
  | .read => s.sequencer.fairness
  | .background => 0
  | .reclaimer => 0
  | .commit =>
    if s.reclaimApplies then
      match s.grantOrder with
      | .normal => min (s.sequencer.fairness + 1) Config.fairnessLimit
      | .drain => s.sequencer.fairness
      | .space => s.sequencer.fairness
      | .exclusive => s.sequencer.fairness
    else 0

/-- The grant: the request leaves the arbiter, and the requester names its operation or none (R128, R129). -/
def State.grantTo (s : State) (a : Applicant) : State :=
  let t := { s with
    sequencer := { s.sequencer with
      requests := s.sequencer.requests.clear a, fairness := s.fairnessAfter a }
    choices := s.choices + 1 }
  match a with
  | .read => t.grantRead
  | .commit => t.grantCommit
  | .background => t.grantBackground
  | .reclaimer => t.grantReclaimer

/-- A grant is made when the port is free and a request is lodged (R129). -/
def grant (s : State) : Option State := if s.portFree then s.chosen.map s.grantTo else none

end Sys2Proof.Machine
end

