-- ==== Sys2Proof/Machine/Mount.lean ====
section
/-! DEFINITION. Mount: probe, headers, scan and resolve (R135-R147), and the build of the Key Index (R34). -/

namespace Sys2Proof.Machine

/-! ## Probe (R137) -/

/-- The segments of the banks present, ascending (R58). -/
def presentSegments (present : List Nat) : List Nat :=
  present.flatMap fun b => (List.range 32).map fun i => 32 * b + i

/-- Mount's working state changed, and its next operation granted with this many attempts (R132, R135). -/
def State.mountIssue (s : State) (m : MountWork) (op : Op) (allowed : Nat) : State :=
  ({ s with mount := some m } : State).issue .mount op allowed

/-! ## Headers (R137-R139) -/

/-- An OPENED slot that names another segment counts as corrupt (R137). -/
def ownOpened (segment : Nat) : Finding (Nat × Nat) → Finding Nat
  | .blank => .blank
  | .corrupt => .corrupt
  | .valid (sequence, number) => if number = segment then .valid sequence else .corrupt

/-- The classes of R138. -/
inductive HeaderClass where
  | retired (reason : RetireReason)
  | erasePending
  | erased
  | candidate (openSequence : Nat) (retire : Bool)
  deriving DecidableEq, Repr

/-- The classification of a segment whose RETIRED slot is blank (R138, rows 3 to 7). -/
def HeaderInfo.classifyUnretired (h : HeaderInfo) : HeaderClass :=
  match h.formatted with
  | .blank => .erasePending
  | .corrupt => .erasePending
  | .valid count =>
    if count = Config.eraseLimit then .retired .worn
    else
      match h.opened with
      | .blank => .erased
      | .corrupt => .erasePending
      | .valid sequence => .candidate sequence false

/-- The classification of a segment (R138). -/
def HeaderInfo.classify (h : HeaderInfo) : HeaderClass :=
  match h.retired with
  | .valid reason => .retired reason
  | .corrupt =>
    match h.opened with
    | .valid sequence => .candidate sequence true
    | .blank => .retired .program
    | .corrupt => .retired .program
  | .blank => h.classifyUnretired

/-- The value of a valid finding. -/
def Finding.value? {α : Type} : Finding α → Option α
  | .valid v => some v
  | .blank => none
  | .corrupt => none

/-- The highest of the values found, 0 when there is none. -/
def highest (values : List Nat) : Nat := values.foldl max 0

/-- The highest erase count in any valid FORMATTED slot (R135, R139). -/
def MountWork.highestErase (m : MountWork) : Nat := highest (m.headers.filterMap (·.formatted.value?))

/-- The highest open sequence in any valid OPENED slot (R135, R139). -/
def MountWork.highestOpen (m : MountWork) : Nat := highest (m.headers.filterMap (·.opened.value?))

/-- The erase count of a segment at mount: its FORMATTED slot's, or the assigned one (R138, R139). -/
def MountWork.eraseCount (m : MountWork) (h : HeaderInfo) : Nat :=
  match h.formatted with
  | .valid count => count
  | .blank => min m.highestErase 99999
  | .corrupt => min m.highestErase 99999

/-- The candidates, in ascending segment number, before their scan (R138, R140). -/
def MountWork.startCandidates (m : MountWork) : List Candidate :=
  m.headers.filterMap fun h =>
    match h.classify with
    | .candidate sequence retire =>
      some { segment := h.segment, openSequence := sequence, retire := retire, scanEnd := none,
             writePointer := 1, lowSequence := 0 }
    | .retired _ => none
    | .erasePending => none
    | .erased => none

/-! ## Scan (R140, R141) -/

/-- A candidate's record changed. -/
def MountWork.updateCandidate (m : MountWork) (segment : Nat) (f : Candidate → Candidate) : MountWork :=
  { m with candidates := m.candidates.map fun c => if c.segment = segment then f c else c }

/-- The newest `n` found records discarded (R141). -/
def discardNewest : Nat → List Found → List Found
  | 0, l => l
  | _ + 1, [] => []
  | n + 1, x :: rest => { x with discarded := true } :: discardNewest n rest

/-- The run in progress, if any, is broken: its records are discarded and counted (R141). -/
def MountWork.breakRun (m : MountWork) : MountWork :=
  match m.run with
  | some r => { m with run := none, found := discardNewest r.found m.found, discarded := m.discarded + r.found }
  | none => m

/-- A found record continues the run in progress (R141). -/
def Run.continuedBy (r : Run) (record : Record) : Bool :=
  record.bundle == r.bundle && record.position == some (r.next, r.members) &&
    record.sequence == r.lastSequence + 1

/-- The run after a record that continues it; a run that has reached its last position is complete (R141). -/
def Run.advance (r : Run) (record : Record) : Option Run :=
  if r.next = r.members then none
  else some { r with next := r.next + 1, lastSequence := record.sequence, found := r.found + 1 }

/-- A found record with no run in progress: a standalone record; one at position 1, which begins a run; or a
member out of place, discarded alone (R141). -/
def MountWork.addAlone (m : MountWork) (record : Record) (segment page : Nat) : MountWork :=
  match record.position with
  | none => { m with found := ⟨record, segment, page, false⟩ :: m.found }
  | some (i, n) =>
    if i = 1 then
      { m with found := ⟨record, segment, page, false⟩ :: m.found
               run := some ⟨record.bundle, n, 2, record.sequence, 1⟩ }
    else
      { m with found := ⟨record, segment, page, true⟩ :: m.found, discarded := m.discarded + 1 }

/-- A found record put to the run in progress (R141). -/
def MountWork.addToRuns (m : MountWork) (record : Record) (segment page : Nat) : MountWork :=
  match m.run with
  | some r =>
    if r.continuedBy record then
      { m with found := ⟨record, segment, page, false⟩ :: m.found, run := r.advance record }
    else m.breakRun.addAlone record segment page
  | none => m.addAlone record segment page

/-- A low sequence lowered to a record's sequence (R63, R140). -/
def lowered (low sequence : Nat) : Nat := if low = 0 ∨ sequence < low then sequence else low

/-- A found record (R140): the candidate's low sequence, the highest sequence, and its run. -/
def MountWork.addRecord (m : MountWork) (record : Record) (segment page : Nat) : MountWork :=
  let t := (m.addToRuns record segment page).updateCandidate segment fun c =>
    { c with lowSequence := lowered c.lowSequence record.sequence }
  { t with highestSequence := max t.highestSequence record.sequence }

/-- A candidate's scan ends (R140); a run not complete is broken (R141). A truncated segment's low sequence
is 1. -/
def MountWork.endScan (m : MountWork) (segment : Nat) (how : ScanEnd) (pointer : Nat) : MountWork :=
  let t := m.breakRun.updateCandidate segment fun c =>
    { c with scanEnd := some how, writePointer := pointer,
             lowSequence := if how = .corrupt then 1 else c.lowSequence }
  if how = .corrupt then { t with truncated := t.truncated + 1 } else t

/-! ## Resolve: winners (R142) -/

/-- The open sequence of a candidate's segment. -/
def MountWork.openSequenceOf (m : MountWork) (segment : Nat) : Nat :=
  match m.candidates.find? fun c => c.segment == segment with
  | some c => c.openSequence
  | none => 0

/-- One found record wins over another of its tag: the higher sequence, then the higher open sequence of its
segment, then the higher first page; copies in two segments of equal open sequence go to the lower number
(R142, log 21). -/
def MountWork.winsOver (m : MountWork) (a b : Found) : Bool :=
  let oa := m.openSequenceOf a.segment
  let ob := m.openSequenceOf b.segment
  decide (b.record.sequence < a.record.sequence) ||
    (a.record.sequence == b.record.sequence &&
      (decide (ob < oa) ||
        (oa == ob &&
          (decide (a.segment < b.segment) || (a.segment == b.segment && decide (b.page < a.page))))))

/-- A found record put among the winners, which stand in ascending order of tag (R142, R144). -/
def MountWork.insertWinner (m : MountWork) (x : Found) : List Found → List Found
  | [] => [x]
  | y :: rest =>
    if x.record.tag < y.record.tag then x :: y :: rest
    else if x.record.tag = y.record.tag then (if m.winsOver x y then x else y) :: rest
    else y :: m.insertWinner x rest

/-- The winning records, one for each tag, ascending (R142). -/
def MountWork.winners (m : MountWork) : List Found :=
  (m.found.filter fun x => !x.discarded).foldr m.insertWinner []

/-- The winners that are indexed: those of the lowest 1024 tags (R144). -/
def MountWork.indexed (m : MountWork) : List Found := m.winners.take Config.indexCapacity

/-- The pages of a found record (R3). -/
def Found.pages (x : Found) : Nat := pagesFor x.record.length

/-- Live pages of a segment after RESOLVE (R144). -/
def MountWork.liveIn (m : MountWork) (segment : Nat) : Nat :=
  ((m.indexed.filter fun x => x.segment == segment).map Found.pages).sum

/-- An indexed winner lies in the segment (R143). -/
def MountWork.holdsWinner (m : MountWork) (segment : Nat) : Bool :=
  m.indexed.any fun x => x.segment == segment

/-! ## Resolve: segments (R143, R144) -/

/-- A candidate that ranks above another for the OPEN choice: higher open sequence, then lower number (R143). -/
def aboveForOpen (a b : Candidate) : Bool :=
  decide (b.openSequence < a.openSequence) ||
    (a.openSequence == b.openSequence && decide (a.segment < b.segment))

/-- The best of the candidates for the OPEN choice. -/
def bestForOpen : List Candidate → Option Candidate
  | [] => none
  | c :: rest =>
    match bestForOpen rest with
    | some d => if aboveForOpen d c then some d else some c
    | none => some c

/-- The OPEN choice, with those to be retired left out (R143). -/
def MountWork.openChoice (m : MountWork) : Option Candidate :=
  bestForOpen (m.candidates.filter fun c => !c.retire)

/-- A segment that holds no record, as mount leaves it (R60, R144). -/
def emptySegment (n eraseCount : Nat) (state : SegmentState) : Segment :=
  { number := n, state := state, eraseCount := eraseCount, writePointer := 1, live := 0, dead := 0,
    pending := 0, lowSequence := 0, openSequence := 0, reason := none, mark := none }

/-- A candidate's segment after RESOLVE: OPEN when it is the one opened, RETIRING or RETIRED when it is to be
retired, else FILLED (R143, R144). -/
def MountWork.candidateSegment (m : MountWork) (h : HeaderInfo) (opened : Option Nat) (c : Candidate) :
    Segment :=
  let live := m.liveIn h.segment
  let isOpen := opened = some h.segment
  { number := h.segment
    state :=
      if c.retire then (if m.holdsWinner h.segment then .retiring else .retired)
      else if isOpen then .open else .filled
    eraseCount := m.eraseCount h
    writePointer := if isOpen then c.writePointer else Config.segmentPages
    live := live
    dead := (if isOpen then c.writePointer - 1 else 127) - live
    pending := 0
    lowSequence := c.lowSequence
    openSequence := c.openSequence
    reason := if c.retire then some .program else none
    mark := if c.retire then some .unmarked else none }

/-- A segment's record in the Segment Table after RESOLVE (R138, R143, R144; log 20). -/
def MountWork.segment (m : MountWork) (opened : Option Nat) (h : HeaderInfo) : Segment :=
  match h.classify with
  | .erasePending => emptySegment h.segment (m.eraseCount h) .erasePending
  | .erased => emptySegment h.segment (m.eraseCount h) .erased
  | .retired reason =>
    { emptySegment h.segment (m.eraseCount h) .retired with
      openSequence := h.opened.value?.getD 0, reason := some reason, mark := some .marked }
  | .candidate _ _ =>
    match m.candidates.find? fun c => c.segment == h.segment with
    | some c => m.candidateSegment h opened c
    | none => emptySegment h.segment (m.eraseCount h) .erasePending

/-! ## The end of mount (R145-R147) -/

/-- The Segment Manager after RESOLVE, but for its space state and reasons (R145). -/
def MountWork.space (m : MountWork) (opened : Option Nat) : Space :=
  let segments := m.headers.map (m.segment opened)
  let count := fun n => ((segments.find? fun g => g.number == n).map (·.eraseCount)).getD 0
  { present := m.present
    segments := segments
    freeList := ((segments.filter fun g => g.state == .erased).map (·.number)).foldl
      (fun l n => insertFree count n l) []
    openCounter := m.highestOpen + 1
    range := none
    state := .normal
    reasons := ⟨false, false, false⟩ }

/-- The Key Index after RESOLVE (R34, R144, R145). -/
def MountWork.index (m : MountWork) : KeyIndex :=
  { entries := m.indexed.map fun x => entryOf x.record x.segment x.page
    nextSequence := m.highestSequence + 1
    reservations := 0 }

/-- The number of winning tags left out of the index (R144). -/
def MountWork.leftOut (m : MountWork) : Nat := m.winners.length - Config.indexCapacity

/-- The reasons for READ_ONLY as mount leaves them (R145). -/
def MountWork.reasons (m : MountWork) (usable : Nat) : Reasons :=
  { worn := decide (usable < Config.minimumUsable)
    sequence := decide (Config.lastSequence < m.highestSequence + 1)
    degraded := decide (0 < m.leftOut) }

/-- The mount report (R147), from a state in which the index and the Segment Table stand built. -/
def State.mountReportOf (s : State) (m : MountWork) (torn : Nat) : MountReport :=
  { banks := m.present.length
    erasePending := s.countState .erasePending
    erased := s.countState .erased
    opened := s.countState .open
    filled := s.countState .filled
    retiring := s.countState .retiring
    retired := s.countState .retired
    live := s.countEntries EntryKind.isLive
    tombstone := s.countEntries EntryKind.isTombstone
    lost := s.countEntries EntryKind.isLost
    notIndexed := m.leftOut
    degraded := decide (0 < m.leftOut)
    torn := torn
    truncated := m.truncated
    discarded := m.discarded
    recovered := m.recovered
    unreadable := m.unreadable
    timeouts := m.timeouts }

/-- The port leaves MOUNTING: for IDLE, or for DRAINING with PFW# asserted (R145). -/
def State.leaveMounting (s : State) : State := if s.pfw then s.enterDraining else s.enterIdle

/-- The end of mount: all that R145 sets, in one step. -/
def State.mountEnd (s : State) (m : MountWork) (opened : Option Nat) (torn : Nat) : State :=
  let a : State := { s with space := m.space opened, index := m.index, mount := none }
  let b : State :=
    { a with space := { a.space with
        state := a.spaceByFree, reasons := m.reasons a.usableCount } }
  let c : State :=
    { b with mountReport := b.mountReportOf m torn, background := ⟨b.pendingErases, none⟩ }
  c.releasePort.leaveMounting.raiseMounted

/-- RESOLVE: the BLANK CHECK of the OPEN choice when its scan ended blank, or at once the end of mount (R143). -/
def State.mountResolve (s : State) (m : MountWork) : State :=
  match m.openChoice with
  | some c =>
    if c.scanEnd = some .blank then
      s.mountIssue { m with phase := .resolve c.segment } (.blankCheck c.segment c.writePointer) s.readAttempts
    else s.mountEnd m none 0
  | none => s.mountEnd m none 0

/-- The scan of the next candidate, or RESOLVE when none is left (R140). -/
def State.mountScanNext (s : State) (m : MountWork) : List Nat → State
  | [] => s.mountResolve m
  | n :: rest => s.mountIssue { m with phase := .scan (n :: rest) 1 } (.headerReadRecord n 1) s.readAttempts

/-- The header read of the next segment, or SCAN when none is left (R137, R140). -/
def State.mountHeadersNext (s : State) (m : MountWork) : List Nat → State
  | [] =>
    let t := { m with candidates := m.startCandidates }
    s.mountScanNext t (t.candidates.map (·.segment))
  | n :: rest => s.mountIssue { m with phase := .headers (n :: rest) } (.headerReadPage n) s.readAttempts

/-! ## The outcomes of mount's operations -/

/-- A BANK PROBE ended (R123, R137). -/
def State.mountProbeEnd (s : State) (answer : ProbeAnswer) : State :=
  match s.mount with
  | none => s
  | some m =>
    match m.phase with
    | .probe bank =>
      let t := { m with present := if answer = .present then m.present ++ [bank] else m.present }
      if bank < 3 then s.mountIssue { t with phase := .probe (bank + 1) } (.bankProbe (bank + 1)) 1
      else if t.present = [] then s.mountEnd t none 0
      else s.mountHeadersNext t (presentSegments t.present)
    | .headers _ => s
    | .scan _ _ => s
    | .resolve _ => s

/-- The header read of a segment's page 0 ended with these findings (R137). -/
def State.mountHeaderEnd (s : State) (segment : Nat) (p : PageFindings) : State :=
  match s.mount with
  | none => s
  | some m =>
    let t := { m with headers := m.headers ++ [⟨segment, p.formatted, ownOpened segment p.opened, p.retired⟩] }
    match m.phase with
    | .headers todo => s.mountHeadersNext t (todo.drop 1)
    | .probe _ => s
    | .scan _ _ => s
    | .resolve _ => s

/-- The record header at a position of a candidate was read as this (R140). -/
def State.mountScanEnd (s : State) (segment page : Nat) (finding : Finding Record) : State :=
  match s.mount with
  | none => s
  | some m =>
    match m.phase with
    | .scan todo _ =>
      match finding with
      | .blank => s.mountScanNext (m.endScan segment .blank page) (todo.drop 1)
      | .corrupt => s.mountScanNext (m.endScan segment .corrupt Config.segmentPages) (todo.drop 1)
      | .valid r =>
        let next := page + pagesFor r.length
        if Config.segmentPages < next then
          s.mountScanNext (m.endScan segment .corrupt Config.segmentPages) (todo.drop 1)
        else
          let t := m.addRecord r segment page
          if next = Config.segmentPages then
            s.mountScanNext (t.endScan segment .full Config.segmentPages) (todo.drop 1)
          else
            s.mountIssue { t with phase := .scan todo next } (.headerReadRecord segment next) s.readAttempts
    | .probe _ => s
    | .headers _ => s
    | .resolve _ => s

/-- The BLANK CHECK of the OPEN choice ended: the candidate stays OPEN, or is FILLED and counted torn (R143). -/
def State.mountBlankEnd (s : State) (segment : Nat) (blank : Bool) : State :=
  match s.mount with
  | none => s
  | some m => if blank then s.mountEnd m (some segment) 0 else s.mountEnd m none 1

end Sys2Proof.Machine
end

