-- ==== Sys2Proof/Machine/Settle.lean ====
section
/-! DEFINITION. What follows an event within its own step: the consequences, in one order, until none is left
(R10, R24, R75, R76, R99, R129, R180, R183; log 4), and the end of a step. -/

namespace Sys2Proof.Machine

/-- The drain ends at the first step of DRAINING in which the PWL is empty or the Commit Engine is HALTED:
DRAINED is raised and the drain result set (R180). -/
def drainEnd (s : State) : Option State :=
  if s.port.state = .draining ∧ s.drain.running = true then
    if s.staging.pwl.isEmpty then
      some ({ s with drain := ⟨false, .emptied, 0⟩ } : State).raiseDrained
    else if s.commit.state.isHalted then
      some ({ s with drain := ⟨false, .halted, s.staging.pwl.length⟩ } : State).raiseDrained
    else none
  else none

/-- The consequences of an event, each none when it does not arise, in the order in which they are taken (log 4). -/
def consequences : List (State → Option State) :=
  [healthRefresh, spaceRefresh, eraseStoreStart, jobAbandon, slotWaitEnd, writeThroughComplete, syncComplete,
   commitHaltEnd, commitNext, commitStart, drainEnd, jobSelect, reclaimSelection, jobRequest, backgroundRequest, grant]

/-- The first of a list of changes that arises. -/
def firstChange : List (State → Option State) → State → Option State
  | [], _ => none
  | f :: rest, s =>
    match f s with
    | some t => some t
    | none => firstChange rest s

/-- The blocks act on their own: the part runs and mount has ended (R132, R136). -/
def State.blocksRun (s : State) : Bool := decide (s.power = .on) && s.mount.isNone

/-- The next consequence of the state as it stands. -/
def consequence (s : State) : Option State := if s.blocksRun then firstChange consequences s else none

/-- Consequences taken one after another, up to a number of rounds. -/
def settle : Nat → State → State
  | 0, s => s
  | n + 1, s =>
    match consequence s with
    | some t => settle n t
    | none => s

/-- Requests that outlive the step in which they were lodged (R129). -/
def Requests.age (r : Requests) : Requests :=
  { read := r.read.age, commit := r.commit.age, reclaimer := r.reclaimer.age, background := r.background.age }

/-- The requests at the end of a step. -/
def State.ageRequests (s : State) : State :=
  { s with sequencer := { s.sequencer with requests := s.sequencer.requests.age } }

/-- The end of a step: its consequences, the reservation count, whether the engine begins in the next step, and the
requests that stand. -/
def State.finish (s : State) : State :=
  (settle Config.settleRounds s).refreshReservations.noteCommitDue.ageRequests

/-- A step of the running part: an event's own effect, then the end of the step. While RESET# is low or the
supply is off the event changes nothing (log 12). -/
def State.run (s : State) (effect : State → State) : Host.Outcome State Fault Refusal :=
  if s.power = .on then .next (effect s).finish else .next s

end Sys2Proof.Machine
end

