-- ==== Sys2Proof/Machine/HostCommands.lean ====
section
/-! DEFINITION. The commands the host writes into COMMAND (R153, R164-R174). -/

namespace Sys2Proof.Machine

/-! ## Taking a command (R152, R153) -/

/-- A write is refused (R152). -/
def State.refuse (s : State) : State := { s with window := { s.window with refused := true } }

/-- A command is taken: COMMAND holds its code, RESULT is NONE with detail 0, the port is EXECUTING, the idle
timer stops and the idle qualification is cancelled (R153, R162). -/
def State.take (s : State) (code : Word) : State :=
  { s with
    window := { s.window with command := code }
    port := ⟨.executing, .none, 0, .none, 0, none⟩
    idle := ⟨none, false⟩ }

/-- A COMMAND write: taken in IDLE, refused elsewhere (R152, R153). -/
def State.accept (s : State) (code : Word) (body : State → State) : State :=
  if s.port.state = .idle then body (s.take code) else s.refuse

/-! ## Checks (R11, R21, R22) -/

/-- A tag needs a new reservation: no index entry, and no WRITE entry in the PWL (R22). -/
def State.needsReservation (s : State) (tag : Nat) : Bool := (s.lookup tag).isNone && !s.hasWrite tag

/-- Entries and reservations together (R16, R22). -/
def State.indexUse (s : State) : Nat := s.index.entries.length + s.index.reservations

/-- The protection check refuses the command (R11). -/
def State.protectionRefuses (s : State) (tag : Nat) (replace : Bool) : Bool :=
  (s.visible tag).isProtected && !replace

/-! ## STORE and REMOVE (R164, R167) -/

/-- What a STORE appends (R43, R56). -/
def State.storeWork (s : State) : Work :=
  { kind := .store
    members := [⟨s.window.tag.toNat, s.window.length.toNat, optProtect s.window.option⟩]
    through := optThrough s.window.option }

/-- STORE's checks in their order, then its reservation (R164). -/
def State.storeBody (s : State) : State :=
  if !validTag s.window.tag.toNat then s.endCommand .badParameter 0
  else if !validLength s.window.length.toNat then s.endCommand .badParameter 0
  else if s.readOnly then s.endCommand .readOnly 0
  else if s.space.state = .full then s.endCommand .storeFull 0
  else if s.protectionRefuses s.window.tag.toNat (optReplace s.window.option) then
    s.endCommand .tagProtected 0
  else if s.needsReservation s.window.tag.toNat && decide (Config.indexCapacity < s.indexUse + 1) then
    s.endCommand .indexFull 0
  else s.enterReserve s.storeWork

/-- What a REMOVE appends (R44, R56). -/
def State.removeWork (s : State) : Work :=
  { kind := .remove, members := [⟨s.window.tag.toNat, 0, false⟩], through := optThrough s.window.option }

/-- In FULL a REMOVE is accepted while a page is to be had (R76). -/
def State.removeHasPage (s : State) : Bool :=
  (match s.openSegment with
   | some g => decide (g.writePointer ≤ 127)
   | none => false) || decide (1 ≤ s.freeCount)

/-- REMOVE's checks in their order, then its reservation (R167). -/
def State.removeBody (s : State) : State :=
  if !validTag s.window.tag.toNat then s.endCommand .badParameter 0
  else if s.readOnly then s.endCommand .readOnly 0
  else if !(s.visible s.window.tag.toNat).isPresent then s.endCommand .notFound 0
  else if decide (s.space.state = .full) && !s.removeHasPage then s.endCommand .storeFull 0
  else if s.protectionRefuses s.window.tag.toNat (optReplace s.window.option) then
    s.endCommand .tagProtected 0
  else s.enterReserve s.removeWork

/-! ## STORE BUNDLE (R165, R166) -/

/-- STORE BUNDLE's check of COUNT, and the descriptor phase (R154, R165). -/
def State.bundleBody (s : State) : State :=
  let n := s.window.count.toNat
  if n < 2 ∨ 8 < n then s.endCommand .badParameter 0
  else
    ({ s with port := { s.port with state := .receiving
                                    activity := .descriptor n (optThrough s.window.option)
                                    residue := 3 * n } } : State).restartTimer.raiseData

/-- The position of the first member whose tag or length is out of range or whose tag an earlier member has
(R165, check 1). -/
def firstInvalid : (position : Nat) → (earlier : List Nat) → List DescriptorMember → Option Nat
  | _, _, [] => none
  | i, earlier, d :: rest =>
    if !validTag d.member.tag || !validLength d.member.length || earlier.contains d.member.tag then some i
    else firstInvalid (i + 1) (d.member.tag :: earlier) rest

/-- The position of the first member that the protection check refuses (R165, check 4). -/
def State.firstProtected (s : State) : (position : Nat) → List DescriptorMember → Option Nat
  | _, [] => none
  | i, d :: rest =>
    if s.protectionRefuses d.member.tag d.replace then some i else s.firstProtected (i + 1) rest

/-- The position of the first member whose reservation would take the total, so far `used`, above the
capacity (R22; R165, check 5). -/
def State.firstOver (s : State) : (used position : Nat) → List DescriptorMember → Option Nat
  | _, _, [] => none
  | used, i, d :: rest =>
    if s.needsReservation d.member.tag then
      if Config.indexCapacity < used + 1 then some i else s.firstOver (used + 1) (i + 1) rest
    else s.firstOver used (i + 1) rest

/-- The identifier that follows another in the rotation (R13). -/
def nextIdentifier (n : Nat) : Nat := if n = 255 then 1 else n + 1

/-- A bundle that has passed its checks takes its identifier and reserves its slots (R13, R166). -/
def State.bundleAccepted (s : State) (members : List DescriptorMember) (through : Bool) : State :=
  ({ s with window := { s.window with nextBundle := nextIdentifier s.window.nextBundle } } : State).enterReserve
    { kind := .bundle s.window.nextBundle, members := members.map (·.member), through := through }

/-- The bundle's checks in their order, once its descriptor of `n` members is complete (R165). -/
def State.bundleChecks (s : State) (n : Nat) (through : Bool) : State :=
  let members := s.descriptor n
  match firstInvalid 1 [] members with
  | some i => s.endCommand .badParameter i
  | none =>
    if s.readOnly then s.endCommand .readOnly 0
    else if s.space.state = .full then s.endCommand .storeFull 0
    else
      match s.firstProtected 1 members with
      | some i => s.endCommand .tagProtected i
      | none =>
        match s.firstOver s.indexUse 1 members with
        | some i => s.endCommand .indexFull i
        | none => s.bundleAccepted members through

/-! ## FETCH, DESCRIBE, ENUMERATE (R168-R170) -/

/-- FETCH's check and lookup (R168). -/
def State.fetchBody (s : State) : State :=
  if !validTag s.window.tag.toNat then s.endCommand .badParameter 0 else s.fetchLookup s.window.tag.toNat

/-- VALUE as DESCRIBE loads it: the state in bits 2-0, the protect attribute in bit 8 (R186). -/
def Visible.word (v : Visible) : Word := Machine.word v.code ||| flagBit v.isProtected 8

/-- DESCRIBE (R37, R169). -/
def State.describeBody (s : State) : State :=
  if !validTag s.window.tag.toNat then s.endCommand .badParameter 0
  else
    let v := s.visible s.window.tag.toNat
    let t := (s.loadLength v.length).loadSequence v.sequence
    ({ t with window := { t.window with value := v.word } } : State).endCommand .none 0

/-- ENUMERATE (R36, R170). -/
def State.enumerateBody (s : State) : State :=
  let tag := s.window.tag.toNat
  let m := s.window.count.toNat
  if !validTag tag then s.endCommand .badParameter 0
  else if m < 1 ∨ 64 < m then s.endCommand .badParameter 0
  else
    let tags := s.listing tag m
    (s.fillFrame (Machine.word tags.length :: tags.map Machine.word)).enterSending (1 + tags.length)

/-! ## SYNC, settings and the health report (R171-R173) -/

/-- SYNC on the state it finds, after any MEDIUM halt is left (R172). -/
def State.syncOn (s : State) : State :=
  match s.port.activity with
  | .syncWait =>
    if s.staging.pwl.isEmpty then s.endCommand .none 0
    else
      match s.commit.state with
      | .halted r => s.endCommand r.code 0
      | .idle => s
      | .running => s
      | .waiting => s
  | _ => s

/-- SYNC: a MEDIUM halt is left, and a halt that follows at once ends the SYNC (R93, R172). -/
def State.syncBody (s : State) : State :=
  let t := { s with port := { s.port with activity := .syncWait } }
  (if t.commit.state = .halted .medium then t.leaveHalt else t).syncOn

/-- SET OPTION (R161, R173). -/
def State.setOptionBody (s : State) : State :=
  match setSetting s.window.options s.window.option.toNat s.window.value.toNat with
  | some o => ({ s with window := { s.window with options := o } } : State).endCommand .none 0
  | none => s.endCommand .badParameter 0

/-- READ OPTION (R173). -/
def State.readOptionBody (s : State) : State :=
  match readSetting s.window.options s.window.option.toNat with
  | some v => ({ s with window := { s.window with value := Machine.word v } } : State).endCommand .none 0
  | none => s.endCommand .badParameter 0

/-- HEALTH REPORT (R171, R184). -/
def State.reportBody (s : State) : State := (s.fillFrame s.report).enterSending 40

/-! ## ERASE STORE (R174) -/

/-- ERASE STORE's check; a command that passes takes the medium once it is free (R132, R174). The reclaim job is to be
abandoned, and the Refresh List and the exclusion set emptied with it, from here on (R98, R116), not first after the
outcome of another block's operation in flight and the discard, as R174 numbers it: that moment is the model's choice
(log 43). -/
def State.eraseBody (s : State) : State :=
  if !s.staging.pwl.isEmpty && !optDiscard s.window.option then s.endCommand .pendingWrites 0
  else
    (s.setErasure { discard := optDiscard s.window.option, taking := true, todo := [], hand := none,
                    firstEnd := none, portReset := false }).yieldToErase

/-! ## A COMMAND write by its code (R153, R186) -/

/-- What a code names (R186); an unknown code ends the command with BAD_COMMAND (R153). -/
def State.commandBody (code : Word) (s : State) : State :=
  match code.toNat with
  | 0x10 => s.storeBody
  | 0x11 => s.bundleBody
  | 0x12 => s.removeBody
  | 0x20 => s.fetchBody
  | 0x21 => s.describeBody
  | 0x22 => s.enumerateBody
  | 0x30 => s.syncBody
  | 0x40 => s.setOptionBody
  | 0x41 => s.readOptionBody
  | 0x50 => s.reportBody
  | 0x60 => s.eraseBody
  | _ => s.endCommand .badCommand 0

/-- A write of COMMAND (R152, R153). -/
def State.commandWrite (s : State) (code : Word) : State := s.accept code (State.commandBody code)

/-! ## The meanings -/

/-- STORE, code 10h (R164). -/
def execStore (s : State) : Host.Outcome State Fault Refusal := s.run fun t => t.accept 0x10 State.storeBody
/-- STORE BUNDLE, code 11h (R165). -/
def execStoreBundle (s : State) : Host.Outcome State Fault Refusal :=
  s.run fun t => t.accept 0x11 State.bundleBody
/-- REMOVE, code 12h (R167). -/
def execRemove (s : State) : Host.Outcome State Fault Refusal := s.run fun t => t.accept 0x12 State.removeBody
/-- FETCH, code 20h (R168). -/
def execFetch (s : State) : Host.Outcome State Fault Refusal := s.run fun t => t.accept 0x20 State.fetchBody
/-- DESCRIBE, code 21h (R169). -/
def execDescribe (s : State) : Host.Outcome State Fault Refusal :=
  s.run fun t => t.accept 0x21 State.describeBody
/-- ENUMERATE, code 22h (R170). -/
def execEnumerate (s : State) : Host.Outcome State Fault Refusal :=
  s.run fun t => t.accept 0x22 State.enumerateBody
/-- SYNC, code 30h (R172). -/
def execSync (s : State) : Host.Outcome State Fault Refusal := s.run fun t => t.accept 0x30 State.syncBody
/-- SET OPTION, code 40h (R173). -/
def execSetOption (s : State) : Host.Outcome State Fault Refusal :=
  s.run fun t => t.accept 0x40 State.setOptionBody
/-- READ OPTION, code 41h (R173). -/
def execReadOption (s : State) : Host.Outcome State Fault Refusal :=
  s.run fun t => t.accept 0x41 State.readOptionBody
/-- HEALTH REPORT, code 50h (R171). -/
def execHealthReport (s : State) : Host.Outcome State Fault Refusal :=
  s.run fun t => t.accept 0x50 State.reportBody
/-- ERASE STORE, code 60h (R174). -/
def execEraseStore (s : State) : Host.Outcome State Fault Refusal := s.run fun t => t.accept 0x60 State.eraseBody
/-- A COMMAND write of another code ends with BAD_COMMAND (R153); a code that names a command is taken as
that command (log 32). -/
def execBadCommand (code : Word) (s : State) : Host.Outcome State Fault Refusal :=
  s.run fun t => t.commandWrite code

end Sys2Proof.Machine
end

