-- ==== Sys2Proof/Machine/PortEvents.lean ====
section
/-! DEFINITION. The host's other accesses of the register window, and the port's two timers (R151-R162). -/

namespace Sys2Proof.Machine

/-! ## DATA and STATUS (R151, R152, R154) -/

/-- A descriptor word taken: it goes to the read frame in its order, and the last one returns the port to
EXECUTING for the bundle's checks (R154, R155, R165). -/
def State.takeDescriptorWord (s : State) (n : Nat) (through : Bool) (word : Word) : State :=
  let t := ({ s with
    window := { s.window with frame := s.window.frame.set (3 * n - s.port.residue) word }
    port := { s.port with residue := s.port.residue - 1 } } : State).restartTimer
  if s.port.residue ≤ 1 then
    ({ t with port := { t.port with state := .executing, residue := 0, dataTimer := none } }
      : State).bundleChecks n through
  else t

/-- A DATA write: a payload or descriptor word in RECEIVING, refused elsewhere (R152, R154). -/
def State.dataWrite (s : State) (word : Word) : State :=
  if s.port.state = .receiving then
    match s.port.activity with
    | .payload w slots i => s.takePayloadWord w slots i word
    | .descriptor n through => s.takeDescriptorWord n through word
    | _ => s
  else s.refuse

/-- A word driven on the data bus by a read (log 30). -/
def State.drive (s : State) (word : Word) : State := { s with window := { s.window with busOut := some word } }

/-- A DATA read: the next reply word in SENDING, the last of which completes the command; FFFFh with no
effect elsewhere (R152, R154). -/
def State.dataRead (s : State) : State :=
  let t := s.drive s.dataWord
  if s.port.state = .sending then
    let u := ({ t with port := { t.port with residue := t.port.residue - 1 } } : State).restartTimer
    if s.port.residue ≤ 1 then u.endCommand .none 0 else u
  else t

/-- A STATUS read: the flags as they stand, and then REFUSED is cleared (R151). -/
def State.statusRead (s : State) : State :=
  let t := s.drive s.status
  { t with window := { t.window with refused := false } }

/-! ## ABORT (R157) -/

/-- The detail of an end during a member's payload: its position in a bundle, else 0 (R156, R157, R160). -/
def Activity.detail : Activity → Nat
  | .payload w _ i =>
    match w.kind with
    | .bundle _ => i + 1
    | .store => 0
    | .remove => 0
  | _ => 0

/-- ABORT (R157): it ends a data phase or a wait, is recorded by ERASE STORE, and is refused elsewhere. -/
def State.abort (s : State) : State :=
  match s.port.activity with
  | .none => s.refuse
  | .fetch _ => s.refuse
  | .eraseStore _ => s.recordEnd .abort
  | .slotWait _ => s.endCommand .aborted 0
  | .throughWait _ => s.endCommand .aborted 0
  | .syncWait => s.endCommand .aborted 0
  | .descriptor _ _ => s.endCommand .aborted 0
  | .sending _ => s.endCommand .aborted 0
  | .payload _ _ _ => s.endCommand .aborted s.port.activity.detail

/-! ## PORT RESET (R158) -/

/-- The registers, RESULT, the causes and REFUSED as port reset leaves them (R158, R163). -/
def State.clearPort (s : State) : State :=
  { s with
    window := { s.window with
      tag := 0, length := 0, count := 0, option := 0, value := 0, command := 0, seqlo := 0, seqhi := 0,
      refused := false }
    port := { s.port with residue := 0, result := .none, detail := 0, dataTimer := none }
    causes := Causes.empty }

/-- A port reset that leaves the port IDLE with the PWL empty starts the idle timer if it was not running (R162). -/
def State.resetIdle (s : State) : State :=
  if s.port.state = .idle ∧ s.staging.pwl.isEmpty = true ∧ s.idle.running = none then s.startIdle else s

/-- PORT RESET (R158): the command in progress ends without RESULT or DONE, ERASE STORE going on to the end
of its segment, and the port registers are cleared. -/
def State.portReset (s : State) : State :=
  match s.port.activity with
  | .none => s.clearPort.resetIdle
  | .eraseStore _ => s.recordPortReset.clearPort
  | _ => s.leaveFetch.leaveCommand.clearPort

/-! ## Causes (R159) and CONTROL (R185) -/

/-- An acknowledge write (R159, R185). -/
def State.acknowledge (s : State) (word : Word) : State :=
  { s with causes := s.causes.minus (Causes.ofWord word) }

/-- An INTMASK write (R159, R185). -/
def State.writeMask (s : State) (word : Word) : State :=
  { s with window := { s.window with mask := Causes.ofWord word } }

/-- A CONTROL write: PORT RESET before ABORT, and nothing when neither bit is set (R185). -/
def State.controlWrite (s : State) (word : Word) : State :=
  if word.getLsbD 1 then s.portReset else if word.getLsbD 0 then s.abort else s

/-! ## Writes by address (R152, R185) -/

/-- The window with a parameter register stored (R185). -/
def Window.setParameter (w : Window) (address : Nat) (word : Word) : Window :=
  match address with
  | 1 => { w with tag := word }
  | 2 => { w with length := word }
  | 3 => { w with count := word }
  | 4 => { w with option := word }
  | 5 => { w with value := word }
  | _ => w

/-- A parameter write: stored in IDLE, refused elsewhere (R152). -/
def State.parameterWrite (s : State) (address : Nat) (word : Word) : State :=
  if s.port.state = .idle then { s with window := s.window.setParameter address word } else s.refuse

/-- A write of any register of the window (R152, R185). -/
def State.registerWrite (s : State) (address : BitVec 4) (word : Word) : State :=
  match address.toNat with
  | 0 => s.dataWrite word
  | 1 => s.parameterWrite 1 word
  | 2 => s.parameterWrite 2 word
  | 3 => s.parameterWrite 3 word
  | 4 => s.parameterWrite 4 word
  | 5 => s.parameterWrite 5 word
  | 6 => s.commandWrite word
  | 9 => s.controlWrite word
  | 10 => s.acknowledge word
  | 11 => s.writeMask word
  | _ => s.refuse

/-! ## Timers (R156, R162) -/

/-- The data-phase timer runs with a length other than 0 (R156). -/
def State.dataTimerRuns (s : State) : Bool :=
  s.port.state.dataRequest &&
    match s.port.dataTimer with
    | some n => n != 0
    | none => false

/-- The data-phase timer expires: the command ends with DATA_TIMEOUT (R156). -/
def State.dataTimeout (s : State) : State :=
  if s.dataTimerRuns then s.endCommand .dataTimeout s.port.activity.detail else s

/-- The idle timer expires: the qualification begins and the timer stops (R162). -/
def State.idleExpiry (s : State) : State :=
  match s.idle.running with
  | some _ => { s with idle := ⟨none, true⟩ }
  | none => s

/-! ## The meanings -/

/-- DATA write (R154). -/
def execDataWrite (word : Word) (s : State) : Host.Outcome State Fault Refusal := s.run fun t => t.dataWrite word
/-- DATA read (R154). -/
def execDataRead (s : State) : Host.Outcome State Fault Refusal := s.run State.dataRead
/-- STATUS read (R151). -/
def execStatusRead (s : State) : Host.Outcome State Fault Refusal := s.run State.statusRead
/-- CONTROL write naming ABORT (R157). -/
def execAbort (s : State) : Host.Outcome State Fault Refusal := s.run State.abort
/-- CONTROL write naming PORT RESET (R158). -/
def execPortReset (s : State) : Host.Outcome State Fault Refusal := s.run State.portReset
/-- Acknowledge write (R159). -/
def execAcknowledge (word : Word) (s : State) : Host.Outcome State Fault Refusal :=
  s.run fun t => t.acknowledge word
/-- INTMASK write (R159). -/
def execIntmaskWrite (word : Word) (s : State) : Host.Outcome State Fault Refusal :=
  s.run fun t => t.writeMask word
/-- A write of a register by its address (R152; log 32). -/
def execRegisterWrite (address : BitVec 4) (word : Word) (s : State) : Host.Outcome State Fault Refusal :=
  s.run fun t => t.registerWrite address word
/-- The data-phase timer expires (R156). -/
def execDataTimeout (s : State) : Host.Outcome State Fault Refusal := s.run State.dataTimeout
/-- The idle timer expires (R162). -/
def execIdleTimerExpiry (s : State) : Host.Outcome State Fault Refusal := s.run State.idleExpiry

/-- The write a REFUSED_WRITE names, of COMMAND or of DATA (R152; log 32). -/
def State.namedWrite (s : State) : RefusedTarget → State
  | .command code => s.commandWrite code
  | .data word => s.dataWrite word

/-- A COMMAND write outside IDLE, or a DATA write outside RECEIVING (R152). -/
def execRefusedWrite (target : RefusedTarget) (s : State) : Host.Outcome State Fault Refusal :=
  s.run fun t => t.namedWrite target

end Sys2Proof.Machine
end

