-- ==== Sys2Proof/Machine/MediumEvents.lean ====
section
/-! DEFINITION. The answers of the bank devices: attempts of reads, and the ends of probes, programs and
erases, each handed to the requester of the operation in flight (R119-R127). -/

namespace Sys2Proof.Machine

/-! ## Counts of reads (R127, R147) -/

/-- A read attempt ended in timeout: counted by the Health Monitor, or during mount by mount (R127). -/
def State.noteTimeout (s : State) : State :=
  match s.mount with
  | some m => { s with mount := some { m with timeouts := bump m.timeouts } }
  | none => s.countTimeout

/-- A read ended RECOVERED (R127, R147). -/
def State.noteRecovered (s : State) : State :=
  match s.mount with
  | some m => { s with mount := some { m with recovered := bump m.recovered } }
  | none => s.countRecovered

/-- A read ended UNREADABLE (R127, R147). -/
def State.noteUnreadable (s : State) : State :=
  match s.mount with
  | some m => { s with mount := some { m with unreadable := bump m.unreadable } }
  | none => s.countUnreadable

/-! ## Outcomes of reads (R124-R126) -/

/-- Findings of a page 0 with every slot corrupt (R125). -/
abbrev PageFindings.allCorrupt : PageFindings := ⟨.corrupt, .corrupt, .corrupt⟩

/-- The findings reported for a page 0: those of the last attempt that did not time out, else all corrupt (R125). -/
def pageReport : Option Findings → PageFindings
  | some (.page p) => p
  | some (.record _) => .allCorrupt
  | none => .allCorrupt

/-- The finding reported for a record header position (R125). -/
def recordReport : Option Findings → Finding Record
  | some (.record h) => h
  | some (.page _) => .corrupt
  | none => .corrupt

/-- The outcome of a RECORD READ handed to its requester (R105, R168). -/
def State.recordOutcome (s : State) (f : InFlight) (outcome : ReadOutcome) : State :=
  match f.requester with
  | .fetch tag detached => s.fetchOutcome f.op tag detached outcome
  | .reclaimer =>
    match outcome with
    | .done r => s.copyReadGood r
    | .recovered r => s.copyReadGood r
    | .unreadable => s.copyReadBad
  | .commit => s
  | .background => s
  | .mount => s
  | .eraseStore => s

/-- A read ends UNREADABLE (R124-R126). -/
def State.readUnreadable (s : State) (f : InFlight) : State :=
  let t := s.noteUnreadable.releasePort
  match f.op with
  | .headerReadPage segment => t.mountHeaderEnd segment (pageReport f.seen)
  | .headerReadRecord segment page => t.mountScanEnd segment page (recordReport f.seen)
  | .recordRead _ _ _ _ _ => t.recordOutcome f .unreadable
  | .blankCheck segment _ => t.mountBlankEnd segment false
  | .bankProbe _ => t
  | .recordProgram _ _ _ => t
  | .headerProgram _ _ => t
  | .segmentErase _ => t

/-- An attempt that was not good: another follows while attempts remain, and after the last the read is
UNREADABLE (R124). -/
def State.attemptBad (s : State) (f : InFlight) : State :=
  let g := { f with attempts := f.attempts + 1 }
  if g.attempts < g.allowed then { s with sequencer := { s.sequencer with inFlight := some g } }
  else s.readUnreadable g

/-- A good attempt frees the port, and is counted when it is not the first (R124, R127). -/
def State.attemptGood (s : State) (f : InFlight) : State :=
  (if f.attempts = 0 then s else s.noteRecovered).releasePort

/-- A read attempt reached its timeout (R120, R124). -/
def State.attemptTimeout (s : State) (f : InFlight) : State := s.noteTimeout.attemptBad f

/-- An attempt of a HEADER READ of a page 0 read these findings (R125). -/
def State.pageAttempt (s : State) (f : InFlight) (segment : Nat) (p : PageFindings) : State :=
  if (Findings.page p).anyCorrupt then s.attemptBad { f with seen := some (.page p) }
  else (s.attemptGood f).mountHeaderEnd segment p

/-- An attempt of a HEADER READ of a record header position read this finding (R125). -/
def State.recordAttempt (s : State) (f : InFlight) (segment page : Nat) (h : Finding Record) : State :=
  if h.isCorrupt then s.attemptBad { f with seen := some (.record h) }
  else (s.attemptGood f).mountScanEnd segment page h

/-- An attempt of a RECORD READ: the record, or a mismatch (R4, R124). -/
def State.readAttempt (s : State) (f : InFlight) : Option Record → State
  | some r =>
    (s.attemptGood f).recordOutcome f (if f.attempts = 0 then .done r else .recovered r)
  | none => s.attemptBad f

/-- An attempt of a BLANK CHECK that read its range: the outcome is DONE when all of it reads erased, retries of
timeouts or none, and else MISMATCH; neither is a RECOVERED read (R119, R126). -/
def State.blankAttempt (s : State) (segment : Nat) (blank : Bool) : State :=
  s.releasePort.mountBlankEnd segment blank

/-! ## Outcomes of programs and erases (R73, R88, R107) -/

/-- The failure an end of a program or an erase is, none for DONE. -/
def failureOf : MediumEnd → Option Failure
  | .done => none
  | .failed _ => some .failed
  | .timeout _ => some .timeout

/-- The Commit Engine's program ended (R84, R86-R88). -/
def State.commitProgramEnd (s : State) (op : Op) (outcome : MediumEnd) : State :=
  match op with
  | .recordProgram segment page r =>
    match failureOf outcome with
    | none => s.commitProgramDone segment page
    | some x => s.commitFailure segment (pagesFor r.length) x
  | .headerProgram segment _ =>
    match failureOf outcome with
    | none => s.lodgeCommit
    | some x => s.commitFailure segment 0 x
  | .bankProbe _ => s
  | .headerReadPage _ => s
  | .headerReadRecord _ _ => s
  | .recordRead _ _ _ _ _ => s
  | .blankCheck _ _ => s
  | .segmentErase _ => s

/-- The Reclaimer's HEADER PROGRAM ended: OPENED for a copy (R106, R107), FORMATTED (R112) or RETIRED (R113) of
the victim. -/
def State.jobHeaderEnd (s : State) (segment : Nat) (slot : SlotContent) (outcome : MediumEnd) : State :=
  match slot with
  | .opened _ =>
    match failureOf outcome with
    | none => s.lodgeReclaimer
    | some x => s.copyFailure segment 0 x
  | .formatted _ => s.jobFormatEnd segment outcome
  | .retired reason => s.jobRetireEnd segment reason outcome

/-- The Reclaimer's program or erase ended (R107, R112, R113). -/
def State.jobOpEnd (s : State) (op : Op) (outcome : MediumEnd) : State :=
  match op with
  | .recordProgram segment page r =>
    match failureOf outcome with
    | none => s.copyProgramDone segment page
    | some x => s.copyFailure segment (pagesFor r.length) x
  | .headerProgram segment slot => s.jobHeaderEnd segment slot outcome
  | .segmentErase segment => s.jobEraseEnd segment outcome
  | .bankProbe _ => s
  | .headerReadPage _ => s
  | .headerReadRecord _ _ => s
  | .recordRead _ _ _ _ _ => s
  | .blankCheck _ _ => s

/-- A program or an erase ended: the medium is as the end left it, the port is free, and the requester takes
the outcome (R119-R122). -/
def State.programEnd (s : State) (f : InFlight) (outcome : MediumEnd) : State :=
  let t := ({ s with medium := f.op.apply s.medium outcome } : State).releasePort
  match f.requester with
  | .commit => t.commitProgramEnd f.op outcome
  | .reclaimer => t.jobOpEnd f.op outcome
  | .background => t.backgroundEnd outcome
  | .eraseStore => t.eraseStoreEnd outcome
  | .mount => t
  | .fetch _ _ => t

/-! ## The events -/

/-- BANK PROBE answered or timed out (R123). -/
def State.probeEvent (s : State) (f : InFlight) (answer : ProbeAnswer) : State :=
  match f.op with
  | .bankProbe _ => s.releasePort.mountProbeEnd answer
  | _ => s

/-- An attempt of a HEADER READ ended (R125). -/
def State.headerEvent (s : State) (f : InFlight) (attempt : ReadAttempt) : State :=
  match f.op, attempt with
  | .headerReadPage segment, .ready noise => s.pageAttempt f segment (readPageHeader s.medium segment noise)
  | .headerReadRecord segment page, .ready noise =>
    s.recordAttempt f segment page (readRecordHeader s.medium segment page noise)
  | .headerReadPage _, .timeout => s.attemptTimeout f
  | .headerReadRecord _ _, .timeout => s.attemptTimeout f
  | _, _ => s

/-- An attempt of a RECORD READ ended (R124). -/
def State.recordEvent (s : State) (f : InFlight) (attempt : ReadAttempt) : State :=
  match f.op, attempt with
  | .recordRead segment page pages tag sequence, .ready noise =>
    s.readAttempt f (readRecord s.medium segment page pages tag sequence noise)
  | .recordRead _ _ _ _ _, .timeout => s.attemptTimeout f
  | _, _ => s

/-- An attempt of a BLANK CHECK ended (R126). -/
def State.blankEvent (s : State) (f : InFlight) (attempt : ReadAttempt) : State :=
  match f.op, attempt with
  | .blankCheck segment page, .ready noise => s.blankAttempt segment (readBlank s.medium segment page noise)
  | .blankCheck _ _, .timeout => s.attemptTimeout f
  | _, _ => s

/-- A RECORD PROGRAM ended (R121). -/
def State.recordProgramEvent (s : State) (f : InFlight) (outcome : MediumEnd) : State :=
  match f.op with
  | .recordProgram _ _ _ => s.programEnd f outcome
  | _ => s

/-- A HEADER PROGRAM ended (R122). -/
def State.headerProgramEvent (s : State) (f : InFlight) (outcome : MediumEnd) : State :=
  match f.op with
  | .headerProgram _ _ => s.programEnd f outcome
  | _ => s

/-- A SEGMENT ERASE ended (R122). -/
def State.eraseEvent (s : State) (f : InFlight) (outcome : MediumEnd) : State :=
  match f.op with
  | .segmentErase _ => s.programEnd f outcome
  | _ => s

/-- An attempt reached its timeout (R120): a probe finds its bank absent, a read attempt is retried, a program
or an erase ends TIMEOUT. -/
def State.timeoutEvent (s : State) (f : InFlight) (left : Remnant) : State :=
  match f.op with
  | .bankProbe _ => s.probeEvent f .timeout
  | .headerReadPage _ => s.attemptTimeout f
  | .headerReadRecord _ _ => s.attemptTimeout f
  | .recordRead _ _ _ _ _ => s.attemptTimeout f
  | .blankCheck _ _ => s.attemptTimeout f
  | .recordProgram _ _ _ => s.programEnd f (.timeout left)
  | .headerProgram _ _ => s.programEnd f (.timeout left)
  | .segmentErase _ => s.programEnd f (.timeout left)

/-- An answer of the medium: it goes to the operation in flight, if there is one (log 3); an operation on a
segment that does not exist is a fault (R58, R119; log 28). -/
def State.runOp (s : State) (effect : State → InFlight → State) : Host.Outcome State Fault Refusal :=
  match s.sequencer.inFlight with
  | none => s.run id
  | some f =>
    if s.power = .on ∧ s.opExists f.op = false then .fault .noSuchAddress else s.run fun t => effect t f

/-! ## The meanings -/

/-- An attempt's timeout (R120). -/
def execAttemptTimeout (left : Remnant) (s : State) : Host.Outcome State Fault Refusal :=
  s.runOp fun t f => t.timeoutEvent f left
/-- A BANK PROBE's end (R123). -/
def execBankProbe (answer : ProbeAnswer) (s : State) : Host.Outcome State Fault Refusal :=
  s.runOp fun t f => t.probeEvent f answer
/-- The end of an attempt of a HEADER READ (R125). -/
def execHeaderRead (attempt : ReadAttempt) (s : State) : Host.Outcome State Fault Refusal :=
  s.runOp fun t f => t.headerEvent f attempt
/-- The end of an attempt of a RECORD READ (R124). -/
def execRecordRead (attempt : ReadAttempt) (s : State) : Host.Outcome State Fault Refusal :=
  s.runOp fun t f => t.recordEvent f attempt
/-- The end of an attempt of a BLANK CHECK (R126). -/
def execBlankCheck (attempt : ReadAttempt) (s : State) : Host.Outcome State Fault Refusal :=
  s.runOp fun t f => t.blankEvent f attempt
/-- A RECORD PROGRAM's end (R121). -/
def execRecordProgram (outcome : MediumEnd) (s : State) : Host.Outcome State Fault Refusal :=
  s.runOp fun t f => t.recordProgramEvent f outcome
/-- A HEADER PROGRAM's end (R122). -/
def execHeaderProgram (outcome : MediumEnd) (s : State) : Host.Outcome State Fault Refusal :=
  s.runOp fun t f => t.headerProgramEvent f outcome
/-- A SEGMENT ERASE's end (R66, R122). -/
def execSegmentErase (outcome : MediumEnd) (s : State) : Host.Outcome State Fault Refusal :=
  s.runOp fun t f => t.eraseEvent f outcome

end Sys2Proof.Machine
end

