-- ==== Sys2Proof/Machine/BackgroundEvents.lean ====
section
/-! DEFINITION. The steps the blocks take on their own, as commands: each does what its rule states where its
condition holds, and nothing elsewhere (log 3). The same operations are taken as consequences within the step
in which their condition arises (log 4), and COMMIT_BEGIN's within the step after an append (log 5). -/

namespace Sys2Proof.Machine

/-- COMMIT_BEGIN: the engine begins the unit at the head, once mount has ended (R79, R80). -/
def State.commitBeginEvent (s : State) : State := if s.blocksRun then (commitBegin s).getD s else s

/-- RECLAIM_SELECTION: an IDLE Reclaimer evaluates its order of choice (R99, R100). -/
def State.selectionEvent (s : State) : State := if s.blocksRun then (reclaimSelection s).getD s else s

/-- SLOT_WAIT_END: enough slots are FREE for the waiting command (R50). -/
def State.slotWaitEvent (s : State) : State := if s.blocksRun then (slotWaitEnd s).getD s else s

/-- WRITE_THROUGH_COMPLETE: the awaited entries have left the PWL (R56). -/
def State.writeThroughEvent (s : State) : State := if s.blocksRun then (writeThroughComplete s).getD s else s

/-- SYNC_COMPLETE: the PWL is empty while SYNC waits (R172). -/
def State.syncEvent (s : State) : State := if s.blocksRun then (syncComplete s).getD s else s

/-- DRAIN_END: the PWL is empty or commit is halted during the drain (R180). -/
def State.drainEvent (s : State) : State := if s.blocksRun then (drainEnd s).getD s else s

/-- COMMIT_HALT_END: a NO_SPACE halt ends (R92). -/
def State.haltEndEvent (s : State) : State := if s.blocksRun then (commitHaltEnd s).getD s else s

/-- The begin step (R80). -/
def execCommitBegin (s : State) : Host.Outcome State Fault Refusal := s.run State.commitBeginEvent
/-- The Reclaimer's selection (R100). -/
def execReclaimSelection (s : State) : Host.Outcome State Fault Refusal := s.run State.selectionEvent
/-- The end of a slot wait (R50). -/
def execSlotWaitEnd (s : State) : Host.Outcome State Fault Refusal := s.run State.slotWaitEvent
/-- The completion of a write-through command (R56). -/
def execWriteThroughComplete (s : State) : Host.Outcome State Fault Refusal := s.run State.writeThroughEvent
/-- The completion of SYNC (R172). -/
def execSyncComplete (s : State) : Host.Outcome State Fault Refusal := s.run State.syncEvent
/-- The end of the drain (R180). -/
def execDrainEnd (s : State) : Host.Outcome State Fault Refusal := s.run State.drainEvent
/-- The end of a NO_SPACE halt (R92). -/
def execCommitHaltEnd (s : State) : Host.Outcome State Fault Refusal := s.run State.haltEndEvent

end Sys2Proof.Machine
end

