-- ==== Sys2Proof/Machine/ResetEvents.lean ====
section
/-! DEFINITION. Resets, the supply and PFW# (R135, R136, R177-R181, R189). -/

namespace Sys2Proof.Machine

/-! ## Hard reset, RESET# and the supply (R135, R136) -/

/-- The part after a hard reset: what is in flight is cut, all chip state is lost, and mount begins (R121, R135). -/
def State.hardReset (s : State) (cut : Remnant) : State :=
  { s.chipReset with medium := s.cutMedium cut }

/-- The part with RESET# low or without supply: what is in flight is cut and all chip state is lost, until
the release or the return of the supply (R136; log 12). -/
def State.cutOff (s : State) (power : Power) (cut : Remnant) : State :=
  { s.chipLost power with medium := s.cutMedium cut }

/-- Power-on, or the release of RESET# (R135). -/
def execHardReset (cut : Remnant) (s : State) : Host.Outcome State Fault Refusal := .next (s.hardReset cut)

/-- RESET# is taken as asserted; without supply the part stays off (R136; log 12). -/
def execResetAsserted (cut : Remnant) (s : State) : Host.Outcome State Fault Refusal :=
  if s.power = .off then .next s else .next (s.cutOff .held cut)

/-- The supply is lost (R136). -/
def execPowerLoss (cut : Remnant) (s : State) : Host.Outcome State Fault Refusal := .next (s.cutOff .off cut)

/-! ## PFW# (R177-R181) -/

/-- The command in progress ends with POWER_FAIL, or the port simply enters DRAINING (R177). -/
def State.powerFailCommand (s : State) : State :=
  match s.port.activity with
  | .none => s.enterDraining
  | _ => s.leaveFetch.endCommand .powerFail 0

/-- What the Commit Engine does at the assertion (R90, R179): WAITING it requests the port again, and a
NO_SPACE halt ends when F is 1 or more. -/
def State.powerFailCommit (s : State) : State :=
  if s.commit.state = .waiting then s.lodgeCommit
  else if s.commit.state = .halted .noSpace ∧ 1 ≤ s.freeCount then s.leaveHalt
  else s

/-- The filtered PFW# input is asserted (R136, R149, R176-R179). ERASE STORE
records it, and the Commit Engine acts on it whatever the command in progress is. -/
def State.pfwAssert (s : State) : State :=
  let t := { s with pfw := true }
  if t.mount.isSome then t
  else if t.erasing then (t.recordEnd .powerFail).powerFailCommit
  else t.powerFailCommand.markAbandon.powerFailCommit

/-- The drain is cut short if it has not ended (R180, R181). -/
def State.cutDrain (s : State) : State :=
  if s.drain.running then { s with drain := ⟨false, .cutShort, s.staging.pwl.length⟩ } else s

/-- The filtered PFW# input is deasserted (R181). -/
def State.pfwRelease (s : State) : State :=
  let t := { s with pfw := false }
  if t.port.state = .draining then t.cutDrain.enterIdle else t

/-- PFW# asserted; while RESET# is low or the supply is off only the input's level is kept (R177; log 12, 13). -/
def execPfwAsserted (s : State) : Host.Outcome State Fault Refusal :=
  if s.power ≠ .on then .next { s with pfw := true }
  else s.run fun t => if t.pfw then t else t.pfwAssert

/-- PFW# deasserted (R181). -/
def execPfwDeasserted (s : State) : Host.Outcome State Fault Refusal :=
  if s.power ≠ .on then .next { s with pfw := false }
  else s.run fun t => if t.pfw then t.pfwRelease else t

end Sys2Proof.Machine
end

