-- ==== Sys2Proof/Machine/Dispatch.lean ====
section
/-! DEFINITION. One arm per command. -/

namespace Sys2Proof.Machine

def exec (i : Instr) (s : State) : Host.Outcome State Fault Refusal :=
  match i with
  | .hardReset cut => Sys2Proof.Machine.execHardReset cut s
  | .pfwAsserted => Sys2Proof.Machine.execPfwAsserted s
  | .pfwDeasserted => Sys2Proof.Machine.execPfwDeasserted s
  | .store => Sys2Proof.Machine.execStore s
  | .storeBundle => Sys2Proof.Machine.execStoreBundle s
  | .remove => Sys2Proof.Machine.execRemove s
  | .fetch => Sys2Proof.Machine.execFetch s
  | .describe => Sys2Proof.Machine.execDescribe s
  | .enumerate => Sys2Proof.Machine.execEnumerate s
  | .sync => Sys2Proof.Machine.execSync s
  | .setOption => Sys2Proof.Machine.execSetOption s
  | .readOption => Sys2Proof.Machine.execReadOption s
  | .healthReport => Sys2Proof.Machine.execHealthReport s
  | .eraseStore => Sys2Proof.Machine.execEraseStore s
  | .badCommand code => Sys2Proof.Machine.execBadCommand code s
  | .dataWrite word => Sys2Proof.Machine.execDataWrite word s
  | .dataRead => Sys2Proof.Machine.execDataRead s
  | .statusRead => Sys2Proof.Machine.execStatusRead s
  | .abort => Sys2Proof.Machine.execAbort s
  | .portReset => Sys2Proof.Machine.execPortReset s
  | .acknowledge word => Sys2Proof.Machine.execAcknowledge word s
  | .intmaskWrite word => Sys2Proof.Machine.execIntmaskWrite word s
  | .registerWrite address word => Sys2Proof.Machine.execRegisterWrite address word s
  | .dataTimeout => Sys2Proof.Machine.execDataTimeout s
  | .idleTimerExpiry => Sys2Proof.Machine.execIdleTimerExpiry s
  | .attemptTimeout left => Sys2Proof.Machine.execAttemptTimeout left s
  | .bankProbe answer => Sys2Proof.Machine.execBankProbe answer s
  | .headerRead attempt => Sys2Proof.Machine.execHeaderRead attempt s
  | .recordRead attempt => Sys2Proof.Machine.execRecordRead attempt s
  | .blankCheck attempt => Sys2Proof.Machine.execBlankCheck attempt s
  | .recordProgram outcome => Sys2Proof.Machine.execRecordProgram outcome s
  | .headerProgram outcome => Sys2Proof.Machine.execHeaderProgram outcome s
  | .segmentErase outcome => Sys2Proof.Machine.execSegmentErase outcome s
  | .commitBegin => Sys2Proof.Machine.execCommitBegin s
  | .reclaimSelection => Sys2Proof.Machine.execReclaimSelection s
  | .slotWaitEnd => Sys2Proof.Machine.execSlotWaitEnd s
  | .writeThroughComplete => Sys2Proof.Machine.execWriteThroughComplete s
  | .syncComplete => Sys2Proof.Machine.execSyncComplete s
  | .drainEnd => Sys2Proof.Machine.execDrainEnd s
  | .commitHaltEnd => Sys2Proof.Machine.execCommitHaltEnd s
  | .resetAsserted cut => Sys2Proof.Machine.execResetAsserted cut s
  | .powerLoss cut => Sys2Proof.Machine.execPowerLoss cut s
  | .refusedWrite target => Sys2Proof.Machine.execRefusedWrite target s

end Sys2Proof.Machine
end

