-- ==== Sys2Proof/Safety.lean ====
section
/-! DEFINITION. What the statements are about: the laws of the device (the canonical form of the medium, the
ranges of what the part counts, the order of the Key Index, the agreement of the port's state, command in
progress, data phase and result), the conditions under which a command completes, the end of a command and the entry into HALTED, and the acceptance checks of
STORE and REMOVE as the tables of R164 and R167 give them. -/

namespace Sys2Proof.Machine

/-- The medium is in canonical form: addresses strictly rising, no erased byte listed. -/
def State.mediumCanonical (s : State) : Prop := Memory.wf s.medium = true

/-- The counters lie in their ranges (R182). -/
def Counters.inRange (c : Counters) : Prop :=
  c.recoveredReads ≤ 65535 ∧ c.unreadableReads ≤ 65535 ∧ c.programFailures ≤ 65535 ∧
    c.eraseFailures ≤ 65535 ∧ c.mediumTimeouts ≤ 65535 ∧ c.lostRecords ≤ 65535 ∧ c.refreshDrops ≤ 65535

/-- The Refresh List holds at most 8 tags, none twice (R114). -/
def Reclaim.listLaw (r : Reclaim) : Prop := r.refreshList.length ≤ 8 ∧ r.refreshList.Nodup

/-- Every setting in its range (R161), the Refresh List's law (R114), the fairness count from 0 to 8 (R131), the
health counters from 0 to 65535 (R182), the bundle identifier from 1 to 255 (R13). -/
def State.rangesHold (s : State) : Prop :=
  s.window.options.inRange = true ∧ s.reclaim.listLaw ∧ s.sequencer.fairness ≤ 8 ∧
    s.health.counters.inRange ∧ 1 ≤ s.window.nextBundle ∧ s.window.nextBundle ≤ 255

/-- The Key Index is in ascending order of tag, with no tag twice (R16). -/
def State.indexOrdered (s : State) : Prop := s.index.entries.Pairwise fun a b => a.tag < b.tag

/-- The command in progress agrees with the port state, the data phase and the result (R150, R153, R154,
R156): with no command the port is MOUNTING, IDLE or DRAINING; in a data phase it is RECEIVING or SENDING with
words left and the timer running; else it is EXECUTING; and a command in progress shows RESULT NONE. -/
def Port.coherent (p : Port) : Bool :=
  let still := p.residue == 0 && p.dataTimer.isNone
  let clear := p.result == .none && p.detail == 0
  match p.activity with
  | .none => (p.state == .mounting || p.state == .idle || p.state == .draining) && still
  | .slotWait _ => p.state == .executing && still && clear
  | .throughWait _ => p.state == .executing && still && clear
  | .syncWait => p.state == .executing && still && clear
  | .fetch _ => p.state == .executing && still && clear
  | .eraseStore _ => p.state == .executing && still && clear
  | .payload _ _ _ => p.state == .receiving && decide (1 ≤ p.residue) && p.dataTimer.isSome && clear
  | .descriptor _ _ => p.state == .receiving && decide (1 ≤ p.residue) && p.dataTimer.isSome && clear
  | .sending _ => p.state == .sending && decide (1 ≤ p.residue) && p.dataTimer.isSome && clear

/-- The port's law: it is coherent; while the part runs it is MOUNTING exactly while mount runs, and while it
does not run no mount runs and no command is in progress; and it is DRAINING only with PFW# asserted (R150). -/
def State.portLaw (s : State) : Prop :=
  s.port.coherent = true ∧
    (s.power = .on → (s.port.state = .mounting ↔ s.mount.isSome = true)) ∧
    (s.power ≠ .on → s.port.state = .mounting ∧ s.mount = none) ∧
    (s.port.state = .draining → s.pfw = true)

/-! ## Conditions -/

/-- The part runs and mount has ended (R132, R136). -/
abbrev State.awake (s : State) : Prop := s.power = .on ∧ s.mount = none

/-- The port takes a command: mount has ended, the port is IDLE and PFW# is deasserted (R150, R153). -/
abbrev State.ready (s : State) : Prop := s.awake ∧ s.port.state = .idle ∧ s.pfw = false

/-- The waits that the blocks' own work can end: slot wait, write-through wait, SYNC and ERASE STORE (R50, R56,
R172, R174). -/
def Activity.waits : Activity → Bool
  | .slotWait _ => true
  | .throughWait _ => true
  | .syncWait => true
  | .eraseStore _ => true
  | .none => false
  | .payload _ _ _ => false
  | .descriptor _ _ => false
  | .fetch _ => false
  | .sending _ => false

/-- Every cause of the first set is in the second. -/
def Causes.within (a b : Causes) : Prop :=
  (a.done = true → b.done = true) ∧ (a.data = true → b.data = true) ∧
    (a.mounted = true → b.mounted = true) ∧ (a.deferred = true → b.deferred = true) ∧
    (a.health = true → b.health = true) ∧ (a.drained = true → b.drained = true)

/-! ## The end of a command -/

/-- A command ended with this RESULT, PFW# being deasserted (R153, R52): the port is IDLE with RESIDUE 0 and its
timer stopped, RESERVED slots are FREE, DONE is raised, and the idle timer runs from zero when the PWL is empty
and IDLE_DELAY is not 0 (R162). -/
def State.completedAs (s : State) (result : ResultCode) (detail : Nat) : State :=
  { s with
    port := ⟨.idle, .none, 0, result, detail, none⟩
    causes := { s.causes with done := true }
    idle := { s.idle with running :=
      if s.staging.pwl = [] ∧ s.window.options.idleDelay ≠ 0 then some s.window.options.idleDelay else none }
    staging := { s.staging with slots :=
      (s.staging.slots.map fun x => if x.state = .reserved then { x with state := .free } else x) } }

/-- A command taken and ended in the same step: COMMAND holds its code, and the idle qualification is
cancelled (R153). -/
def State.endedAs (s : State) (code : Word) (result : ResultCode) (detail : Nat) : State :=
  ({ s with window := { s.window with command := code }, idle := ⟨none, false⟩ } : State).completedAs
    result detail

/-- A command taken that goes on: COMMAND holds its code, RESULT is NONE, the idle timer is stopped and the
idle qualification cancelled; the port state, activity, RESIDUE and timer are as given (R153). -/
def State.goesOn (s : State) (code : Word) (state : PortState) (activity : Activity) (residue : Nat)
    (timer : Option Nat) : State :=
  { s with
    window := { s.window with command := code }
    port := ⟨state, activity, residue, .none, 0, timer⟩
    idle := ⟨none, false⟩ }

/-- A command at its append (R56): in write-back it completes with NONE; in write-through it waits in EXECUTING
for the entries in its slots to leave the list, or ends with the halt's code while the Commit Engine is HALTED. -/
def State.atAppend (s : State) (through : Bool) (slots : List Nat) : State :=
  if through = false ∧ s.window.options.writeBack ≠ 0 then s.completedAs .none 0
  else
    match s.commit.state with
    | .halted r => s.completedAs r.code 0
    | .idle | .running | .waiting =>
      { s with port := ⟨.executing, .throughWait slots, 0, s.port.result, s.port.detail, none⟩ }

/-- The entries that a bundle's members append, in position order, each with its slot (R46). -/
def Work.bundleAppend (w : Work) (identifier : Nat) (slots : List Nat) : List PwlEntry :=
  (w.members.zip slots).mapIdx fun k x =>
    ⟨.write, x.1.tag, x.1.length, x.1.protect, identifier, some (k + 1, w.members.length), x.2, false⟩

/-! ## Halts -/

/-- The staging buffer as a halt leaves it (R42, R45, R91): no entry carries the in-commit flag, and a standalone head
that a later standalone entry for its tag supersedes has left the list, its slot FREE. That it leaves also when its flag
was clear before the halt is the model's choice (log 34). -/
def Staging.released (g : Staging) : Staging :=
  let cleared : Staging := { g with pwl := g.pwl.map fun e => { e with inCommit := false } }
  match g.pwl with
  | [] => cleared
  | e :: rest =>
    if e.bundle = 0 ∧ ∃ x ∈ rest, x.tag = e.tag ∧ x.bundle = 0 then cleared.removeEntries fun x => x.slot == e.slot
    else cleared

/-- The Commit Engine HALTED with this reason (R91): its unit is dropped, its request withdrawn and its entries
released, DEFERRED is raised, and a slot wait, a write-through wait or SYNC ends with the halt's code, PFW# being
deasserted while there is one. -/
def State.haltedAs (s : State) (reason : HaltReason) : State :=
  let t : State := { s with
    staging := s.staging.released
    commit := ⟨.halted reason, none, 0⟩
    causes := { s.causes with deferred := true }
    sequencer := { s.sequencer with requests := { s.sequencer.requests with commit := .absent } } }
  match s.port.activity with
  | .slotWait _ | .throughWait _ | .syncWait => t.completedAs reason.code 0
  | .none | .payload _ _ _ | .descriptor _ _ | .fetch _ | .sending _ | .eraseStore _ => t

/-! ## Acceptance checks -/

/-- STORE's acceptance checks in the order of R164: the code of the first that fails, NONE when all pass. -/
def State.storeVerdict (s : State) : ResultCode :=
  let tag := s.window.tag.toNat
  if tag < 1 ∨ 65534 < tag then .badParameter
  else if 1024 < s.window.length.toNat then .badParameter
  else if s.readOnly = true then .readOnly
  else if s.space.state = .full then .storeFull
  else if (s.visible tag).isProtected = true ∧ s.window.option.getLsbD 1 = false then .tagProtected
  else if s.lookup tag = none ∧ s.hasWrite tag = false ∧
      1024 < s.index.entries.length + s.index.reservations + 1 then .indexFull
  else .none

/-- REMOVE's acceptance checks in the order of R167: the code of the first that fails, NONE when all pass. -/
def State.removeVerdict (s : State) : ResultCode :=
  let tag := s.window.tag.toNat
  if tag < 1 ∨ 65534 < tag then .badParameter
  else if s.readOnly = true then .readOnly
  else if s.visible tag = .absent then .notFound
  else if s.space.state = .full ∧ s.removeHasPage = false then .storeFull
  else if (s.visible tag).isProtected = true ∧ s.window.option.getLsbD 1 = false then .tagProtected
  else .none

/-! ## The bytes an operation concerns -/

/-- The first byte of the medium that a program or an erase may change, and how many (R58, R121, R122); reads
and probes change none. -/
def Op.writes : Op → Nat × Nat
  | .recordProgram segment page record => (mediumAddress segment page 0, (recordBytes record).length)
  | .headerProgram segment slot => (mediumAddress segment 0 slot.place, 16)
  | .segmentErase segment => (mediumAddress segment 0 0, 32768)
  | .bankProbe _ => (0, 0)
  | .headerReadPage _ => (0, 0)
  | .headerReadRecord _ _ => (0, 0)
  | .recordRead _ _ _ _ _ => (0, 0)
  | .blankCheck _ _ => (0, 0)

/-! ## Records that can be stored -/

/-- A record's fields lie in the ranges of R1, with its payload of `length` bytes. -/
def Record.storable (r : Record) : Prop :=
  1 ≤ r.tag ∧ r.tag ≤ 65534 ∧ 1 ≤ r.sequence ∧ r.sequence ≤ 4294967294 ∧
    r.length = r.payload.length ∧ r.length ≤ 1024 ∧
    (r.kind = .data → r.prior = 0) ∧
    (r.kind ≠ .data →
      r.length = 0 ∧ r.protect = false ∧ r.bundle = 0 ∧ 1 ≤ r.prior ∧ r.prior < r.sequence) ∧
    (match r.position with
     | none => r.bundle = 0
     | some (i, n) => 1 ≤ r.bundle ∧ r.bundle ≤ 255 ∧ 2 ≤ n ∧ n ≤ 8 ∧ 1 ≤ i ∧ i ≤ n)

end Sys2Proof.Machine
end

