-- ==== Sys2Proof/WellFormed.lean ====
section
/-! DEFINITION. Which operands a command may carry. -/

namespace Sys2Proof

/-- The eleven command codes (R186). -/
def commandCodes : List Word :=
  [0x10#16, 0x11#16, 0x12#16, 0x20#16, 0x21#16, 0x22#16, 0x30#16, 0x40#16, 0x41#16, 0x50#16, 0x60#16]

/-- Every offset of a patch lies within a segment of 32 KiB (R58). -/
def Patch.wf (p : Patch) : Bool := p.all fun c => decide (c.1 < 32768)

/-- A remnant's offsets lie within a segment. -/
def Remnant.wf (r : Remnant) : Bool := Patch.wf r.bytes

/-- A read attempt's offsets lie within a segment. -/
def ReadAttempt.wf : ReadAttempt → Bool
  | .ready noise => Patch.wf noise
  | .timeout => true

/-- A remnant left by an end of a program or an erase is within a segment. -/
def MediumEnd.wf : MediumEnd → Bool
  | .done => true
  | .failed left => left.wf
  | .timeout left => left.wf

/-- A register address whose write has a row of its own: DATA, COMMAND, acknowledge and INTMASK, and
CONTROL when the word names ABORT or PORT RESET (R185). -/
def hasOwnRow (address : BitVec 4) (word : Word) : Bool :=
  address == 0#4 || address == 6#4 || address == 10#4 || address == 11#4 ||
    (address == 9#4 && (word.getLsbD 0 || word.getLsbD 1))

/-- The commands whose operands are as the table's rows say. -/
def Instr.wf : Instr → Bool
  | .hardReset cut => cut.wf
  | .pfwAsserted => true
  | .pfwDeasserted => true
  | .store => true
  | .storeBundle => true
  | .remove => true
  | .fetch => true
  | .describe => true
  | .enumerate => true
  | .sync => true
  | .setOption => true
  | .readOption => true
  | .healthReport => true
  | .eraseStore => true
  | .badCommand code => !commandCodes.contains code
  | .dataWrite _ => true
  | .dataRead => true
  | .statusRead => true
  | .abort => true
  | .portReset => true
  | .acknowledge _ => true
  | .intmaskWrite _ => true
  | .registerWrite address word => !hasOwnRow address word
  | .dataTimeout => true
  | .idleTimerExpiry => true
  | .attemptTimeout left => left.wf
  | .bankProbe _ => true
  | .headerRead attempt => attempt.wf
  | .recordRead attempt => attempt.wf
  | .blankCheck attempt => attempt.wf
  | .recordProgram outcome => outcome.wf
  | .headerProgram outcome => outcome.wf
  | .segmentErase outcome => outcome.wf
  | .commitBegin => true
  | .reclaimSelection => true
  | .slotWaitEnd => true
  | .writeThroughComplete => true
  | .syncComplete => true
  | .drainEnd => true
  | .commitHaltEnd => true
  | .resetAsserted cut => cut.wf
  | .powerLoss cut => cut.wf
  | .refusedWrite _ => true

end Sys2Proof
end

