-- ==== Sys2Proof/Certificates/Slice0/Obligations.lean ====
section
/-! DEFINITION. The statements for the provers. `s.finish` is the end of a step: the consequences of the
event, the reservation count, and the requests that stand (R10, R21, R24, R129; log 4). -/

open Sys2Proof Sys2Proof.Machine

/-! ## The queue and every command -/

/-- A step takes the command at the front of the queue and executes it with the rest of the queue; on an
empty queue the part idles (log 2). -/
def Obligations.StepRunsFrontCommand : Prop :=
  (∀ (c : Instr) (rest : List Instr) (s : State),
    step { s with pending := c :: rest } = exec c { s with pending := rest }) ∧
  (∀ s : State, s.pending = [] → step s = .next s)

/-- Every command completes, and leaves the queue as it is, but for an answer of the medium to an operation
on a segment or page that does not exist, which is the model's one fault (log 28). -/
def Obligations.EveryCommandCompletes : Prop :=
  ∀ (c : Instr) (s : State),
    (∀ f : InFlight, s.sequencer.inFlight = some f → s.opExists f.op = true) →
    ∃ t : State, exec c s = .next t ∧ t.pending = s.pending

/-- An answer of the medium to an operation on a segment or page that does not exist stops with the fault
`noSuchAddress` (log 28). -/
def Obligations.AnswerForMissingAddressFaults : Prop :=
  ∀ (c : Instr) (s : State) (f : InFlight),
    s.power = .on → s.sequencer.inFlight = some f → s.opExists f.op = false →
    ((∃ left, c = .attemptTimeout left) ∨ (∃ a, c = .bankProbe a) ∨ (∃ a, c = .headerRead a) ∨
      (∃ a, c = .recordRead a) ∨ (∃ a, c = .blankCheck a) ∨ (∃ o, c = .recordProgram o) ∨
      (∃ o, c = .headerProgram o) ∨ (∃ o, c = .segmentErase o)) →
    exec c s = .fault .noSuchAddress

/-- The bytes of the medium: no command changes a byte outside those that the program or erase in flight
writes; and with no operation in flight, or with any command that is neither an answer of the medium to a
program or erase nor a reset, no byte changes at all (R121, R122, R136). -/
def Obligations.MediumFrame : Prop :=
  ∀ (c : Instr) (s t : State), exec c s = .next t →
    (s.sequencer.inFlight = none → t.medium = s.medium) ∧
    (∀ f : InFlight, s.sequencer.inFlight = some f → ∀ a : Nat,
      (a < f.op.writes.1 ∨ f.op.writes.1 + f.op.writes.2 ≤ a) →
      Memory.read t.medium a = Memory.read s.medium a) ∧
    ((∀ cut, c ≠ .hardReset cut) → (∀ cut, c ≠ .resetAsserted cut) → (∀ cut, c ≠ .powerLoss cut) →
      (∀ left, c ≠ .attemptTimeout left) → (∀ o, c ≠ .recordProgram o) → (∀ o, c ≠ .headerProgram o) →
      (∀ o, c ≠ .segmentErase o) → t.medium = s.medium)

/-- The frame of the host's accesses, but for BAD_COMMAND, REGISTER_WRITE and REFUSED_WRITE, and of the port's
timers: the PFW# input, the supply, mount and its report stand, and so do the option table (but for SET OPTION),
the enable mask (but for INTMASK writes) and the bundle identifier rotation (but for a descriptor's last word). -/
def Obligations.HostAccessFrame : Prop :=
  ∀ (c : Instr) (s t : State),
    c ∈ ([.store, .storeBundle, .remove, .fetch, .describe, .enumerate, .sync, .setOption, .readOption,
      .healthReport, .eraseStore, .dataRead, .statusRead, .abort, .portReset, .dataTimeout,
      .idleTimerExpiry] : List Instr) ∨ (∃ w, c = .dataWrite w) ∨ (∃ w, c = .acknowledge w) ∨
      (∃ w, c = .intmaskWrite w) →
    exec c s = .next t →
    t.pfw = s.pfw ∧ t.power = s.power ∧ t.mount = s.mount ∧ t.mountReport = s.mountReport ∧
    (c ≠ .setOption → t.window.options = s.window.options) ∧
    ((∀ w, c ≠ .intmaskWrite w) → t.window.mask = s.window.mask) ∧
    ((∀ w, c ≠ .dataWrite w) → t.window.nextBundle = s.window.nextBundle)

/-- The frame of the blocks' own steps and of the ends of programs and erases: every register of the window,
the option table, the mask, the read frame and the rotation stand; and where no wait of a command is in
progress, the port stands as well, RESULT and RESIDUE included. -/
def Obligations.BackgroundFrame : Prop :=
  ∀ (c : Instr) (s t : State),
    c ∈ ([.commitBegin, .reclaimSelection, .slotWaitEnd, .writeThroughComplete, .syncComplete, .drainEnd,
      .commitHaltEnd] : List Instr) ∨ (∃ o, c = .recordProgram o) ∨ (∃ o, c = .headerProgram o) ∨
      (∃ o, c = .segmentErase o) →
    exec c s = .next t →
    t.window = s.window ∧ t.pfw = s.pfw ∧ t.power = s.power ∧ t.mount = s.mount ∧
    t.mountReport = s.mountReport ∧ (s.port.activity.waits = false → t.port = s.port)

/-- What follows an event in its own step. No cause leaves the pending set (R159). At the end of the step the
reservation count is the number of distinct tags without an index entry that a staged WRITE names, or a STORE or
STORE BUNDLE past its checks and before its append (R21; that it is counted there is log 31). When a health
condition differs from the quantity it reads, the next consequence sets all five to what they read, and raises
HEALTH exactly when one becomes active (R183). When none does, the space state follows: it stays FULL while F is
below 2 and no segment is eligible, and is otherwise LOW_SPACE or NORMAL by F and LOW_WATERMARK (R75, R76, R103).
When no consequence is left, both stand so. That these two come first among the consequences is log 4. -/
def Obligations.ConsequencesFollowTheState : Prop :=
  ∀ s : State,
    s.causes.within s.finish.causes ∧
    (let t := s.finish
     t.index.reservations = t.reservingTags.length ∧ t.reservingTags.Nodup ∧
     ∀ tag : Nat, tag ∈ t.reservingTags ↔
       t.lookup tag = none ∧
        ((∃ e ∈ t.staging.pwl, e.kind = .write ∧ e.tag = tag) ∨
         (∃ w : Work, t.port.activity = .slotWait w ∧ w.kind ≠ .remove ∧ ∃ m ∈ w.members, m.tag = tag) ∨
         (∃ (w : Work) (slots : List Nat) (i : Nat), t.port.activity = .payload w slots i ∧
           ∃ m ∈ w.members, m.tag = tag))) ∧
    (let now := s.conditionsNow
     let old := s.health.conditions
     let eligible := fun g : Segment =>
       (g.state = .filled ∧ 1 ≤ g.dead ∧ g.number ∉ s.reclaim.exclusion ∧
         (s.space.freeList = [] → g.live = 0)) ∨
       (g.state = .reclaiming ∧ ∃ j : Job, s.reclaim.job = some j ∧ j.kind = .segment g.number)
     let staysFull := s.space.state = .full ∧ s.space.freeList.length < 2 ∧
       ∀ g ∈ s.space.segments, ¬ eligible g
     let byFree : SpaceState :=
       if s.space.freeList.length ≤ s.window.options.lowWatermark then .lowSpace else .normal
     let rise := (now.spareLow = true ∧ old.spareLow = false) ∨ (now.wearHigh = true ∧ old.wearHigh = false) ∨
       (now.spaceFull = true ∧ old.spaceFull = false) ∨
       (now.storeReadOnly = true ∧ old.storeReadOnly = false) ∨
       (now.recordsLost = true ∧ old.recordsLost = false)
     (now.spareLow = true ↔
       s.window.options.retireAlert ≤ s.space.segments.countP fun g => g.state == .retired) ∧
     (1 ≤ s.window.options.wearAlert → (now.wearHigh = true ↔
       ∃ g ∈ s.space.segments, g.state ≠ .retired ∧ s.window.options.wearAlert * 1000 ≤ g.eraseCount)) ∧
     (now.spaceFull = true ↔ s.space.state = .full) ∧
     (now.storeReadOnly = true ↔
       s.space.reasons.worn = true ∨ s.space.reasons.sequence = true ∨ s.space.reasons.degraded = true) ∧
     (now.recordsLost = true ↔ ∃ e ∈ s.index.entries, ∃ prior : Nat, e.kind = .lost prior) ∧
     (s.awake →
       (old ≠ now → rise → consequence s = some { s with
         health := { s.health with conditions := now }, causes := { s.causes with health := true } }) ∧
       (old ≠ now → ¬ rise → consequence s = some { s with
         health := { s.health with conditions := now } }) ∧
       (old = now → ¬ staysFull → s.space.state ≠ byFree → consequence s = some { s with
         space := { s.space with state := byFree } }) ∧
       (consequence s = none → old = now ∧ (staysFull ∨ s.space.state = byFree))))

/-! ## Reset and the supply -/

/-- Right after a hard reset: MOUNTING with mount's first probe in flight; every register, RESULT, RESIDUE and
the causes and mask clear; the option table at its defaults; every slot FREE and the PWL empty; no index entry,
no reservation; the engine IDLE, the Reclaimer idle with empty lists; no request, no pin, fairness 0; no drain
result; counters 0 and conditions inactive (R55, R98, R134, R135, R163, R180, R182). That no word was read (busOut)
is log 30, and that no selection has been noted (evaluated) is log 24: both fields are the model's own. -/
def Obligations.ResetState : Prop :=
  let s := State.reset
  s.port = ⟨.mounting, .none, 0, .none, 0, none⟩ ∧
  s.window = ⟨0, 0, 0, 0, 0, 0, 0, 0, false, ⟨1, 3, 1, 20, 3, 50, 8, 90, 20⟩, Causes.empty,
    List.replicate 512 0, 1, none⟩ ∧
  s.causes = Causes.empty ∧ s.idle = ⟨none, false⟩ ∧
  s.staging.pwl = [] ∧ s.staging.slots.length = 16 ∧ (∀ x ∈ s.staging.slots, x.state = .free) ∧
  s.index.entries = [] ∧ s.index.reservations = 0 ∧ s.commit.state = .idle ∧ s.reclaim = ⟨none, [], [], none⟩ ∧
  s.sequencer = ⟨some ⟨.mount, .bankProbe 0, 0, 1, none⟩, ⟨.absent, .absent, .absent, .absent⟩, 0, none⟩ ∧
  s.mount = some MountWork.begin ∧ s.drain = ⟨false, .none, 0⟩ ∧
  s.health = ⟨⟨0, 0, 0, 0, 0, 0, 0⟩, ⟨false, false, false, false, false⟩⟩

/-- A hard reset discards all chip state; the PFW# input, the queue, the model's own choice counter and the
medium stay, the medium but for what the operation in flight leaves when it is cut (R121, R135). -/
def Obligations.HardResetDiscardsChipState : Prop :=
  ∀ (cut : Remnant) (s : State),
    exec (.hardReset cut) s = .next
      { State.reset with
        pending := s.pending, pfw := s.pfw, choices := s.choices
        medium := match s.sequencer.inFlight with
          | some f => f.op.leave s.medium cut
          | none => s.medium }

/-- RESET# asserted, or the supply lost: all chip state is gone, nothing is in flight and no mount runs; the
medium keeps its bytes but for those of the operation cut (R136). That the part stays so until the release, and
that RESET# changes nothing in a part without supply, is log 12; that the level of PFW# is kept is log 13, and that
the counter of the free choices is kept is log 1. -/
def Obligations.CutLosesChipState : Prop :=
  ∀ (cut : Remnant) (s : State),
    let lost := fun (p : Power) =>
      ({ State.reset with
        pending := s.pending, pfw := s.pfw, choices := s.choices, power := p, mount := none
        sequencer := ⟨none, ⟨.absent, .absent, .absent, .absent⟩, 0, none⟩
        medium := match s.sequencer.inFlight with
          | some f => f.op.leave s.medium cut
          | none => s.medium } : State)
    exec (.powerLoss cut) s = .next (lost .off) ∧
    (s.power ≠ .off → exec (.resetAsserted cut) s = .next (lost .held)) ∧
    (s.power = .off → exec (.resetAsserted cut) s = .next s)

/-- PFW# asserted (R176-R179). During mount only the input is noted. With no command in progress the port enters
DRAINING, the drain begins, and a reclaim job is marked to be abandoned; ERASE STORE records the assertion unless it
has recorded an end before; in both cases a WAITING engine requests the port again, a NO_SPACE halt ends when F is
1 or more, the unit at the head being begun (here a standalone WRITE), and any other engine goes on or stays halted.
A command in progress other than ERASE STORE ends with POWER_FAIL and DONE. A job so marked is abandoned once no
operation of it is in flight: a RECLAIMING victim returns to FILLED, or becomes RETIRING when it has reached the
wear limit, a RETIRING one stays, the request is withdrawn, and the Refresh List and the exclusion set stay, unless
ERASE STORE is the command in progress, with which both are emptied in that step (R116). -/
def Obligations.PfwAssertedDrains : Prop :=
  (∀ s : State, s.power = .on → s.pfw = false →
    (s.mount.isSome = true → exec .pfwAsserted s = .next ({ s with pfw := true } : State).finish) ∧
    (∀ t : State, s.mount = none →
      ((s.port.activity = .none ∧ t = { s with
          pfw := true, port := { s.port with state := .draining }
          drain := { s.drain with running := true }, idle := ⟨none, false⟩
          reclaim := { s.reclaim with job := s.reclaim.job.map fun j => { j with abandoning := true } } }) ∨
        (∃ p : EraseProgress, s.port.activity = .eraseStore p ∧ t = { s with
          pfw := true, port := { s.port with
            activity := .eraseStore { p with firstEnd := some (p.firstEnd.getD .powerFail) } } })) →
      (s.commit.state = .idle ∨ s.commit.state = .running ∨ s.commit.state = .halted .medium ∨
          s.commit.state = .halted .readOnly ∨ (s.commit.state = .halted .noSpace ∧ s.space.freeList = []) →
        exec .pfwAsserted s = .next t.finish) ∧
      (s.commit.state = .waiting →
        exec .pfwAsserted s = .next ({ t with sequencer := { s.sequencer with requests :=
          { s.sequencer.requests with commit := s.sequencer.requests.commit.lodge } } } : State).finish) ∧
      (∀ (e : PwlEntry) (rest : List PwlEntry), s.commit.state = .halted .noSpace → s.space.freeList ≠ [] →
        s.staging.pwl = e :: rest → e.kind = .write → e.position = none → s.readOnly = false →
        s.index.nextSequence ≤ 4294967294 →
        exec .pfwAsserted s = .next
          ({ t with
            staging := { s.staging with pwl := { e with inCommit := true } :: rest }
            index := { s.index with nextSequence := s.index.nextSequence + 1 }
            commit := ⟨.running, some ⟨s.index.nextSequence, 0, 0⟩, 0⟩
            sequencer := { s.sequencer with requests := { s.sequencer.requests with
              commit := s.sequencer.requests.commit.lodge } } } : State).finish)) ∧
    (s.mount = none → s.erasing = false → s.port.activity ≠ .none →
      ∃ t : State, exec .pfwAsserted s = .next t ∧ t.pfw = true ∧
        t.port = ⟨.draining, .none, 0, .powerFail, 0, none⟩ ∧ t.causes.done = true ∧ t.window = s.window)) ∧
  (∀ (s : State) (j : Job), s.reclaim.job = some j → j.abandoning = true → s.reclaimerInFlight = false →
    ∃ t : State, jobAbandon s = some t ∧ jobAbandon ∈ consequences ∧
      t.reclaim = (if s.erasing = true then ⟨none, [], [], none⟩ else { s.reclaim with job := none }) ∧
      t.sequencer.requests.reclaimer = .absent ∧
      (∀ tag : Nat, j.kind = .refresh tag → t.space = s.space) ∧
      (∀ v : Nat, j.kind = .segment v → t.space = { s.space with segments := s.space.segments.map fun g =>
        if g.number = v ∧ g.state = .reclaiming then
          (if 100000 ≤ g.eraseCount then
            { g with state := .retiring, reason := some .worn, mark := some .none }
          else { g with state := .filled })
        else g }) ∧
      t.index = s.index ∧ t.staging = s.staging ∧ t.port = s.port ∧ t.medium = s.medium)

/-- PFW# deasserted while DRAINING: the port enters IDLE, and a drain that has not ended is CUT_SHORT with the
number of entries left (R180, R181). -/
def Obligations.PfwDeassertedEndsDrain : Prop :=
  ∀ s : State, s.power = .on → s.pfw = true → s.port.state = .draining →
    exec .pfwDeasserted s = .next
      ({ s with
        pfw := false
        port := { s.port with state := .idle }
        drain := if s.drain.running = true then ⟨false, .cutShort, s.staging.pwl.length⟩ else s.drain
        idle := { s.idle with running :=
          if s.staging.pwl = [] ∧ s.window.options.idleDelay ≠ 0 then some s.window.options.idleDelay
          else none } } : State).finish

/-! ## Commands of the host: ends and refusals -/

/-- An unknown code is taken and ends at once with BAD_COMMAND (R153). -/
def Obligations.UnknownCodeEndsBadCommand : Prop :=
  ∀ (code : Word) (s : State), s.ready → code ∉ commandCodes →
    exec (.badCommand code) s = .next (s.endedAs code .badCommand 0).finish

/-- A STORE that fails a check ends with the code of the first that fails, detail 0, in the order of R164. -/
def Obligations.StoreChecksInOrder : Prop :=
  ∀ s : State, s.ready → s.storeVerdict ≠ .none →
    exec .store s = .next (s.endedAs 0x10 s.storeVerdict 0).finish

/-- A STORE with a payload that passes its checks while a slot is FREE reserves the lowest FREE slot and enters
RECEIVING with RESIDUE at half its length rounded up, DATA raised and the timer started (R39, R154, R164). -/
def Obligations.StoreReceivesPayload : Prop :=
  ∀ (s : State) (slot : Nat) (others : List Nat), s.ready → s.storeVerdict = .none →
    freeSlots s.staging.slots = slot :: others → 0 < s.window.length.toNat →
    exec .store s = .next
      ({ s.goesOn 0x10 .receiving
          (.payload ⟨.store, [⟨s.window.tag.toNat, s.window.length.toNat, s.window.option.getLsbD 0⟩],
            s.window.option.getLsbD 2⟩ [slot] 0)
          ((s.window.length.toNat + 1) / 2) (some s.window.options.dataTimeout) with
        causes := { s.causes with data := true }
        staging := { s.staging with slots := s.staging.slots.modify slot fun x =>
          { x with state := .reserved } } } : State).finish

/-- With a slot FREE, a STORE of length 0 appends its WRITE and a REMOVE its DELETE in the step in which it is
taken, coalescing the tag's standalone entry that is not in commit (R43, R44, R45). In write-back it completes
there with NONE; with THROUGH set or WRITE_BACK 0 it waits in EXECUTING for its entry, or ends with the halt's code
while the Commit Engine is HALTED (R56). -/
def Obligations.EmptyPayloadAppendsAtOnce : Prop :=
  ∀ (s : State) (slot : Nat) (others : List Nat), s.ready → freeSlots s.staging.slots = slot :: others →
    let appended := fun (e : PwlEntry) =>
      ({ s with staging := ((({ s.staging with slots := (s.staging.slots.modify slot fun x =>
          { x with state := .reserved }) } : Staging).removeEntries fun x =>
            x.tag == e.tag && x.bundle == 0 && !x.inCommit).append [e]) } : State)
    let through := s.window.option.getLsbD 2
    (s.storeVerdict = .none → s.window.length = 0 →
      exec .store s = .next (((appended
        ⟨.write, s.window.tag.toNat, 0, s.window.option.getLsbD 0, 0, none, slot, false⟩).goesOn
          0x10 .executing .none 0 none).atAppend through [slot]).finish) ∧
    (s.removeVerdict = .none →
      exec .remove s = .next (((appended
        ⟨.delete, s.window.tag.toNat, 0, false, 0, none, slot, false⟩).goesOn
          0x12 .executing .none 0 none).atAppend through [slot]).finish)

/-- With no slot FREE, a STORE or REMOVE that passes its checks ends with the halt's code when the Commit Engine
is HALTED, and otherwise waits in EXECUTING for a slot (R50, R51). -/
def Obligations.NoFreeSlotWaitsOrEnds : Prop :=
  ∀ s : State, s.ready → freeSlots s.staging.slots = [] →
    let wait := fun (code : Word) (w : Work) =>
      match s.commit.state with
      | .halted r => s.endedAs code r.code 0
      | .idle => s.goesOn code .executing (.slotWait w) 0 none
      | .running => s.goesOn code .executing (.slotWait w) 0 none
      | .waiting => s.goesOn code .executing (.slotWait w) 0 none
    (s.storeVerdict = .none →
      exec .store s = .next (wait 0x10
        ⟨.store, [⟨s.window.tag.toNat, s.window.length.toNat, s.window.option.getLsbD 0⟩],
          s.window.option.getLsbD 2⟩).finish) ∧
    (s.removeVerdict = .none →
      exec .remove s = .next (wait 0x12
        ⟨.remove, [⟨s.window.tag.toNat, 0, false⟩], s.window.option.getLsbD 2⟩).finish)

/-- A REMOVE that fails a check ends with the code of the first that fails, detail 0, in the order of R167. -/
def Obligations.RemoveChecksInOrder : Prop :=
  ∀ s : State, s.ready → s.removeVerdict ≠ .none →
    exec .remove s = .next (s.endedAs 0x12 s.removeVerdict 0).finish

/-- STORE BUNDLE with a COUNT outside 2 to 8 ends with BAD_PARAMETER; otherwise the port enters RECEIVING for a
descriptor of 3 words a member, with DATA raised and the timer started (R154, R165). -/
def Obligations.BundleCountCheck : Prop :=
  ∀ s : State, s.ready →
    let n := s.window.count.toNat
    (n < 2 ∨ 8 < n → exec .storeBundle s = .next (s.endedAs 0x11 .badParameter 0).finish) ∧
    (2 ≤ n ∧ n ≤ 8 →
      exec .storeBundle s = .next
        ({ s.goesOn 0x11 .receiving (.descriptor n (s.window.option.getLsbD 2)) (3 * n)
            (some s.window.options.dataTimeout) with
          causes := { s.causes with data := true } } : State).finish)

/-- The bundle's three checks by member name the first member that fails: the tag, length and distinctness of
check 1; the protection of check 4; and, for check 5, the first whose reservation would take entries and
reservations, so far `used`, above 1024, counting in position order the members that need one, so that every earlier
one still fits; and check 5 passes exactly when all of them fit (R22, R165). -/
def Obligations.BundleChecksNameTheFirstMember : Prop :=
  ∀ (s : State) (ms : List DescriptorMember) (p : Nat),
    (firstInvalid 1 [] ms = some p ↔
      ∃ d : DescriptorMember, 1 ≤ p ∧ ms[p - 1]? = some d ∧
        (d.member.tag < 1 ∨ 65534 < d.member.tag ∨ 1024 < d.member.length ∨
          d.member.tag ∈ (ms.take (p - 1)).map (·.member.tag)) ∧
        ∀ (q : Nat) (e : DescriptorMember), q + 1 < p → ms[q]? = some e →
          1 ≤ e.member.tag ∧ e.member.tag ≤ 65534 ∧ e.member.length ≤ 1024 ∧
          e.member.tag ∉ (ms.take q).map (·.member.tag)) ∧
    (s.firstProtected 1 ms = some p ↔
      ∃ d : DescriptorMember, 1 ≤ p ∧ ms[p - 1]? = some d ∧
        (s.visible d.member.tag).isProtected = true ∧ d.replace = false ∧
        ∀ (q : Nat) (e : DescriptorMember), q + 1 < p → ms[q]? = some e →
          (s.visible e.member.tag).isProtected = false ∨ e.replace = true) ∧
    (∀ d : DescriptorMember, s.needsReservation d.member.tag = true ↔
      s.lookup d.member.tag = none ∧ ∀ e ∈ s.staging.pwl, e.kind = .write → e.tag ≠ d.member.tag) ∧
    (∀ used : Nat,
      let needed := fun (n : Nat) => (ms.take n).countP fun e => s.needsReservation e.member.tag
      (s.firstOver used 1 ms = some p ↔
        ∃ d : DescriptorMember, 1 ≤ p ∧ ms[p - 1]? = some d ∧ s.needsReservation d.member.tag = true ∧
          1024 < used + needed (p - 1) + 1 ∧
          ∀ (q : Nat) (e : DescriptorMember), q + 1 < p → ms[q]? = some e →
            s.needsReservation e.member.tag = true → used + needed q + 1 ≤ 1024) ∧
      (used ≤ 1024 → (s.firstOver used 1 ms = none ↔ used + needed ms.length ≤ 1024)))

/-! ## Reading commands -/

/-- FETCH by the visible state of its tag (R48, R168): an invalid tag ends it with BAD_PARAMETER; an ABSENT tag
with NOT_FOUND; a LOST tag with LOST, LENGTH 0 and the loss marker's sequence; a STAGED tag is served from its
slot, with LENGTH the entry's and sequence 0, in a SENDING phase, or at once when its length is 0; for a STORED or
DAMAGED tag a READ request is lodged for the record its entry locates, and the command waits in EXECUTING. That the
words of the read frame beyond the payload stay is log 23. -/
def Obligations.FetchActsOnTheVisibleState : Prop :=
  ∀ s : State, s.ready →
    let tag := s.window.tag.toNat
    (tag < 1 ∨ 65534 < tag → exec .fetch s = .next (s.endedAs 0x20 .badParameter 0).finish) ∧
    (1 ≤ tag ∧ tag ≤ 65534 →
      (s.visible tag = .absent → exec .fetch s = .next (s.endedAs 0x20 .notFound 0).finish) ∧
      (∀ e : IndexEntry, s.visible tag = .lost e →
        exec .fetch s = .next (({ s with window := { s.window with
          length := 0, seqlo := word e.sequence, seqhi := word (e.sequence / 65536) } } : State).endedAs
            0x20 .lost 0).finish) ∧
      (∀ e : PwlEntry, s.visible tag = .staged e → e.length = 0 →
        exec .fetch s = .next (({ s with window := { s.window with
          length := 0, seqlo := 0, seqhi := 0 } } : State).endedAs 0x20 .none 0).finish) ∧
      (∀ e : PwlEntry, s.visible tag = .staged e → 0 < e.length →
        let words := packWords ((s.slotBytes e.slot).take e.length)
        exec .fetch s = .next
          ({ ({ s with window := { s.window with
                length := word e.length, seqlo := 0, seqhi := 0
                frame := words ++ s.window.frame.drop words.length } } : State).goesOn 0x20 .sending
              (.sending ((e.length + 1) / 2)) ((e.length + 1) / 2) (some s.window.options.dataTimeout) with
            causes := { s.causes with data := true } } : State).finish) ∧
      (∀ e : IndexEntry, s.visible tag = .stored e ∨ s.visible tag = .damaged e →
        exec .fetch s = .next
          ({ s.goesOn 0x20 .executing (.fetch e) 0 none with
            sequencer := { s.sequencer with requests := { s.sequencer.requests with
              read := s.sequencer.requests.read.lodge } } } : State).finish))

/-- DESCRIBE (R37, R169): an invalid tag ends it with BAD_PARAMETER; otherwise LENGTH, VALUE (state code in
bits 2-0, protect in bit 8) and the sequence are loaded with the visible state, and it ends with NONE. -/
def Obligations.DescribeReportsVisibleState : Prop :=
  ∀ s : State, s.ready →
    let tag := s.window.tag.toNat
    let loaded := fun (state length sequence : Nat) (protect : Bool) =>
      exec .describe s = .next (({ s with window := { s.window with
        length := BitVec.ofNat 16 length
        value := BitVec.ofNat 16 state ||| (if protect = true then 0x100#16 else 0#16)
        seqlo := BitVec.ofNat 16 sequence
        seqhi := BitVec.ofNat 16 (sequence / 65536) } } : State).endedAs 0x21 .none 0).finish
    (tag < 1 ∨ 65534 < tag → exec .describe s = .next (s.endedAs 0x21 .badParameter 0).finish) ∧
    (1 ≤ tag ∧ tag ≤ 65534 →
      match s.visible tag with
      | .absent => loaded 0 0 0 false
      | .staged e => loaded 1 e.length 0 e.protect
      | .stored e => loaded 2 e.length e.sequence e.protect
      | .damaged e => loaded 3 e.length e.sequence e.protect
      | .lost e => loaded 4 0 e.sequence false)

/-- ENUMERATE (R36, R170): an invalid start or a COUNT outside 1 to 64 ends it with BAD_PARAMETER; otherwise
the count word and the tags of the walk stand in the read frame, the port enters SENDING with RESIDUE at 1 + k and
DATA is raised. That the words of the read frame beyond the listing stay is log 23. -/
def Obligations.EnumerateSendsTheListing : Prop :=
  ∀ s : State, s.ready →
    let tag := s.window.tag.toNat
    let m := s.window.count.toNat
    let tags := s.listing tag m
    (tag < 1 ∨ 65534 < tag ∨ m < 1 ∨ 64 < m →
      exec .enumerate s = .next (s.endedAs 0x22 .badParameter 0).finish) ∧
    (1 ≤ tag ∧ tag ≤ 65534 ∧ 1 ≤ m ∧ m ≤ 64 →
      exec .enumerate s = .next
        ({ ({ s with window := { s.window with
              frame := (word tags.length :: tags.map word) ++ s.window.frame.drop (tags.length + 1) } }
            : State).goesOn 0x22 .sending (.sending (1 + tags.length)) (1 + tags.length)
            (some s.window.options.dataTimeout) with
          causes := { s.causes with data := true } } : State).finish)

/-- The walk of ENUMERATE lists the visible tags from `t` in ascending order, at most `m` of them, and leaves
one out only when it has listed `m` tags, all below it (R36). -/
def Obligations.ListingIsTheLowestVisibleTags : Prop :=
  ∀ (s : State) (t m : Nat),
    (s.listing t m).Pairwise (fun a b => a < b) ∧ (s.listing t m).length ≤ m ∧
    (∀ x ∈ s.listing t m, t ≤ x ∧ (s.visible x).isPresent = true) ∧
    (∀ x : Nat, t ≤ x → (s.visible x).isPresent = true → x ∉ s.listing t m →
      (s.listing t m).length = m ∧ ∀ y ∈ s.listing t m, y < x)

/-- HEALTH REPORT (R154, R171, R184, R187): with no check, the 40 words of the report as the state stands are put
in the read frame, and the port enters SENDING with RESIDUE 40 and DATA raised. Words 0 to 38 hold the counters,
conditions, F and the segment counts, erase counts, index and PWL entries, space, commit and drain states and the
mount report in the places R187 gives, and word 39 makes the sum of all 0 modulo 65536; the least and greatest
erase counts are over the segments not RETIRED, and 0 when there is none (R74). The command completes with NONE
when the 40th word has been read, and while it sends, nothing but a reset changes the words in the frame. That the
frame keeps its words beyond the 40 is log 23, and that the word read is kept in busOut is log 30. -/
def Obligations.HealthReportSendsFortyWords : Prop :=
  (∀ s : State, s.ready →
    s.report.length = 40 ∧ s.report.foldl (· + ·) 0 = 0 ∧
    exec .healthReport s = .next
      ({ ({ s with window := { s.window with frame := s.report ++ s.window.frame.drop 40 } }
          : State).goesOn 0x50 .sending (.sending 40) 40 (some s.window.options.dataTimeout) with
        causes := { s.causes with data := true } } : State).finish) ∧
  (∀ s : State,
    let n := BitVec.ofNat 16
    let pair := fun low high : Nat => BitVec.ofNat 16 (low + 256 * high)
    let flag := fun (b : Bool) (place : Nat) => if b = true then 1#16 <<< place else 0#16
    let inState := fun x : SegmentState => s.space.segments.countP fun g => g.state == x
    let c := s.health.counters
    let h := s.health.conditions
    let r := s.space.reasons
    let m := s.mountReport
    s.report.take 39 =
      [n c.recoveredReads, n c.unreadableReads, n c.programFailures, n c.eraseFailures, n c.mediumTimeouts,
       n c.lostRecords, n c.refreshDrops,
       flag h.spareLow 0 ||| flag h.wearHigh 1 ||| flag h.spaceFull 2 ||| flag h.storeReadOnly 3 |||
         flag h.recordsLost 4,
       n s.space.freeList.length, n (inState .retired), n (s.space.segments.countP fun g => g.state != .retired),
       n s.minErase, n (s.minErase / 65536), n s.maxErase, n (s.maxErase / 65536),
       pair (inState .erasePending) (inState .erased), pair (inState .open) (inState .filled),
       pair (inState .reclaiming) (inState .retiring), pair (inState .retired) 0,
       n (s.index.entries.countP fun e => e.kind.isLive),
       n (s.index.entries.countP fun e => e.kind.isTombstone),
       n (s.index.entries.countP fun e => e.kind.isLost), n s.staging.pwl.length,
       n (match s.space.state with | .normal => 0 | .lowSpace => 1 | .full => 2) ||| flag r.worn 8 |||
         flag r.sequence 9 ||| flag r.degraded 10,
       (match s.commit.state with
        | .idle => 0x0000 | .running => 0x0001 | .waiting => 0x0002
        | .halted .noSpace => 0x0103 | .halted .medium => 0x0203 | .halted .readOnly => 0x0303),
       pair (match s.drain.outcome with | .none => 0 | .emptied => 1 | .halted => 2 | .cutShort => 3)
         s.drain.left,
       n m.banks ||| flag m.degraded 8 ||| flag (decide (m.torn ≠ 0)) 9,
       pair m.erasePending m.erased, pair m.opened m.filled, pair m.retiring m.retired,
       n m.live, n m.tombstone, n m.lost, n m.notIndexed, n m.truncated, n (min m.discarded 65535),
       n m.recovered, n m.unreadable, n m.timeouts] ∧
    (∀ g ∈ s.space.segments, g.state ≠ .retired → s.minErase ≤ g.eraseCount ∧ g.eraseCount ≤ s.maxErase) ∧
    ((∃ g ∈ s.space.segments, g.state ≠ .retired ∧ g.eraseCount = s.minErase) ∧
        (∃ g ∈ s.space.segments, g.state ≠ .retired ∧ g.eraseCount = s.maxErase) ∨
      (∀ g ∈ s.space.segments, g.state = .retired) ∧ s.minErase = 0 ∧ s.maxErase = 0)) ∧
  (∀ s : State, s.awake → s.pfw = false → s.port.state = .sending → s.port.activity = .sending 40 →
    s.port.residue = 1 →
    exec .dataRead s = .next (({ s with window := { s.window with
      busOut := some (s.window.frame.getD 39 0) } } : State).completedAs .none 0).finish) ∧
  (∀ (c : Instr) (s t : State), s.port.state = .sending → s.port.activity = .sending 40 →
    (∀ cut, c ≠ .hardReset cut) → (∀ cut, c ≠ .resetAsserted cut) → (∀ cut, c ≠ .powerLoss cut) →
    exec c s = .next t → t.window.frame = s.window.frame)

/-! ## SYNC, settings and ERASE STORE -/

/-- SYNC (R93, R172): with the PWL empty it completes; a NO_SPACE or READ_ONLY halt ends it and stays; a
MEDIUM halt is left, the unit at the head being begun again with its failure count at 0 (here a standalone
WRITE), and it waits; with entries staged and no halt it waits. -/
def Obligations.SyncWaitsForTheList : Prop :=
  ∀ s : State, s.ready →
    (s.staging.pwl = [] → s.commit.state ≠ .halted .medium →
      exec .sync s = .next (s.endedAs 0x30 .none 0).finish) ∧
    (s.staging.pwl ≠ [] → s.commit.state = .halted .noSpace →
      exec .sync s = .next (s.endedAs 0x30 .storeFull 0).finish) ∧
    (s.staging.pwl ≠ [] → s.commit.state = .halted .readOnly →
      exec .sync s = .next (s.endedAs 0x30 .readOnly 0).finish) ∧
    (s.staging.pwl ≠ [] → (s.commit.state = .idle ∨ s.commit.state = .running ∨ s.commit.state = .waiting) →
      exec .sync s = .next (s.goesOn 0x30 .executing .syncWait 0 none).finish) ∧
    (∀ (e : PwlEntry) (rest : List PwlEntry), s.staging.pwl = e :: rest → e.kind = .write →
      e.position = none → s.commit.state = .halted .medium → s.readOnly = false →
      s.index.nextSequence ≤ 4294967294 →
      exec .sync s = .next
        ({ s.goesOn 0x30 .executing .syncWait 0 none with
          staging := { s.staging with pwl := { e with inCommit := true } :: rest }
          index := { s.index with nextSequence := s.index.nextSequence + 1 }
          commit := ⟨.running, some ⟨s.index.nextSequence, 0, 0⟩, 0⟩
          sequencer := { s.sequencer with requests := { s.sequencer.requests with
            commit := s.sequencer.requests.commit.lodge } } } : State).finish)

/-- SET OPTION and READ OPTION (R161, R173): an unknown setting, or a value out of range, ends with
BAD_PARAMETER; otherwise SET OPTION puts VALUE in the setting, which READ OPTION then gives back, and leaves
every other setting; READ OPTION loads VALUE with the setting. -/
def Obligations.SettingsAreWrittenAndRead : Prop :=
  ∀ s : State, s.ready →
    let code := s.window.option.toNat
    let v := s.window.value.toNat
    let after := putSetting s.window.options code v
    (settingRange code = none →
      exec .setOption s = .next (s.endedAs 0x40 .badParameter 0).finish ∧
      exec .readOption s = .next (s.endedAs 0x41 .badParameter 0).finish) ∧
    (∀ lo hi : Nat, settingRange code = some (lo, hi) →
      (v < lo ∨ hi < v → exec .setOption s = .next (s.endedAs 0x40 .badParameter 0).finish) ∧
      (lo ≤ v ∧ v ≤ hi →
        exec .setOption s = .next
          (({ s with window := { s.window with options := after } } : State).endedAs 0x40 .none 0).finish ∧
        readSetting after code = some v ∧
        ∀ other : Nat, other ≠ code → readSetting after other = readSetting s.window.options other) ∧
      ∃ x : Nat, readSetting s.window.options code = some x ∧
        exec .readOption s = .next (({ s with window := { s.window with
          value := BitVec.ofNat 16 x } } : State).endedAs 0x41 .none 0).finish)

/-- ERASE STORE (R174-R176): with entries staged and no DISCARD it ends with PENDING_WRITES; otherwise it is executing,
to take the medium when it is free. From here on, the moment being log 43, the job is abandoned once no operation of it
is in flight, the Refresh List and the exclusion set emptied in that step (R98, R116), at once with no job. In the step
in which no operation is in flight any more it takes the medium (R132): with DISCARD the list empties, the PENDING slots
FREE, the engine IDLE, its request withdrawn, no reservation left, and an open bundle range is abandoned, its segment
FILLED (R54, R71); a job still there ends, its victim leaving RECLAIMING, both lists are empty, and the background
erase ends (R149); the work list is every segment neither ERASED nor RETIRED, by open sequence and then number. Each in
turn: its entries leave the index, its live pages are dead, and it is erased;
RETIRING, its RETIRED slot is programmed, or, UNMARKED, it is RETIRED at once. Its SEGMENT ERASE DONE raises its count
and the FORMATTED program follows with the new count; FAILED, it is counted and the RETIRED program follows with reason
ERASE; FORMATTED DONE below the wear limit makes it ERASED with its counts reset and puts it in the free list; the
RETIRED program, whatever its end, makes it RETIRED. With an end recorded the command stops there, the background erase
beginning again on the ERASE_PENDING segments. With no segment left the index is empty with no reservation, DEGRADED is
removed, and the counter becomes 1 and SEQUENCE is removed unless an UNMARKED segment remains. It ends with NONE or the
code recorded and DONE, or, with a port reset recorded, without either. Log 16: an erase count stays at 100,000; log 18:
a segment taken while OPEN becomes FILLED. The model's choice, log 19: an end recorded at the start with an empty work
list makes all these changes of the completion and then ends with its code; log 24: the last selection's note goes. -/
def Obligations.EraseStoreBeginsAndEnds : Prop :=
  (∀ s : State, s.ready →
    (s.staging.pwl ≠ [] → s.window.option.getLsbD 3 = false →
      exec .eraseStore s = .next (s.endedAs 0x60 .pendingWrites 0).finish) ∧
    (s.staging.pwl = [] ∨ s.window.option.getLsbD 3 = true →
      exec .eraseStore s = .next
        ({ s.goesOn 0x60 .executing
            (.eraseStore ⟨s.window.option.getLsbD 3, true, [], none, none, false⟩) 0 none with
          reclaim := match s.reclaim.job with
            | none => ⟨none, [], [], none⟩
            | some j => { s.reclaim with job := some { j with abandoning := true } } } : State).finish)) ∧
  (∀ (s : State) (j : Job), s.erasing = true → s.reclaim.job = some j → j.abandoning = true →
    jobAbandon ∈ consequences ∧ (s.reclaimerInFlight = true → jobAbandon s = none) ∧
    (s.reclaimerInFlight = false → ∃ t : State, jobAbandon s = some t ∧ t.reclaim = ⟨none, [], [], none⟩)) ∧
  (∀ (s : State) (f : InFlight) (p : EraseProgress) (n : Nat), s.awake → s.sequencer.inFlight = some f →
    f.requester = .eraseStore → s.opExists f.op = true → s.port.activity = .eraseStore p →
    let flying := fun (op : Op) => some (⟨.eraseStore, op, 0, 1, none⟩ : InFlight)
    let formatted := s.space.segments.map fun g => if g.number = n then
      { g with
        state := .erased, writePointer := 1, live := 0, dead := 0, pending := 0
        lowSequence := 0, openSequence := 0, reason := none, mark := none }
      else g
    let ends := fun v : State =>
      v.port.state = (if s.pfw = true then .draining else .idle) ∧ v.port.activity = .none ∧
      v.sequencer.inFlight = none ∧
      (p.portReset = true → v.port.result = s.port.result ∧ v.causes = s.causes) ∧
      (p.portReset = false → v.causes.done = true ∧ v.port.detail = 0 ∧
        v.port.result = (match p.firstEnd with
          | none => .none
          | some .abort => .aborted
          | some .powerFail => .powerFail))
    (p.hand = some (n, .erase) → f.op = .segmentErase n →
      (∃ v : State, exec (.segmentErase .done) s = .next v.finish ∧
        v.port.activity = .eraseStore { p with hand := some (n, .format) } ∧
        v.sequencer.inFlight = flying (.headerProgram n (.formatted (v.eraseCountOf n))) ∧
        v.space.segments = (s.space.segments.map fun g => if g.number = n then
          { g with eraseCount := min (g.eraseCount + 1) 100000 } else g) ∧
        v.index = s.index ∧ v.health = s.health) ∧
      (∀ left : Remnant, ∃ v : State, exec (.segmentErase (.failed left)) s = .next v.finish ∧
        v.port.activity = .eraseStore { p with hand := some (n, .retire .erase) } ∧
        v.sequencer.inFlight = flying (.headerProgram n (.retired .erase)) ∧ v.space = s.space ∧
        v.index = s.index ∧ v.health.counters = { s.health.counters with
          eraseFailures := bump s.health.counters.eraseFailures })) ∧
    (∀ slot : SlotContent, p.hand = some (n, .format) → f.op = .headerProgram n slot →
      s.eraseCountOf n < 100000 →
      (p.todo = [] → ∃ v : State, exec (.headerProgram .done) s = .next v.finish ∧
        v.space.segments = formatted ∧ n ∈ v.space.freeList ∧ v.index.entries = [] ∧
        v.index.reservations = 0 ∧
        ((∃ g ∈ formatted, g.state = .retired ∧ g.mark = some .unmarked) →
          v.index.nextSequence = s.index.nextSequence ∧
          v.space.reasons = { s.space.reasons with degraded := false }) ∧
        ((∀ g ∈ formatted, g.state = .retired → g.mark ≠ some .unmarked) →
          v.index.nextSequence = 1 ∧
          v.space.reasons = { s.space.reasons with degraded := false, sequence := false }) ∧
        v.space.openCounter = s.space.openCounter ∧ v.health = s.health ∧ v.mountReport = s.mountReport ∧
        v.window = s.window ∧ ends v) ∧
      (∀ (m : Nat) (rest : List Nat), p.todo = m :: rest →
        (p.portReset = true ∨ p.firstEnd ≠ none → ∃ v : State, exec (.headerProgram .done) s = .next v.finish ∧
          v.space.segments = formatted ∧ n ∈ v.space.freeList ∧ v.index = s.index ∧
          v.space.reasons = s.space.reasons ∧ ends v ∧ v.background =
            ⟨(formatted.filter fun g => g.state == .erasePending).map (·.number), none⟩) ∧
        (p.portReset = false → p.firstEnd = none → m ≠ n → ∀ g : Segment, s.segment? m = some g →
          (g.state = .retiring → g.mark ≠ some .unmarked) →
          ∃ v : State, exec (.headerProgram .done) s = .next v.finish ∧ n ∈ v.space.freeList ∧
            v.index = { s.index with entries := s.index.entries.filter fun e => e.segment != m } ∧
            (∀ x ∈ v.space.segments, x.number = m → x.live = 0 ∧ x.state ≠ .open) ∧
            (g.state ≠ .retiring →
              v.port.activity = .eraseStore { p with hand := some (m, .erase), todo := rest } ∧
              v.sequencer.inFlight = flying (.segmentErase m)) ∧
            (∀ why : RetireReason, g.state = .retiring → g.reason = some why →
              v.port.activity = .eraseStore { p with hand := some (m, .retire why), todo := rest } ∧
              v.sequencer.inFlight = flying (.headerProgram m (.retired why)))) ∧
        (p.portReset = false → p.firstEnd = none → m ≠ n → rest = [] → ∀ g : Segment, s.segment? m = some g →
          g.state = .retiring → g.mark = some .unmarked →
          ∃ v : State, exec (.headerProgram .done) s = .next v.finish ∧ n ∈ v.space.freeList ∧
            (∀ x ∈ v.space.segments, x.number = m → x.state = .retired ∧ x.mark = some .unmarked) ∧
            v.index.entries = [] ∧ v.index.nextSequence = s.index.nextSequence ∧ ends v))) ∧
    (∀ (why : RetireReason) (slot : SlotContent) (m : Nat) (rest : List Nat) (o : MediumEnd),
      p.hand = some (n, .retire why) → f.op = .headerProgram n slot → p.todo = m :: rest →
      p.portReset = true ∨ p.firstEnd ≠ none → ∃ v : State, exec (.headerProgram o) s = .next v.finish ∧
        v.space.segments = (s.space.segments.map fun g => if g.number = n then
          { g with
            state := .retired, live := 0, reason := some (g.reason.getD why)
            mark := some (if o = .done then .marked else .unmarked) }
          else g) ∧
        v.index = s.index ∧ v.space.freeList = s.space.freeList ∧ ends v)) ∧
  (∀ (s : State) (p : EraseProgress), s.port.activity = .eraseStore p → p.taking = true →
    (s.sequencer.inFlight ≠ none → eraseStoreStart s = none) ∧
    (s.sequencer.inFlight = none →
      let closed := s.space.segments.map fun g => match s.space.range with
        | some r => if p.discard = true ∧ g.number = r.segment then
            { g with
              state := .filled, pending := g.pending - r.pages
              dead := g.dead + (128 - g.writePointer), writePointer := 128 }
            else g
        | none => g
      let segments := closed.map fun g => match s.reclaim.job with
        | some j => if j.kind = .segment g.number ∧ g.state = .reclaiming then
            (if 100000 ≤ g.eraseCount then
              { g with state := .retiring, reason := some .worn, mark := some .none }
            else { g with state := .filled })
            else g
        | none => g
      ∃ (work : List Segment) (w : State),
        eraseStoreStart s = some (State.eraseFrom (work.map (·.number)) w) ∧ eraseStoreStart ∈ consequences ∧
        work.Perm (segments.filter fun g => g.state != .erased && g.state != .retired) ∧
        work.Pairwise (fun a b => a.openSequence < b.openSequence ∨
          (a.openSequence = b.openSequence ∧ a.number ≤ b.number)) ∧
        w.space.segments = segments ∧ w.port = { s.port with activity := .eraseStore { p with taking := false } } ∧
        w.reclaim = ⟨none, [], [], none⟩ ∧ w.background = ⟨[], none⟩ ∧ w.sequencer.requests.background = .absent ∧
        (s.reclaim.job ≠ none → w.sequencer.requests.reclaimer = .absent) ∧ w.sequencer.inFlight = none ∧
        w.index = s.index ∧ w.health = s.health ∧ w.medium = s.medium ∧ w.window = s.window ∧ w.causes = s.causes ∧
        (p.discard = true →
          w.staging = ⟨s.staging.slots.map fun x => if x.state = .pending then { x with state := .free } else x, []⟩ ∧
          w.commit = ⟨.idle, none, 0⟩ ∧ w.sequencer.requests.commit = .absent ∧ w.space.range = none ∧
          w.refreshReservations.index.reservations = 0) ∧
        (p.discard = false → w.staging = s.staging ∧ w.commit = s.commit ∧ w.space.range = s.space.range))) ∧
  (∀ (s : State) (p : EraseProgress), s.port.activity = .eraseStore p →
    let ends := fun v : State => v.port.state = (if s.pfw = true then .draining else .idle) ∧
      v.port.activity = .none ∧
      (p.portReset = true → v.port.result = s.port.result ∧ v.causes = s.causes) ∧
      (p.portReset = false → v.causes.done = true ∧ v.port.detail = 0 ∧
        v.port.result = (match p.firstEnd with
          | none => .none
          | some .abort => .aborted
          | some .powerFail => .powerFail))
    (let v := State.eraseFrom [] s
     let kept := ∃ g ∈ s.space.segments, g.state = .retired ∧ g.mark = some .unmarked
     v.index.entries = [] ∧ v.index.reservations = 0 ∧ v.space.segments = s.space.segments ∧
     v.space.reasons.degraded = false ∧ v.space.reasons.worn = s.space.reasons.worn ∧
     (kept → v.index.nextSequence = s.index.nextSequence ∧
       v.space.reasons.sequence = s.space.reasons.sequence) ∧
     (¬ kept → v.index.nextSequence = 1 ∧ v.space.reasons.sequence = false) ∧ ends v) ∧
    (∀ (m : Nat) (rest : List Nat),
      (p.portReset = true ∨ p.firstEnd ≠ none →
        let v := State.eraseFrom (m :: rest) s
        v.space = s.space ∧ v.index = s.index ∧ v.background = ⟨s.pendingErases, none⟩ ∧ ends v) ∧
      (∀ g : Segment, p.portReset = false → p.firstEnd = none → s.segment? m = some g →
        let taken := s.space.segments.map fun x => if x.number = m then
            (if x.state = .open then
              { x with
                state := .filled, live := 0, dead := x.dead + x.live + (128 - x.writePointer), writePointer := 128 }
            else { x with live := 0, dead := x.dead + x.live })
          else x
        let index := { s.index with entries := s.index.entries.filter fun e => e.segment != m }
        let goesOn := fun (stage : EraseStage) (op : Op) => ({ s with
          index := index, space := { s.space with segments := taken }
          port := { s.port with activity := .eraseStore { p with hand := some (m, stage), todo := rest } }
          sequencer := { s.sequencer with inFlight := some ⟨.eraseStore, op, 0, 1, none⟩ } } : State)
        (g.state ≠ .retiring → State.eraseFrom (m :: rest) s = goesOn .erase (.segmentErase m)) ∧
        (∀ why : RetireReason, g.state = .retiring → g.mark ≠ some .unmarked → g.reason = some why →
          State.eraseFrom (m :: rest) s = goesOn (.retire why) (.headerProgram m (.retired why))) ∧
        (∀ why : RetireReason, g.state = .retiring → g.mark = some .unmarked → g.reason = some why →
          let retired := taken.map fun x => if x.number = m then
            { x with
              state := .retired, live := 0, reason := some (x.reason.getD .program), mark := some .unmarked }
            else x
          let few := decide ((retired.countP fun x => x.state != .retired) < 4)
          State.eraseFrom (m :: rest) s = State.eraseFrom rest { s with
            index := index
            space := { s.space with
              segments := retired
              reasons := { s.space.reasons with worn := s.space.reasons.worn || few } } }))))

/-! ## Other accesses of the host -/

/-- A payload word that is not the last fills the next two bytes of the member's slot, the low half first, or
the last byte alone of an odd length; a descriptor word that is not the last goes to the read frame; RESIDUE
falls by 1 and the timer restarts (R154, R155, R156). The last descriptor word runs the bundle's checks in their
order, the first that fails ending the command with its code and detail (R165, R22). A bundle that passes takes the
next identifier of the rotation (R13), and reserves its n slots together, the lowest FREE ones, to receive the first
payload there is, or to append all members at once when every length is 0 (R46, R166); with fewer than n FREE it
waits in EXECUTING, or ends with the halt's code (R39, R50, R51). -/
def Obligations.DataWriteTakesAWord : Prop :=
  ∀ (word : Word) (s : State), s.power = .on → s.port.state = .receiving →
    (2 ≤ s.port.residue →
      let port := { s.port with
        residue := s.port.residue - 1, dataTimer := some s.window.options.dataTimeout }
      (∀ (w : Work) (slots : List Nat) (i : Nat), s.port.activity = .payload w slots i →
        let n := w.lengthOf i
        let k := (n + 1) / 2 - s.port.residue
        exec (.dataWrite word) s = .next
          ({ s with
            port := port
            staging := { s.staging with slots := (s.staging.slots.modify (slots.getD i 0) fun x =>
              { x with bytes := (if 2 * k + 1 < n then
                  (x.bytes.set (2 * k) (word.extractLsb' 0 8)).set (2 * k + 1) (word.extractLsb' 8 8)
                else x.bytes.set (2 * k) (word.extractLsb' 0 8)) }) } } : State).finish) ∧
      (∀ (n : Nat) (through : Bool), s.port.activity = .descriptor n through →
        exec (.dataWrite word) s = .next
          ({ s with port := port, window := { s.window with
            frame := s.window.frame.set (3 * n - s.port.residue) word } } : State).finish)) ∧
    (∀ (n : Nat) (through : Bool), s.port.residue = 1 → s.pfw = false →
      s.port.activity = .descriptor n through →
      let filled : State := { s with window := { s.window with
        frame := s.window.frame.set (3 * n - 1) word } }
      let members := filled.descriptor n
      let endsWith := fun (code : ResultCode) (detail : Nat) =>
        exec (.dataWrite word) s = .next (filled.completedAs code detail).finish
      (∀ p : Nat, firstInvalid 1 [] members = some p → endsWith .badParameter p) ∧
      (firstInvalid 1 [] members = none →
        (s.readOnly = true → endsWith .readOnly 0) ∧
        (s.readOnly = false → s.space.state = .full → endsWith .storeFull 0) ∧
        (s.readOnly = false → s.space.state ≠ .full →
          (∀ p : Nat, s.firstProtected 1 members = some p → endsWith .tagProtected p) ∧
          (s.firstProtected 1 members = none →
            let used := s.index.entries.length + s.index.reservations
            (∀ p : Nat, s.firstOver used 1 members = some p → endsWith .indexFull p) ∧
            (s.firstOver used 1 members = none →
              let w : Work := ⟨.bundle s.window.nextBundle, members.map (·.member), through⟩
              let named : State := { filled with window := { filled.window with
                nextBundle := if s.window.nextBundle = 255 then 1 else s.window.nextBundle + 1 } }
              let free := freeSlots s.staging.slots
              let slots := free.take n
              let reserved : State := { named with staging := { s.staging with
                slots := setSlots s.staging.slots slots .reserved } }
              (free.length < n →
                exec (.dataWrite word) s = .next
                  (match s.commit.state with
                   | .halted r => named.completedAs r.code 0
                   | .idle | .running | .waiting => { named with port :=
                      ⟨.executing, .slotWait w, 0, s.port.result, s.port.detail, none⟩ }).finish) ∧
              (n ≤ free.length →
                (∀ (j : Nat) (d : DescriptorMember), members[j]? = some d → 0 < d.member.length →
                  (∀ (i : Nat) (e : DescriptorMember), i < j → members[i]? = some e → e.member.length = 0) →
                  exec (.dataWrite word) s = .next
                    ({ reserved with
                      port := ⟨.receiving, .payload w slots j, (d.member.length + 1) / 2, s.port.result,
                        s.port.detail, some s.window.options.dataTimeout⟩
                      causes := { s.causes with data := true } } : State).finish) ∧
                ((∀ d ∈ members, d.member.length = 0) →
                  exec (.dataWrite word) s = .next
                    (({ reserved with
                      port := { s.port with state := .executing, activity := .none, residue := 0, dataTimer := none }
                      staging := reserved.staging.append (w.bundleAppend s.window.nextBundle slots) }
                        : State).atAppend through slots).finish)))))))

/-- The last word of a member's payload fills its slot. When a later member has a payload, the port receives that
one next, with RESIDUE at half its length rounded up and DATA raised (R154, R166). When none has, a STORE appends
its WRITE at the tail, the tag's standalone entry that is not in commit leaving the list (R43, R45), and a bundle
appends all its members in position order, with no coalescing (R46). In write-back the command completes with NONE;
with THROUGH set or WRITE_BACK 0 it waits in EXECUTING for its entries, or ends with the halt's code while the
Commit Engine is HALTED (R56). -/
def Obligations.LastPayloadWordAppends : Prop :=
  ∀ (word : Word) (s : State) (w : Work) (slots : List Nat) (i : Nat), s.awake → s.pfw = false →
    s.port.state = .receiving → s.port.residue = 1 → s.port.activity = .payload w slots i →
    let n := w.lengthOf i
    let k := (n + 1) / 2 - 1
    let filled : Staging := { s.staging with slots := (s.staging.slots.modify (slots.getD i 0) fun x =>
      { x with bytes := (if 2 * k + 1 < n then
          (x.bytes.set (2 * k) (word.extractLsb' 0 8)).set (2 * k + 1) (word.extractLsb' 8 8)
        else x.bytes.set (2 * k) (word.extractLsb' 0 8)) }) }
    (∀ (j : Nat) (m : Member), i < j → w.members[j]? = some m → 0 < m.length →
      (∀ (a : Nat) (x : Member), i < a → a < j → w.members[a]? = some x → x.length = 0) →
      exec (.dataWrite word) s = .next
        ({ s with
          staging := filled
          port := { s.port with
            activity := .payload w slots j, residue := (m.length + 1) / 2
            dataTimer := some s.window.options.dataTimeout }
          causes := { s.causes with data := true } } : State).finish) ∧
    ((∀ (a : Nat) (x : Member), i < a → w.members[a]? = some x → x.length = 0) →
      (∀ (m : Member) (slot : Nat), w.kind = .store → w.members = [m] → slots = [slot] →
        exec (.dataWrite word) s = .next
          (({ s with staging := ((filled.removeEntries fun x =>
            x.tag == m.tag && x.bundle == 0 && !x.inCommit).append
              [⟨.write, m.tag, m.length, m.protect, 0, none, slot, false⟩]) } : State).atAppend
                w.through slots).finish) ∧
      (∀ identifier : Nat, w.kind = .bundle identifier →
        exec (.dataWrite word) s = .next
          (({ s with staging := filled.append (w.bundleAppend identifier slots) } : State).atAppend
            w.through slots).finish))

/-- A COMMAND or parameter write outside IDLE, a DATA write outside RECEIVING, and a write of a register that
is only read, in any state, are refused: they set REFUSED and change nothing else (R152). -/
def Obligations.RefusedWritesSetRefused : Prop :=
  ∀ s : State, s.power = .on →
    let refused : Host.Outcome State Fault Refusal :=
      .next ({ s with window := { s.window with refused := true } } : State).finish
    (s.port.state ≠ .idle →
      (∀ c ∈ ([.store, .storeBundle, .remove, .fetch, .describe, .enumerate, .sync, .setOption, .readOption,
        .healthReport, .eraseStore] : List Instr), exec c s = refused) ∧
      (∀ code : Word, exec (.badCommand code) s = refused ∧ exec (.refusedWrite (.command code)) s = refused) ∧
      (∀ (a : BitVec 4) (w : Word), 1 ≤ a.toNat → a.toNat ≤ 5 → exec (.registerWrite a w) s = refused)) ∧
    (s.port.state ≠ .receiving →
      ∀ w : Word, exec (.dataWrite w) s = refused ∧ exec (.refusedWrite (.data w)) s = refused) ∧
    (∀ (a : BitVec 4) (w : Word), a ∈ ([7, 8, 12, 13, 14, 15] : List (BitVec 4)) →
      exec (.registerWrite a w) s = refused)

/-- In IDLE a write of TAG, LENGTH, COUNT, OPTION or VALUE is stored; a CONTROL write with neither bit set
changes nothing (R152, R185). -/
def Obligations.ParameterWritesAreStored : Prop :=
  ∀ (w : Word) (s : State), s.power = .on →
    (s.port.state = .idle →
      exec (.registerWrite 1 w) s = .next ({ s with window := { s.window with tag := w } } : State).finish ∧
      exec (.registerWrite 2 w) s =
        .next ({ s with window := { s.window with length := w } } : State).finish ∧
      exec (.registerWrite 3 w) s = .next ({ s with window := { s.window with count := w } } : State).finish ∧
      exec (.registerWrite 4 w) s =
        .next ({ s with window := { s.window with option := w } } : State).finish ∧
      exec (.registerWrite 5 w) s =
        .next ({ s with window := { s.window with value := w } } : State).finish) ∧
    (w.getLsbD 0 = false → w.getLsbD 1 = false → exec (.registerWrite 9 w) s = .next s.finish)

/-- A DATA read in SENDING gives the next word of the read frame; the last one completes the command with NONE;
elsewhere the read gives FFFFh and changes nothing else (R152, R154, R156). -/
def Obligations.DataReadGivesTheNextWord : Prop :=
  ∀ s : State, s.power = .on →
    (∀ n : Nat, s.port.state = .sending → s.port.activity = .sending n →
      let t : State := { s with window := { s.window with
        busOut := some (s.window.frame.getD (n - s.port.residue) 0) } }
      (2 ≤ s.port.residue →
        exec .dataRead s = .next ({ t with port := { s.port with
          residue := s.port.residue - 1
          dataTimer := some s.window.options.dataTimeout } } : State).finish) ∧
      (s.port.residue = 1 → s.pfw = false →
        exec .dataRead s = .next (t.completedAs .none 0).finish)) ∧
    (s.port.state ≠ .sending →
      exec .dataRead s = .next ({ s with window := { s.window with busOut := some 0xFFFF } } : State).finish)

/-- A STATUS read gives the eight flags as they stand, and then REFUSED is clear (R150, R151, R185). -/
def Obligations.StatusReadGivesTheFlags : Prop :=
  ∀ s : State, s.power = .on →
    exec .statusRead s = .next ({ s with window := { s.window with
      busOut := some s.status, refused := false } } : State).finish ∧
    (s.status.getLsbD 0 = true ↔
      s.port.state = .mounting ∨ s.port.state = .executing ∨ s.port.state = .draining) ∧
    (s.status.getLsbD 1 = true ↔ s.port.state = .receiving ∨ s.port.state = .sending) ∧
    (s.status.getLsbD 2 = true ↔ s.port.result ≠ .none) ∧
    (s.status.getLsbD 3 = true ↔ s.window.refused = true) ∧
    (s.status.getLsbD 4 = true ↔ s.staging.pwl ≠ []) ∧
    (s.status.getLsbD 5 = true ↔ ∃ r, s.commit.state = .halted r) ∧
    (s.status.getLsbD 6 = true ↔
      s.space.reasons.worn = true ∨ s.space.reasons.sequence = true ∨ s.space.reasons.degraded = true) ∧
    (s.status.getLsbD 7 = true ↔
      s.health.conditions.spareLow = true ∨ s.health.conditions.wearHigh = true ∨
      s.health.conditions.spaceFull = true ∨ s.health.conditions.storeReadOnly = true ∨
      s.health.conditions.recordsLost = true) ∧
    (∀ i : Nat, 8 ≤ i → s.status.getLsbD i = false)

/-- ABORT by the activity of the command in progress (R157): a data phase or a wait ends with ABORTED, the detail
being the position of the bundle member whose payload was being received, and 0 otherwise; ERASE STORE records it,
an end recorded before counting first, and stops between two segments with ABORTED; with no command, in IDLE,
MOUNTING or DRAINING, or with a FETCH waiting for or holding its read, it is refused and sets REFUSED. A CONTROL
write with bit 0 and without bit 1 is this ABORT. -/
def Obligations.AbortEndsPhasesAndWaits : Prop :=
  ∀ s : State,
    (∀ w : Word, w.getLsbD 0 = true → w.getLsbD 1 = false → s.controlWrite w = s.abort) ∧
    (∀ (p : EraseProgress) (n : Nat) (rest : List Nat), s.port.activity = .eraseStore p →
      p.firstEnd = some .abort → p.portReset = false → s.pfw = false →
      State.eraseFrom (n :: rest) s =
        ({ s with background := ⟨s.pendingErases, none⟩ } : State).completedAs .aborted 0) ∧
    (s.power = .on →
      match s.port.activity with
      | .none =>
        exec .abort s = .next ({ s with window := { s.window with refused := true } } : State).finish
      | .fetch _ =>
        exec .abort s = .next ({ s with window := { s.window with refused := true } } : State).finish
      | .eraseStore p =>
        exec .abort s = .next ({ s with port := { s.port with
          activity := .eraseStore { p with firstEnd := some (p.firstEnd.getD .abort) } } } : State).finish
      | .payload ⟨.bundle _, _, _⟩ _ i =>
        s.pfw = false → exec .abort s = .next (s.completedAs .aborted (i + 1)).finish
      | .payload ⟨.store, _, _⟩ _ _ =>
        s.pfw = false → exec .abort s = .next (s.completedAs .aborted 0).finish
      | .payload ⟨.remove, _, _⟩ _ _ =>
        s.pfw = false → exec .abort s = .next (s.completedAs .aborted 0).finish
      | .descriptor _ _ => s.pfw = false → exec .abort s = .next (s.completedAs .aborted 0).finish
      | .sending _ => s.pfw = false → exec .abort s = .next (s.completedAs .aborted 0).finish
      | .slotWait _ => s.pfw = false → exec .abort s = .next (s.completedAs .aborted 0).finish
      | .throughWait _ => s.pfw = false → exec .abort s = .next (s.completedAs .aborted 0).finish
      | .syncWait => s.pfw = false → exec .abort s = .next (s.completedAs .aborted 0).finish)

/-- PORT RESET in every port state (R158): the registers, RESULT, RESIDUE, the causes and REFUSED are cleared and
the data timer stops. With no command the port stays as it is, MOUNTING and DRAINING included; ERASE STORE goes on
with the reset recorded, and stops between two segments without RESULT or DONE; any other command ends without
DONE, its RESERVED slots FREE and the port IDLE, a FETCH's request being withdrawn and its read in flight left to
run without it, to fill no frame. The idle timer starts as R162 says. A CONTROL write with bit 1 is this PORT
RESET, bit 0 or not. -/
def Obligations.PortResetClearsThePort : Prop :=
  ∀ s : State,
    let window := { s.window with
      tag := 0, length := 0, count := 0, option := 0, value := 0, command := 0, seqlo := 0, seqhi := 0
      refused := false }
    let started := if s.staging.pwl = [] ∧ s.window.options.idleDelay ≠ 0 then
      some s.window.options.idleDelay else none
    let ended : State := { s with
      window := window, causes := Causes.empty, port := ⟨.idle, .none, 0, .none, 0, none⟩
      idle := { s.idle with running := started }
      staging := { s.staging with slots :=
        (s.staging.slots.map fun x => if x.state = .reserved then { x with state := .free } else x) } }
    (∀ w : Word, w.getLsbD 1 = true → s.controlWrite w = s.portReset) ∧
    (∀ (p : EraseProgress) (n : Nat) (rest : List Nat), s.port.activity = .eraseStore p → p.portReset = true →
      s.pfw = false →
      let t := State.eraseFrom (n :: rest) s
      t.causes = s.causes ∧ t.window = s.window ∧
        t.port = { s.port with state := .idle, activity := .none, residue := 0, dataTimer := none }) ∧
    (∀ (op : Op) (tag : Nat) (outcome : ReadOutcome),
      (s.releasePort.fetchOutcome op tag true outcome).window = s.window ∧
      (s.releasePort.fetchOutcome op tag true outcome).port = s.port ∧
      (s.releasePort.fetchOutcome op tag true outcome).sequencer.pin = none) ∧
    (s.power = .on →
      (s.port.activity = .none →
        exec .portReset s = .next
          ({ s with
            window := window, causes := Causes.empty
            port := { s.port with residue := 0, result := .none, detail := 0, dataTimer := none }
            idle := { s.idle with running :=
              if s.port.state = .idle ∧ s.staging.pwl = [] ∧ s.idle.running = none then started
              else s.idle.running } } : State).finish) ∧
      (∀ p : EraseProgress, s.port.activity = .eraseStore p →
        exec .portReset s = .next
          ({ s with
            window := window, causes := Causes.empty
            port := { s.port with activity := .eraseStore { p with portReset := true }
                                  residue := 0, result := .none, detail := 0, dataTimer := none } }
            : State).finish) ∧
      (∀ e : IndexEntry, s.port.activity = .fetch e → s.pfw = false →
        exec .portReset s = .next
          ({ ended with sequencer := { s.sequencer with
              requests := { s.sequencer.requests with read := .absent }
              inFlight := s.sequencer.inFlight.map InFlight.detach } } : State).finish) ∧
      (s.port.activity ≠ .none → (∀ p, s.port.activity ≠ .eraseStore p) →
        (∀ e, s.port.activity ≠ .fetch e) → s.pfw = false → exec .portReset s = .next ended.finish))

/-- An acknowledge write takes the causes it names out of the pending set; an INTMASK write replaces the enable
mask; bits 15-6 name nothing; INT# is asserted exactly while an enabled cause is pending (R159, R185). -/
def Obligations.CausesAreAcknowledgedAndMasked : Prop :=
  ∀ (w : Word) (s : State), s.power = .on →
    exec (.acknowledge w) s = .next
      ({ s with causes :=
        ⟨s.causes.done && !w.getLsbD 0, s.causes.data && !w.getLsbD 1, s.causes.mounted && !w.getLsbD 2,
          s.causes.deferred && !w.getLsbD 3, s.causes.health && !w.getLsbD 4,
          s.causes.drained && !w.getLsbD 5⟩ } : State).finish ∧
    exec (.intmaskWrite w) s = .next
      ({ s with window := { s.window with mask :=
        ⟨w.getLsbD 0, w.getLsbD 1, w.getLsbD 2, w.getLsbD 3, w.getLsbD 4, w.getLsbD 5⟩ } } : State).finish ∧
    (s.intAsserted = true ↔
      (s.causes.done = true ∧ s.window.mask.done = true) ∨
      (s.causes.data = true ∧ s.window.mask.data = true) ∨
      (s.causes.mounted = true ∧ s.window.mask.mounted = true) ∨
      (s.causes.deferred = true ∧ s.window.mask.deferred = true) ∨
      (s.causes.health = true ∧ s.window.mask.health = true) ∨
      (s.causes.drained = true ∧ s.window.mask.drained = true))

/-- The port's timers (R156, R162): in a data phase the data-phase timer, running with a length other than 0,
ends the command with DATA_TIMEOUT, the detail being the position of the bundle member whose payload was being
received; the idle timer begins the idle qualification and stops. -/
def Obligations.TimersExpire : Prop :=
  ∀ s : State, s.power = .on →
    (∀ n : Nat, s.pfw = false → (s.port.state = .receiving ∨ s.port.state = .sending) →
      s.port.dataTimer = some n → n ≠ 0 →
      exec .dataTimeout s = .next (s.completedAs .dataTimeout
        (match s.port.activity with
         | .payload ⟨.bundle _, _, _⟩ _ i => i + 1
         | _ => 0)).finish) ∧
    (∀ n : Nat, s.idle.running = some n →
      exec .idleTimerExpiry s = .next ({ s with idle := ⟨none, true⟩ } : State).finish)

/-! ## Mount -/

/-- The probe of a bank select (R123, R137): a bank that answers joins the present set, one that does not is left
out, and the next select is probed; after select 3 the first segment of the lowest bank present has its page 0
read, with the default retries; and when no bank is present, mount ends with an empty store, READ_ONLY with
reason WORN, MOUNTED raised, the port IDLE or, with PFW# asserted, DRAINING (R146). -/
def Obligations.BankProbeBuildsThePresentSet : Prop :=
  ∀ (answer : ProbeAnswer) (s : State) (m : MountWork) (f : InFlight) (bank : Nat),
    s.power = .on → s.mount = some m → s.sequencer.inFlight = some f → f.op = .bankProbe bank →
    m.phase = .probe bank →
    let present := if answer = .present then m.present ++ [bank] else m.present
    (bank < 3 →
      exec (.bankProbe answer) s = .next
        ({ s with
          mount := some { m with present := present, phase := .probe (bank + 1) }
          sequencer := { s.sequencer with
            inFlight := some ⟨.mount, .bankProbe (bank + 1), 0, 1, none⟩, pin := none } } : State).finish) ∧
    (∀ (b : Nat) (rest : List Nat), bank = 3 → present = b :: rest →
      exec (.bankProbe answer) s = .next
        ({ s with
          mount := some { m with present := present, phase := .headers (presentSegments present) }
          sequencer := { s.sequencer with
            inFlight := some ⟨.mount, .headerReadPage (32 * b), 0, 1 + s.window.options.readRetries, none⟩
            pin := none } } : State).finish) ∧
    (bank = 3 → present = [] → m.headers = [] → m.candidates = [] → m.found = [] → m.highestSequence = 0 →
      ∃ u : State, exec (.bankProbe answer) s = .next u.finish ∧ u.mount = none ∧
        u.index = ⟨[], 1, 0⟩ ∧ u.space = ⟨[], [], [], 1, none, .lowSpace, ⟨true, false, false⟩⟩ ∧
        u.sequencer.inFlight = none ∧ u.causes.mounted = true ∧
        u.port.state = (if s.pfw = true then .draining else .idle))

/-- The header reads of mount (R125, R127, R137, R138, R140, R141, R143), at a good attempt, which mount counts as
RECOVERED after the first, and UNREADABLE at the last attempt: a mismatch, whose findings are taken, or a timeout, which
mount counts too (it comes in either of two rows, log 8), the findings then being those of the last attempt that did not
time out, else all corrupt. The
findings of a page 0 are kept, an OPENED slot that names another segment counting as corrupt without a further attempt
(log 22), and the next segment is read; after the last, the candidates are the segments of rows 2 and 7 of R138 in
ascending order, those of row 2 to be retired, and the scan of the first begins. A valid record header is a found
record, and the position after it is read. A blank header, a corrupt one, one whose record does not fit, or a record
that ends at page 127 ends the candidate's scan, and the next candidate is scanned; after the last, the candidate of the
highest open sequence, the lower number first, those to be retired left out, is checked blank from its write pointer
when its scan ended blank, and otherwise, or with no candidate left to choose, mount ends with no segment OPEN. The
records of one candidate, put to the runs in page order: those that are standalone or lie in a complete run stand, every
other one is discarded and counted; all of them raise the highest sequence and lower the candidate's low sequence, which
is 1 when the scan ends corrupt. -/
def Obligations.HeaderReadsAreTakenByMount : Prop :=
  (∀ (c : Instr) (noise : Patch) (s : State) (m w : MountWork) (f : InFlight) (n : Nat),
    s.power = .on → s.mount = some m → s.sequencer.inFlight = some f → s.opExists f.op = true →
    let good := c = .headerRead (.ready noise) ∧
      w = (if f.attempts = 0 then m else { m with recovered := bump m.recovered })
    let mismatch := c = .headerRead (.ready noise) ∧ f.attempts + 1 = f.allowed ∧
      w = { m with unreadable := bump m.unreadable }
    let timedOut := (c = .headerRead .timeout ∨ ∃ left : Remnant, c = .attemptTimeout left) ∧
      f.attempts + 1 = f.allowed ∧ w = { m with unreadable := bump m.unreadable, timeouts := bump m.timeouts }
    let reads := fun op : Op => { s.sequencer with
      inFlight := some ⟨.mount, op, 0, 1 + s.window.options.readRetries, none⟩, pin := none }
    (∀ (rest : List Nat) (p : PageFindings), f.op = .headerReadPage n → m.phase = .headers (n :: rest) →
      (good ∧ p = readPageHeader s.medium n noise ∧ (Findings.page p).anyCorrupt = false) ∨
      (mismatch ∧ p = readPageHeader s.medium n noise ∧ (Findings.page p).anyCorrupt = true) ∨
      (timedOut ∧ (f.seen = some (.page p) ∨ (f.seen = none ∧ p = ⟨.corrupt, .corrupt, .corrupt⟩))) →
      let headers := m.headers ++ [⟨n, p.formatted,
        (match p.opened with
         | .valid (sequence, number) => if number = n then .valid sequence else .corrupt
         | .blank => .blank
         | .corrupt => .corrupt), p.retired⟩]
      let scanned := fun (h : HeaderInfo) (q : Nat) (retire : Bool) => h.opened = .valid q ∧
        ((h.retired = .corrupt ∧ retire = true) ∨
          (h.retired = .blank ∧ retire = false ∧ ∃ count : Nat, h.formatted = .valid count ∧ count ≠ 100000))
      (∀ (next : Nat) (later : List Nat), rest = next :: later →
        exec c s = .next
          ({ s with
            mount := some { w with headers := headers, phase := .headers (next :: later) }
            sequencer := reads (.headerReadPage next) } : State).finish) ∧
      (rest = [] → (∃ h ∈ headers, ∃ (q : Nat) (retire : Bool), scanned h q retire) →
        ∃ (first : Candidate) (later : List Candidate),
          exec c s = .next
            ({ s with
              mount := some { w with
                headers := headers, candidates := first :: later
                phase := .scan ((first :: later).map (·.segment)) 1 }
              sequencer := reads (.headerReadRecord first.segment 1) } : State).finish ∧
          ((first :: later).map (·.segment)).Sublist (headers.map (·.segment)) ∧
          ∀ d : Candidate, d ∈ first :: later ↔ ∃ h ∈ headers, ∃ (q : Nat) (retire : Bool), scanned h q retire ∧
            d = ⟨h.segment, q, retire, none, 1, 0⟩) ∧
      (rest = [] → (∀ h ∈ headers, ∀ (q : Nat) (retire : Bool), ¬ scanned h q retire) →
        ∃ u : State, exec c s = .next u.finish ∧ u.mount = none ∧
          u.space.segments = headers.map (({ w with headers := headers, candidates := [] } : MountWork).segment
            none))) ∧
    (∀ (page : Nat) (rest : List Nat) (found : Finding Record), f.op = .headerReadRecord n page →
      m.phase = .scan (n :: rest) page →
      (good ∧ found = readRecordHeader s.medium n page noise ∧ found ≠ .corrupt) ∨
      (mismatch ∧ found = readRecordHeader s.medium n page noise ∧ found = .corrupt) ∨
      (timedOut ∧ (f.seen = some (.record .corrupt) ∨ f.seen = none) ∧ found = .corrupt) →
      (∀ r : Record, found = .valid r → page + pagesFor r.length < 128 →
        exec c s = .next
          ({ s with
            mount := some { w.addRecord r n page with phase := .scan (n :: rest) (page + pagesFor r.length) }
            sequencer := reads (.headerReadRecord n (page + pagesFor r.length)) } : State).finish) ∧
      (∀ t : MountWork,
        (found = .blank ∧ t = w.endScan n .blank page) ∨
        (found = .corrupt ∧ t = w.endScan n .corrupt 128) ∨
        (∃ r : Record, found = .valid r ∧ 128 < page + pagesFor r.length ∧ t = w.endScan n .corrupt 128) ∨
        (∃ r : Record, found = .valid r ∧ page + pagesFor r.length = 128 ∧
          t = (w.addRecord r n page).endScan n .full 128) →
        (∀ (next : Nat) (later : List Nat), rest = next :: later →
          exec c s = .next
            ({ s with
              mount := some { t with phase := .scan (next :: later) 1 }
              sequencer := reads (.headerReadRecord next 1) } : State).finish) ∧
        let ends := ∃ u : State, exec c s = .next u.finish ∧
          u.mount = none ∧ u.index = t.index ∧ u.space.segments = t.headers.map (t.segment none) ∧
          u.mountReport.recovered = t.recovered ∧ u.mountReport.unreadable = t.unreadable ∧
          u.mountReport.timeouts = t.timeouts ∧ u.mountReport.truncated = t.truncated ∧
          u.mountReport.discarded = t.discarded ∧ u.mountReport.torn = 0
        (rest = [] → (∀ a ∈ t.candidates, a.retire = true) → ends) ∧
        (∀ a ∈ t.candidates, rest = [] → a.retire = false →
          (∀ d ∈ t.candidates, d.retire = false → d = a ∨ d.openSequence < a.openSequence ∨
            (d.openSequence = a.openSequence ∧ a.segment < d.segment)) →
          (a.scanEnd = some .blank → exec c s = .next
            ({ s with
              mount := some { t with phase := .resolve a.segment }
              sequencer := reads (.blankCheck a.segment a.writePointer) } : State).finish) ∧
          (a.scanEnd ≠ some .blank → ends))))) ∧
  (∀ (m : MountWork) (n : Nat) (records : List (Record × Nat)) (how : ScanEnd) (pointer : Nat), m.run = none →
    let t := (records.foldl (fun w x => w.addRecord x.1 n x.2) m).endScan n how pointer
    let whole := fun i : Nat => ∃ j k b q : Nat, 2 ≤ k ∧ j ≤ i ∧ i < j + k ∧ ∀ a < k, ∃ x : Record × Nat,
      records[j + a]? = some x ∧ x.1.bundle = b ∧ x.1.position = some (a + 1, k) ∧ x.1.sequence = q + a
    t.run = none ∧ t.found.length = m.found.length + records.length ∧
    t.found.drop records.length = m.found ∧
    (∀ (i : Nat) (x : Record × Nat), records[i]? = some x → ∃ d : Bool,
      t.found[records.length - 1 - i]? = some ⟨x.1, n, x.2, d⟩ ∧
      (d = false ↔ x.1.position = none ∨ whole i)) ∧
    t.discarded = m.discarded + (t.found.take records.length).countP (·.discarded) ∧
    m.highestSequence ≤ t.highestSequence ∧ (∀ x ∈ records, x.1.sequence ≤ t.highestSequence) ∧
    (t.highestSequence = m.highestSequence ∨ ∃ x ∈ records, x.1.sequence = t.highestSequence) ∧
    t.candidates = m.candidates.map (fun c => if c.segment = n then
      { c with
        scanEnd := some how, writePointer := pointer
        lowSequence := if how = .corrupt then 1 else
          records.foldl (fun low x => if low = 0 ∨ x.1.sequence < low then x.1.sequence else low) c.lowSequence }
      else c) ∧
    t.truncated = (if how = .corrupt then m.truncated + 1 else m.truncated))

/-- The BLANK CHECK of the OPEN choice ends mount (R126, R138, R139, R142-R145, R147): its segment is OPEN when every
byte from the write pointer on reads erased, after retries of timeouts or none, else FILLED and counted torn; so too when
the last attempt times out (in either of two rows, log 8), which makes the read UNREADABLE; and MOUNTED is raised. Each segment has the state, erase
count and reason that its header slots give by R138 and R139, a lost count being the highest read, capped at 99,999 (that
a RETIRED one has write pointer 1 and no pages is log 20); a candidate is OPEN, FILLED, or, to be retired, RETIRING when
an indexed record lies in it and RETIRED otherwise, UNMARKED, with its pages counted by the index. The index is in
ascending order of tag; each entry is that of the standing record of its tag with the highest sequence, then the highest
open sequence of its segment, then, in one segment, the highest page; every tag of a standing record is indexed, or,
above 1024 of them, lies beyond the 1024 that are, and the store is then DEGRADED. The counter is 1 above the highest
sequence, the free list holds the ERASED segments, and the mount report has mount's counts. -/
def Obligations.MountResolvesTheStore : Prop :=
  ∀ (c : Instr) (noise : Patch) (s : State) (m : MountWork) (f : InFlight) (n page : Nat) (blank timedOut : Bool),
    s.power = .on → s.mount = some m → s.sequencer.inFlight = some f → f.op = .blankCheck n page →
    s.opExists f.op = true →
    (c = .blankCheck (.ready noise) ∧ blank = readBlank s.medium n page noise ∧ timedOut = false) ∨
      ((c = .blankCheck .timeout ∨ ∃ left : Remnant, c = .attemptTimeout left) ∧ f.attempts + 1 = f.allowed ∧
        blank = false ∧ timedOut = true) →
    let opened := if blank = true then some n else none
    let stands := fun x : Found => x ∈ m.found ∧ x.discarded = false
    let rank := fun number : Nat => match m.candidates.find? fun c => c.segment == number with
      | some c => c.openSequence
      | none => 0
    ∃ u : State, exec c s = .next u.finish ∧ u.mount = none ∧
      u.space.segments = m.headers.map (m.segment opened) ∧
      u.space.present = m.present ∧
      u.mountReport.torn = (if blank = true then 0 else 1) ∧ u.mountReport.recovered = m.recovered ∧
      u.mountReport.unreadable = (if timedOut = true then bump m.unreadable else m.unreadable) ∧
      u.mountReport.timeouts = (if timedOut = true then bump m.timeouts else m.timeouts) ∧
      u.mountReport.truncated = m.truncated ∧ u.mountReport.discarded = m.discarded ∧
      u.background = ⟨u.pendingErases, none⟩ ∧ u.causes.mounted = true ∧ u.medium = s.medium ∧
      u.port.state = (if s.pfw = true then .draining else .idle) ∧
      (∃ top : Nat, u.space.openCounter = top + 1 ∧
        (∀ h ∈ m.headers, ∀ q : Nat, h.opened = .valid q → q ≤ top) ∧
        (top = 0 ∨ ∃ h ∈ m.headers, h.opened = .valid top)) ∧
      (∀ h ∈ m.headers,
        let g := m.segment opened h
        let bare : Segment :=
          { number := h.segment, state := .erasePending, eraseCount := g.eraseCount, writePointer := 1, live := 0
            dead := 0, pending := 0, lowSequence := 0, openSequence := 0, reason := none, mark := none }
        let retired := fun why : RetireReason => { bare with
          state := .retired, reason := some why, mark := some .marked
          openSequence := match h.opened with
            | .valid q => q
            | .blank | .corrupt => 0 }
        (∀ count : Nat, h.formatted = .valid count → g.eraseCount = count) ∧
        ((∀ count : Nat, h.formatted ≠ .valid count) → g.number = h.segment ∧ ∃ top : Nat,
          (∀ x ∈ m.headers, ∀ count : Nat, x.formatted = .valid count → count ≤ top) ∧
          (top = 0 ∨ ∃ x ∈ m.headers, x.formatted = .valid top) ∧
          (h.retired ≠ .blank ∨ g.state = .erasePending) ∧ g.eraseCount = min top 99999) ∧
        (∀ why : RetireReason, h.retired = .valid why → g = retired why) ∧
        (h.retired = .corrupt → (∀ q : Nat, h.opened ≠ .valid q) → g = retired .program) ∧
        (h.retired = .blank → h.formatted = .valid 100000 → g = retired .worn) ∧
        (h.retired = .blank → (∀ count : Nat, h.formatted ≠ .valid count) → g = bare) ∧
        (∀ count : Nat, h.retired = .blank → h.formatted = .valid count → count ≠ 100000 →
          (h.opened = .blank → g = { bare with state := .erased }) ∧ (h.opened = .corrupt → g = bare)) ∧
        (∀ (c : Candidate) (q : Nat), m.candidates.find? (fun c => c.segment == h.segment) = some c →
          h.opened = .valid q →
          h.retired = .corrupt ∨ (h.retired = .blank ∧ ∃ count : Nat, h.formatted = .valid count ∧ count ≠ 100000) →
          let live := ((u.index.entries.filter fun e => e.segment == h.segment).map (·.pages)).sum
          g = { bare with
            state := if c.retire = true then
                (if ∃ e ∈ u.index.entries, e.segment = h.segment then .retiring else .retired)
              else if opened = some h.segment then .open else .filled
            writePointer := if opened = some h.segment then c.writePointer else 128
            live := live, dead := (if opened = some h.segment then c.writePointer - 1 else 127) - live
            lowSequence := c.lowSequence, openSequence := c.openSequence
            reason := if c.retire = true then some .program else none
            mark := if c.retire = true then some .unmarked else none })) ∧
      u.index.entries.Pairwise (fun a b => a.tag < b.tag) ∧ u.index.entries.length ≤ 1024 ∧
      u.index.reservations = 0 ∧ u.index.nextSequence = m.highestSequence + 1 ∧
      (∀ e ∈ u.index.entries, ∃ x : Found, stands x ∧
        e = ⟨x.record.tag, (match x.record.kind with
            | .data => .live x.record.length x.record.protect false
            | .tombstone => .tombstone x.record.prior
            | .loss => .lost x.record.prior),
          x.record.sequence, x.segment, x.page, pagesFor x.record.length⟩ ∧
        ∀ y : Found, stands y → y.record.tag = e.tag → y.record.sequence < x.record.sequence ∨
          (y.record.sequence = x.record.sequence ∧ (rank y.segment < rank x.segment ∨
            (rank y.segment = rank x.segment ∧ (y.segment = x.segment → y.page ≤ x.page))))) ∧
      (∀ x : Found, stands x → (∃ e ∈ u.index.entries, e.tag = x.record.tag) ∨
        (u.index.entries.length = 1024 ∧ ∀ e ∈ u.index.entries, e.tag < x.record.tag)) ∧
      (u.space.reasons.degraded = true ↔
        ∃ x : Found, stands x ∧ ∀ e ∈ u.index.entries, e.tag ≠ x.record.tag) ∧
      (u.space.reasons.worn = true ↔ (u.space.segments.countP fun g => g.state != .retired) < 4) ∧
      (u.space.reasons.sequence = true ↔ 4294967294 ≤ m.highestSequence) ∧
      (∀ k : Nat, k ∈ u.space.freeList ↔ ∃ g ∈ u.space.segments, g.number = k ∧ g.state = .erased)

/-! ## Reads of the medium -/

/-- A read attempt that times out, or whose findings or bytes do not match, is followed by another while attempts
remain: the attempt is counted at the operation, which keeps the findings of a HEADER READ's last attempt that did
not time out; a timeout is counted by the Health Monitor, or by mount while it runs, and nothing else changes (R120,
R124, R125, R127). That each of these commands is the end of one attempt, its timeout the same as ATTEMPT_TIMEOUT,
is log 8. What follows the last attempt, a mismatch or a timeout, is stated with the outcome of each read
(HeaderReadsAreTakenByMount, MountResolvesTheStore, FetchTakesItsRead, ReclaimJobsRunTheirCourse). -/
def Obligations.ReadAttemptsAreRetried : Prop :=
  ∀ (s : State) (f : InFlight), s.power = .on → s.sequencer.inFlight = some f → s.opExists f.op = true →
    f.attempts + 1 < f.allowed →
    let again := fun (t : State) (seen : Option Findings) =>
      ({ t with sequencer := { s.sequencer with
        inFlight := some { f with attempts := f.attempts + 1, seen := seen } } } : State)
    let timedOut : State := again
      (match s.mount with
       | some m => { s with mount := some { m with timeouts := bump m.timeouts } }
       | none => { s with health := { s.health with counters := { s.health.counters with
           mediumTimeouts := bump s.health.counters.mediumTimeouts } } }) f.seen
    (∀ segment page pages tag sequence : Nat, f.op = .recordRead segment page pages tag sequence →
      exec (.recordRead .timeout) s = .next timedOut.finish ∧
      (∀ left, exec (.attemptTimeout left) s = .next timedOut.finish) ∧
      (∀ noise, readRecord s.medium segment page pages tag sequence noise = none →
        exec (.recordRead (.ready noise)) s = .next (again s f.seen).finish)) ∧
    ((∃ n, f.op = .headerReadPage n) ∨ (∃ n p, f.op = .headerReadRecord n p) →
      exec (.headerRead .timeout) s = .next timedOut.finish ∧
      (∀ left, exec (.attemptTimeout left) s = .next timedOut.finish)) ∧
    (∀ (n : Nat) (noise : Patch), f.op = .headerReadPage n →
      let p := readPageHeader s.medium n noise
      p.formatted = .corrupt ∨ p.opened = .corrupt ∨ p.retired = .corrupt →
      exec (.headerRead (.ready noise)) s = .next (again s (some (.page p))).finish) ∧
    (∀ (n page : Nat) (noise : Patch), f.op = .headerReadRecord n page →
      readRecordHeader s.medium n page noise = .corrupt →
      exec (.headerRead (.ready noise)) s = .next (again s (some (.record .corrupt))).finish) ∧
    ((∃ n p, f.op = .blankCheck n p) →
      exec (.blankCheck .timeout) s = .next timedOut.finish ∧
      (∀ left, exec (.attemptTimeout left) s = .next timedOut.finish))

/-- The outcome of a FETCH read (R18, R114, R124, R127, R133, R155, R168, R182). A record read is placed in the read
frame, LENGTH and the sequence are loaded, the pin is released and the port enters SENDING, or the command completes when
the length is 0; read after the first attempt, it is counted as RECOVERED, and offers its tag to the Refresh List
while REFRESH is 1. A read whose last attempt is a mismatch, or a timeout, which is counted, is UNREADABLE and makes the
damaged claim: taken, the LIVE entry it was made for is damaged and the command ends with UNREADABLE; refused, the FETCH
begins again with the visible state of its tag. A read whose command has ended delivers nothing and makes its offer;
that it makes its claim too is the model's choice (log 42). That the words of the frame beyond the payload stay is
log 23, and that these answers come one for each attempt, a timeout in either of two forms, is log 8. -/
def Obligations.FetchTakesItsRead : Prop :=
  ∀ (c : Instr) (noise : Patch) (s : State) (f : InFlight) (tag : Nat) (detached : Bool) (segment page pages t q : Nat),
    s.awake → s.sequencer.inFlight = some f → f.requester = .fetch tag detached →
    f.op = .recordRead segment page pages t q → s.opExists f.op = true →
    let free := { s.sequencer with inFlight := none, pin := none }
    let listed := s.reclaim.refreshList
    let offers := f.attempts ≠ 0 ∧ s.window.options.refresh = 1
    let dropped := tag ∈ listed ∨ 8 ≤ listed.length
    let counted := if f.attempts = 0 then s.health.counters else { s.health.counters with
      recoveredReads := bump s.health.counters.recoveredReads }
    let good : State := { s with
      sequencer := free
      health := { s.health with counters := if offers ∧ dropped then
        { counted with refreshDrops := bump counted.refreshDrops } else counted }
      reclaim := { s.reclaim with refreshList := if offers ∧ ¬ dropped then listed ++ [tag] else listed } }
    let bad : State := { s with
      sequencer := free
      health := { s.health with counters := { s.health.counters with
        unreadableReads := bump s.health.counters.unreadableReads
        mediumTimeouts := if c = .recordRead (.ready noise) then s.health.counters.mediumTimeouts
          else bump s.health.counters.mediumTimeouts } } }
    let loads := fun (u : State) (length sequence : Nat) (words : List Word) =>
      ({ u with window := { u.window with
        frame := words ++ u.window.frame.drop words.length
        length := word length, seqlo := word sequence, seqhi := word (sequence / 65536) } } : State)
    let sends := fun (u : State) (k : Nat) =>
      ({ u with
        port := { u.port with state := .sending, activity := .sending k, residue := k
                              dataTimer := some u.window.options.dataTimeout }
        causes := { u.causes with data := true } } : State)
    let fails := f.attempts + 1 = f.allowed ∧
      ((c = .recordRead (.ready noise) ∧ readRecord s.medium segment page pages t q noise = none) ∨
        c = .recordRead .timeout ∨ ∃ left : Remnant, c = .attemptTimeout left)
    let locates := fun (x : IndexEntry) (sequence segment page : Nat) =>
      (∃ n p d, x.kind = .live n p d) ∧ x.sequence = sequence ∧ x.segment = segment ∧ x.page = page
    (∀ (e : IndexEntry), detached = false → s.port.activity = .fetch e →
      (∀ r : Record, readRecord s.medium segment page pages t q noise = some r →
        (0 < e.length → exec (.recordRead (.ready noise)) s = .next
          (sends (loads good e.length e.sequence (packWords r.payload)) ((e.length + 1) / 2)).finish) ∧
        (e.length = 0 → s.pfw = false → exec (.recordRead (.ready noise)) s = .next
          ((loads good 0 e.sequence (packWords r.payload)).completedAs .none 0).finish)) ∧
      (fails → s.pfw = false →
        (∀ (x : IndexEntry) (n : Nat) (p d : Bool), s.lookup e.tag = some x → x.kind = .live n p d →
          x.sequence = e.sequence → x.segment = e.segment → x.page = e.page →
          exec c s = .next
            (({ bad with index := { s.index with
              entries := insertEntry { x with kind := .live n p true } s.index.entries } } : State).completedAs
                .unreadable 0).finish) ∧
        ((∀ x : IndexEntry, s.lookup e.tag = some x → ¬ locates x e.sequence e.segment e.page) →
          exec c s = .next
            (match s.visible e.tag with
             | .absent => bad.completedAs .notFound 0
             | .lost x => (loads bad 0 x.sequence []).completedAs .lost 0
             | .staged x =>
               let u := loads bad x.length 0 (packWords ((s.slotBytes x.slot).take x.length))
               if x.length = 0 then u.completedAs .none 0 else sends u ((x.length + 1) / 2)
             | .stored x | .damaged x => { bad with
               port := { s.port with
                 state := .executing, activity := .fetch x, residue := 0, dataTimer := none }
               sequencer := { free with requests := { s.sequencer.requests with
                 read := s.sequencer.requests.read.lodge } } }).finish))) ∧
    (detached = true →
      (∀ r : Record, readRecord s.medium segment page pages t q noise = some r →
        exec (.recordRead (.ready noise)) s = .next good.finish) ∧
      (fails →
        (∀ (x : IndexEntry) (n : Nat) (p d : Bool), s.lookup t = some x → x.kind = .live n p d →
          x.sequence = q → x.segment = segment → x.page = page →
          exec c s = .next
            ({ bad with index := { s.index with
              entries := insertEntry { x with kind := .live n p true } s.index.entries } } : State).finish) ∧
        ((∀ x : IndexEntry, s.lookup t = some x → ¬ locates x q segment page) →
          exec c s = .next bad.finish)))

/-! ## Programs and erases -/

/-- The end of a RECORD PROGRAM, HEADER PROGRAM or SEGMENT ERASE, and the timeout of one: the command completes and
the medium is as the end leaves it; after DONE, on a medium in canonical form, the bytes of the record or the slot
read as programmed, and every byte of the segment reads FFh (R119-R122, R188). -/
def Obligations.ProgramsAndErasesChangeTheMedium : Prop :=
  ∀ (s : State) (f : InFlight), s.power = .on → s.sequencer.inFlight = some f → s.opExists f.op = true →
    (∀ (segment page : Nat) (r : Record), f.op = .recordProgram segment page r →
      (∀ outcome : MediumEnd, ∃ t : State, exec (.recordProgram outcome) s = .next t ∧
        t.medium = f.op.apply s.medium outcome) ∧
      (∀ left : Remnant, ∃ t : State, exec (.attemptTimeout left) s = .next t ∧
        t.medium = f.op.leave s.medium left) ∧
      (s.mediumCanonical → ∃ t : State, exec (.recordProgram .done) s = .next t ∧
        Memory.readBytes t.medium (mediumAddress segment page 0) (recordBytes r).length = recordBytes r)) ∧
    (∀ (segment : Nat) (slot : SlotContent), f.op = .headerProgram segment slot →
      (∀ outcome : MediumEnd, ∃ t : State, exec (.headerProgram outcome) s = .next t ∧
        t.medium = f.op.apply s.medium outcome) ∧
      (∀ left : Remnant, ∃ t : State, exec (.attemptTimeout left) s = .next t ∧
        t.medium = f.op.leave s.medium left) ∧
      (s.mediumCanonical → ∃ t : State, exec (.headerProgram .done) s = .next t ∧
        Memory.readBytes t.medium (mediumAddress segment 0 slot.place) 16 = slotBytes segment slot)) ∧
    (∀ segment : Nat, f.op = .segmentErase segment →
      (∀ outcome : MediumEnd, ∃ t : State, exec (.segmentErase outcome) s = .next t ∧
        t.medium = f.op.apply s.medium outcome) ∧
      (∀ left : Remnant, ∃ t : State, exec (.attemptTimeout left) s = .next t ∧
        t.medium = f.op.leave s.medium left) ∧
      ∃ t : State, exec (.segmentErase .done) s = .next t ∧
        ∀ a : Nat, mediumAddress segment 0 0 ≤ a → a < mediumAddress segment 0 0 + 32768 →
          Memory.read t.medium a = 0xFF)

/-- The program of the Commit Engine's unit ended. DONE before a bundle's last member, the next member requests the
port (R86). DONE at the last, and no member stale, every record is installed in one step: LIVE for a WRITE,
TOMBSTONE for a DELETE, with its place and sequence, no other tag's entry changing, the unit's entries leaving the
PWL with their slots FREE (R26, R28, R84, R87); the pages turn from pending and dead to live, and those of a
replaced entry dead (R62: here for a standalone entry, and for a bundle of tags without entries). A member stale,
nothing is installed, the pages stay dead, and the unit is begun again (R27, R28). FAILED or TIMEOUT, the segment
leaves OPEN for RETIRING with reason PROGRAM and the failure is counted (R73, R88); before the third failure the
unit is retried; at the third the engine is HALTED with reason MEDIUM, the in-commit flags are cleared, a released
head that a later entry of its tag supersedes leaves the list, DEFERRED is raised, and a wait of the command in
progress ends with WRITE_FAILED (R45, R89, R91). While ERASE STORE waits for the outcome there is no retry (R54); that
there is then no halt either is log 37. -/
def Obligations.CommitProgramIsInstalledOrRetried : Prop :=
  ∀ (s : State) (f : InFlight) (u : CommitUnit) (segment page : Nat) (r : Record),
    s.awake → s.sequencer.inFlight = some f → f.requester = .commit → f.op = .recordProgram segment page r →
    s.opExists f.op = true → s.commit.unit = some u →
    let entries := unitEntries s.staging.pwl
    let first := match s.space.range with
      | some range => range.page
      | none => page
    let size := fun e : PwlEntry => pagesFor (match e.kind with | .write => e.length | .delete => 0)
    let located := fun (e : PwlEntry) (k : Nat) =>
      (⟨e.tag, match e.kind with
        | .write => .live e.length e.protect false
        | .delete => .tombstone u.prior,
       u.first + k, segment, first + ((entries.take k).map size).sum, size e⟩ : IndexEntry)
    let stale := ∃ (k : Nat) (e : PwlEntry) (x : IndexEntry),
      entries[k]? = some e ∧ s.lookup e.tag = some x ∧ u.first + k < x.sequence
    (u.member + 1 < entries.length → ∃ v : State, exec (.recordProgram .done) s = .next v.finish ∧
      v.commit = { s.commit with unit := some { u with member := u.member + 1 } } ∧
      v.sequencer.requests.commit = s.sequencer.requests.commit.lodge ∧ v.sequencer.inFlight = none ∧
      v.index = s.index ∧ v.staging = s.staging ∧ v.space = s.space) ∧
    (entries.length ≤ u.member + 1 → ¬ stale → ∃ v : State, exec (.recordProgram .done) s = .next v.finish ∧
      (∀ (k : Nat) (e : PwlEntry), entries[k]? = some e →
        (∀ (a : Nat) (x : PwlEntry), k < a → entries[a]? = some x → x.tag ≠ e.tag) →
        v.lookup e.tag = some (located e k)) ∧
      (∀ tag : Nat, (∀ e ∈ entries, e.tag ≠ tag) → v.lookup tag = s.lookup tag) ∧
      (∀ e : PwlEntry, entries = [e] → v.index.entries = insertEntry (located e 0) s.index.entries ∧
        v.space.segments = s.space.segments.map fun g =>
          let h := match s.lookup e.tag with
            | some x => if g.number = x.segment then
                { g with live := g.live - x.pages, dead := g.dead + x.pages } else g
            | none => g
          if g.number = segment then
            { h with pending := h.pending - size e, dead := h.dead - size e, live := h.live + size e }
          else h) ∧
      (let k := (entries.map size).sum
       (entries.map (·.tag)).Nodup → (∀ e ∈ entries, s.lookup e.tag = none) →
        v.space.segments = s.space.segments.map fun g => if g.number = segment then
          { g with pending := g.pending - k, dead := g.dead - k, live := g.live + k } else g) ∧
      v.index.nextSequence = s.index.nextSequence ∧
      v.staging = s.staging.removeEntries (fun x => entries.any fun e => e.slot == x.slot) ∧
      v.space.range = none ∧ v.commit = ⟨.running, none, 0⟩ ∧ v.sequencer.inFlight = none ∧
      v.port = s.port ∧ v.health = s.health ∧ v.reclaim = s.reclaim) ∧
    (entries.length ≤ u.member + 1 → stale → ∃ v : State, exec (.recordProgram .done) s = .next v.finish ∧
      v.index = s.index ∧ v.staging = { s.staging with pwl := s.staging.pwl.map fun e =>
        { e with inCommit := false } } ∧
      v.space = { s.space with
        range := none
        segments := s.space.segments.map fun g => if g.number = segment then
          { g with pending := g.pending - (entries.map fun e => pagesFor e.length).sum } else g } ∧
      v.commit = ⟨.running, none, 0⟩ ∧ v.sequencer.inFlight = none ∧ v.port = s.port) ∧
    (∀ (left : Remnant) (o : MediumEnd), o = .failed left ∨ o = .timeout left →
      ∃ v : State, exec (.recordProgram o) s = .next v.finish ∧
        v.space = { s.space with
          range := none
          segments := s.space.segments.map fun g => if g.number = segment then
            { g with
              state := .retiring, reason := some .program, mark := some .none
              pending := g.pending - (match s.space.range with
                | some range => range.pages
                | none => pagesFor r.length)
              dead := g.dead + (128 - g.writePointer), writePointer := 128 }
            else g } ∧
        (o = .failed left → v.health.counters = { s.health.counters with
          programFailures := bump s.health.counters.programFailures }) ∧
        (o = .timeout left → v.health.counters = { s.health.counters with
          mediumTimeouts := bump s.health.counters.mediumTimeouts }) ∧
        v.index = s.index ∧ v.sequencer.inFlight = none ∧ v.reclaim = s.reclaim ∧
        (s.erasing = true → v.commit = ⟨.running, none, 0⟩ ∧ v.staging = s.staging ∧ v.port = s.port ∧
          v.causes = s.causes) ∧
        (s.erasing = false → s.commit.failures < 2 → v.commit = ⟨.running, none, s.commit.failures + 1⟩ ∧
          v.staging = s.staging ∧ v.port = s.port) ∧
        (s.erasing = false → 2 ≤ s.commit.failures →
          v.commit = ⟨.halted .medium, none, 0⟩ ∧ v.causes.deferred = true ∧
          v.sequencer.requests.commit = .absent ∧
          (let cleared : Staging := { s.staging with pwl := s.staging.pwl.map fun e =>
             { e with inCommit := false } }
           s.port.activity.waits = false → v.port = s.port ∧
            (∀ (e : PwlEntry) (rest : List PwlEntry), cleared.pwl = e :: rest →
              (e.bundle = 0 ∧ (∃ x ∈ rest, x.tag = e.tag ∧ x.bundle = 0) →
                v.staging = cleared.removeEntries fun x => x.slot == e.slot) ∧
              (e.bundle ≠ 0 ∨ (∀ x ∈ rest, x.tag = e.tag → x.bundle ≠ 0) → v.staging = cleared))) ∧
          (s.pfw = false → s.port.activity = .syncWait ∨ (∃ w, s.port.activity = .slotWait w) ∨
              (∃ l, s.port.activity = .throughWait l) →
            v.port = ⟨.idle, .none, 0, .writeFailed, 0, none⟩ ∧ v.causes.done = true)))

/-- What those who erase segments make of their outcomes. The background erase (R66, R148): an erase that ends DONE
raises the segment's erase count and its FORMATTED program follows; FORMATTED that ends DONE below the wear limit
makes the segment ERASED, with its counts reset, and puts it in the free list; an erase that FAILED is counted and
leads to the RETIRED slot with reason ERASE. The Reclaimer's job on a victim (R112, R113): the same, FAILED or TIMEOUT
of its erase leading to RETIRE_MARK with reason ERASE and of its FORMATTED program with reason PROGRAM; at the wear
limit RETIRE_MARK with reason WORN follows whatever that program's outcome, and its low sequence is 0 after DONE (R63);
the job ends with the victim ERASED, or RETIRED at the end of its RETIRED slot's program, whatever it is, MARKED after
DONE and UNMARKED otherwise, WORN being added when fewer than 4 usable segments are left (R73, R77). That an erase
count stays at 100,000 is log 16; that the worn segment's other fields stand till it is RETIRED is log 17, and that a
failure of its FORMATTED program is counted nowhere is log 36. -/
def Obligations.ErasersTakeTheirOutcomes : Prop :=
  ∀ (s : State) (f : InFlight) (n : Nat), s.awake → s.sequencer.inFlight = some f → s.opExists f.op = true →
    let raised := s.space.segments.map fun g => if g.number = n then
      { g with eraseCount := min (g.eraseCount + 1) 100000 } else g
    let formatted := s.space.segments.map fun g => if g.number = n then
      { g with
        state := .erased, writePointer := 1, live := 0, dead := 0, pending := 0
        lowSequence := 0, openSequence := 0, reason := none, mark := none }
      else g
    let counts := fun (o : MediumEnd) (failed : Counters) => match o with
      | .done => s.health.counters
      | .failed _ => failed
      | .timeout _ => { s.health.counters with mediumTimeouts := bump s.health.counters.mediumTimeouts }
    let counters := s.health.counters
    (f.requester = .background →
      (s.background.hand = some (n, .erase) → f.op = .segmentErase n →
        (∃ v : State, exec (.segmentErase .done) s = .next v.finish ∧
          v.background = { s.background with hand := some (n, .format) } ∧
          v.space.segments = raised ∧ v.health = s.health ∧ v.index = s.index ∧ v.port = s.port) ∧
        (∀ left, ∃ v : State, exec (.segmentErase (.failed left)) s = .next v.finish ∧
          v.background = { s.background with hand := some (n, .retire .erase) } ∧
          v.space = s.space ∧
          v.health.counters = { counters with eraseFailures := bump counters.eraseFailures } ∧
          v.index = s.index ∧ v.port = s.port)) ∧
      (∀ slot : SlotContent, s.background.hand = some (n, .format) → f.op = .headerProgram n slot →
        s.eraseCountOf n < 100000 →
        ∃ v : State, exec (.headerProgram .done) s = .next v.finish ∧
          v.background = { s.background with hand := none } ∧ v.space.segments = formatted ∧
          n ∈ v.space.freeList ∧ (∀ x ∈ s.space.freeList, x ∈ v.space.freeList) ∧
          v.space.freeList.length = s.space.freeList.length + 1 ∧
          v.reclaim.exclusion = [] ∧ v.index = s.index ∧ v.port = s.port)) ∧
    (∀ j : Job, f.requester = .reclaimer → s.reclaim.job = some j → j.kind = .segment n →
      let asks := { s.sequencer with
        inFlight := none, pin := none
        requests := { s.sequencer.requests with reclaimer := s.sequencer.requests.reclaimer.lodge } }
      let goesOn := fun (o : MediumEnd) (k : Job) =>
        ({ s with
          medium := f.op.apply s.medium o, sequencer := asks
          reclaim := { s.reclaim with job := some k, evaluated := none } } : State)
      let marks := fun why : RetireReason => { j with state := .retireMark, reason := some why }
      (f.op = .segmentErase n →
        exec (.segmentErase .done) s = .next
          ({ goesOn .done { j with state := .formatMark } with
            space := { s.space with segments := raised } } : State).finish ∧
        (∀ o : MediumEnd, o ≠ .done → exec (.segmentErase o) s = .next
          ({ goesOn o (marks .erase) with
            health := { s.health with counters := counts o { counters with
              eraseFailures := bump counters.eraseFailures } } } : State).finish)) ∧
      (∀ count : Nat, f.op = .headerProgram n (.formatted count) →
        (s.eraseCountOf n < 100000 →
          (∃ v : State, exec (.headerProgram .done) s = .next v.finish ∧ v.space.segments = formatted ∧
            n ∈ v.space.freeList ∧ (∀ x ∈ s.space.freeList, x ∈ v.space.freeList) ∧
            v.space.freeList.length = s.space.freeList.length + 1 ∧
            v.reclaim.job = none ∧ v.reclaim.exclusion = [] ∧ v.reclaim.refreshList = s.reclaim.refreshList ∧
            (s.commit.state = .waiting →
              v.sequencer.requests.commit = s.sequencer.requests.commit.lodge) ∧
            v.index = s.index ∧ v.port = s.port ∧ v.health = s.health) ∧
          (∀ o : MediumEnd, o ≠ .done → exec (.headerProgram o) s = .next
            ({ goesOn o (marks .program) with
              health := { s.health with counters := counts o { counters with
                programFailures := bump counters.programFailures } } } : State).finish)) ∧
        (100000 ≤ s.eraseCountOf n → ∀ o : MediumEnd, exec (.headerProgram o) s = .next
          ({ goesOn o (marks .worn) with
            space := if o = .done then
              { s.space with segments := s.space.segments.map fun g => if g.number = n then
                { g with lowSequence := 0 } else g }
              else s.space } : State).finish)) ∧
      (∀ (why : RetireReason) (o : MediumEnd), f.op = .headerProgram n (.retired why) →
        ∃ v : State, exec (.headerProgram o) s = .next v.finish ∧
          v.space.segments = (s.space.segments.map fun g => if g.number = n then
            { g with
              state := .retired, live := 0, reason := some (g.reason.getD why)
              mark := some (if o = .done then .marked else .unmarked) }
            else g) ∧
          v.space.freeList = s.space.freeList ∧
          (let few := decide ((v.space.segments.countP fun g => g.state != .retired) < 4)
           v.space.reasons = { s.space.reasons with worn := s.space.reasons.worn || few }) ∧
          v.health.counters = counts o { counters with programFailures := bump counters.programFailures } ∧
          v.reclaim = { s.reclaim with job := none } ∧ v.index = s.index ∧ v.port = s.port))

/-! ## The blocks' own steps -/

/-- The begin step (R29, R42, R80, R81, R86, R91), an engine's that holds no unit, or the one by which a NO_SPACE halt
ends outside FULL and DRAINING, the failure count being 0 (R92). With the store READ_ONLY the engine is HALTED with that
reason, no flag set and no number taken. Else the in-commit flag is set on the standalone entry or on all n members of
the bundle at the head; a WRITE takes the next sequence number, a bundle n consecutive ones, and a DELETE of a LIVE or
LOST tag one, the entry's sequence being its prior one; and the engine requests the port. Numbers that would pass
4,294,967,294 are refused: SEQUENCE is added and the engine is HALTED with READ_ONLY. A DELETE of a tag without an entry
or with a TOMBSTONE is discarded: it leaves the list, its slot FREE, and the engine holds no unit. A RUNNING engine that
holds no unit begins the next in the same step, or is IDLE when the list is empty (R84, R87, R88). An engine that a step
leaves IDLE with entries staged begins its unit in the next step, whatever that step is (R79): the begin is one of the
step's consequences, and the step has others left as long as it has not come about. That it follows the step's own
event, and that the field commitDue carries it from one step to the next, is log 5; that ERASE STORE holds it off is
log 37. A halt removes a released head that a later standalone entry for its tag supersedes (R45); that it does so here
too, where the head's flag was clear already, as after a stale refusal, is the model's choice, log 34. -/
def Obligations.CommitBeginsTheHead : Prop :=
  (∀ (c : Instr) (s : State) (e : PwlEntry) (rest : List PwlEntry) (failures : Nat), s.awake → s.erasing = false →
    (s.port.activity.waits = true → s.pfw = false) → s.staging.pwl = e :: rest →
    (c = .commitBegin ∧ (s.commit.state = .idle ∨ s.commit.state = .running) ∧ s.commit.unit = none ∧
        failures = s.commit.failures) ∨
      (c = .commitHaltEnd ∧ s.commit.state = .halted .noSpace ∧ s.port.state ≠ .draining ∧ s.space.state ≠ .full ∧
        failures = 0) →
    let becomes := fun t : State => exec c s = .next t.finish ∧
      (c = .commitBegin → s.commitDue = true → commitStart s = some t ∧ commitStart ∈ consequences) ∧
      (c = .commitBegin → s.commit.state = .running → commitNext s = some t ∧ commitNext ∈ consequences)
    let takes := fun n prior : Nat =>
      (s.index.nextSequence + n - 1 ≤ 4294967294 → becomes { s with
        staging := { s.staging with pwl :=
          (s.staging.pwl.take n).map (fun x => { x with inCommit := true }) ++ s.staging.pwl.drop n }
        index := { s.index with nextSequence := s.index.nextSequence + n }
        commit := ⟨.running, some ⟨s.index.nextSequence, prior, 0⟩, failures⟩
        sequencer := { s.sequencer with requests := { s.sequencer.requests with
          commit := s.sequencer.requests.commit.lodge } } }) ∧
      (4294967294 < s.index.nextSequence + n - 1 → becomes (({ s with space := { s.space with
        reasons := { s.space.reasons with sequence := true } } } : State).haltedAs .readOnly))
    (s.readOnly = true → becomes (s.haltedAs .readOnly)) ∧
    (s.readOnly = false →
      (e.kind = .write → e.position = none → takes 1 0) ∧
      (∀ n : Nat, e.kind = .write → e.position = some (1, n) → 1 ≤ n → n ≤ s.staging.pwl.length → takes n 0) ∧
      (e.kind = .delete → e.position = none →
        (∀ x : IndexEntry, s.lookup e.tag = some x →
          (∃ n p d, x.kind = .live n p d) ∨ (∃ prior, x.kind = .lost prior) → takes 1 x.sequence) ∧
        (s.lookup e.tag = none ∨ (∃ x prior, s.lookup e.tag = some x ∧ x.kind = .tombstone prior) →
          let left := s.staging.removeEntries fun x => x.slot == e.slot
          becomes { s with
            staging := left
            commit := ⟨.running, none, 0⟩
            idle := if left.pwl = [] ∧ s.port.state = .idle then
                { s.idle with
                  running := if s.window.options.idleDelay = 0 then none else some s.window.options.idleDelay }
              else s.idle })))) ∧
  (∀ s : State, s.commit.state = .running → s.commit.unit = none → s.staging.pwl = [] →
    commitNext s = some { s with commit := ⟨.idle, none, 0⟩ }) ∧
  (∀ s : State, s.finish.commitDue = true ↔ s.finish.commit.state = .idle ∧ s.finish.staging.pwl ≠ []) ∧
  (∀ s : State, s.awake → s.erasing = false → s.commitDue = true → consequence s = none →
    s.commit.state = .idle → s.commit.unit = none → s.staging.pwl = [])

/-- The Reclaimer's jobs. Idle, with a selection due, it begins the job its order of choice gives (R72, R99, R100):
a segment job, its victim RECLAIMING or RETIRING, or a refresh job; when one is due is log 24. In SELECT a segment
job takes the located record of its victim with the lowest first page from the cursor on (R104): a tombstone whose
drop condition holds is dropped, its entry removed and its page dead (R32, R108), any other is read, and after the
last a RECLAIMING victim is erased. A copy read DONE or RECOVERED puts the record, standalone, in the copy buffer
and requests its program (R8, R105); UNREADABLE, a tombstone or loss marker
is rewritten from its entry (R110); a LIVE record that still stands is damaged, and a segment job takes a number for a
loss marker (R109), a refresh job ends (R115); one that does not is finished (R18). A copy programmed DONE, the entry
that still locates the source is moved to it, its damaged flag cleared, the copy's pages live and the source's dead, else
the copy is dead on arrival (R31, R107); a loss marker replaces the LIVE entry of the lost record, LOST_RECORDS counting
it, else it is dead (R33). The record is then finished: a segment job goes on after it, a refresh job ends and its tag
leaves the list (R115). A victim in ERASE requests its erase once no read pin is held on it, and makes the test again at
the grant (R111); a RETIRING one requests its RETIRED slot, or is RETIRED at once when UNMARKED (R104, R113). At the grant
a copy whose source no longer stands is skipped, and one without room ends the job, the victim excluded or the refresh
dropped (R106, R116). A program that fails makes its destination RETIRING and is tried again, a loss marker with a new
number; the third failure ends the job the same way (R107, R109, R115). Log 8: each RECORD_READ is the end of one
attempt; log 25: a job to be abandoned takes its outcomes whole, a loss marker's number too; log 44: a number left after
a bundle's refusal is given. -/
def Obligations.ReclaimJobsRunTheirCourse : Prop :=
  (∀ s : State, s.awake → s.reclaim.job = none → s.port.state ≠ .mounting → s.port.state ≠ .draining →
    s.erasing = false → s.reclaim.evaluated ≠ some s.quantities →
    (∀ v : Nat, s.choice = some (.segment v) →
      exec .reclaimSelection s = .next
        ({ s with
          space := { s.space with segments := (s.space.segments.map fun g =>
            if g.number = v then g.select else g) }
          reclaim := { s.reclaim with
            job := some ⟨.segment v, .select, 1, none, none, 0, 0, none, false, false⟩, evaluated := none } }
          : State).finish) ∧
    (∀ tag : Nat, s.choice = some (.refresh tag) →
      exec .reclaimSelection s = .next
        ({ s with reclaim := { s.reclaim with
            job := some ⟨.refresh tag, .select, 1, none, none, 0, 0, none, false, false⟩, evaluated := none } }
          : State).finish)) ∧
  (∀ (s : State) (j : Job) (v : Nat), s.reclaim.job = some j → j.state = .select → j.abandoning = false →
    j.kind = .segment v →
    (∀ e : IndexEntry, s.nextLocated v j.cursor = some e →
      e ∈ s.index.entries ∧ e.segment = v ∧ j.cursor ≤ e.page ∧
      (∀ x ∈ s.index.entries, x.segment = v → j.cursor ≤ x.page → e.page ≤ x.page) ∧
      (∀ prior : Nat, e.kind = .tombstone prior →
        (∀ g ∈ s.space.segments, g.number ≠ v → g.state = .open ∨ g.state = .filled ∨ g.state = .reclaiming ∨
          g.state = .retiring ∨ (g.state = .retired ∧ g.mark = some .unmarked) →
          g.lowSequence = 0 ∨ prior < g.lowSequence) →
        jobSelect s = some { s with
          index := { s.index with entries := s.index.entries.filter fun x => x.tag != e.tag }
          space := { s.space with segments := s.space.segments.map fun g => if g.number = e.segment then
            { g with live := g.live - 1, dead := g.dead + 1 } else g }
          reclaim := { s.reclaim with
            job := some { j with cursor := e.page + e.pages }, evaluated := none } }) ∧
      ((∀ prior : Nat, e.kind = .tombstone prior →
        ∃ g ∈ s.space.segments, g.number ≠ v ∧ (g.state = .open ∨ g.state = .filled ∨ g.state = .reclaiming ∨
          g.state = .retiring ∨ (g.state = .retired ∧ g.mark = some .unmarked)) ∧
          1 ≤ g.lowSequence ∧ g.lowSequence ≤ prior) →
        jobSelect s = some { s with
          reclaim := { s.reclaim with
            job := some { j with state := .copyRead, subject := some e }, evaluated := none }
          sequencer := { s.sequencer with requests := { s.sequencer.requests with
            reclaimer := s.sequencer.requests.reclaimer.lodge } } })) ∧
    (s.nextLocated v j.cursor = none →
      (∀ x ∈ s.index.entries, x.segment = v → x.page < j.cursor) ∧
      (∀ g : Segment, s.segment? v = some g →
        (g.state ≠ .retiring → jobSelect s = some { s with reclaim := { s.reclaim with
          job := some { j with state := .erase }, evaluated := none } }) ∧
        (∀ why : RetireReason, g.state = .retiring → g.reason = some why → g.mark ≠ some .unmarked →
          jobSelect s = some { s with
            reclaim := { s.reclaim with
              job := some { j with state := .retireMark, reason := some why }, evaluated := none }
            sequencer := { s.sequencer with requests := { s.sequencer.requests with
              reclaimer := s.sequencer.requests.reclaimer.lodge } } }) ∧
        (g.state = .retiring → g.mark = some .unmarked → ∃ t : State, jobSelect s = some t ∧
          t.reclaim = { s.reclaim with job := none } ∧ t.sequencer.inFlight = s.sequencer.inFlight ∧
          t.sequencer.requests.reclaimer = s.sequencer.requests.reclaimer ∧
          t.space.segments = (s.space.segments.map fun x => if x.number = v then
            { x with
              state := .retired, live := 0, reason := some (x.reason.getD .program), mark := some .unmarked }
            else x))))) ∧
  (∀ (s : State) (j : Job) (v : Nat), s.reclaim.job = some j → j.kind = .segment v → j.state = .erase →
    let asked : State := { s with sequencer := { s.sequencer with requests := { s.sequencer.requests with
      reclaimer := .fresh } } }
    (s.reclaimerInFlight = false → s.sequencer.requests.reclaimer = .absent → j.abandoning = false →
      j.deferred = false → jobRequest s = if s.sequencer.pin = some v then none else some asked) ∧
    s.grantReclaimer = (if s.sequencer.pin = some v then s else { s with sequencer := { s.sequencer with
      inFlight := some ⟨.reclaimer, .segmentErase v, 0, 1, none⟩ } })) ∧
  (∀ (s : State) (j : Job) (e : IndexEntry) (b : CopyBuffer), s.reclaim.job = some j → j.state = .copyProgram →
    j.subject = some e → j.buffer = some b →
    let k := pagesFor b.record.length
    let claim : Claim := if j.lossNumber = 0 then .copy else .lossMarker
    let t := s.grantReclaimer
    ((∀ x : IndexEntry, s.lookup b.record.tag = some x → x.segment ≠ b.segment ∨ x.page ≠ b.page) →
      (∀ v : Nat, j.kind = .segment v → t = { s with reclaim := { s.reclaim with
        job := some { j with
          state := .select, cursor := e.page + e.pages, subject := none, buffer := none, lossNumber := 0
          failures := 0, deferred := false }
        evaluated := none } }) ∧
      (∀ tag : Nat, j.kind = .refresh tag → t.reclaim = { s.reclaim with
        job := none, refreshList := s.reclaim.refreshList.drop 1 } ∧ t.index = s.index ∧ t.space = s.space)) ∧
    (∀ x : IndexEntry, s.lookup b.record.tag = some x → x.segment = b.segment → x.page = b.page →
      (∀ (segment page : Nat) (u : State), s.claimPages claim k b.record.sequence = (.granted segment page, u) →
        t = { u with sequencer := { u.sequencer with
          inFlight := some ⟨.reclaimer, .recordProgram segment page b.record, 0, 1, none⟩ } }) ∧
      (s.claimPages claim k b.record.sequence = (.noRoom, s) →
        t.index = s.index ∧ t.sequencer.inFlight = s.sequencer.inFlight ∧
        (∀ v : Nat, j.kind = .segment v → t.health = s.health ∧
          t.reclaim = { s.reclaim with job := none, exclusion := s.reclaim.exclusion ++ [v] } ∧
          t.space = { s.space with segments := s.space.segments.map fun g =>
            if g.number = v ∧ g.state = .reclaiming then
              (if 100000 ≤ g.eraseCount then
                { g with state := .retiring, reason := some .worn, mark := some .none }
              else { g with state := .filled })
            else g }) ∧
        (∀ tag : Nat, j.kind = .refresh tag → t.space = s.space ∧
          t.reclaim = { s.reclaim with job := none, refreshList := s.reclaim.refreshList.drop 1 } ∧
          t.health.counters = { s.health.counters with
            refreshDrops := bump s.health.counters.refreshDrops })))) ∧
  (∀ (s : State) (f : InFlight) (j : Job), s.awake → s.sequencer.inFlight = some f →
    f.requester = .reclaimer → s.opExists f.op = true → s.reclaim.job = some j →
    let free := { s.sequencer with inFlight := none, pin := none }
    let asks := { free with requests := { s.sequencer.requests with
      reclaimer := s.sequencer.requests.reclaimer.lodge } }
    let goesOn := fun k : Job => { s.reclaim with job := some k, evaluated := none }
    let next := fun e : IndexEntry => { j with
      state := .select, cursor := e.page + e.pages, subject := none, buffer := none, lossNumber := 0
      failures := 0, deferred := false }
    (∀ (c : Instr) (e : IndexEntry) (segment page pages tag sequence : Nat) (noise : Patch),
      f.op = .recordRead segment page pages tag sequence → j.subject = some e →
      let counters := s.health.counters
      let counted := if f.attempts = 0 then counters else
        { counters with recoveredReads := bump counters.recoveredReads }
      let bad : State := { s with
        sequencer := free
        health := { s.health with counters := { counters with
          unreadableReads := bump counters.unreadableReads
          mediumTimeouts := if c = .recordRead (.ready noise) then counters.mediumTimeouts
            else bump counters.mediumTimeouts } } }
      let unread := f.attempts + 1 = f.allowed ∧
        ((c = .recordRead (.ready noise) ∧ readRecord s.medium segment page pages tag sequence noise = none) ∨
          c = .recordRead .timeout ∨ ∃ left : Remnant, c = .attemptTimeout left)
      (∀ r : Record, readRecord s.medium segment page pages tag sequence noise = some r →
        exec (.recordRead (.ready noise)) s = .next
          ({ s with
            sequencer := asks, health := { s.health with counters := counted }
            reclaim := goesOn { j with
              state := .copyProgram
              buffer := some ⟨{ r with bundle := 0, position := none }, e.segment, e.page⟩ } } : State).finish) ∧
      (unread →
        (∀ prior : Nat, e.kind = .tombstone prior ∨ e.kind = .lost prior →
          exec c s = .next
            ({ bad with
              sequencer := asks
              reclaim := goesOn { j with
                state := .copyProgram
                buffer := some ⟨⟨if e.kind = .tombstone prior then .tombstone else .loss, e.tag, e.sequence, 0,
                  false, 0, none, prior, []⟩, e.segment, e.page⟩ } } : State).finish) ∧
        ((∃ (n : Nat) (p d : Bool), e.kind = .live n p d) →
          (∀ x : IndexEntry, s.lookup e.tag = some x → ¬ ((∃ n p d, x.kind = .live n p d) ∧
            x.sequence = e.sequence ∧ x.segment = e.segment ∧ x.page = e.page)) →
          (∀ v : Nat, j.kind = .segment v →
            exec c s = .next ({ bad with reclaim := goesOn (next e) } : State).finish) ∧
          (∀ t : Nat, j.kind = .refresh t → s.commit.state ≠ .waiting →
            exec c s = .next ({ bad with reclaim := { s.reclaim with
              job := none, refreshList := s.reclaim.refreshList.drop 1 } } : State).finish)) ∧
        (∀ (x : IndexEntry) (n m : Nat) (p d p' d' : Bool), e.kind = .live n p d →
          s.lookup e.tag = some x → x.kind = .live m p' d' → x.sequence = e.sequence →
          x.segment = e.segment → x.page = e.page →
          let damaged : State := { bad with index := { s.index with
            entries := insertEntry { x with kind := .live m p' true } s.index.entries } }
          (∀ v : Nat, j.kind = .segment v → s.index.nextSequence ≤ 4294967294 →
            exec c s = .next
              ({ damaged with
                sequencer := asks
                index := { damaged.index with nextSequence := s.index.nextSequence + 1 }
                reclaim := goesOn { j with
                  state := .copyProgram, lossNumber := s.index.nextSequence
                  buffer := some ⟨⟨.loss, e.tag, s.index.nextSequence, 0, false, 0, none, e.sequence, []⟩,
                    e.segment, e.page⟩ } } : State).finish) ∧
          (∀ t : Nat, j.kind = .refresh t → s.commit.state ≠ .waiting →
            exec c s = .next
              ({ damaged with reclaim := { s.reclaim with
                job := none, refreshList := s.reclaim.refreshList.drop 1 } } : State).finish)))) ∧
    (∀ (segment page : Nat) (r : Record) (b : CopyBuffer) (e : IndexEntry) (o : MediumEnd),
      f.op = .recordProgram segment page r → o = .done → j.buffer = some b → j.subject = some e →
      let k := pagesFor b.record.length
      let stands := fun x : IndexEntry => s.lookup b.record.tag = some x ∧ x.segment = b.segment ∧
        x.page = b.page ∧ (j.lossNumber ≠ 0 → x.kind.isLive = true ∧ x.sequence = b.record.prior)
      ∃ v : State, exec (.recordProgram o) s = .next v.finish ∧
        (j.lossNumber = 0 → ∀ x : IndexEntry, stands x →
          v.index = { s.index with
            entries := insertEntry ⟨x.tag, x.kind.repair, x.sequence, segment, page, x.pages⟩ s.index.entries } ∧
          v.health = s.health ∧
          v.space.segments = ((s.space.segments.map fun g => if g.number = segment then
              { g with pending := g.pending - k, dead := g.dead - k, live := g.live + k } else g).map fun g =>
            if g.number = b.segment then { g with live := g.live - k, dead := g.dead + k } else g)) ∧
        (j.lossNumber ≠ 0 → ∀ x : IndexEntry, stands x →
          v.index = { s.index with
            entries :=
              insertEntry ⟨x.tag, .lost b.record.prior, b.record.sequence, segment, page, 1⟩ s.index.entries } ∧
          v.health.counters = { s.health.counters with lostRecords := bump s.health.counters.lostRecords } ∧
          v.space.segments = ((s.space.segments.map fun g => if g.number = segment then
              { g with pending := g.pending - 1, dead := g.dead - 1, live := g.live + 1 } else g).map fun g =>
            if g.number = b.segment then
              { g with live := g.live - x.pages, dead := g.dead + x.pages } else g)) ∧
        ((∀ x : IndexEntry, ¬ stands x) →
          v.index = s.index ∧ v.health = s.health ∧
          v.space.segments = s.space.segments.map fun g => if g.number = segment then
            { g with pending := g.pending - (if j.lossNumber = 0 then k else 1) } else g) ∧
        (∀ victim : Nat, j.kind = .segment victim → v.reclaim = goesOn (next e)) ∧
        (∀ tag : Nat, j.kind = .refresh tag → v.reclaim = { s.reclaim with
          job := none, refreshList := s.reclaim.refreshList.drop 1 }) ∧
        v.staging = s.staging ∧ v.port = s.port) ∧
    (∀ (segment k : Nat) (c : Instr) (o : MediumEnd), o ≠ .done →
      (∃ (page : Nat) (r : Record), f.op = .recordProgram segment page r ∧ k = pagesFor r.length ∧
        c = .recordProgram o) ∨
      (∃ q : Nat, f.op = .headerProgram segment (.opened q) ∧ k = 0 ∧ c = .headerProgram o) →
      let counters := s.health.counters
      let failing := s.space.segments.map fun g => if g.number = segment then
        { g with
          state := .retiring, reason := some .program, mark := some .none, pending := g.pending - k
          dead := g.dead + (128 - g.writePointer), writePointer := 128 }
        else g
      let counted := match o with
        | .timeout _ => { counters with mediumTimeouts := bump counters.mediumTimeouts }
        | .done | .failed _ => { counters with programFailures := bump counters.programFailures }
      let again := fun k : Job =>
        ({ s with
          medium := f.op.apply s.medium o, sequencer := asks, space := { s.space with segments := failing }
          health := { s.health with counters := counted }, reclaim := goesOn k } : State)
      (j.failures < 2 → j.lossNumber = 0 →
        exec c s = .next (again { j with failures := j.failures + 1 }).finish) ∧
      (∀ e : IndexEntry, j.failures < 2 → j.lossNumber ≠ 0 → j.subject = some e →
        s.index.nextSequence ≤ 4294967294 →
        exec c s = .next
          ({ again { j with
              failures := j.failures + 1, state := .copyProgram, lossNumber := s.index.nextSequence
              buffer := some ⟨⟨.loss, e.tag, s.index.nextSequence, 0, false, 0, none, e.sequence, []⟩,
                e.segment, e.page⟩ } with
            index := { s.index with nextSequence := s.index.nextSequence + 1 } } : State).finish) ∧
      (2 ≤ j.failures → ∃ u : State, exec c s = .next u.finish ∧ u.index = s.index ∧
        u.sequencer.inFlight = none ∧
        (∀ v : Nat, j.kind = .segment v → u.health.counters = counted ∧
          u.reclaim = { s.reclaim with job := none, exclusion := s.reclaim.exclusion ++ [v] } ∧
          u.space.segments = failing.map fun g =>
            if g.number = v ∧ g.state = .reclaiming then
              (if 100000 ≤ g.eraseCount then
                { g with state := .retiring, reason := some .worn, mark := some .none }
              else { g with state := .filled })
            else g) ∧
        (∀ tag : Nat, j.kind = .refresh tag → u.space.segments = failing ∧
          u.reclaim = { s.reclaim with job := none, refreshList := s.reclaim.refreshList.drop 1 } ∧
          u.health.counters = { counted with refreshDrops := bump counted.refreshDrops }))))

/-- The order of choice (R100, R101): a RETIRING segment that is not excluded comes first, the lowest-numbered;
then the head of the Refresh List; then, outside NORMAL or with the engine WAITING, a FILLED segment that is not
excluded and has a dead page, one with the most dead pages. -/
def Obligations.ReclaimChoiceOrder : Prop :=
  ∀ s : State,
    (∀ g ∈ s.space.segments, g.state = .retiring → s.excluded g = false →
      ∃ v ∈ s.space.segments, v.state = .retiring ∧ s.excluded v = false ∧
        s.choice = some (.segment v.number) ∧ v.number ≤ g.number) ∧
    ((∀ g ∈ s.space.segments, g.state = .retiring → s.excluded g = true) →
      (∀ (tag : Nat) (rest : List Nat), s.reclaim.refreshList = tag :: rest →
        s.choice = some (.refresh tag)) ∧
      (s.reclaim.refreshList = [] → (s.space.state ≠ .normal ∨ s.commit.state = .waiting) →
        ∀ g ∈ s.space.segments, g.state = .filled → 1 ≤ g.dead → s.excluded g = false →
          ∃ v ∈ s.space.segments, v.state = .filled ∧ s.excluded v = false ∧
            s.choice = some (.segment v.number) ∧ g.dead ≤ v.dead))

/-- The waits end (R39, R43, R44, R46, R50, R56, R172). With as many slots FREE as it needs, a waiting STORE or STORE
BUNDLE takes the lowest of them together, in position order, and receives the payload of its first member that has
one; a STORE of length 0, a REMOVE and a bundle whose members all have length 0 append at once, a standalone entry
coalescing its tag's, and complete or wait as at any append. With fewer the wait goes on. The awaited entries gone, a
write-through command completes with NONE; the PWL empty, SYNC completes with NONE. -/
def Obligations.WaitsEnd : Prop :=
  ∀ s : State, s.awake →
    (∀ w : Work, s.port.activity = .slotWait w →
      let n := w.members.length
      let free := freeSlots s.staging.slots
      let slots := free.take n
      let reserved : State := { s with staging := { s.staging with
        slots := setSlots s.staging.slots slots .reserved } }
      (free.length < n → exec .slotWaitEnd s = .next s.finish) ∧
      (n ≤ free.length →
        (∀ (j : Nat) (m : Member), w.members[j]? = some m → 0 < m.length →
          (∀ (a : Nat) (x : Member), a < j → w.members[a]? = some x → x.length = 0) →
          exec .slotWaitEnd s = .next
            ({ reserved with
              port := { s.port with
                state := .receiving, activity := .payload w slots j, residue := (m.length + 1) / 2
                dataTimer := some s.window.options.dataTimeout }
              causes := { s.causes with data := true } } : State).finish) ∧
        (s.pfw = false → (∀ m ∈ w.members, m.length = 0) →
          (∀ (m : Member) (slot : Nat), w.kind = .store ∨ w.kind = .remove → w.members = [m] →
            slots = [slot] →
            let e : PwlEntry := ⟨if w.kind = .store then .write else .delete, m.tag, 0,
              decide (w.kind = .store) && m.protect, 0, none, slot, false⟩
            exec .slotWaitEnd s = .next
              (({ reserved with staging := ((reserved.staging.removeEntries fun x =>
                x.tag == m.tag && x.bundle == 0 && !x.inCommit).append [e]) } : State).atAppend
                  w.through slots).finish) ∧
          (∀ identifier : Nat, w.kind = .bundle identifier →
            exec .slotWaitEnd s = .next
              (({ reserved with staging := reserved.staging.append (w.bundleAppend identifier slots) }
                : State).atAppend w.through slots).finish)))) ∧
    (∀ slots : List Nat, s.pfw = false → s.port.activity = .throughWait slots →
      (∀ e ∈ s.staging.pwl, e.slot ∉ slots) →
      exec .writeThroughComplete s = .next (s.completedAs .none 0).finish) ∧
    (s.pfw = false → s.port.activity = .syncWait → s.staging.pwl = [] →
      exec .syncComplete s = .next (s.completedAs .none 0).finish)

/-- The drain ends when the PWL is empty or the engine is HALTED while the port is DRAINING: DRAINED is raised and
the drain result says EMPTIED, or HALTED with the number of entries left (R180). -/
def Obligations.DrainEndIsReported : Prop :=
  ∀ s : State, s.awake → s.port.state = .draining → s.drain.running = true →
    (s.staging.pwl = [] → exec .drainEnd s = .next
      ({ s with drain := ⟨false, .emptied, 0⟩, causes := { s.causes with drained := true } }
        : State).finish) ∧
    (∀ r : HaltReason, s.staging.pwl ≠ [] → s.commit.state = .halted r → exec .drainEnd s = .next
      ({ s with drain := ⟨false, .halted, s.staging.pwl.length⟩, causes := { s.causes with drained := true } }
        : State).finish)

/-! ## The arbiter, numbers and pages -/

/-- The fairness count (R131): a READ grant leaves it; a RECLAIM grant, or a COMMIT grant with no RECLAIM request
applying, sets it to 0; a COMMIT grant under NORMAL against one raises it by 1, up to 8; and at 8 a grant under
NORMAL in which both have stood since an earlier step does not go to COMMIT. -/
def Obligations.FairnessCount : Prop :=
  ∀ s : State, s.sequencer.fairness ≤ 8 →
    s.fairnessAfter .read = s.sequencer.fairness ∧ s.fairnessAfter .background = 0 ∧
    s.fairnessAfter .reclaimer = 0 ∧
    (s.reclaimApplies = false → s.fairnessAfter .commit = 0) ∧
    (s.grantOrder = .normal → s.reclaimApplies = true →
      s.fairnessAfter .commit = min (s.sequencer.fairness + 1) 8) ∧
    (∀ a : Applicant, s.fairnessAfter a ≤ 8) ∧
    (s.grantOrder = .normal → s.sequencer.fairness = 8 →
      (s.sequencer.requests.reclaimer = .standing ∨ s.sequencer.requests.background = .standing) →
      s.chosen ≠ some .commit)

/-- Sequence numbers (R6, R7): a request for `k` of them gets the counter's value and raises the counter by `k`;
one that would pass 4,294,967,294 gets none, leaves the counter, and makes the store READ_ONLY with SEQUENCE. That
the counter alone decides, so that a single number left after a bundle's refusal is given, is log 44's choice. -/
def Obligations.SequenceNumbersAreConsecutive : Prop :=
  ∀ (s : State) (k : Nat), 1 ≤ k →
    (s.index.nextSequence + k - 1 ≤ 4294967294 →
      s.takeNumbers k = (some s.index.nextSequence,
        { s with index := { s.index with nextSequence := s.index.nextSequence + k } })) ∧
    (4294967294 < s.index.nextSequence + k - 1 →
      s.takeNumbers k = (none, { s with space := { s.space with reasons :=
        { s.space.reasons with sequence := true } } }) ∧
      (s.takeNumbers k).2.readOnly = true)

/-- A page claim (R67-R71): the Reclaimer's is deferred while a bundle range is open; pages that fit in the OPEN
segment are granted from its write pointer and counted pending and dead; otherwise the head of the free list is
opened when the claim may take it: a DATA commit with F at 2 or more, or 1 while DRAINING, a tombstone's commit or
a copy with F at 1 or more, a loss marker with F at 2 or more. The head leaves the free list and becomes OPEN with
write pointer 1, counts 0 and the open counter's value as its open sequence, and the OPEN segment becomes FILLED
with its unwritten pages dead and write pointer 128. With no segment that the claim may take, there is no room and
nothing changes. That the open counter goes on past its last value 4,294,967,294, and is given out there, is log 26.
The grant of COMMIT takes the answer (R82, R83, R86, R90, R91). With pages it carries the RECORD PROGRAM of the unit's
record, a bundle's first member, whose range it opens; with that range open it makes no claim and carries the next
member's. With a segment to open it carries the HEADER PROGRAM of the OPENED slot: DONE, the engine requests the port
again; FAILED or TIMEOUT, the segment is RETIRING, and the unit is begun again with its failure counted, or after the
third the engine is HALTED with MEDIUM (while ERASE STORE waits for it, neither, log 37). With no room no operation
starts: while a segment is eligible the engine is HALTED with NO_SPACE in DRAINING, else WAITING, its unit held and no
request lodged; with none eligible the space state becomes FULL and the engine is HALTED with NO_SPACE (R76). That it
becomes FULL in DRAINING too, where R83 gives the halt alone, is the model's choice, log 35. That a grant advances the
model's own counter choices is log 1, and what it makes of the fairness count logs 1 and 15. -/
def Obligations.PageClaimIsAnswered : Prop :=
  (∀ (s : State) (claim : Claim) (k low : Nat), 1 ≤ k →
    (s.mayOpen claim = true ↔ (match claim with
      | .commitData => 2 ≤ s.space.freeList.length ∨
          (s.port.state = .draining ∧ 1 ≤ s.space.freeList.length)
      | .commitTombstone => 1 ≤ s.space.freeList.length
      | .copy => 1 ≤ s.space.freeList.length
      | .lossMarker => 2 ≤ s.space.freeList.length)) ∧
    (claim.byReclaimer = true → s.space.range ≠ none → s.claimPages claim k low = (.deferred, s)) ∧
    ((claim.byReclaimer = false ∨ s.space.range = none) →
      (∀ g : Segment, s.openSegment = some g → g.writePointer + k ≤ 128 →
        s.claimPages claim k low = (.granted g.number g.writePointer,
          { s with space := { s.space with segments := (s.space.segments.map fun x =>
            if x.number = g.number then
              { x with
                writePointer := x.writePointer + k, dead := x.dead + k, pending := x.pending + k
                lowSequence := if x.lowSequence = 0 ∨ low < x.lowSequence then low else x.lowSequence }
            else x) } })) ∧
      ((∀ g : Segment, s.openSegment = some g → 128 < g.writePointer + k) →
        (s.space.freeList = [] ∨ s.mayOpen claim = false → s.claimPages claim k low = (.noRoom, s)) ∧
        (∀ (h : Nat) (rest : List Nat), s.space.freeList = h :: rest → s.mayOpen claim = true →
          (s.claimPages claim k low).1 = .opening h s.space.openCounter ∧
          (s.claimPages claim k low).2.space = { s.space with
            freeList := rest
            openCounter := s.space.openCounter + 1
            segments := s.space.segments.map fun x =>
              let y := match s.openSegment with
                | some g => if x.number = g.number then
                    { x with
                      state := .filled, dead := x.dead + (128 - x.writePointer), writePointer := 128 }
                    else x
                | none => x
              if x.number = h then
                { y with
                  state := .open, writePointer := 1, live := 0, dead := 0, pending := 0, lowSequence := 0
                  openSequence := s.space.openCounter }
              else y } ∧
          (s.claimPages claim k low).2.reclaim = { s.reclaim with exclusion := [] } ∧
          (s.claimPages claim k low).2.index = s.index)))) ∧
  (∀ (s : State) (u : CommitUnit) (head : PwlEntry) (rest : List PwlEntry),
    s.sequencer.inFlight = none → s.chosen = some .commit → s.commit.unit = some u → s.staging.pwl = head :: rest →
    (∀ i n : Nat, head.position = some (i, n) → 1 ≤ n) → (s.port.activity.waits = true → s.pfw = false) →
    let members := match head.position with
      | some (_, n) => s.staging.pwl.take n
      | none => [head]
    let size := fun e : PwlEntry => pagesFor e.length
    let k := (members.map size).sum
    let claim : Claim := match head.kind with
      | .write => .commitData
      | .delete => .commitTombstone
    let record := fun (e : PwlEntry) (i : Nat) => (match e.kind with
      | .write => ⟨.data, e.tag, u.first + i, e.length, e.protect, e.bundle, e.position, 0,
          (s.slotBytes e.slot).take e.length⟩
      | .delete => ⟨.tombstone, e.tag, u.first + i, 0, false, 0, none, u.prior, []⟩ : Record)
    let granted : State := { s with
      sequencer := { s.sequencer with
        requests := { s.sequencer.requests with commit := .absent }, fairness := s.fairnessAfter .commit }
      choices := s.choices + 1 }
    let t : State := { granted with commit := { s.commit with state := .running } }
    let carries := fun (v : State) (op : Op) =>
      ({ v with sequencer := { v.sequencer with inFlight := some ⟨.commit, op, 0, 1, none⟩ } } : State)
    grant ∈ consequences ∧
    (∀ e : PwlEntry, members[u.member]? = some e →
      let program := fun segment page : Nat =>
        Op.recordProgram segment (page + ((members.take u.member).map size).sum) (record e u.member)
      (∀ r : BundleRange, s.space.range = some r → grant s = some (carries granted (program r.segment r.page))) ∧
      (∀ (segment page : Nat) (v : State), s.space.range = none →
        t.claimPages claim k u.first = (.granted segment page, v) →
        let range := if head.bundle = 0 then none else some (⟨segment, page, k⟩ : BundleRange)
        grant s = some (carries { v with space := { v.space with range := range } } (program segment page)))) ∧
    (∀ (segment q : Nat) (v : State), s.space.range = none → t.claimPages claim k u.first = (.opening segment q, v) →
      grant s = some (carries v (.headerProgram segment (.opened q)))) ∧
    (s.space.range = none → t.claimPages claim k u.first = (.noRoom, t) →
      let eligible := ∃ g ∈ s.space.segments, (g.state = .filled ∧ 1 ≤ g.dead ∧ s.excluded g = false) ∨
        (g.state = .reclaiming ∧ ∃ j : Job, s.reclaim.job = some j ∧ j.kind = .segment g.number)
      (eligible → s.port.state = .draining → grant s = some (t.haltedAs .noSpace)) ∧
      (eligible → s.port.state ≠ .draining → grant s = some { t with commit := { s.commit with state := .waiting } }) ∧
      (¬ eligible →
        grant s = some (({ t with space := { s.space with state := .full } } : State).haltedAs .noSpace)))) ∧
  (∀ (s : State) (f : InFlight) (segment q : Nat) (o : MediumEnd), s.awake → s.sequencer.inFlight = some f →
    f.requester = .commit → f.op = .headerProgram segment (.opened q) → s.opExists f.op = true →
    let ended : State := { s with
      medium := f.op.apply s.medium o, sequencer := { s.sequencer with inFlight := none, pin := none } }
    (o = .done → exec (.headerProgram o) s = .next ({ ended with sequencer := { ended.sequencer with
      requests := { s.sequencer.requests with commit := s.sequencer.requests.commit.lodge } } } : State).finish) ∧
    (o ≠ .done → s.space.range = none →
      let failed : State := { ended with
        space := { s.space with segments := s.space.segments.map fun g => if g.number = segment then
          { g with
            state := .retiring, reason := some .program, mark := some .none
            dead := g.dead + (128 - g.writePointer), writePointer := 128 }
          else g }
        health := { s.health with counters := match o with
          | .timeout _ => { s.health.counters with mediumTimeouts := bump s.health.counters.mediumTimeouts }
          | .done | .failed _ => { s.health.counters with
              programFailures := bump s.health.counters.programFailures } } }
      (s.erasing = true → exec (.headerProgram o) s = .next
        ({ failed with commit := ⟨.running, none, 0⟩ } : State).finish) ∧
      (s.erasing = false → s.commit.failures < 2 → exec (.headerProgram o) s = .next
        ({ failed with commit := ⟨.running, none, s.commit.failures + 1⟩ } : State).finish) ∧
      (s.erasing = false → 2 ≤ s.commit.failures → (s.port.activity.waits = true → s.pfw = false) →
        exec (.headerProgram o) s = .next (failed.haltedAs .medium).finish)))

/-! ## The stored formats -/

/-- What the part programs it reads back (R1, R4, R59, R125, R188): a record whose fields are in their ranges,
programmed on a medium in canonical form, is read back whole by the RECORD READ of its place, tag and sequence,
and its header position finds it; and each slot of a segment header finds what was programmed in it. -/
def Obligations.StoredFormatsReadBack : Prop :=
  (∀ (m : List Host.Cell) (segment page : Nat) (r : Record), Memory.wf m = true → r.storable →
    readRecord (Op.complete m (.recordProgram segment page r)) segment page (pagesFor r.length)
      r.tag r.sequence [] = some r ∧
    readRecordHeader (Op.complete m (.recordProgram segment page r)) segment page [] =
      .valid { r with payload := [] }) ∧
  (∀ segment count sequence : Nat, segment < 128 →
    (count ≤ 100000 → formattedFinding (slotBytes segment (.formatted count)) = .valid count) ∧
    (1 ≤ sequence → sequence ≤ 4294967294 →
      openedFinding (slotBytes segment (.opened sequence)) = .valid (sequence, segment)) ∧
    ∀ reason : RetireReason, retiredFinding (slotBytes segment (.retired reason)) = .valid reason)

/-! ## Laws that every step keeps -/

/-- Every step keeps the medium in canonical form. -/
def Obligations.StepKeepsMediumCanonical : Prop :=
  ∀ s t : State, s.mediumCanonical → step s = .next t → t.mediumCanonical

/-- Every step keeps the settings in their ranges (R161), the Refresh List within 8 tags and without a tag twice
(R114), the fairness count within 8 (R131), the health counters within 65535 (R182) and the bundle identifier
from 1 to 255 (R13). -/
def Obligations.StepKeepsRanges : Prop :=
  ∀ s t : State, s.rangesHold → step s = .next t → t.rangesHold

/-- Every step keeps the Key Index in ascending order of tag with no tag twice (R16). -/
def Obligations.StepKeepsIndexOrder : Prop :=
  ∀ s t : State, s.indexOrdered → step s = .next t → t.indexOrdered

/-- Every step keeps the port's state, the command in progress, RESIDUE, the timer and RESULT in agreement; the port
MOUNTING exactly while mount runs, as long as the part runs; and DRAINING only with PFW# asserted (R150, R153, R154,
R156). That the port shows MOUNTING with no mount while RESET# is low or the supply is off is log 12. -/
def Obligations.StepKeepsPortLaw : Prop :=
  ∀ s t : State, s.portLaw → step s = .next t → t.portLaw

/-- The laws hold right after reset. -/
def Obligations.LawsHoldAtReset : Prop :=
  State.reset.mediumCanonical ∧ State.reset.rangesHold ∧ State.reset.indexOrdered ∧ State.reset.portLaw
end

