-- ==== Sys2Proof/Laws/Memory.lean ====
section
/-! SUPPORT. The medium: what a byte reads after a write, a run of writes, a patch and an erase, and that each
keeps the canonical form; then the same of what programs, erases and cuts do. -/

namespace Sys2Proof.Machine

/-! ## The canonical form as a recursion -/

/-- The canonical form: the head's byte is not erased, its address is below all others, and the tail is in
canonical form. -/
theorem Memory.wf_cons {c : Host.Cell} {m : List Host.Cell} :
    Memory.wf (c :: m) = true ↔ (∀ d ∈ m, c.1 < d.1) ∧ c.2 ≠ erasedByte ∧ Memory.wf m = true := by
  simp only [Memory.wf, List.pairwise_cons, List.all_cons, Bool.and_eq_true, decide_eq_true_eq]
  tauto

@[simp] theorem Memory.wf_nil : Memory.wf [] = true := by simp [Memory.wf]

/-- An address below every address listed reads erased. -/
theorem Memory.read_below {m : List Host.Cell} {a : Nat} (h : ∀ d ∈ m, a < d.1) :
    Memory.read m a = erasedByte := by
  induction m with
  | nil => rfl
  | cons c m ih =>
    obtain ⟨b, v⟩ := c
    have := h (b, v) (by simp)
    have hb : a ≠ b := by simp at this; omega
    simp only [Memory.read, if_neg hb]
    exact ih fun d hd => h d (by simp [hd])

/-! ## One byte -/

/-- A write leaves every other address as it was. -/
theorem Memory.read_write_other (m : List Host.Cell) {a c : Nat} (v : Byte) (h : c ≠ a) :
    Memory.read (Memory.write m a v) c = Memory.read m c := by
  induction m with
  | nil => unfold Memory.write; split <;> simp [Memory.read, h]
  | cons d m ih =>
    obtain ⟨b, w⟩ := d
    unfold Memory.write
    split
    · split <;> simp [Memory.read, h]
    · split
      · next hb => subst hb; split <;> simp [Memory.read, h]
      · simp only [Memory.read, ih]

/-- A write is read back at its address. -/
theorem Memory.read_write_same {m : List Host.Cell} (hw : Memory.wf m = true) (a : Nat) (v : Byte) :
    Memory.read (Memory.write m a v) a = v := by
  induction m with
  | nil => unfold Memory.write; split <;> simp_all [Memory.read]
  | cons d m ih =>
    obtain ⟨b, w⟩ := d
    obtain ⟨h1, h2, h3⟩ := Memory.wf_cons.mp hw
    unfold Memory.write
    split
    · next hab =>
      split
      · next hv =>
        subst hv
        exact Memory.read_below fun d hd => by
          rcases List.mem_cons.mp hd with rfl | hd
          · exact hab
          · have := h1 d hd; simp at this; omega
      · simp [Memory.read]
    · split
      · next hb =>
        subst hb
        split
        · next hv => subst hv; exact Memory.read_below fun d hd => h1 d hd
        · simp [Memory.read]
      · next hab => simp only [Memory.read, if_neg hab]; exact ih h3

theorem Memory.mem_write {m : List Host.Cell} {a : Nat} {v : Byte} {d : Host.Cell}
    (h : d ∈ Memory.write m a v) : d.1 = a ∨ d ∈ m := by
  induction m with
  | nil => unfold Memory.write at h; split at h <;> simp_all
  | cons c m ih =>
    obtain ⟨b, w⟩ := c
    unfold Memory.write at h
    (repeat' split at h) <;> simp only [List.mem_cons] at h ⊢ <;> grind

theorem Memory.wf_write {m : List Host.Cell} (hw : Memory.wf m = true) (a : Nat) (v : Byte) :
    Memory.wf (Memory.write m a v) = true := by
  induction m with
  | nil => unfold Memory.write; split <;> simp_all [Memory.wf]
  | cons d m ih =>
    obtain ⟨b, w⟩ := d
    obtain ⟨h1, h2, h3⟩ := Memory.wf_cons.mp hw
    unfold Memory.write
    split
    · next hab =>
      split
      · exact hw
      · next hv =>
        refine Memory.wf_cons.mpr ⟨fun d hd => ?_, hv, hw⟩
        rcases List.mem_cons.mp hd with rfl | hd
        · exact hab
        · have := h1 d hd; simp at this ⊢; omega
    · split
      · next hb =>
        subst hb
        split
        · exact h3
        · next hv => exact Memory.wf_cons.mpr ⟨h1, hv, h3⟩
      · next h5 h6 =>
        refine Memory.wf_cons.mpr ⟨fun d hd => ?_, h2, ih h3⟩
        rcases Memory.mem_write hd with h | h
        · simp only; omega
        · exact h1 d h

/-! ## Runs of bytes -/

theorem Memory.wf_writeBytes {m : List Host.Cell} (hw : Memory.wf m = true) (a : Nat) (l : List Byte) :
    Memory.wf (Memory.writeBytes m a l) = true := by
  induction l generalizing m a with
  | nil => exact hw
  | cons v l ih => exact ih (Memory.wf_write hw a v) (a + 1)

theorem Memory.read_writeBytes_outside (m : List Host.Cell) (a : Nat) (l : List Byte) {c : Nat}
    (h : c < a ∨ a + l.length ≤ c) : Memory.read (Memory.writeBytes m a l) c = Memory.read m c := by
  induction l generalizing m a with
  | nil => rfl
  | cons v l ih =>
    simp only [List.length_cons] at h
    simp only [Memory.writeBytes]
    rw [ih _ _ (by omega), Memory.read_write_other _ _ (by omega)]

/-- Bytes written are read back. -/
theorem Memory.readBytes_writeBytes {m : List Host.Cell} (hw : Memory.wf m = true) (a : Nat) (l : List Byte) :
    Memory.readBytes (Memory.writeBytes m a l) a l.length = l := by
  induction l generalizing m a with
  | nil => rfl
  | cons v l ih =>
    simp only [Memory.writeBytes, List.length_cons, Memory.readBytes]
    rw [ih (Memory.wf_write hw a v), Memory.read_writeBytes_outside _ _ _ (by omega),
      Memory.read_write_same hw]

theorem Memory.length_readBytes (m : List Host.Cell) (a n : Nat) : (Memory.readBytes m a n).length = n := by
  induction n generalizing a with
  | zero => rfl
  | succ n ih => simp [Memory.readBytes, ih]

/-- Two media that agree on a range read alike there. -/
theorem Memory.readBytes_congr {m k : List Host.Cell} {a n : Nat}
    (h : ∀ c, a ≤ c → c < a + n → Memory.read m c = Memory.read k c) :
    Memory.readBytes m a n = Memory.readBytes k a n := by
  induction n generalizing a with
  | zero => rfl
  | succ n ih =>
    simp only [Memory.readBytes]
    rw [h a (by omega) (by omega), ih fun c h1 h2 => h c (by omega) (by omega)]

theorem Memory.wf_patch {m : List Host.Cell} (hw : Memory.wf m = true) (base lo hi : Nat) (p : Patch) :
    Memory.wf (Memory.patch m base lo hi p) = true := by
  induction p generalizing m with
  | nil => exact hw
  | cons c p ih =>
    obtain ⟨o, v⟩ := c
    unfold Memory.patch
    split
    · exact ih (Memory.wf_write hw _ _)
    · exact ih hw

theorem Memory.read_patch_outside (m : List Host.Cell) (base lo hi : Nat) (p : Patch) {c : Nat}
    (h : c < base + lo ∨ base + hi ≤ c) :
    Memory.read (Memory.patch m base lo hi p) c = Memory.read m c := by
  induction p generalizing m with
  | nil => rfl
  | cons d p ih =>
    obtain ⟨o, v⟩ := d
    unfold Memory.patch
    rw [ih]
    split
    · exact Memory.read_write_other _ _ (by omega)
    · rfl

theorem Memory.wf_filter {m : List Host.Cell} (hw : Memory.wf m = true) (p : Host.Cell → Bool) :
    Memory.wf (m.filter p) = true := by
  simp only [Memory.wf, Bool.and_eq_true, decide_eq_true_eq, List.all_eq_true] at hw ⊢
  exact ⟨hw.1.filter p, fun c hc => hw.2 c (List.mem_of_mem_filter hc)⟩

theorem Memory.wf_erase {m : List Host.Cell} (hw : Memory.wf m = true) (a n : Nat) :
    Memory.wf (Memory.erase m a n) = true := Memory.wf_filter hw _

theorem Memory.read_erase_outside (m : List Host.Cell) (a n : Nat) {c : Nat} (h : c < a ∨ a + n ≤ c) :
    Memory.read (Memory.erase m a n) c = Memory.read m c := by
  induction m with
  | nil => rfl
  | cons d m ih =>
    obtain ⟨b, v⟩ := d
    unfold Memory.erase at ih ⊢
    simp only [List.filter_cons]
    split
    · simp only [Memory.read, ih]
    · next hb =>
      have : c ≠ b := by rintro rfl; simp at hb; omega
      simp only [Memory.read, if_neg this, ih]

theorem Memory.read_erase_inside (m : List Host.Cell) (a n : Nat) {c : Nat} (h1 : a ≤ c) (h2 : c < a + n) :
    Memory.read (Memory.erase m a n) c = erasedByte := by
  induction m with
  | nil => rfl
  | cons d m ih =>
    obtain ⟨b, v⟩ := d
    unfold Memory.erase at ih ⊢
    simp only [List.filter_cons]
    split
    · next hb =>
      have : c ≠ b := by rintro rfl; simp at hb; omega
      simp only [Memory.read, if_neg this, ih]
    · exact ih

theorem Memory.blank_erase (m : List Host.Cell) (a n : Nat) : Memory.blank (Memory.erase m a n) a n = true := by
  simp only [Memory.blank, Memory.erase, List.all_eq_true, List.mem_filter]
  rintro c ⟨_, hc⟩
  simp [hc]

/-! ## Operations of the medium -/

theorem Op.wf_leave {m : List Host.Cell} (hw : Memory.wf m = true) (left : Remnant) (op : Op) :
    Memory.wf (op.leave m left) = true := by
  cases op <;> simp only [Op.leave, programRemnant] <;>
    first
    | exact hw
    | exact Memory.wf_patch hw _ _ _ _
    | (split
       · exact Memory.wf_patch hw _ _ _ _
       · exact Memory.wf_patch (Memory.wf_writeBytes hw _ _) _ _ _ _)

theorem Op.wf_complete {m : List Host.Cell} (hw : Memory.wf m = true) (op : Op) :
    Memory.wf (op.complete m) = true := by
  match op with
  | .recordProgram _ _ _ => exact Memory.wf_writeBytes (Memory.wf_writeBytes hw _ _) _ _
  | .headerProgram _ _ => exact Memory.wf_writeBytes hw _ _
  | .segmentErase _ => exact Memory.wf_erase hw _ _
  | .bankProbe _ => exact hw
  | .headerReadPage _ => exact hw
  | .headerReadRecord _ _ => exact hw
  | .recordRead _ _ _ _ _ => exact hw
  | .blankCheck _ _ => exact hw

theorem Op.wf_apply {m : List Host.Cell} (hw : Memory.wf m = true) (op : Op) (outcome : MediumEnd) :
    Memory.wf (op.apply m outcome) = true := by
  cases outcome <;> simp only [Op.apply]
  · exact Op.wf_complete hw op
  · exact Op.wf_leave hw _ op
  · exact Op.wf_leave hw _ op

theorem State.wf_cutMedium {s : State} (hw : Memory.wf s.medium = true) (left : Remnant) :
    Memory.wf (s.cutMedium left) = true := by
  unfold State.cutMedium
  split
  · exact Op.wf_leave hw _ _
  · exact hw

@[simp] theorem length_leBytes (n v : Nat) : (leBytes n v).length = n := by
  induction n generalizing v with
  | zero => rfl
  | succ n ih => simp [leBytes, ih]

@[simp] theorem length_headerFields (r : Record) : (headerFields r).length = 30 := by simp [headerFields]

@[simp] theorem length_recordHeader (r : Record) : (recordHeader r).length = 32 := by simp [recordHeader]

@[simp] theorem length_recordBody (r : Record) : (recordBody r).length = r.payload.length + 4 := by
  simp [recordBody]

@[simp] theorem length_recordBytes (r : Record) : (recordBytes r).length = r.payload.length + 36 := by
  simp [recordBytes]; omega

@[simp] theorem length_slotFields (n : Nat) (c : SlotContent) : (slotFields n c).length = 14 := by
  cases c <;> simp [slotFields]

@[simp] theorem length_slotBytes (n : Nat) (c : SlotContent) : (slotBytes n c).length = 16 := by
  simp [slotBytes]

/-- What a program or an erase leaves outside its own bytes is unchanged. -/
theorem Op.read_leave_outside (m : List Host.Cell) (left : Remnant) (op : Op) {a : Nat}
    (h : a < op.writes.1 ∨ op.writes.1 + op.writes.2 ≤ a) :
    Memory.read (op.leave m left) a = Memory.read m a := by
  cases op <;> simp only [Op.leave, programRemnant, Op.writes, length_recordBytes] at h ⊢
  · split
    · exact Memory.read_patch_outside _ _ _ _ _ (by simp; omega)
    · rw [Memory.read_patch_outside _ _ _ _ _ (by omega)]
      exact Memory.read_writeBytes_outside _ _ _ (by simp; omega)
  · exact Memory.read_patch_outside _ _ _ _ _ (by omega)
  · exact Memory.read_patch_outside _ _ _ _ _ (by simp [Config.segmentBytes]; omega)

theorem Op.read_complete_outside (m : List Host.Cell) (op : Op) {a : Nat}
    (h : a < op.writes.1 ∨ op.writes.1 + op.writes.2 ≤ a) :
    Memory.read (op.complete m) a = Memory.read m a := by
  cases op <;> simp only [Op.complete, Op.writes, length_recordBytes] at h ⊢
  · rw [Memory.read_writeBytes_outside _ _ _ (by simp; omega)]
    exact Memory.read_writeBytes_outside _ _ _ (by simp; omega)
  · exact Memory.read_writeBytes_outside _ _ _ (by simp; omega)
  · exact Memory.read_erase_outside _ _ _ (by simp [Config.segmentBytes]; omega)

theorem Op.read_apply_outside (m : List Host.Cell) (op : Op) (outcome : MediumEnd) {a : Nat}
    (h : a < op.writes.1 ∨ op.writes.1 + op.writes.2 ≤ a) :
    Memory.read (op.apply m outcome) a = Memory.read m a := by
  cases outcome <;> simp only [Op.apply]
  · exact Op.read_complete_outside m op h
  · exact Op.read_leave_outside m _ op h
  · exact Op.read_leave_outside m _ op h

end Sys2Proof.Machine
end

