-- ==== Sys2Proof/Laws/Formats.lean ====
section
/-! SUPPORT. The stored formats: what a little-endian field reads, where the fields of a record header and of a
slot stand, and the bytes of a record after its program. -/

namespace Sys2Proof.Machine

/-! ## Fields -/

theorem leValue_leBytes (n v : Nat) : leValue (leBytes n v) = v % 256 ^ n := by
  induction n generalizing v with
  | zero => simp [leBytes, leValue, Nat.mod_one]
  | succ n ih =>
    simp only [leBytes, leValue, ih, BitVec.toNat_ofNat]
    have := Nat.mod_mul (a := 256) (b := 256 ^ n) (x := v)
    have e : 256 ^ (n + 1) = 256 * 256 ^ n := Nat.pow_succ'
    rw [e, this]

/-- A field past the first bytes of a string. -/
theorem field_skip (k v : Nat) (l : List Byte) (p n : Nat) (h : k ≤ p) :
    field (leBytes k v ++ l) p n = field l (p - k) n := by
  unfold field
  rw [List.drop_append, List.drop_eq_nil_of_le (by simpa using h)]
  simp

/-- The field that stands first. -/
theorem field_hit (n v : Nat) (l : List Byte) : field (leBytes n v ++ l) 0 n = v % 256 ^ n := by
  unfold field
  simp [leValue_leBytes]

theorem field_last (n v : Nat) : field (leBytes n v) 0 n = v % 256 ^ n := by
  simpa using field_hit n v []

/-- A record header as its fields in order, for `field_skip` and `field_hit`. -/
theorem recordHeader_fields (r : Record) :
    recordHeader r =
      leBytes 1 r.kind.byte ++ (leBytes 1 (if r.protect then 1 else 0) ++ (leBytes 2 r.tag ++
        (leBytes 4 r.sequence ++ (leBytes 2 r.length ++ (leBytes 1 r.bundle ++
          (leBytes 1 (r.position.getD (0, 0)).1 ++ (leBytes 1 (r.position.getD (0, 0)).2 ++ (leBytes 3 0 ++
            (leBytes 4 r.prior ++ (leBytes 10 0 ++
              leBytes 2 (crc16 (headerFields r)).toNat)))))))))) := by
  simp [recordHeader, headerFields]

theorem recordHeader_take (r : Record) : (recordHeader r).take 30 = headerFields r := by
  unfold recordHeader
  rw [List.take_append_of_le_length (by simp)]
  exact List.take_of_length_le (by simp)

theorem slotBytes_take (n : Nat) (c : SlotContent) : (slotBytes n c).take 14 = slotFields n c := by
  unfold slotBytes
  rw [List.take_append_of_le_length (by simp)]
  exact List.take_of_length_le (by simp)

/-! ## A record on the medium -/

theorem Memory.readBytes_add (m : List Host.Cell) (a n k : Nat) :
    Memory.readBytes m a (n + k) = Memory.readBytes m a n ++ Memory.readBytes m (a + n) k := by
  induction n generalizing a with
  | zero => simp [Memory.readBytes]
  | succ n ih =>
    rw [Nat.succ_add]
    simp only [Memory.readBytes, ih, List.cons_append, Nat.add_assoc, Nat.add_comm 1]

/-- After a RECORD PROGRAM that ended DONE the record's bytes stand at its place. -/
theorem Op.readBytes_recordProgram {m : List Host.Cell} (hw : Memory.wf m = true) (segment page : Nat)
    (r : Record) :
    Memory.readBytes (Op.complete m (.recordProgram segment page r)) (mediumAddress segment page 0)
      (recordBytes r).length = recordBytes r := by
  have w1 := Memory.wf_writeBytes hw (mediumAddress segment page 0 + 32) (recordBody r)
  have e : (recordBytes r).length = 32 + (recordBody r).length := by
    rw [recordBytes, List.length_append, length_recordHeader]
  rw [e, Memory.readBytes_add]
  have e2 : recordBytes r = recordHeader r ++ recordBody r := rfl
  rw [e2]
  refine congrArg₂ (· ++ ·) ?_ ?_
  · have := Memory.readBytes_writeBytes w1 (mediumAddress segment page 0) (recordHeader r)
    rw [length_recordHeader] at this
    unfold Op.complete
    exact this
  · unfold Op.complete
    rw [Memory.readBytes_congr
      (k := Memory.writeBytes m (mediumAddress segment page 0 + 32) (recordBody r))]
    · exact Memory.readBytes_writeBytes hw _ _
    · intro c h1 h2
      exact Memory.read_writeBytes_outside _ _ _ (by rw [length_recordHeader]; omega)

end Sys2Proof.Machine
end

