-- ==== Sys2Proof/Laws/State.lean ====
section
/-! SUPPORT. What each named operation of Ops and Flags leaves unchanged, field by field; every conjunct is a
simp rule, so that no later proof unfolds a record update. -/

namespace Sys2Proof.Machine

@[simp] theorem State.raiseDone_frame (s : State) :
    s.raiseDone.pending = s.pending ∧ s.raiseDone.power = s.power ∧ s.raiseDone.pfw = s.pfw ∧
    s.raiseDone.window = s.window ∧ s.raiseDone.port = s.port ∧ s.raiseDone.idle = s.idle ∧
    s.raiseDone.staging = s.staging ∧ s.raiseDone.index = s.index ∧ s.raiseDone.space = s.space ∧
    s.raiseDone.commit = s.commit ∧ s.raiseDone.reclaim = s.reclaim ∧ s.raiseDone.sequencer = s.sequencer ∧
    s.raiseDone.mount = s.mount ∧ s.raiseDone.mountReport = s.mountReport ∧
    s.raiseDone.background = s.background ∧ s.raiseDone.drain = s.drain ∧ s.raiseDone.health = s.health ∧
    s.raiseDone.medium = s.medium ∧ s.raiseDone.choices = s.choices := by
  unfold State.raiseDone
  (try dsimp only)
  (repeat' split) <;> first | (simp; done) | (simp_all; done)

@[simp] theorem State.raiseData_frame (s : State) :
    s.raiseData.pending = s.pending ∧ s.raiseData.power = s.power ∧ s.raiseData.pfw = s.pfw ∧
    s.raiseData.window = s.window ∧ s.raiseData.port = s.port ∧ s.raiseData.idle = s.idle ∧
    s.raiseData.staging = s.staging ∧ s.raiseData.index = s.index ∧ s.raiseData.space = s.space ∧
    s.raiseData.commit = s.commit ∧ s.raiseData.reclaim = s.reclaim ∧ s.raiseData.sequencer = s.sequencer ∧
    s.raiseData.mount = s.mount ∧ s.raiseData.mountReport = s.mountReport ∧
    s.raiseData.background = s.background ∧ s.raiseData.drain = s.drain ∧ s.raiseData.health = s.health ∧
    s.raiseData.medium = s.medium ∧ s.raiseData.choices = s.choices := by
  unfold State.raiseData
  (try dsimp only)
  (repeat' split) <;> first | (simp; done) | (simp_all; done)

@[simp] theorem State.raiseMounted_frame (s : State) :
    s.raiseMounted.pending = s.pending ∧ s.raiseMounted.power = s.power ∧ s.raiseMounted.pfw = s.pfw ∧
    s.raiseMounted.window = s.window ∧ s.raiseMounted.port = s.port ∧ s.raiseMounted.idle = s.idle ∧
    s.raiseMounted.staging = s.staging ∧ s.raiseMounted.index = s.index ∧ s.raiseMounted.space = s.space ∧
    s.raiseMounted.commit = s.commit ∧ s.raiseMounted.reclaim = s.reclaim ∧
    s.raiseMounted.sequencer = s.sequencer ∧ s.raiseMounted.mount = s.mount ∧
    s.raiseMounted.mountReport = s.mountReport ∧ s.raiseMounted.background = s.background ∧
    s.raiseMounted.drain = s.drain ∧ s.raiseMounted.health = s.health ∧ s.raiseMounted.medium = s.medium ∧
    s.raiseMounted.choices = s.choices := by
  unfold State.raiseMounted
  (try dsimp only)
  (repeat' split) <;> first | (simp; done) | (simp_all; done)

@[simp] theorem State.raiseDeferred_frame (s : State) :
    s.raiseDeferred.pending = s.pending ∧ s.raiseDeferred.power = s.power ∧ s.raiseDeferred.pfw = s.pfw ∧
    s.raiseDeferred.window = s.window ∧ s.raiseDeferred.port = s.port ∧ s.raiseDeferred.idle = s.idle ∧
    s.raiseDeferred.staging = s.staging ∧ s.raiseDeferred.index = s.index ∧
    s.raiseDeferred.space = s.space ∧ s.raiseDeferred.commit = s.commit ∧
    s.raiseDeferred.reclaim = s.reclaim ∧ s.raiseDeferred.sequencer = s.sequencer ∧
    s.raiseDeferred.mount = s.mount ∧ s.raiseDeferred.mountReport = s.mountReport ∧
    s.raiseDeferred.background = s.background ∧ s.raiseDeferred.drain = s.drain ∧
    s.raiseDeferred.health = s.health ∧ s.raiseDeferred.medium = s.medium ∧
    s.raiseDeferred.choices = s.choices := by
  unfold State.raiseDeferred
  (try dsimp only)
  (repeat' split) <;> first | (simp; done) | (simp_all; done)

@[simp] theorem State.raiseHealth_frame (s : State) :
    s.raiseHealth.pending = s.pending ∧ s.raiseHealth.power = s.power ∧ s.raiseHealth.pfw = s.pfw ∧
    s.raiseHealth.window = s.window ∧ s.raiseHealth.port = s.port ∧ s.raiseHealth.idle = s.idle ∧
    s.raiseHealth.staging = s.staging ∧ s.raiseHealth.index = s.index ∧ s.raiseHealth.space = s.space ∧
    s.raiseHealth.commit = s.commit ∧ s.raiseHealth.reclaim = s.reclaim ∧
    s.raiseHealth.sequencer = s.sequencer ∧ s.raiseHealth.mount = s.mount ∧
    s.raiseHealth.mountReport = s.mountReport ∧ s.raiseHealth.background = s.background ∧
    s.raiseHealth.drain = s.drain ∧ s.raiseHealth.health = s.health ∧ s.raiseHealth.medium = s.medium ∧
    s.raiseHealth.choices = s.choices := by
  unfold State.raiseHealth
  (try dsimp only)
  (repeat' split) <;> first | (simp; done) | (simp_all; done)

@[simp] theorem State.raiseDrained_frame (s : State) :
    s.raiseDrained.pending = s.pending ∧ s.raiseDrained.power = s.power ∧ s.raiseDrained.pfw = s.pfw ∧
    s.raiseDrained.window = s.window ∧ s.raiseDrained.port = s.port ∧ s.raiseDrained.idle = s.idle ∧
    s.raiseDrained.staging = s.staging ∧ s.raiseDrained.index = s.index ∧ s.raiseDrained.space = s.space ∧
    s.raiseDrained.commit = s.commit ∧ s.raiseDrained.reclaim = s.reclaim ∧
    s.raiseDrained.sequencer = s.sequencer ∧ s.raiseDrained.mount = s.mount ∧
    s.raiseDrained.mountReport = s.mountReport ∧ s.raiseDrained.background = s.background ∧
    s.raiseDrained.drain = s.drain ∧ s.raiseDrained.health = s.health ∧ s.raiseDrained.medium = s.medium ∧
    s.raiseDrained.choices = s.choices := by
  unfold State.raiseDrained
  (try dsimp only)
  (repeat' split) <;> first | (simp; done) | (simp_all; done)

@[simp] theorem State.lodgeRead_frame (s : State) :
    s.lodgeRead.pending = s.pending ∧ s.lodgeRead.power = s.power ∧ s.lodgeRead.pfw = s.pfw ∧
    s.lodgeRead.window = s.window ∧ s.lodgeRead.port = s.port ∧ s.lodgeRead.causes = s.causes ∧
    s.lodgeRead.idle = s.idle ∧ s.lodgeRead.staging = s.staging ∧ s.lodgeRead.index = s.index ∧
    s.lodgeRead.space = s.space ∧ s.lodgeRead.commit = s.commit ∧ s.lodgeRead.reclaim = s.reclaim ∧
    s.lodgeRead.sequencer.inFlight = s.sequencer.inFlight ∧
    s.lodgeRead.sequencer.fairness = s.sequencer.fairness ∧ s.lodgeRead.sequencer.pin = s.sequencer.pin ∧
    s.lodgeRead.mount = s.mount ∧ s.lodgeRead.mountReport = s.mountReport ∧
    s.lodgeRead.background = s.background ∧ s.lodgeRead.drain = s.drain ∧ s.lodgeRead.health = s.health ∧
    s.lodgeRead.medium = s.medium ∧ s.lodgeRead.choices = s.choices := by
  unfold State.lodgeRead
  (try dsimp only)
  (repeat' split) <;> first | (simp; done) | (simp_all; done)

@[simp] theorem State.lodgeCommit_frame (s : State) :
    s.lodgeCommit.pending = s.pending ∧ s.lodgeCommit.power = s.power ∧ s.lodgeCommit.pfw = s.pfw ∧
    s.lodgeCommit.window = s.window ∧ s.lodgeCommit.port = s.port ∧ s.lodgeCommit.causes = s.causes ∧
    s.lodgeCommit.idle = s.idle ∧ s.lodgeCommit.staging = s.staging ∧ s.lodgeCommit.index = s.index ∧
    s.lodgeCommit.space = s.space ∧ s.lodgeCommit.commit = s.commit ∧ s.lodgeCommit.reclaim = s.reclaim ∧
    s.lodgeCommit.sequencer.inFlight = s.sequencer.inFlight ∧
    s.lodgeCommit.sequencer.fairness = s.sequencer.fairness ∧
    s.lodgeCommit.sequencer.pin = s.sequencer.pin ∧ s.lodgeCommit.mount = s.mount ∧
    s.lodgeCommit.mountReport = s.mountReport ∧ s.lodgeCommit.background = s.background ∧
    s.lodgeCommit.drain = s.drain ∧ s.lodgeCommit.health = s.health ∧ s.lodgeCommit.medium = s.medium ∧
    s.lodgeCommit.choices = s.choices := by
  unfold State.lodgeCommit
  (try dsimp only)
  (repeat' split) <;> first | (simp; done) | (simp_all; done)

@[simp] theorem State.lodgeReclaimer_frame (s : State) :
    s.lodgeReclaimer.pending = s.pending ∧ s.lodgeReclaimer.power = s.power ∧
    s.lodgeReclaimer.pfw = s.pfw ∧ s.lodgeReclaimer.window = s.window ∧ s.lodgeReclaimer.port = s.port ∧
    s.lodgeReclaimer.causes = s.causes ∧ s.lodgeReclaimer.idle = s.idle ∧
    s.lodgeReclaimer.staging = s.staging ∧ s.lodgeReclaimer.index = s.index ∧
    s.lodgeReclaimer.space = s.space ∧ s.lodgeReclaimer.commit = s.commit ∧
    s.lodgeReclaimer.reclaim = s.reclaim ∧ s.lodgeReclaimer.sequencer.inFlight = s.sequencer.inFlight ∧
    s.lodgeReclaimer.sequencer.fairness = s.sequencer.fairness ∧
    s.lodgeReclaimer.sequencer.pin = s.sequencer.pin ∧ s.lodgeReclaimer.mount = s.mount ∧
    s.lodgeReclaimer.mountReport = s.mountReport ∧ s.lodgeReclaimer.background = s.background ∧
    s.lodgeReclaimer.drain = s.drain ∧ s.lodgeReclaimer.health = s.health ∧
    s.lodgeReclaimer.medium = s.medium ∧ s.lodgeReclaimer.choices = s.choices := by
  unfold State.lodgeReclaimer
  (try dsimp only)
  (repeat' split) <;> first | (simp; done) | (simp_all; done)

@[simp] theorem State.lodgeBackground_frame (s : State) :
    s.lodgeBackground.pending = s.pending ∧ s.lodgeBackground.power = s.power ∧
    s.lodgeBackground.pfw = s.pfw ∧ s.lodgeBackground.window = s.window ∧ s.lodgeBackground.port = s.port ∧
    s.lodgeBackground.causes = s.causes ∧ s.lodgeBackground.idle = s.idle ∧
    s.lodgeBackground.staging = s.staging ∧ s.lodgeBackground.index = s.index ∧
    s.lodgeBackground.space = s.space ∧ s.lodgeBackground.commit = s.commit ∧
    s.lodgeBackground.reclaim = s.reclaim ∧ s.lodgeBackground.sequencer.inFlight = s.sequencer.inFlight ∧
    s.lodgeBackground.sequencer.fairness = s.sequencer.fairness ∧
    s.lodgeBackground.sequencer.pin = s.sequencer.pin ∧ s.lodgeBackground.mount = s.mount ∧
    s.lodgeBackground.mountReport = s.mountReport ∧ s.lodgeBackground.background = s.background ∧
    s.lodgeBackground.drain = s.drain ∧ s.lodgeBackground.health = s.health ∧
    s.lodgeBackground.medium = s.medium ∧ s.lodgeBackground.choices = s.choices := by
  unfold State.lodgeBackground
  (try dsimp only)
  (repeat' split) <;> first | (simp; done) | (simp_all; done)

@[simp] theorem State.withdrawRead_frame (s : State) :
    s.withdrawRead.pending = s.pending ∧ s.withdrawRead.power = s.power ∧ s.withdrawRead.pfw = s.pfw ∧
    s.withdrawRead.window = s.window ∧ s.withdrawRead.port = s.port ∧ s.withdrawRead.causes = s.causes ∧
    s.withdrawRead.idle = s.idle ∧ s.withdrawRead.staging = s.staging ∧ s.withdrawRead.index = s.index ∧
    s.withdrawRead.space = s.space ∧ s.withdrawRead.commit = s.commit ∧
    s.withdrawRead.reclaim = s.reclaim ∧ s.withdrawRead.sequencer.inFlight = s.sequencer.inFlight ∧
    s.withdrawRead.sequencer.fairness = s.sequencer.fairness ∧
    s.withdrawRead.sequencer.pin = s.sequencer.pin ∧ s.withdrawRead.mount = s.mount ∧
    s.withdrawRead.mountReport = s.mountReport ∧ s.withdrawRead.background = s.background ∧
    s.withdrawRead.drain = s.drain ∧ s.withdrawRead.health = s.health ∧ s.withdrawRead.medium = s.medium ∧
    s.withdrawRead.choices = s.choices := by
  unfold State.withdrawRead
  (try dsimp only)
  (repeat' split) <;> first | (simp; done) | (simp_all; done)

@[simp] theorem State.withdrawCommit_frame (s : State) :
    s.withdrawCommit.pending = s.pending ∧ s.withdrawCommit.power = s.power ∧
    s.withdrawCommit.pfw = s.pfw ∧ s.withdrawCommit.window = s.window ∧ s.withdrawCommit.port = s.port ∧
    s.withdrawCommit.causes = s.causes ∧ s.withdrawCommit.idle = s.idle ∧
    s.withdrawCommit.staging = s.staging ∧ s.withdrawCommit.index = s.index ∧
    s.withdrawCommit.space = s.space ∧ s.withdrawCommit.commit = s.commit ∧
    s.withdrawCommit.reclaim = s.reclaim ∧ s.withdrawCommit.sequencer.inFlight = s.sequencer.inFlight ∧
    s.withdrawCommit.sequencer.fairness = s.sequencer.fairness ∧
    s.withdrawCommit.sequencer.pin = s.sequencer.pin ∧ s.withdrawCommit.mount = s.mount ∧
    s.withdrawCommit.mountReport = s.mountReport ∧ s.withdrawCommit.background = s.background ∧
    s.withdrawCommit.drain = s.drain ∧ s.withdrawCommit.health = s.health ∧
    s.withdrawCommit.medium = s.medium ∧ s.withdrawCommit.choices = s.choices := by
  unfold State.withdrawCommit
  (try dsimp only)
  (repeat' split) <;> first | (simp; done) | (simp_all; done)

@[simp] theorem State.withdrawReclaimer_frame (s : State) :
    s.withdrawReclaimer.pending = s.pending ∧ s.withdrawReclaimer.power = s.power ∧
    s.withdrawReclaimer.pfw = s.pfw ∧ s.withdrawReclaimer.window = s.window ∧
    s.withdrawReclaimer.port = s.port ∧ s.withdrawReclaimer.causes = s.causes ∧
    s.withdrawReclaimer.idle = s.idle ∧ s.withdrawReclaimer.staging = s.staging ∧
    s.withdrawReclaimer.index = s.index ∧ s.withdrawReclaimer.space = s.space ∧
    s.withdrawReclaimer.commit = s.commit ∧ s.withdrawReclaimer.reclaim = s.reclaim ∧
    s.withdrawReclaimer.sequencer.inFlight = s.sequencer.inFlight ∧
    s.withdrawReclaimer.sequencer.pin = s.sequencer.pin ∧ s.withdrawReclaimer.mount = s.mount ∧
    s.withdrawReclaimer.mountReport = s.mountReport ∧ s.withdrawReclaimer.background = s.background ∧
    s.withdrawReclaimer.drain = s.drain ∧ s.withdrawReclaimer.health = s.health ∧
    s.withdrawReclaimer.medium = s.medium ∧ s.withdrawReclaimer.choices = s.choices := by
  unfold State.withdrawReclaimer
  (try dsimp only)
  (repeat' split) <;> first | (simp; done) | (simp_all; done)

@[simp] theorem State.withdrawBackground_frame (s : State) :
    s.withdrawBackground.pending = s.pending ∧ s.withdrawBackground.power = s.power ∧
    s.withdrawBackground.pfw = s.pfw ∧ s.withdrawBackground.window = s.window ∧
    s.withdrawBackground.port = s.port ∧ s.withdrawBackground.causes = s.causes ∧
    s.withdrawBackground.idle = s.idle ∧ s.withdrawBackground.staging = s.staging ∧
    s.withdrawBackground.index = s.index ∧ s.withdrawBackground.space = s.space ∧
    s.withdrawBackground.commit = s.commit ∧ s.withdrawBackground.reclaim = s.reclaim ∧
    s.withdrawBackground.sequencer.inFlight = s.sequencer.inFlight ∧
    s.withdrawBackground.sequencer.pin = s.sequencer.pin ∧ s.withdrawBackground.mount = s.mount ∧
    s.withdrawBackground.mountReport = s.mountReport ∧ s.withdrawBackground.background = s.background ∧
    s.withdrawBackground.drain = s.drain ∧ s.withdrawBackground.health = s.health ∧
    s.withdrawBackground.medium = s.medium ∧ s.withdrawBackground.choices = s.choices := by
  unfold State.withdrawBackground
  (try dsimp only)
  (repeat' split) <;> first | (simp; done) | (simp_all; done)

@[simp] theorem State.issue_frame (s : State) (who : Requester) (op : Op) (allowed : Nat) :
    (s.issue who op allowed).pending = s.pending ∧ (s.issue who op allowed).power = s.power ∧
    (s.issue who op allowed).pfw = s.pfw ∧ (s.issue who op allowed).window = s.window ∧
    (s.issue who op allowed).port = s.port ∧ (s.issue who op allowed).causes = s.causes ∧
    (s.issue who op allowed).idle = s.idle ∧ (s.issue who op allowed).staging = s.staging ∧
    (s.issue who op allowed).index = s.index ∧ (s.issue who op allowed).space = s.space ∧
    (s.issue who op allowed).commit = s.commit ∧ (s.issue who op allowed).reclaim = s.reclaim ∧
    (s.issue who op allowed).sequencer.requests = s.sequencer.requests ∧
    (s.issue who op allowed).sequencer.fairness = s.sequencer.fairness ∧
    (s.issue who op allowed).sequencer.pin = s.sequencer.pin ∧ (s.issue who op allowed).mount = s.mount ∧
    (s.issue who op allowed).mountReport = s.mountReport ∧
    (s.issue who op allowed).background = s.background ∧ (s.issue who op allowed).drain = s.drain ∧
    (s.issue who op allowed).health = s.health ∧ (s.issue who op allowed).medium = s.medium ∧
    (s.issue who op allowed).choices = s.choices := by
  unfold State.issue
  (try dsimp only)
  (repeat' split) <;> first | (simp; done) | (simp_all; done)

@[simp] theorem State.releasePort_frame (s : State) :
    s.releasePort.pending = s.pending ∧ s.releasePort.power = s.power ∧ s.releasePort.pfw = s.pfw ∧
    s.releasePort.window = s.window ∧ s.releasePort.port = s.port ∧ s.releasePort.causes = s.causes ∧
    s.releasePort.idle = s.idle ∧ s.releasePort.staging = s.staging ∧ s.releasePort.index = s.index ∧
    s.releasePort.space = s.space ∧ s.releasePort.commit = s.commit ∧ s.releasePort.reclaim = s.reclaim ∧
    s.releasePort.sequencer.requests = s.sequencer.requests ∧
    s.releasePort.sequencer.fairness = s.sequencer.fairness ∧ s.releasePort.mount = s.mount ∧
    s.releasePort.mountReport = s.mountReport ∧ s.releasePort.background = s.background ∧
    s.releasePort.drain = s.drain ∧ s.releasePort.health = s.health ∧ s.releasePort.medium = s.medium ∧
    s.releasePort.choices = s.choices := by
  unfold State.releasePort
  (try dsimp only)
  (repeat' split) <;> first | (simp; done) | (simp_all; done)

@[simp] theorem State.updateSegment_frame (s : State) (n : Nat) (f : Segment → Segment) :
    (s.updateSegment n f).pending = s.pending ∧ (s.updateSegment n f).power = s.power ∧
    (s.updateSegment n f).pfw = s.pfw ∧ (s.updateSegment n f).window = s.window ∧
    (s.updateSegment n f).port = s.port ∧ (s.updateSegment n f).causes = s.causes ∧
    (s.updateSegment n f).idle = s.idle ∧ (s.updateSegment n f).staging = s.staging ∧
    (s.updateSegment n f).index = s.index ∧ (s.updateSegment n f).space.present = s.space.present ∧
    (s.updateSegment n f).space.freeList = s.space.freeList ∧
    (s.updateSegment n f).space.openCounter = s.space.openCounter ∧
    (s.updateSegment n f).space.range = s.space.range ∧ (s.updateSegment n f).space.state = s.space.state ∧
    (s.updateSegment n f).space.reasons = s.space.reasons ∧ (s.updateSegment n f).commit = s.commit ∧
    (s.updateSegment n f).reclaim = s.reclaim ∧ (s.updateSegment n f).sequencer = s.sequencer ∧
    (s.updateSegment n f).mount = s.mount ∧ (s.updateSegment n f).mountReport = s.mountReport ∧
    (s.updateSegment n f).background = s.background ∧ (s.updateSegment n f).drain = s.drain ∧
    (s.updateSegment n f).health = s.health ∧ (s.updateSegment n f).medium = s.medium ∧
    (s.updateSegment n f).choices = s.choices := by
  unfold State.updateSegment
  (try dsimp only)
  (repeat' split) <;> first | (simp; done) | (simp_all; done)

@[simp] theorem State.wakeWaiting_frame (s : State) :
    s.wakeWaiting.pending = s.pending ∧ s.wakeWaiting.power = s.power ∧ s.wakeWaiting.pfw = s.pfw ∧
    s.wakeWaiting.window = s.window ∧ s.wakeWaiting.port = s.port ∧ s.wakeWaiting.causes = s.causes ∧
    s.wakeWaiting.idle = s.idle ∧ s.wakeWaiting.staging = s.staging ∧ s.wakeWaiting.index = s.index ∧
    s.wakeWaiting.space = s.space ∧ s.wakeWaiting.commit = s.commit ∧ s.wakeWaiting.reclaim = s.reclaim ∧
    s.wakeWaiting.sequencer.inFlight = s.sequencer.inFlight ∧
    s.wakeWaiting.sequencer.fairness = s.sequencer.fairness ∧
    s.wakeWaiting.sequencer.pin = s.sequencer.pin ∧ s.wakeWaiting.mount = s.mount ∧
    s.wakeWaiting.mountReport = s.mountReport ∧ s.wakeWaiting.background = s.background ∧
    s.wakeWaiting.drain = s.drain ∧ s.wakeWaiting.health = s.health ∧ s.wakeWaiting.medium = s.medium ∧
    s.wakeWaiting.choices = s.choices := by
  unfold State.wakeWaiting
  (try dsimp only)
  (repeat' split) <;> first | (simp; done) | (simp_all; done)

@[simp] theorem State.setFreeList_frame (s : State) (l : List Nat) :
    (s.setFreeList l).pending = s.pending ∧ (s.setFreeList l).power = s.power ∧
    (s.setFreeList l).pfw = s.pfw ∧ (s.setFreeList l).window = s.window ∧ (s.setFreeList l).port = s.port ∧
    (s.setFreeList l).causes = s.causes ∧ (s.setFreeList l).idle = s.idle ∧
    (s.setFreeList l).staging = s.staging ∧ (s.setFreeList l).index = s.index ∧
    (s.setFreeList l).space.present = s.space.present ∧
    (s.setFreeList l).space.segments = s.space.segments ∧
    (s.setFreeList l).space.openCounter = s.space.openCounter ∧
    (s.setFreeList l).space.range = s.space.range ∧ (s.setFreeList l).space.state = s.space.state ∧
    (s.setFreeList l).space.reasons = s.space.reasons ∧ (s.setFreeList l).commit = s.commit ∧
    (s.setFreeList l).reclaim.job = s.reclaim.job ∧
    (s.setFreeList l).reclaim.refreshList = s.reclaim.refreshList ∧
    (s.setFreeList l).sequencer.inFlight = s.sequencer.inFlight ∧
    (s.setFreeList l).sequencer.fairness = s.sequencer.fairness ∧
    (s.setFreeList l).sequencer.pin = s.sequencer.pin ∧ (s.setFreeList l).mount = s.mount ∧
    (s.setFreeList l).mountReport = s.mountReport ∧ (s.setFreeList l).background = s.background ∧
    (s.setFreeList l).drain = s.drain ∧ (s.setFreeList l).health = s.health ∧
    (s.setFreeList l).medium = s.medium ∧ (s.setFreeList l).choices = s.choices := by
  unfold State.setFreeList
  (try dsimp only)
  (repeat' split) <;> first | (simp; done) | (simp_all; done)

@[simp] theorem State.formatSegment_frame (s : State) (n : Nat) :
    (s.formatSegment n).pending = s.pending ∧ (s.formatSegment n).power = s.power ∧
    (s.formatSegment n).pfw = s.pfw ∧ (s.formatSegment n).window = s.window ∧
    (s.formatSegment n).port = s.port ∧ (s.formatSegment n).causes = s.causes ∧
    (s.formatSegment n).idle = s.idle ∧ (s.formatSegment n).staging = s.staging ∧
    (s.formatSegment n).index = s.index ∧ (s.formatSegment n).space.present = s.space.present ∧
    (s.formatSegment n).space.openCounter = s.space.openCounter ∧
    (s.formatSegment n).space.range = s.space.range ∧ (s.formatSegment n).space.state = s.space.state ∧
    (s.formatSegment n).space.reasons = s.space.reasons ∧ (s.formatSegment n).commit = s.commit ∧
    (s.formatSegment n).reclaim.job = s.reclaim.job ∧
    (s.formatSegment n).reclaim.refreshList = s.reclaim.refreshList ∧
    (s.formatSegment n).sequencer.inFlight = s.sequencer.inFlight ∧
    (s.formatSegment n).sequencer.fairness = s.sequencer.fairness ∧
    (s.formatSegment n).sequencer.pin = s.sequencer.pin ∧ (s.formatSegment n).mount = s.mount ∧
    (s.formatSegment n).mountReport = s.mountReport ∧ (s.formatSegment n).background = s.background ∧
    (s.formatSegment n).drain = s.drain ∧ (s.formatSegment n).health = s.health ∧
    (s.formatSegment n).medium = s.medium ∧ (s.formatSegment n).choices = s.choices := by
  unfold State.formatSegment
  (try dsimp only)
  (repeat' split) <;> first | (simp; done) | (simp_all; done)

@[simp] theorem State.putEntry_frame (s : State) (e : IndexEntry) :
    (s.putEntry e).pending = s.pending ∧ (s.putEntry e).power = s.power ∧ (s.putEntry e).pfw = s.pfw ∧
    (s.putEntry e).window = s.window ∧ (s.putEntry e).port = s.port ∧ (s.putEntry e).causes = s.causes ∧
    (s.putEntry e).idle = s.idle ∧ (s.putEntry e).staging = s.staging ∧
    (s.putEntry e).index.nextSequence = s.index.nextSequence ∧
    (s.putEntry e).index.reservations = s.index.reservations ∧ (s.putEntry e).space = s.space ∧
    (s.putEntry e).commit = s.commit ∧ (s.putEntry e).reclaim = s.reclaim ∧
    (s.putEntry e).sequencer = s.sequencer ∧ (s.putEntry e).mount = s.mount ∧
    (s.putEntry e).mountReport = s.mountReport ∧ (s.putEntry e).background = s.background ∧
    (s.putEntry e).drain = s.drain ∧ (s.putEntry e).health = s.health ∧ (s.putEntry e).medium = s.medium ∧
    (s.putEntry e).choices = s.choices := by
  unfold State.putEntry
  (try dsimp only)
  (repeat' split) <;> first | (simp; done) | (simp_all; done)

@[simp] theorem State.removeEntry_frame (s : State) (tag : Nat) :
    (s.removeEntry tag).pending = s.pending ∧ (s.removeEntry tag).power = s.power ∧
    (s.removeEntry tag).pfw = s.pfw ∧ (s.removeEntry tag).window = s.window ∧
    (s.removeEntry tag).port = s.port ∧ (s.removeEntry tag).causes = s.causes ∧
    (s.removeEntry tag).idle = s.idle ∧ (s.removeEntry tag).staging = s.staging ∧
    (s.removeEntry tag).index.nextSequence = s.index.nextSequence ∧
    (s.removeEntry tag).index.reservations = s.index.reservations ∧ (s.removeEntry tag).space = s.space ∧
    (s.removeEntry tag).commit = s.commit ∧ (s.removeEntry tag).reclaim = s.reclaim ∧
    (s.removeEntry tag).sequencer = s.sequencer ∧ (s.removeEntry tag).mount = s.mount ∧
    (s.removeEntry tag).mountReport = s.mountReport ∧ (s.removeEntry tag).background = s.background ∧
    (s.removeEntry tag).drain = s.drain ∧ (s.removeEntry tag).health = s.health ∧
    (s.removeEntry tag).medium = s.medium ∧ (s.removeEntry tag).choices = s.choices := by
  unfold State.removeEntry
  (try dsimp only)
  (repeat' split) <;> first | (simp; done) | (simp_all; done)

@[simp] theorem State.reserveSlots_frame (s : State) (numbers : List Nat) :
    (s.reserveSlots numbers).pending = s.pending ∧ (s.reserveSlots numbers).power = s.power ∧
    (s.reserveSlots numbers).pfw = s.pfw ∧ (s.reserveSlots numbers).window = s.window ∧
    (s.reserveSlots numbers).port = s.port ∧ (s.reserveSlots numbers).causes = s.causes ∧
    (s.reserveSlots numbers).idle = s.idle ∧ (s.reserveSlots numbers).staging.pwl = s.staging.pwl ∧
    (s.reserveSlots numbers).index = s.index ∧ (s.reserveSlots numbers).space = s.space ∧
    (s.reserveSlots numbers).commit = s.commit ∧ (s.reserveSlots numbers).reclaim = s.reclaim ∧
    (s.reserveSlots numbers).sequencer = s.sequencer ∧ (s.reserveSlots numbers).mount = s.mount ∧
    (s.reserveSlots numbers).mountReport = s.mountReport ∧
    (s.reserveSlots numbers).background = s.background ∧ (s.reserveSlots numbers).drain = s.drain ∧
    (s.reserveSlots numbers).health = s.health ∧ (s.reserveSlots numbers).medium = s.medium ∧
    (s.reserveSlots numbers).choices = s.choices := by
  unfold State.reserveSlots
  (try dsimp only)
  (repeat' split) <;> first | (simp; done) | (simp_all; done)

@[simp] theorem State.freeReserved_frame (s : State) :
    s.freeReserved.pending = s.pending ∧ s.freeReserved.power = s.power ∧ s.freeReserved.pfw = s.pfw ∧
    s.freeReserved.window = s.window ∧ s.freeReserved.port = s.port ∧ s.freeReserved.causes = s.causes ∧
    s.freeReserved.idle = s.idle ∧ s.freeReserved.staging.pwl = s.staging.pwl ∧
    s.freeReserved.index = s.index ∧ s.freeReserved.space = s.space ∧ s.freeReserved.commit = s.commit ∧
    s.freeReserved.reclaim = s.reclaim ∧ s.freeReserved.sequencer = s.sequencer ∧
    s.freeReserved.mount = s.mount ∧ s.freeReserved.mountReport = s.mountReport ∧
    s.freeReserved.background = s.background ∧ s.freeReserved.drain = s.drain ∧
    s.freeReserved.health = s.health ∧ s.freeReserved.medium = s.medium ∧ s.freeReserved.choices = s.choices := by
  unfold State.freeReserved
  (try dsimp only)
  (repeat' split) <;> first | (simp; done) | (simp_all; done)

@[simp] theorem State.startIdle_frame (s : State) :
    s.startIdle.pending = s.pending ∧ s.startIdle.power = s.power ∧ s.startIdle.pfw = s.pfw ∧
    s.startIdle.window = s.window ∧ s.startIdle.port = s.port ∧ s.startIdle.causes = s.causes ∧
    s.startIdle.idle.qualified = s.idle.qualified ∧ s.startIdle.staging = s.staging ∧
    s.startIdle.index = s.index ∧ s.startIdle.space = s.space ∧ s.startIdle.commit = s.commit ∧
    s.startIdle.reclaim = s.reclaim ∧ s.startIdle.sequencer = s.sequencer ∧ s.startIdle.mount = s.mount ∧
    s.startIdle.mountReport = s.mountReport ∧ s.startIdle.background = s.background ∧
    s.startIdle.drain = s.drain ∧ s.startIdle.health = s.health ∧ s.startIdle.medium = s.medium ∧
    s.startIdle.choices = s.choices := by
  unfold State.startIdle
  (try dsimp only)
  (repeat' split) <;> first | (simp; done) | (simp_all; done)

@[simp] theorem State.stopIdle_frame (s : State) :
    s.stopIdle.pending = s.pending ∧ s.stopIdle.power = s.power ∧ s.stopIdle.pfw = s.pfw ∧
    s.stopIdle.window = s.window ∧ s.stopIdle.port = s.port ∧ s.stopIdle.causes = s.causes ∧
    s.stopIdle.idle.qualified = s.idle.qualified ∧ s.stopIdle.staging = s.staging ∧
    s.stopIdle.index = s.index ∧ s.stopIdle.space = s.space ∧ s.stopIdle.commit = s.commit ∧
    s.stopIdle.reclaim = s.reclaim ∧ s.stopIdle.sequencer = s.sequencer ∧ s.stopIdle.mount = s.mount ∧
    s.stopIdle.mountReport = s.mountReport ∧ s.stopIdle.background = s.background ∧
    s.stopIdle.drain = s.drain ∧ s.stopIdle.health = s.health ∧ s.stopIdle.medium = s.medium ∧
    s.stopIdle.choices = s.choices := by
  unfold State.stopIdle
  (try dsimp only)
  (repeat' split) <;> first | (simp; done) | (simp_all; done)

@[simp] theorem State.enterIdle_frame (s : State) :
    s.enterIdle.pending = s.pending ∧ s.enterIdle.power = s.power ∧ s.enterIdle.pfw = s.pfw ∧
    s.enterIdle.window = s.window ∧ s.enterIdle.port.activity = s.port.activity ∧
    s.enterIdle.port.residue = s.port.residue ∧ s.enterIdle.port.result = s.port.result ∧
    s.enterIdle.port.detail = s.port.detail ∧ s.enterIdle.port.dataTimer = s.port.dataTimer ∧
    s.enterIdle.causes = s.causes ∧ s.enterIdle.idle.qualified = s.idle.qualified ∧
    s.enterIdle.staging = s.staging ∧ s.enterIdle.index = s.index ∧ s.enterIdle.space = s.space ∧
    s.enterIdle.commit = s.commit ∧ s.enterIdle.reclaim = s.reclaim ∧ s.enterIdle.sequencer = s.sequencer ∧
    s.enterIdle.mount = s.mount ∧ s.enterIdle.mountReport = s.mountReport ∧
    s.enterIdle.background = s.background ∧ s.enterIdle.drain = s.drain ∧ s.enterIdle.health = s.health ∧
    s.enterIdle.medium = s.medium ∧ s.enterIdle.choices = s.choices := by
  unfold State.enterIdle
  (try dsimp only)
  (repeat' split) <;> first | (simp; done) | (simp_all; done)

@[simp] theorem State.enterDraining_frame (s : State) :
    s.enterDraining.pending = s.pending ∧ s.enterDraining.power = s.power ∧ s.enterDraining.pfw = s.pfw ∧
    s.enterDraining.window = s.window ∧ s.enterDraining.port.activity = s.port.activity ∧
    s.enterDraining.port.residue = s.port.residue ∧ s.enterDraining.port.result = s.port.result ∧
    s.enterDraining.port.detail = s.port.detail ∧ s.enterDraining.port.dataTimer = s.port.dataTimer ∧
    s.enterDraining.causes = s.causes ∧ s.enterDraining.staging = s.staging ∧
    s.enterDraining.index = s.index ∧ s.enterDraining.space = s.space ∧ s.enterDraining.commit = s.commit ∧
    s.enterDraining.reclaim = s.reclaim ∧ s.enterDraining.sequencer = s.sequencer ∧
    s.enterDraining.mount = s.mount ∧ s.enterDraining.mountReport = s.mountReport ∧
    s.enterDraining.background = s.background ∧ s.enterDraining.health = s.health ∧
    s.enterDraining.medium = s.medium ∧ s.enterDraining.choices = s.choices := by
  unfold State.enterDraining
  (try dsimp only)
  (repeat' split) <;> first | (simp; done) | (simp_all; done)

@[simp] theorem State.leaveCommand_frame (s : State) :
    s.leaveCommand.pending = s.pending ∧ s.leaveCommand.power = s.power ∧ s.leaveCommand.pfw = s.pfw ∧
    s.leaveCommand.window = s.window ∧ s.leaveCommand.port.result = s.port.result ∧
    s.leaveCommand.port.detail = s.port.detail ∧ s.leaveCommand.causes = s.causes ∧
    s.leaveCommand.staging.pwl = s.staging.pwl ∧ s.leaveCommand.index = s.index ∧
    s.leaveCommand.space = s.space ∧ s.leaveCommand.commit = s.commit ∧
    s.leaveCommand.reclaim = s.reclaim ∧ s.leaveCommand.sequencer = s.sequencer ∧
    s.leaveCommand.mount = s.mount ∧ s.leaveCommand.mountReport = s.mountReport ∧
    s.leaveCommand.background = s.background ∧ s.leaveCommand.health = s.health ∧
    s.leaveCommand.medium = s.medium ∧ s.leaveCommand.choices = s.choices := by
  unfold State.leaveCommand
  (try dsimp only)
  (repeat' split) <;> first | (simp; done) | (simp_all; done)

@[simp] theorem State.endCommand_frame (s : State) (code : ResultCode) (detail : Nat) :
    (s.endCommand code detail).pending = s.pending ∧ (s.endCommand code detail).power = s.power ∧
    (s.endCommand code detail).pfw = s.pfw ∧ (s.endCommand code detail).window = s.window ∧
    (s.endCommand code detail).staging.pwl = s.staging.pwl ∧ (s.endCommand code detail).index = s.index ∧
    (s.endCommand code detail).space = s.space ∧ (s.endCommand code detail).commit = s.commit ∧
    (s.endCommand code detail).reclaim = s.reclaim ∧ (s.endCommand code detail).sequencer = s.sequencer ∧
    (s.endCommand code detail).mount = s.mount ∧ (s.endCommand code detail).mountReport = s.mountReport ∧
    (s.endCommand code detail).background = s.background ∧ (s.endCommand code detail).health = s.health ∧
    (s.endCommand code detail).medium = s.medium ∧ (s.endCommand code detail).choices = s.choices := by
  unfold State.endCommand
  (try dsimp only)
  (repeat' split) <;> first | (simp; done) | (simp_all; done)

@[simp] theorem State.removeCommitted_frame (s : State) (gone : PwlEntry → Bool) :
    (s.removeCommitted gone).pending = s.pending ∧ (s.removeCommitted gone).power = s.power ∧
    (s.removeCommitted gone).pfw = s.pfw ∧ (s.removeCommitted gone).window = s.window ∧
    (s.removeCommitted gone).port = s.port ∧ (s.removeCommitted gone).causes = s.causes ∧
    (s.removeCommitted gone).idle.qualified = s.idle.qualified ∧ (s.removeCommitted gone).index = s.index ∧
    (s.removeCommitted gone).space = s.space ∧ (s.removeCommitted gone).commit = s.commit ∧
    (s.removeCommitted gone).reclaim = s.reclaim ∧ (s.removeCommitted gone).sequencer = s.sequencer ∧
    (s.removeCommitted gone).mount = s.mount ∧ (s.removeCommitted gone).mountReport = s.mountReport ∧
    (s.removeCommitted gone).background = s.background ∧ (s.removeCommitted gone).drain = s.drain ∧
    (s.removeCommitted gone).health = s.health ∧ (s.removeCommitted gone).medium = s.medium ∧
    (s.removeCommitted gone).choices = s.choices := by
  unfold State.removeCommitted
  (try dsimp only)
  (repeat' split) <;> first | (simp; done) | (simp_all; done)

@[simp] theorem State.restartTimer_frame (s : State) :
    s.restartTimer.pending = s.pending ∧ s.restartTimer.power = s.power ∧ s.restartTimer.pfw = s.pfw ∧
    s.restartTimer.window = s.window ∧ s.restartTimer.port.state = s.port.state ∧
    s.restartTimer.port.activity = s.port.activity ∧ s.restartTimer.port.residue = s.port.residue ∧
    s.restartTimer.port.result = s.port.result ∧ s.restartTimer.port.detail = s.port.detail ∧
    s.restartTimer.causes = s.causes ∧ s.restartTimer.idle = s.idle ∧ s.restartTimer.staging = s.staging ∧
    s.restartTimer.index = s.index ∧ s.restartTimer.space = s.space ∧ s.restartTimer.commit = s.commit ∧
    s.restartTimer.reclaim = s.reclaim ∧ s.restartTimer.sequencer = s.sequencer ∧
    s.restartTimer.mount = s.mount ∧ s.restartTimer.mountReport = s.mountReport ∧
    s.restartTimer.background = s.background ∧ s.restartTimer.drain = s.drain ∧
    s.restartTimer.health = s.health ∧ s.restartTimer.medium = s.medium ∧ s.restartTimer.choices = s.choices := by
  unfold State.restartTimer
  (try dsimp only)
  (repeat' split) <;> first | (simp; done) | (simp_all; done)

@[simp] theorem State.fillFrame_frame (s : State) (words : List Word) :
    (s.fillFrame words).pending = s.pending ∧ (s.fillFrame words).power = s.power ∧
    (s.fillFrame words).pfw = s.pfw ∧ (s.fillFrame words).window.options = s.window.options ∧
    (s.fillFrame words).window.nextBundle = s.window.nextBundle ∧
    (s.fillFrame words).window.mask = s.window.mask ∧
    (s.fillFrame words).window.refused = s.window.refused ∧
    (s.fillFrame words).window.busOut = s.window.busOut ∧ (s.fillFrame words).port = s.port ∧
    (s.fillFrame words).causes = s.causes ∧ (s.fillFrame words).idle = s.idle ∧
    (s.fillFrame words).staging = s.staging ∧ (s.fillFrame words).index = s.index ∧
    (s.fillFrame words).space = s.space ∧ (s.fillFrame words).commit = s.commit ∧
    (s.fillFrame words).reclaim = s.reclaim ∧ (s.fillFrame words).sequencer = s.sequencer ∧
    (s.fillFrame words).mount = s.mount ∧ (s.fillFrame words).mountReport = s.mountReport ∧
    (s.fillFrame words).background = s.background ∧ (s.fillFrame words).drain = s.drain ∧
    (s.fillFrame words).health = s.health ∧ (s.fillFrame words).medium = s.medium ∧
    (s.fillFrame words).choices = s.choices := by
  unfold State.fillFrame
  (try dsimp only)
  (repeat' split) <;> first | (simp; done) | (simp_all; done)

@[simp] theorem State.enterSending_frame (s : State) (n : Nat) :
    (s.enterSending n).pending = s.pending ∧ (s.enterSending n).power = s.power ∧
    (s.enterSending n).pfw = s.pfw ∧ (s.enterSending n).window = s.window ∧
    (s.enterSending n).port.result = s.port.result ∧ (s.enterSending n).port.detail = s.port.detail ∧
    (s.enterSending n).idle = s.idle ∧ (s.enterSending n).staging = s.staging ∧
    (s.enterSending n).index = s.index ∧ (s.enterSending n).space = s.space ∧
    (s.enterSending n).commit = s.commit ∧ (s.enterSending n).reclaim = s.reclaim ∧
    (s.enterSending n).sequencer = s.sequencer ∧ (s.enterSending n).mount = s.mount ∧
    (s.enterSending n).mountReport = s.mountReport ∧ (s.enterSending n).background = s.background ∧
    (s.enterSending n).drain = s.drain ∧ (s.enterSending n).health = s.health ∧
    (s.enterSending n).medium = s.medium ∧ (s.enterSending n).choices = s.choices := by
  unfold State.enterSending
  (try dsimp only)
  (repeat' split) <;> first | (simp; done) | (simp_all; done)

@[simp] theorem State.countRecovered_frame (s : State) :
    s.countRecovered.pending = s.pending ∧ s.countRecovered.power = s.power ∧
    s.countRecovered.pfw = s.pfw ∧ s.countRecovered.window = s.window ∧ s.countRecovered.port = s.port ∧
    s.countRecovered.causes = s.causes ∧ s.countRecovered.idle = s.idle ∧
    s.countRecovered.staging = s.staging ∧ s.countRecovered.index = s.index ∧
    s.countRecovered.space = s.space ∧ s.countRecovered.commit = s.commit ∧
    s.countRecovered.reclaim = s.reclaim ∧ s.countRecovered.sequencer = s.sequencer ∧
    s.countRecovered.mount = s.mount ∧ s.countRecovered.mountReport = s.mountReport ∧
    s.countRecovered.background = s.background ∧ s.countRecovered.drain = s.drain ∧
    s.countRecovered.health.conditions = s.health.conditions ∧ s.countRecovered.medium = s.medium ∧
    s.countRecovered.choices = s.choices := by
  unfold State.countRecovered
  (try dsimp only)
  (repeat' split) <;> first | (simp; done) | (simp_all; done)

@[simp] theorem State.countUnreadable_frame (s : State) :
    s.countUnreadable.pending = s.pending ∧ s.countUnreadable.power = s.power ∧
    s.countUnreadable.pfw = s.pfw ∧ s.countUnreadable.window = s.window ∧ s.countUnreadable.port = s.port ∧
    s.countUnreadable.causes = s.causes ∧ s.countUnreadable.idle = s.idle ∧
    s.countUnreadable.staging = s.staging ∧ s.countUnreadable.index = s.index ∧
    s.countUnreadable.space = s.space ∧ s.countUnreadable.commit = s.commit ∧
    s.countUnreadable.reclaim = s.reclaim ∧ s.countUnreadable.sequencer = s.sequencer ∧
    s.countUnreadable.mount = s.mount ∧ s.countUnreadable.mountReport = s.mountReport ∧
    s.countUnreadable.background = s.background ∧ s.countUnreadable.drain = s.drain ∧
    s.countUnreadable.health.conditions = s.health.conditions ∧ s.countUnreadable.medium = s.medium ∧
    s.countUnreadable.choices = s.choices := by
  unfold State.countUnreadable
  (try dsimp only)
  (repeat' split) <;> first | (simp; done) | (simp_all; done)

@[simp] theorem State.countProgramFailure_frame (s : State) :
    s.countProgramFailure.pending = s.pending ∧ s.countProgramFailure.power = s.power ∧
    s.countProgramFailure.pfw = s.pfw ∧ s.countProgramFailure.window = s.window ∧
    s.countProgramFailure.port = s.port ∧ s.countProgramFailure.causes = s.causes ∧
    s.countProgramFailure.idle = s.idle ∧ s.countProgramFailure.staging = s.staging ∧
    s.countProgramFailure.index = s.index ∧ s.countProgramFailure.space = s.space ∧
    s.countProgramFailure.commit = s.commit ∧ s.countProgramFailure.reclaim = s.reclaim ∧
    s.countProgramFailure.sequencer = s.sequencer ∧ s.countProgramFailure.mount = s.mount ∧
    s.countProgramFailure.mountReport = s.mountReport ∧ s.countProgramFailure.background = s.background ∧
    s.countProgramFailure.drain = s.drain ∧ s.countProgramFailure.health.conditions = s.health.conditions ∧
    s.countProgramFailure.medium = s.medium ∧ s.countProgramFailure.choices = s.choices := by
  unfold State.countProgramFailure
  (try dsimp only)
  (repeat' split) <;> first | (simp; done) | (simp_all; done)

@[simp] theorem State.countEraseFailure_frame (s : State) :
    s.countEraseFailure.pending = s.pending ∧ s.countEraseFailure.power = s.power ∧
    s.countEraseFailure.pfw = s.pfw ∧ s.countEraseFailure.window = s.window ∧
    s.countEraseFailure.port = s.port ∧ s.countEraseFailure.causes = s.causes ∧
    s.countEraseFailure.idle = s.idle ∧ s.countEraseFailure.staging = s.staging ∧
    s.countEraseFailure.index = s.index ∧ s.countEraseFailure.space = s.space ∧
    s.countEraseFailure.commit = s.commit ∧ s.countEraseFailure.reclaim = s.reclaim ∧
    s.countEraseFailure.sequencer = s.sequencer ∧ s.countEraseFailure.mount = s.mount ∧
    s.countEraseFailure.mountReport = s.mountReport ∧ s.countEraseFailure.background = s.background ∧
    s.countEraseFailure.drain = s.drain ∧ s.countEraseFailure.health.conditions = s.health.conditions ∧
    s.countEraseFailure.medium = s.medium ∧ s.countEraseFailure.choices = s.choices := by
  unfold State.countEraseFailure
  (try dsimp only)
  (repeat' split) <;> first | (simp; done) | (simp_all; done)

@[simp] theorem State.countTimeout_frame (s : State) :
    s.countTimeout.pending = s.pending ∧ s.countTimeout.power = s.power ∧ s.countTimeout.pfw = s.pfw ∧
    s.countTimeout.window = s.window ∧ s.countTimeout.port = s.port ∧ s.countTimeout.causes = s.causes ∧
    s.countTimeout.idle = s.idle ∧ s.countTimeout.staging = s.staging ∧ s.countTimeout.index = s.index ∧
    s.countTimeout.space = s.space ∧ s.countTimeout.commit = s.commit ∧
    s.countTimeout.reclaim = s.reclaim ∧ s.countTimeout.sequencer = s.sequencer ∧
    s.countTimeout.mount = s.mount ∧ s.countTimeout.mountReport = s.mountReport ∧
    s.countTimeout.background = s.background ∧ s.countTimeout.drain = s.drain ∧
    s.countTimeout.health.conditions = s.health.conditions ∧ s.countTimeout.medium = s.medium ∧
    s.countTimeout.choices = s.choices := by
  unfold State.countTimeout
  (try dsimp only)
  (repeat' split) <;> first | (simp; done) | (simp_all; done)

@[simp] theorem State.countLost_frame (s : State) :
    s.countLost.pending = s.pending ∧ s.countLost.power = s.power ∧ s.countLost.pfw = s.pfw ∧
    s.countLost.window = s.window ∧ s.countLost.port = s.port ∧ s.countLost.causes = s.causes ∧
    s.countLost.idle = s.idle ∧ s.countLost.staging = s.staging ∧ s.countLost.index = s.index ∧
    s.countLost.space = s.space ∧ s.countLost.commit = s.commit ∧ s.countLost.reclaim = s.reclaim ∧
    s.countLost.sequencer = s.sequencer ∧ s.countLost.mount = s.mount ∧
    s.countLost.mountReport = s.mountReport ∧ s.countLost.background = s.background ∧
    s.countLost.drain = s.drain ∧ s.countLost.health.conditions = s.health.conditions ∧
    s.countLost.medium = s.medium ∧ s.countLost.choices = s.choices := by
  unfold State.countLost
  (try dsimp only)
  (repeat' split) <;> first | (simp; done) | (simp_all; done)

@[simp] theorem State.countRefreshDrop_frame (s : State) :
    s.countRefreshDrop.pending = s.pending ∧ s.countRefreshDrop.power = s.power ∧
    s.countRefreshDrop.pfw = s.pfw ∧ s.countRefreshDrop.window = s.window ∧
    s.countRefreshDrop.port = s.port ∧ s.countRefreshDrop.causes = s.causes ∧
    s.countRefreshDrop.idle = s.idle ∧ s.countRefreshDrop.staging = s.staging ∧
    s.countRefreshDrop.index = s.index ∧ s.countRefreshDrop.space = s.space ∧
    s.countRefreshDrop.commit = s.commit ∧ s.countRefreshDrop.reclaim = s.reclaim ∧
    s.countRefreshDrop.sequencer = s.sequencer ∧ s.countRefreshDrop.mount = s.mount ∧
    s.countRefreshDrop.mountReport = s.mountReport ∧ s.countRefreshDrop.background = s.background ∧
    s.countRefreshDrop.drain = s.drain ∧ s.countRefreshDrop.health.conditions = s.health.conditions ∧
    s.countRefreshDrop.medium = s.medium ∧ s.countRefreshDrop.choices = s.choices := by
  unfold State.countRefreshDrop
  (try dsimp only)
  (repeat' split) <;> first | (simp; done) | (simp_all; done)

theorem healthRefresh_frame {s : State} {t : State} (h : healthRefresh s = some t) :
    t.pending = s.pending ∧ t.power = s.power ∧ t.pfw = s.pfw ∧ t.window = s.window ∧ t.port = s.port ∧
    t.idle = s.idle ∧ t.staging = s.staging ∧ t.index = s.index ∧ t.space = s.space ∧ t.commit = s.commit ∧
    t.reclaim = s.reclaim ∧ t.sequencer = s.sequencer ∧ t.mount = s.mount ∧ t.mountReport = s.mountReport ∧
    t.background = s.background ∧ t.drain = s.drain ∧ t.health.counters = s.health.counters ∧
    t.medium = s.medium ∧ t.choices = s.choices := by
  unfold healthRefresh at h
  (try dsimp only at h)
  (repeat' split at h) <;> first | (simp at h; done) | (cases h; simp; done) | (cases h; simp_all; done)

end Sys2Proof.Machine
end

