-- ==== Sys2Proof/Laws/FrameStore.lean ====
section
/-! SUPPORT. What each operation of the store's blocks leaves unchanged, field by field, as simp rules. -/

namespace Sys2Proof.Machine

theorem spaceRefresh_frame {s : State} {t : State} (h : spaceRefresh s = some t) :
    t.pending = s.pending ∧ t.power = s.power ∧ t.pfw = s.pfw ∧ t.window = s.window ∧ t.port = s.port ∧
    t.causes = s.causes ∧ t.idle = s.idle ∧ t.staging = s.staging ∧ t.index = s.index ∧
    t.space.present = s.space.present ∧ t.space.segments = s.space.segments ∧
    t.space.freeList = s.space.freeList ∧ t.space.openCounter = s.space.openCounter ∧
    t.space.range = s.space.range ∧ t.space.reasons = s.space.reasons ∧ t.commit = s.commit ∧
    t.reclaim = s.reclaim ∧ t.sequencer = s.sequencer ∧ t.mount = s.mount ∧ t.mountReport = s.mountReport ∧
    t.background = s.background ∧ t.drain = s.drain ∧ t.health = s.health ∧ t.medium = s.medium ∧
    t.choices = s.choices := by
  unfold spaceRefresh at h
  (try dsimp only at h)
  (repeat' split at h) <;> first | (simp at h; done) | (cases h; simp; done) | (cases h; simp_all; done)

@[simp] theorem State.checkWorn_frame (s : State) :
    s.checkWorn.pending = s.pending ∧ s.checkWorn.power = s.power ∧ s.checkWorn.pfw = s.pfw ∧
    s.checkWorn.window = s.window ∧ s.checkWorn.port = s.port ∧ s.checkWorn.causes = s.causes ∧
    s.checkWorn.idle = s.idle ∧ s.checkWorn.staging = s.staging ∧ s.checkWorn.index = s.index ∧
    s.checkWorn.space.present = s.space.present ∧ s.checkWorn.space.segments = s.space.segments ∧
    s.checkWorn.space.freeList = s.space.freeList ∧ s.checkWorn.space.openCounter = s.space.openCounter ∧
    s.checkWorn.space.range = s.space.range ∧ s.checkWorn.space.state = s.space.state ∧
    s.checkWorn.commit = s.commit ∧ s.checkWorn.reclaim = s.reclaim ∧ s.checkWorn.sequencer = s.sequencer ∧
    s.checkWorn.mount = s.mount ∧ s.checkWorn.mountReport = s.mountReport ∧
    s.checkWorn.background = s.background ∧ s.checkWorn.drain = s.drain ∧ s.checkWorn.health = s.health ∧
    s.checkWorn.medium = s.medium ∧ s.checkWorn.choices = s.choices := by
  unfold State.checkWorn
  (try dsimp only)
  (repeat' split) <;> first | (simp; done) | (simp_all; done)

@[simp] theorem State.addSequenceReason_frame (s : State) :
    s.addSequenceReason.pending = s.pending ∧ s.addSequenceReason.power = s.power ∧
    s.addSequenceReason.pfw = s.pfw ∧ s.addSequenceReason.window = s.window ∧
    s.addSequenceReason.port = s.port ∧ s.addSequenceReason.causes = s.causes ∧
    s.addSequenceReason.idle = s.idle ∧ s.addSequenceReason.staging = s.staging ∧
    s.addSequenceReason.index = s.index ∧ s.addSequenceReason.space.present = s.space.present ∧
    s.addSequenceReason.space.segments = s.space.segments ∧
    s.addSequenceReason.space.freeList = s.space.freeList ∧
    s.addSequenceReason.space.openCounter = s.space.openCounter ∧
    s.addSequenceReason.space.range = s.space.range ∧ s.addSequenceReason.space.state = s.space.state ∧
    s.addSequenceReason.commit = s.commit ∧ s.addSequenceReason.reclaim = s.reclaim ∧
    s.addSequenceReason.sequencer = s.sequencer ∧ s.addSequenceReason.mount = s.mount ∧
    s.addSequenceReason.mountReport = s.mountReport ∧ s.addSequenceReason.background = s.background ∧
    s.addSequenceReason.drain = s.drain ∧ s.addSequenceReason.health = s.health ∧
    s.addSequenceReason.medium = s.medium ∧ s.addSequenceReason.choices = s.choices := by
  unfold State.addSequenceReason
  (try dsimp only)
  (repeat' split) <;> first | (simp; done) | (simp_all; done)

@[simp] theorem State.takeNumbers_frame (s : State) (k : Nat) :
    (s.takeNumbers k).2.pending = s.pending ∧ (s.takeNumbers k).2.power = s.power ∧
    (s.takeNumbers k).2.pfw = s.pfw ∧ (s.takeNumbers k).2.window = s.window ∧
    (s.takeNumbers k).2.port = s.port ∧ (s.takeNumbers k).2.causes = s.causes ∧
    (s.takeNumbers k).2.idle = s.idle ∧ (s.takeNumbers k).2.staging = s.staging ∧
    (s.takeNumbers k).2.index.entries = s.index.entries ∧
    (s.takeNumbers k).2.index.reservations = s.index.reservations ∧
    (s.takeNumbers k).2.space.present = s.space.present ∧
    (s.takeNumbers k).2.space.segments = s.space.segments ∧
    (s.takeNumbers k).2.space.freeList = s.space.freeList ∧
    (s.takeNumbers k).2.space.openCounter = s.space.openCounter ∧
    (s.takeNumbers k).2.space.range = s.space.range ∧ (s.takeNumbers k).2.space.state = s.space.state ∧
    (s.takeNumbers k).2.commit = s.commit ∧ (s.takeNumbers k).2.reclaim = s.reclaim ∧
    (s.takeNumbers k).2.sequencer = s.sequencer ∧ (s.takeNumbers k).2.mount = s.mount ∧
    (s.takeNumbers k).2.mountReport = s.mountReport ∧ (s.takeNumbers k).2.background = s.background ∧
    (s.takeNumbers k).2.drain = s.drain ∧ (s.takeNumbers k).2.health = s.health ∧
    (s.takeNumbers k).2.medium = s.medium ∧ (s.takeNumbers k).2.choices = s.choices := by
  unfold State.takeNumbers
  (try dsimp only)
  (repeat' split) <;> first | (simp; done) | (simp_all; done)

theorem State.takeNumbers_frame' {s : State} {k : Nat} {a : Option Nat} {t : State}
    (h : s.takeNumbers k = (a, t)) :
    t.pending = s.pending ∧ t.power = s.power ∧ t.pfw = s.pfw ∧ t.window = s.window ∧ t.port = s.port ∧
    t.causes = s.causes ∧ t.idle = s.idle ∧ t.staging = s.staging ∧ t.index.entries = s.index.entries ∧
    t.index.reservations = s.index.reservations ∧ t.space.present = s.space.present ∧
    t.space.segments = s.space.segments ∧ t.space.freeList = s.space.freeList ∧
    t.space.openCounter = s.space.openCounter ∧ t.space.range = s.space.range ∧
    t.space.state = s.space.state ∧ t.commit = s.commit ∧ t.reclaim = s.reclaim ∧
    t.sequencer = s.sequencer ∧ t.mount = s.mount ∧ t.mountReport = s.mountReport ∧
    t.background = s.background ∧ t.drain = s.drain ∧ t.health = s.health ∧ t.medium = s.medium ∧
    t.choices = s.choices := by
  have H := State.takeNumbers_frame s k
  rw [h] at H
  exact H

@[simp] theorem State.closeOpen_frame (s : State) :
    s.closeOpen.pending = s.pending ∧ s.closeOpen.power = s.power ∧ s.closeOpen.pfw = s.pfw ∧
    s.closeOpen.window = s.window ∧ s.closeOpen.port = s.port ∧ s.closeOpen.causes = s.causes ∧
    s.closeOpen.idle = s.idle ∧ s.closeOpen.staging = s.staging ∧ s.closeOpen.index = s.index ∧
    s.closeOpen.space.present = s.space.present ∧ s.closeOpen.space.freeList = s.space.freeList ∧
    s.closeOpen.space.openCounter = s.space.openCounter ∧ s.closeOpen.space.range = s.space.range ∧
    s.closeOpen.space.state = s.space.state ∧ s.closeOpen.space.reasons = s.space.reasons ∧
    s.closeOpen.commit = s.commit ∧ s.closeOpen.reclaim = s.reclaim ∧ s.closeOpen.sequencer = s.sequencer ∧
    s.closeOpen.mount = s.mount ∧ s.closeOpen.mountReport = s.mountReport ∧
    s.closeOpen.background = s.background ∧ s.closeOpen.drain = s.drain ∧ s.closeOpen.health = s.health ∧
    s.closeOpen.medium = s.medium ∧ s.closeOpen.choices = s.choices := by
  unfold State.closeOpen
  (try dsimp only)
  (repeat' split) <;> first | (simp; done) | (simp_all; done)

@[simp] theorem State.openHead_frame (s : State) (h : Nat) (rest : List Nat) :
    (s.openHead h rest).pending = s.pending ∧ (s.openHead h rest).power = s.power ∧
    (s.openHead h rest).pfw = s.pfw ∧ (s.openHead h rest).window = s.window ∧
    (s.openHead h rest).port = s.port ∧ (s.openHead h rest).causes = s.causes ∧
    (s.openHead h rest).idle = s.idle ∧ (s.openHead h rest).staging = s.staging ∧
    (s.openHead h rest).index = s.index ∧ (s.openHead h rest).space.present = s.space.present ∧
    (s.openHead h rest).space.range = s.space.range ∧ (s.openHead h rest).space.state = s.space.state ∧
    (s.openHead h rest).space.reasons = s.space.reasons ∧ (s.openHead h rest).commit = s.commit ∧
    (s.openHead h rest).reclaim.job = s.reclaim.job ∧
    (s.openHead h rest).reclaim.refreshList = s.reclaim.refreshList ∧
    (s.openHead h rest).sequencer.inFlight = s.sequencer.inFlight ∧
    (s.openHead h rest).sequencer.fairness = s.sequencer.fairness ∧
    (s.openHead h rest).sequencer.pin = s.sequencer.pin ∧ (s.openHead h rest).mount = s.mount ∧
    (s.openHead h rest).mountReport = s.mountReport ∧ (s.openHead h rest).background = s.background ∧
    (s.openHead h rest).drain = s.drain ∧ (s.openHead h rest).health = s.health ∧
    (s.openHead h rest).medium = s.medium ∧ (s.openHead h rest).choices = s.choices := by
  unfold State.openHead
  (try dsimp only)
  (repeat' split) <;> first | (simp; done) | (simp_all; done)

theorem State.claimInOpen_frame {s : State} {k low g p : Nat} {t : State} (h : s.claimInOpen k low = some (g, p, t)) :
    t.pending = s.pending ∧ t.power = s.power ∧ t.pfw = s.pfw ∧ t.window = s.window ∧ t.port = s.port ∧
    t.causes = s.causes ∧ t.idle = s.idle ∧ t.staging = s.staging ∧ t.index = s.index ∧
    t.space.present = s.space.present ∧ t.space.freeList = s.space.freeList ∧
    t.space.openCounter = s.space.openCounter ∧ t.space.range = s.space.range ∧
    t.space.state = s.space.state ∧ t.space.reasons = s.space.reasons ∧ t.commit = s.commit ∧
    t.reclaim = s.reclaim ∧ t.sequencer = s.sequencer ∧ t.mount = s.mount ∧ t.mountReport = s.mountReport ∧
    t.background = s.background ∧ t.drain = s.drain ∧ t.health = s.health ∧ t.medium = s.medium ∧
    t.choices = s.choices := by
  unfold State.claimInOpen at h
  repeat' split at h
  all_goals simp at h
  obtain ⟨_, _, rfl⟩ := h
  simp

@[simp] theorem State.claimPages_frame (s : State) (claim : Claim) (k : Nat) (low : Nat) :
    (s.claimPages claim k low).2.pending = s.pending ∧ (s.claimPages claim k low).2.power = s.power ∧
    (s.claimPages claim k low).2.pfw = s.pfw ∧ (s.claimPages claim k low).2.window = s.window ∧
    (s.claimPages claim k low).2.port = s.port ∧ (s.claimPages claim k low).2.causes = s.causes ∧
    (s.claimPages claim k low).2.idle = s.idle ∧ (s.claimPages claim k low).2.staging = s.staging ∧
    (s.claimPages claim k low).2.index = s.index ∧
    (s.claimPages claim k low).2.space.present = s.space.present ∧
    (s.claimPages claim k low).2.space.range = s.space.range ∧
    (s.claimPages claim k low).2.space.state = s.space.state ∧
    (s.claimPages claim k low).2.space.reasons = s.space.reasons ∧
    (s.claimPages claim k low).2.commit = s.commit ∧ (s.claimPages claim k low).2.mount = s.mount ∧
    (s.claimPages claim k low).2.mountReport = s.mountReport ∧
    (s.claimPages claim k low).2.background = s.background ∧ (s.claimPages claim k low).2.drain = s.drain ∧
    (s.claimPages claim k low).2.health = s.health ∧ (s.claimPages claim k low).2.medium = s.medium ∧
    (s.claimPages claim k low).2.choices = s.choices := by
  unfold State.claimPages
  (try dsimp only)
  (repeat' split) <;> first | (simp; done) | (simp_all; done) | (rename_i h; have H := State.claimInOpen_frame h; simp [H]; done)

theorem State.claimPages_frame' {s : State} {claim : Claim} {k : Nat} {low : Nat} {a : ClaimAnswer} {t : State}
    (h : s.claimPages claim k low = (a, t)) :
    t.pending = s.pending ∧ t.power = s.power ∧ t.pfw = s.pfw ∧ t.window = s.window ∧ t.port = s.port ∧
    t.causes = s.causes ∧ t.idle = s.idle ∧ t.staging = s.staging ∧ t.index = s.index ∧
    t.space.present = s.space.present ∧ t.space.range = s.space.range ∧ t.space.state = s.space.state ∧
    t.space.reasons = s.space.reasons ∧ t.commit = s.commit ∧ t.mount = s.mount ∧
    t.mountReport = s.mountReport ∧ t.background = s.background ∧ t.drain = s.drain ∧ t.health = s.health ∧
    t.medium = s.medium ∧ t.choices = s.choices := by
  have H := State.claimPages_frame s claim k low
  rw [h] at H
  exact H

@[simp] theorem State.closeRange_frame (s : State) :
    s.closeRange.pending = s.pending ∧ s.closeRange.power = s.power ∧ s.closeRange.pfw = s.pfw ∧
    s.closeRange.window = s.window ∧ s.closeRange.port = s.port ∧ s.closeRange.causes = s.causes ∧
    s.closeRange.idle = s.idle ∧ s.closeRange.staging = s.staging ∧ s.closeRange.index = s.index ∧
    s.closeRange.space.present = s.space.present ∧ s.closeRange.space.segments = s.space.segments ∧
    s.closeRange.space.freeList = s.space.freeList ∧ s.closeRange.space.openCounter = s.space.openCounter ∧
    s.closeRange.space.state = s.space.state ∧ s.closeRange.space.reasons = s.space.reasons ∧
    s.closeRange.commit = s.commit ∧ s.closeRange.reclaim = s.reclaim ∧
    s.closeRange.sequencer = s.sequencer ∧ s.closeRange.mount = s.mount ∧
    s.closeRange.mountReport = s.mountReport ∧ s.closeRange.background = s.background ∧
    s.closeRange.drain = s.drain ∧ s.closeRange.health = s.health ∧ s.closeRange.medium = s.medium ∧
    s.closeRange.choices = s.choices := by
  unfold State.closeRange
  (try dsimp only)
  (repeat' split) <;> first | (simp; done) | (simp_all; done)

@[simp] theorem State.countProgramEnd_frame (s : State) (outcome : Failure) :
    (s.countProgramEnd outcome).pending = s.pending ∧ (s.countProgramEnd outcome).power = s.power ∧
    (s.countProgramEnd outcome).pfw = s.pfw ∧ (s.countProgramEnd outcome).window = s.window ∧
    (s.countProgramEnd outcome).port = s.port ∧ (s.countProgramEnd outcome).causes = s.causes ∧
    (s.countProgramEnd outcome).idle = s.idle ∧ (s.countProgramEnd outcome).staging = s.staging ∧
    (s.countProgramEnd outcome).index = s.index ∧ (s.countProgramEnd outcome).space = s.space ∧
    (s.countProgramEnd outcome).commit = s.commit ∧ (s.countProgramEnd outcome).reclaim = s.reclaim ∧
    (s.countProgramEnd outcome).sequencer = s.sequencer ∧ (s.countProgramEnd outcome).mount = s.mount ∧
    (s.countProgramEnd outcome).mountReport = s.mountReport ∧
    (s.countProgramEnd outcome).background = s.background ∧ (s.countProgramEnd outcome).drain = s.drain ∧
    (s.countProgramEnd outcome).health.conditions = s.health.conditions ∧
    (s.countProgramEnd outcome).medium = s.medium ∧ (s.countProgramEnd outcome).choices = s.choices := by
  unfold State.countProgramEnd
  (try dsimp only)
  (repeat' split) <;> first | (simp; done) | (simp_all; done)

@[simp] theorem State.countEraseEnd_frame (s : State) (outcome : Failure) :
    (s.countEraseEnd outcome).pending = s.pending ∧ (s.countEraseEnd outcome).power = s.power ∧
    (s.countEraseEnd outcome).pfw = s.pfw ∧ (s.countEraseEnd outcome).window = s.window ∧
    (s.countEraseEnd outcome).port = s.port ∧ (s.countEraseEnd outcome).causes = s.causes ∧
    (s.countEraseEnd outcome).idle = s.idle ∧ (s.countEraseEnd outcome).staging = s.staging ∧
    (s.countEraseEnd outcome).index = s.index ∧ (s.countEraseEnd outcome).space = s.space ∧
    (s.countEraseEnd outcome).commit = s.commit ∧ (s.countEraseEnd outcome).reclaim = s.reclaim ∧
    (s.countEraseEnd outcome).sequencer = s.sequencer ∧ (s.countEraseEnd outcome).mount = s.mount ∧
    (s.countEraseEnd outcome).mountReport = s.mountReport ∧
    (s.countEraseEnd outcome).background = s.background ∧ (s.countEraseEnd outcome).drain = s.drain ∧
    (s.countEraseEnd outcome).health.conditions = s.health.conditions ∧
    (s.countEraseEnd outcome).medium = s.medium ∧ (s.countEraseEnd outcome).choices = s.choices := by
  unfold State.countEraseEnd
  (try dsimp only)
  (repeat' split) <;> first | (simp; done) | (simp_all; done)

@[simp] theorem State.reportProgramFailure_frame (s : State) (segment : Nat) (k : Nat) (failure : Failure) :
    (s.reportProgramFailure segment k failure).pending = s.pending ∧
    (s.reportProgramFailure segment k failure).power = s.power ∧
    (s.reportProgramFailure segment k failure).pfw = s.pfw ∧
    (s.reportProgramFailure segment k failure).window = s.window ∧
    (s.reportProgramFailure segment k failure).port = s.port ∧
    (s.reportProgramFailure segment k failure).causes = s.causes ∧
    (s.reportProgramFailure segment k failure).idle = s.idle ∧
    (s.reportProgramFailure segment k failure).staging = s.staging ∧
    (s.reportProgramFailure segment k failure).index = s.index ∧
    (s.reportProgramFailure segment k failure).space.present = s.space.present ∧
    (s.reportProgramFailure segment k failure).space.freeList = s.space.freeList ∧
    (s.reportProgramFailure segment k failure).space.openCounter = s.space.openCounter ∧
    (s.reportProgramFailure segment k failure).space.range = s.space.range ∧
    (s.reportProgramFailure segment k failure).space.state = s.space.state ∧
    (s.reportProgramFailure segment k failure).space.reasons = s.space.reasons ∧
    (s.reportProgramFailure segment k failure).commit = s.commit ∧
    (s.reportProgramFailure segment k failure).reclaim = s.reclaim ∧
    (s.reportProgramFailure segment k failure).sequencer = s.sequencer ∧
    (s.reportProgramFailure segment k failure).mount = s.mount ∧
    (s.reportProgramFailure segment k failure).mountReport = s.mountReport ∧
    (s.reportProgramFailure segment k failure).background = s.background ∧
    (s.reportProgramFailure segment k failure).drain = s.drain ∧
    (s.reportProgramFailure segment k failure).health.conditions = s.health.conditions ∧
    (s.reportProgramFailure segment k failure).medium = s.medium ∧
    (s.reportProgramFailure segment k failure).choices = s.choices := by
  unfold State.reportProgramFailure
  (try dsimp only)
  (repeat' split) <;> first | (simp; done) | (simp_all; done)

@[simp] theorem State.completeRetirement_frame (s : State) (segment : Nat) (reason : RetireReason) (mark : RetireMark) :
    (s.completeRetirement segment reason mark).pending = s.pending ∧
    (s.completeRetirement segment reason mark).power = s.power ∧
    (s.completeRetirement segment reason mark).pfw = s.pfw ∧
    (s.completeRetirement segment reason mark).window = s.window ∧
    (s.completeRetirement segment reason mark).port = s.port ∧
    (s.completeRetirement segment reason mark).causes = s.causes ∧
    (s.completeRetirement segment reason mark).idle = s.idle ∧
    (s.completeRetirement segment reason mark).staging = s.staging ∧
    (s.completeRetirement segment reason mark).index = s.index ∧
    (s.completeRetirement segment reason mark).space.present = s.space.present ∧
    (s.completeRetirement segment reason mark).space.freeList = s.space.freeList ∧
    (s.completeRetirement segment reason mark).space.openCounter = s.space.openCounter ∧
    (s.completeRetirement segment reason mark).space.range = s.space.range ∧
    (s.completeRetirement segment reason mark).space.state = s.space.state ∧
    (s.completeRetirement segment reason mark).commit = s.commit ∧
    (s.completeRetirement segment reason mark).reclaim = s.reclaim ∧
    (s.completeRetirement segment reason mark).sequencer = s.sequencer ∧
    (s.completeRetirement segment reason mark).mount = s.mount ∧
    (s.completeRetirement segment reason mark).mountReport = s.mountReport ∧
    (s.completeRetirement segment reason mark).background = s.background ∧
    (s.completeRetirement segment reason mark).drain = s.drain ∧
    (s.completeRetirement segment reason mark).health = s.health ∧
    (s.completeRetirement segment reason mark).medium = s.medium ∧
    (s.completeRetirement segment reason mark).choices = s.choices := by
  unfold State.completeRetirement
  (try dsimp only)
  (repeat' split) <;> first | (simp; done) | (simp_all; done)

@[simp] theorem State.retiredProgramEnd_frame (s : State) (segment : Nat) (reason : RetireReason) (outcome : MediumEnd) :
    (s.retiredProgramEnd segment reason outcome).pending = s.pending ∧
    (s.retiredProgramEnd segment reason outcome).power = s.power ∧
    (s.retiredProgramEnd segment reason outcome).pfw = s.pfw ∧
    (s.retiredProgramEnd segment reason outcome).window = s.window ∧
    (s.retiredProgramEnd segment reason outcome).port = s.port ∧
    (s.retiredProgramEnd segment reason outcome).causes = s.causes ∧
    (s.retiredProgramEnd segment reason outcome).idle = s.idle ∧
    (s.retiredProgramEnd segment reason outcome).staging = s.staging ∧
    (s.retiredProgramEnd segment reason outcome).index = s.index ∧
    (s.retiredProgramEnd segment reason outcome).space.present = s.space.present ∧
    (s.retiredProgramEnd segment reason outcome).space.freeList = s.space.freeList ∧
    (s.retiredProgramEnd segment reason outcome).space.openCounter = s.space.openCounter ∧
    (s.retiredProgramEnd segment reason outcome).space.range = s.space.range ∧
    (s.retiredProgramEnd segment reason outcome).space.state = s.space.state ∧
    (s.retiredProgramEnd segment reason outcome).commit = s.commit ∧
    (s.retiredProgramEnd segment reason outcome).reclaim = s.reclaim ∧
    (s.retiredProgramEnd segment reason outcome).sequencer = s.sequencer ∧
    (s.retiredProgramEnd segment reason outcome).mount = s.mount ∧
    (s.retiredProgramEnd segment reason outcome).mountReport = s.mountReport ∧
    (s.retiredProgramEnd segment reason outcome).background = s.background ∧
    (s.retiredProgramEnd segment reason outcome).drain = s.drain ∧
    (s.retiredProgramEnd segment reason outcome).health.conditions = s.health.conditions ∧
    (s.retiredProgramEnd segment reason outcome).medium = s.medium ∧
    (s.retiredProgramEnd segment reason outcome).choices = s.choices := by
  unfold State.retiredProgramEnd
  (try dsimp only)
  (repeat' split) <;> first | (simp; done) | (simp_all; done)

@[simp] theorem State.raiseErase_frame (s : State) (segment : Nat) :
    (s.raiseErase segment).pending = s.pending ∧ (s.raiseErase segment).power = s.power ∧
    (s.raiseErase segment).pfw = s.pfw ∧ (s.raiseErase segment).window = s.window ∧
    (s.raiseErase segment).port = s.port ∧ (s.raiseErase segment).causes = s.causes ∧
    (s.raiseErase segment).idle = s.idle ∧ (s.raiseErase segment).staging = s.staging ∧
    (s.raiseErase segment).index = s.index ∧ (s.raiseErase segment).space.present = s.space.present ∧
    (s.raiseErase segment).space.freeList = s.space.freeList ∧
    (s.raiseErase segment).space.openCounter = s.space.openCounter ∧
    (s.raiseErase segment).space.range = s.space.range ∧
    (s.raiseErase segment).space.state = s.space.state ∧
    (s.raiseErase segment).space.reasons = s.space.reasons ∧ (s.raiseErase segment).commit = s.commit ∧
    (s.raiseErase segment).reclaim = s.reclaim ∧ (s.raiseErase segment).sequencer = s.sequencer ∧
    (s.raiseErase segment).mount = s.mount ∧ (s.raiseErase segment).mountReport = s.mountReport ∧
    (s.raiseErase segment).background = s.background ∧ (s.raiseErase segment).drain = s.drain ∧
    (s.raiseErase segment).health = s.health ∧ (s.raiseErase segment).medium = s.medium ∧
    (s.raiseErase segment).choices = s.choices := by
  unfold State.raiseErase
  (try dsimp only)
  (repeat' split) <;> first | (simp; done) | (simp_all; done)

@[simp] theorem State.eraseEnd_frame (s : State) (segment : Nat) (outcome : MediumEnd) :
    (s.eraseEnd segment outcome).2.pending = s.pending ∧ (s.eraseEnd segment outcome).2.power = s.power ∧
    (s.eraseEnd segment outcome).2.pfw = s.pfw ∧ (s.eraseEnd segment outcome).2.window = s.window ∧
    (s.eraseEnd segment outcome).2.port = s.port ∧ (s.eraseEnd segment outcome).2.causes = s.causes ∧
    (s.eraseEnd segment outcome).2.idle = s.idle ∧ (s.eraseEnd segment outcome).2.staging = s.staging ∧
    (s.eraseEnd segment outcome).2.index = s.index ∧
    (s.eraseEnd segment outcome).2.space.present = s.space.present ∧
    (s.eraseEnd segment outcome).2.space.freeList = s.space.freeList ∧
    (s.eraseEnd segment outcome).2.space.openCounter = s.space.openCounter ∧
    (s.eraseEnd segment outcome).2.space.range = s.space.range ∧
    (s.eraseEnd segment outcome).2.space.state = s.space.state ∧
    (s.eraseEnd segment outcome).2.space.reasons = s.space.reasons ∧
    (s.eraseEnd segment outcome).2.commit = s.commit ∧ (s.eraseEnd segment outcome).2.reclaim = s.reclaim ∧
    (s.eraseEnd segment outcome).2.sequencer = s.sequencer ∧
    (s.eraseEnd segment outcome).2.mount = s.mount ∧
    (s.eraseEnd segment outcome).2.mountReport = s.mountReport ∧
    (s.eraseEnd segment outcome).2.background = s.background ∧
    (s.eraseEnd segment outcome).2.drain = s.drain ∧
    (s.eraseEnd segment outcome).2.health.conditions = s.health.conditions ∧
    (s.eraseEnd segment outcome).2.medium = s.medium ∧ (s.eraseEnd segment outcome).2.choices = s.choices := by
  unfold State.eraseEnd
  (try dsimp only)
  (repeat' split) <;> first | (simp; done) | (simp_all; done)

@[simp] theorem State.formatEnd_frame (s : State) (segment : Nat) (outcome : MediumEnd) :
    (s.formatEnd segment outcome).2.pending = s.pending ∧ (s.formatEnd segment outcome).2.power = s.power ∧
    (s.formatEnd segment outcome).2.pfw = s.pfw ∧ (s.formatEnd segment outcome).2.window = s.window ∧
    (s.formatEnd segment outcome).2.port = s.port ∧ (s.formatEnd segment outcome).2.causes = s.causes ∧
    (s.formatEnd segment outcome).2.idle = s.idle ∧ (s.formatEnd segment outcome).2.staging = s.staging ∧
    (s.formatEnd segment outcome).2.index = s.index ∧
    (s.formatEnd segment outcome).2.space.present = s.space.present ∧
    (s.formatEnd segment outcome).2.space.openCounter = s.space.openCounter ∧
    (s.formatEnd segment outcome).2.space.range = s.space.range ∧
    (s.formatEnd segment outcome).2.space.state = s.space.state ∧
    (s.formatEnd segment outcome).2.space.reasons = s.space.reasons ∧
    (s.formatEnd segment outcome).2.commit = s.commit ∧
    (s.formatEnd segment outcome).2.reclaim.job = s.reclaim.job ∧
    (s.formatEnd segment outcome).2.reclaim.refreshList = s.reclaim.refreshList ∧
    (s.formatEnd segment outcome).2.sequencer.inFlight = s.sequencer.inFlight ∧
    (s.formatEnd segment outcome).2.sequencer.fairness = s.sequencer.fairness ∧
    (s.formatEnd segment outcome).2.sequencer.pin = s.sequencer.pin ∧
    (s.formatEnd segment outcome).2.mount = s.mount ∧
    (s.formatEnd segment outcome).2.mountReport = s.mountReport ∧
    (s.formatEnd segment outcome).2.background = s.background ∧
    (s.formatEnd segment outcome).2.drain = s.drain ∧
    (s.formatEnd segment outcome).2.health.conditions = s.health.conditions ∧
    (s.formatEnd segment outcome).2.medium = s.medium ∧ (s.formatEnd segment outcome).2.choices = s.choices := by
  unfold State.formatEnd
  (try dsimp only)
  (repeat' split) <;> first | (simp; done) | (simp_all; done)

@[simp] theorem State.appendStandalone_frame (s : State) (e : PwlEntry) :
    (s.appendStandalone e).pending = s.pending ∧ (s.appendStandalone e).power = s.power ∧
    (s.appendStandalone e).pfw = s.pfw ∧ (s.appendStandalone e).window = s.window ∧
    (s.appendStandalone e).port = s.port ∧ (s.appendStandalone e).causes = s.causes ∧
    (s.appendStandalone e).idle = s.idle ∧ (s.appendStandalone e).index = s.index ∧
    (s.appendStandalone e).space = s.space ∧ (s.appendStandalone e).commit = s.commit ∧
    (s.appendStandalone e).reclaim = s.reclaim ∧ (s.appendStandalone e).sequencer = s.sequencer ∧
    (s.appendStandalone e).mount = s.mount ∧ (s.appendStandalone e).mountReport = s.mountReport ∧
    (s.appendStandalone e).background = s.background ∧ (s.appendStandalone e).drain = s.drain ∧
    (s.appendStandalone e).health = s.health ∧ (s.appendStandalone e).medium = s.medium ∧
    (s.appendStandalone e).choices = s.choices := by
  unfold State.appendStandalone
  (try dsimp only)
  (repeat' split) <;> first | (simp; done) | (simp_all; done)

@[simp] theorem State.appendWork_frame (s : State) (w : Work) (slots : List Nat) :
    (s.appendWork w slots).pending = s.pending ∧ (s.appendWork w slots).power = s.power ∧
    (s.appendWork w slots).pfw = s.pfw ∧ (s.appendWork w slots).window = s.window ∧
    (s.appendWork w slots).port = s.port ∧ (s.appendWork w slots).causes = s.causes ∧
    (s.appendWork w slots).idle = s.idle ∧ (s.appendWork w slots).index = s.index ∧
    (s.appendWork w slots).space = s.space ∧ (s.appendWork w slots).commit = s.commit ∧
    (s.appendWork w slots).reclaim = s.reclaim ∧ (s.appendWork w slots).sequencer = s.sequencer ∧
    (s.appendWork w slots).mount = s.mount ∧ (s.appendWork w slots).mountReport = s.mountReport ∧
    (s.appendWork w slots).background = s.background ∧ (s.appendWork w slots).drain = s.drain ∧
    (s.appendWork w slots).health = s.health ∧ (s.appendWork w slots).medium = s.medium ∧
    (s.appendWork w slots).choices = s.choices := by
  unfold State.appendWork
  (try dsimp only)
  (repeat' split) <;> first | (simp; done) | (simp_all; done)

@[simp] theorem State.completeAppend_frame (s : State) (w : Work) (slots : List Nat) :
    (s.completeAppend w slots).pending = s.pending ∧ (s.completeAppend w slots).power = s.power ∧
    (s.completeAppend w slots).pfw = s.pfw ∧ (s.completeAppend w slots).window = s.window ∧
    (s.completeAppend w slots).staging.pwl = s.staging.pwl ∧ (s.completeAppend w slots).index = s.index ∧
    (s.completeAppend w slots).space = s.space ∧ (s.completeAppend w slots).commit = s.commit ∧
    (s.completeAppend w slots).reclaim = s.reclaim ∧ (s.completeAppend w slots).sequencer = s.sequencer ∧
    (s.completeAppend w slots).mount = s.mount ∧ (s.completeAppend w slots).mountReport = s.mountReport ∧
    (s.completeAppend w slots).background = s.background ∧ (s.completeAppend w slots).health = s.health ∧
    (s.completeAppend w slots).medium = s.medium ∧ (s.completeAppend w slots).choices = s.choices := by
  unfold State.completeAppend
  (try dsimp only)
  (repeat' split) <;> first | (simp; done) | (simp_all; done)

@[simp] theorem State.enterPayload_frame (s : State) (w : Work) (slots : List Nat) (i : Nat) :
    (s.enterPayload w slots i).pending = s.pending ∧ (s.enterPayload w slots i).power = s.power ∧
    (s.enterPayload w slots i).pfw = s.pfw ∧ (s.enterPayload w slots i).window = s.window ∧
    (s.enterPayload w slots i).port.result = s.port.result ∧
    (s.enterPayload w slots i).port.detail = s.port.detail ∧ (s.enterPayload w slots i).idle = s.idle ∧
    (s.enterPayload w slots i).staging = s.staging ∧ (s.enterPayload w slots i).index = s.index ∧
    (s.enterPayload w slots i).space = s.space ∧ (s.enterPayload w slots i).commit = s.commit ∧
    (s.enterPayload w slots i).reclaim = s.reclaim ∧ (s.enterPayload w slots i).sequencer = s.sequencer ∧
    (s.enterPayload w slots i).mount = s.mount ∧ (s.enterPayload w slots i).mountReport = s.mountReport ∧
    (s.enterPayload w slots i).background = s.background ∧ (s.enterPayload w slots i).drain = s.drain ∧
    (s.enterPayload w slots i).health = s.health ∧ (s.enterPayload w slots i).medium = s.medium ∧
    (s.enterPayload w slots i).choices = s.choices := by
  unfold State.enterPayload
  (try dsimp only)
  (repeat' split) <;> first | (simp; done) | (simp_all; done)

@[simp] theorem State.proceed_frame (s : State) (w : Work) (slots : List Nat) (i : Nat) :
    (s.proceed w slots i).pending = s.pending ∧ (s.proceed w slots i).power = s.power ∧
    (s.proceed w slots i).pfw = s.pfw ∧ (s.proceed w slots i).window = s.window ∧
    (s.proceed w slots i).index = s.index ∧ (s.proceed w slots i).space = s.space ∧
    (s.proceed w slots i).commit = s.commit ∧ (s.proceed w slots i).reclaim = s.reclaim ∧
    (s.proceed w slots i).sequencer = s.sequencer ∧ (s.proceed w slots i).mount = s.mount ∧
    (s.proceed w slots i).mountReport = s.mountReport ∧ (s.proceed w slots i).background = s.background ∧
    (s.proceed w slots i).health = s.health ∧ (s.proceed w slots i).medium = s.medium ∧
    (s.proceed w slots i).choices = s.choices := by
  unfold State.proceed
  (try dsimp only)
  (repeat' split) <;> first | (simp; done) | (simp_all; done)

@[simp] theorem State.reserveAndProceed_frame (s : State) (w : Work) :
    (s.reserveAndProceed w).pending = s.pending ∧ (s.reserveAndProceed w).power = s.power ∧
    (s.reserveAndProceed w).pfw = s.pfw ∧ (s.reserveAndProceed w).window = s.window ∧
    (s.reserveAndProceed w).index = s.index ∧ (s.reserveAndProceed w).space = s.space ∧
    (s.reserveAndProceed w).commit = s.commit ∧ (s.reserveAndProceed w).reclaim = s.reclaim ∧
    (s.reserveAndProceed w).sequencer = s.sequencer ∧ (s.reserveAndProceed w).mount = s.mount ∧
    (s.reserveAndProceed w).mountReport = s.mountReport ∧
    (s.reserveAndProceed w).background = s.background ∧ (s.reserveAndProceed w).health = s.health ∧
    (s.reserveAndProceed w).medium = s.medium ∧ (s.reserveAndProceed w).choices = s.choices := by
  unfold State.reserveAndProceed
  (try dsimp only)
  (repeat' split) <;> first | (simp; done) | (simp_all; done)

@[simp] theorem State.enterReserve_frame (s : State) (w : Work) :
    (s.enterReserve w).pending = s.pending ∧ (s.enterReserve w).power = s.power ∧
    (s.enterReserve w).pfw = s.pfw ∧ (s.enterReserve w).window = s.window ∧
    (s.enterReserve w).index = s.index ∧ (s.enterReserve w).space = s.space ∧
    (s.enterReserve w).commit = s.commit ∧ (s.enterReserve w).reclaim = s.reclaim ∧
    (s.enterReserve w).sequencer = s.sequencer ∧ (s.enterReserve w).mount = s.mount ∧
    (s.enterReserve w).mountReport = s.mountReport ∧ (s.enterReserve w).background = s.background ∧
    (s.enterReserve w).health = s.health ∧ (s.enterReserve w).medium = s.medium ∧
    (s.enterReserve w).choices = s.choices := by
  unfold State.enterReserve
  (try dsimp only)
  (repeat' split) <;> first | (simp; done) | (simp_all; done)

theorem slotWaitEnd_frame {s : State} {t : State} (h : slotWaitEnd s = some t) :
    t.pending = s.pending ∧ t.power = s.power ∧ t.pfw = s.pfw ∧ t.window = s.window ∧ t.index = s.index ∧
    t.space = s.space ∧ t.commit = s.commit ∧ t.reclaim = s.reclaim ∧ t.sequencer = s.sequencer ∧
    t.mount = s.mount ∧ t.mountReport = s.mountReport ∧ t.background = s.background ∧ t.health = s.health ∧
    t.medium = s.medium ∧ t.choices = s.choices := by
  unfold slotWaitEnd at h
  (try dsimp only at h)
  (repeat' split at h) <;> first | (simp at h; done) | (cases h; simp; done) | (cases h; simp_all; done)

@[simp] theorem State.takePayloadWord_frame (s : State) (w : Work) (slots : List Nat) (i : Nat) (word : Word) :
    (s.takePayloadWord w slots i word).pending = s.pending ∧
    (s.takePayloadWord w slots i word).power = s.power ∧ (s.takePayloadWord w slots i word).pfw = s.pfw ∧
    (s.takePayloadWord w slots i word).window = s.window ∧
    (s.takePayloadWord w slots i word).index = s.index ∧
    (s.takePayloadWord w slots i word).space = s.space ∧
    (s.takePayloadWord w slots i word).commit = s.commit ∧
    (s.takePayloadWord w slots i word).reclaim = s.reclaim ∧
    (s.takePayloadWord w slots i word).sequencer = s.sequencer ∧
    (s.takePayloadWord w slots i word).mount = s.mount ∧
    (s.takePayloadWord w slots i word).mountReport = s.mountReport ∧
    (s.takePayloadWord w slots i word).background = s.background ∧
    (s.takePayloadWord w slots i word).health = s.health ∧
    (s.takePayloadWord w slots i word).medium = s.medium ∧
    (s.takePayloadWord w slots i word).choices = s.choices := by
  unfold State.takePayloadWord
  (try dsimp only)
  (repeat' split) <;> first | (simp; done) | (simp_all; done)

theorem writeThroughComplete_frame {s : State} {t : State} (h : writeThroughComplete s = some t) :
    t.pending = s.pending ∧ t.power = s.power ∧ t.pfw = s.pfw ∧ t.window = s.window ∧
    t.staging.pwl = s.staging.pwl ∧ t.index = s.index ∧ t.space = s.space ∧ t.commit = s.commit ∧
    t.reclaim = s.reclaim ∧ t.sequencer = s.sequencer ∧ t.mount = s.mount ∧ t.mountReport = s.mountReport ∧
    t.background = s.background ∧ t.health = s.health ∧ t.medium = s.medium ∧ t.choices = s.choices := by
  unfold writeThroughComplete at h
  (try dsimp only at h)
  (repeat' split at h) <;> first | (simp at h; done) | (cases h; simp; done) | (cases h; simp_all; done)

theorem syncComplete_frame {s : State} {t : State} (h : syncComplete s = some t) :
    t.pending = s.pending ∧ t.power = s.power ∧ t.pfw = s.pfw ∧ t.window = s.window ∧
    t.staging.pwl = s.staging.pwl ∧ t.index = s.index ∧ t.space = s.space ∧ t.commit = s.commit ∧
    t.reclaim = s.reclaim ∧ t.sequencer = s.sequencer ∧ t.mount = s.mount ∧ t.mountReport = s.mountReport ∧
    t.background = s.background ∧ t.health = s.health ∧ t.medium = s.medium ∧ t.choices = s.choices := by
  unfold syncComplete at h
  (try dsimp only at h)
  (repeat' split at h) <;> first | (simp at h; done) | (cases h; simp; done) | (cases h; simp_all; done)

@[simp] theorem State.endWaits_frame (s : State) (code : ResultCode) :
    (s.endWaits code).pending = s.pending ∧ (s.endWaits code).power = s.power ∧
    (s.endWaits code).pfw = s.pfw ∧ (s.endWaits code).window = s.window ∧
    (s.endWaits code).staging.pwl = s.staging.pwl ∧ (s.endWaits code).index = s.index ∧
    (s.endWaits code).space = s.space ∧ (s.endWaits code).commit = s.commit ∧
    (s.endWaits code).reclaim = s.reclaim ∧ (s.endWaits code).sequencer = s.sequencer ∧
    (s.endWaits code).mount = s.mount ∧ (s.endWaits code).mountReport = s.mountReport ∧
    (s.endWaits code).background = s.background ∧ (s.endWaits code).health = s.health ∧
    (s.endWaits code).medium = s.medium ∧ (s.endWaits code).choices = s.choices := by
  unfold State.endWaits
  (try dsimp only)
  (repeat' split) <;> first | (simp; done) | (simp_all; done)

@[simp] theorem State.refreshReservations_frame (s : State) :
    s.refreshReservations.pending = s.pending ∧ s.refreshReservations.power = s.power ∧
    s.refreshReservations.pfw = s.pfw ∧ s.refreshReservations.window = s.window ∧
    s.refreshReservations.port = s.port ∧ s.refreshReservations.causes = s.causes ∧
    s.refreshReservations.idle = s.idle ∧ s.refreshReservations.staging = s.staging ∧
    s.refreshReservations.index.entries = s.index.entries ∧
    s.refreshReservations.index.nextSequence = s.index.nextSequence ∧
    s.refreshReservations.space = s.space ∧ s.refreshReservations.commit = s.commit ∧
    s.refreshReservations.reclaim = s.reclaim ∧ s.refreshReservations.sequencer = s.sequencer ∧
    s.refreshReservations.mount = s.mount ∧ s.refreshReservations.mountReport = s.mountReport ∧
    s.refreshReservations.background = s.background ∧ s.refreshReservations.drain = s.drain ∧
    s.refreshReservations.health = s.health ∧ s.refreshReservations.medium = s.medium ∧
    s.refreshReservations.choices = s.choices := by
  unfold State.refreshReservations
  (try dsimp only)
  (repeat' split) <;> first | (simp; done) | (simp_all; done)

@[simp] theorem State.enterHalt_frame (s : State) (reason : HaltReason) :
    (s.enterHalt reason).pending = s.pending ∧ (s.enterHalt reason).power = s.power ∧
    (s.enterHalt reason).pfw = s.pfw ∧ (s.enterHalt reason).window = s.window ∧
    (s.enterHalt reason).index = s.index ∧ (s.enterHalt reason).space = s.space ∧
    (s.enterHalt reason).reclaim = s.reclaim ∧
    (s.enterHalt reason).sequencer.inFlight = s.sequencer.inFlight ∧
    (s.enterHalt reason).sequencer.fairness = s.sequencer.fairness ∧
    (s.enterHalt reason).sequencer.pin = s.sequencer.pin ∧ (s.enterHalt reason).mount = s.mount ∧
    (s.enterHalt reason).mountReport = s.mountReport ∧ (s.enterHalt reason).background = s.background ∧
    (s.enterHalt reason).health = s.health ∧ (s.enterHalt reason).medium = s.medium ∧
    (s.enterHalt reason).choices = s.choices := by
  unfold State.enterHalt
  (try dsimp only)
  (repeat' split) <;> first | (simp; done) | (simp_all; done)

@[simp] theorem State.holdNumbers_frame (s : State) (k : Nat) (prior : Nat) :
    (s.holdNumbers k prior).pending = s.pending ∧ (s.holdNumbers k prior).power = s.power ∧
    (s.holdNumbers k prior).pfw = s.pfw ∧ (s.holdNumbers k prior).window = s.window ∧
    (s.holdNumbers k prior).index.entries = s.index.entries ∧
    (s.holdNumbers k prior).index.reservations = s.index.reservations ∧
    (s.holdNumbers k prior).space.present = s.space.present ∧
    (s.holdNumbers k prior).space.segments = s.space.segments ∧
    (s.holdNumbers k prior).space.freeList = s.space.freeList ∧
    (s.holdNumbers k prior).space.openCounter = s.space.openCounter ∧
    (s.holdNumbers k prior).space.range = s.space.range ∧
    (s.holdNumbers k prior).space.state = s.space.state ∧ (s.holdNumbers k prior).reclaim = s.reclaim ∧
    (s.holdNumbers k prior).sequencer.inFlight = s.sequencer.inFlight ∧
    (s.holdNumbers k prior).sequencer.fairness = s.sequencer.fairness ∧
    (s.holdNumbers k prior).sequencer.pin = s.sequencer.pin ∧ (s.holdNumbers k prior).mount = s.mount ∧
    (s.holdNumbers k prior).mountReport = s.mountReport ∧
    (s.holdNumbers k prior).background = s.background ∧ (s.holdNumbers k prior).health = s.health ∧
    (s.holdNumbers k prior).medium = s.medium ∧ (s.holdNumbers k prior).choices = s.choices := by
  unfold State.holdNumbers
  (try dsimp only)
  (repeat' split) <;> first | (simp; done) | (simp_all; done) | (rename_i h; have H := State.takeNumbers_frame' h; simp_all; done) | (rename_i h _; have H := State.takeNumbers_frame' h; simp_all; done) | (rename_i h _ _; have H := State.takeNumbers_frame' h; simp_all; done) | (rename_i h _ _ _; have H := State.takeNumbers_frame' h; simp_all; done) | (rename_i h _ _ _ _; have H := State.takeNumbers_frame' h; simp_all; done)

@[simp] theorem State.discardDelete_frame (s : State) (e : PwlEntry) :
    (s.discardDelete e).pending = s.pending ∧ (s.discardDelete e).power = s.power ∧
    (s.discardDelete e).pfw = s.pfw ∧ (s.discardDelete e).window = s.window ∧
    (s.discardDelete e).port = s.port ∧ (s.discardDelete e).causes = s.causes ∧
    (s.discardDelete e).idle.qualified = s.idle.qualified ∧ (s.discardDelete e).index = s.index ∧
    (s.discardDelete e).space = s.space ∧ (s.discardDelete e).reclaim = s.reclaim ∧
    (s.discardDelete e).sequencer = s.sequencer ∧ (s.discardDelete e).mount = s.mount ∧
    (s.discardDelete e).mountReport = s.mountReport ∧ (s.discardDelete e).background = s.background ∧
    (s.discardDelete e).drain = s.drain ∧ (s.discardDelete e).health = s.health ∧
    (s.discardDelete e).medium = s.medium ∧ (s.discardDelete e).choices = s.choices := by
  unfold State.discardDelete
  (try dsimp only)
  (repeat' split) <;> first | (simp; done) | (simp_all; done)

@[simp] theorem State.beginUnit_frame (s : State) :
    s.beginUnit.pending = s.pending ∧ s.beginUnit.power = s.power ∧ s.beginUnit.pfw = s.pfw ∧
    s.beginUnit.window = s.window ∧ s.beginUnit.index.entries = s.index.entries ∧
    s.beginUnit.index.reservations = s.index.reservations ∧ s.beginUnit.space.present = s.space.present ∧
    s.beginUnit.space.segments = s.space.segments ∧ s.beginUnit.space.freeList = s.space.freeList ∧
    s.beginUnit.space.openCounter = s.space.openCounter ∧ s.beginUnit.space.range = s.space.range ∧
    s.beginUnit.space.state = s.space.state ∧ s.beginUnit.reclaim = s.reclaim ∧
    s.beginUnit.sequencer.inFlight = s.sequencer.inFlight ∧
    s.beginUnit.sequencer.fairness = s.sequencer.fairness ∧ s.beginUnit.sequencer.pin = s.sequencer.pin ∧
    s.beginUnit.mount = s.mount ∧ s.beginUnit.mountReport = s.mountReport ∧
    s.beginUnit.background = s.background ∧ s.beginUnit.health = s.health ∧ s.beginUnit.medium = s.medium ∧
    s.beginUnit.choices = s.choices := by
  unfold State.beginUnit
  (try dsimp only)
  (repeat' split) <;> first | (simp; done) | (simp_all; done)

theorem commitNext_frame {s : State} {t : State} (h : commitNext s = some t) :
    t.pending = s.pending ∧ t.power = s.power ∧ t.pfw = s.pfw ∧ t.window = s.window ∧
    t.index.entries = s.index.entries ∧ t.index.reservations = s.index.reservations ∧
    t.space.present = s.space.present ∧ t.space.segments = s.space.segments ∧
    t.space.freeList = s.space.freeList ∧ t.space.openCounter = s.space.openCounter ∧
    t.space.range = s.space.range ∧ t.space.state = s.space.state ∧ t.reclaim = s.reclaim ∧
    t.sequencer.inFlight = s.sequencer.inFlight ∧ t.sequencer.fairness = s.sequencer.fairness ∧
    t.sequencer.pin = s.sequencer.pin ∧ t.mount = s.mount ∧ t.mountReport = s.mountReport ∧
    t.background = s.background ∧ t.health = s.health ∧ t.medium = s.medium ∧ t.choices = s.choices := by
  unfold commitNext at h
  (try dsimp only at h)
  (repeat' split at h) <;> first | (simp at h; done) | (cases h; simp; done) | (cases h; simp_all; done)

theorem commitBegin_frame {s : State} {t : State} (h : commitBegin s = some t) :
    t.pending = s.pending ∧ t.power = s.power ∧ t.pfw = s.pfw ∧ t.window = s.window ∧
    t.index.entries = s.index.entries ∧ t.index.reservations = s.index.reservations ∧
    t.space.present = s.space.present ∧ t.space.segments = s.space.segments ∧
    t.space.freeList = s.space.freeList ∧ t.space.openCounter = s.space.openCounter ∧
    t.space.range = s.space.range ∧ t.space.state = s.space.state ∧ t.reclaim = s.reclaim ∧
    t.sequencer.inFlight = s.sequencer.inFlight ∧ t.sequencer.fairness = s.sequencer.fairness ∧
    t.sequencer.pin = s.sequencer.pin ∧ t.mount = s.mount ∧ t.mountReport = s.mountReport ∧
    t.background = s.background ∧ t.health = s.health ∧ t.medium = s.medium ∧ t.choices = s.choices := by
  unfold commitBegin at h
  (try dsimp only at h)
  (repeat' split at h) <;> first | (simp at h; done) | (cases h; simp; done) | (cases h; simp_all; done)

theorem commitStart_frame {s : State} {t : State} (h : commitStart s = some t) :
    t.pending = s.pending ∧ t.power = s.power ∧ t.pfw = s.pfw ∧ t.window = s.window ∧
    t.index.entries = s.index.entries ∧ t.index.reservations = s.index.reservations ∧
    t.space.present = s.space.present ∧ t.space.segments = s.space.segments ∧
    t.space.freeList = s.space.freeList ∧ t.space.openCounter = s.space.openCounter ∧
    t.space.range = s.space.range ∧ t.space.state = s.space.state ∧ t.reclaim = s.reclaim ∧
    t.sequencer.inFlight = s.sequencer.inFlight ∧ t.sequencer.fairness = s.sequencer.fairness ∧
    t.sequencer.pin = s.sequencer.pin ∧ t.mount = s.mount ∧ t.mountReport = s.mountReport ∧
    t.background = s.background ∧ t.health = s.health ∧ t.medium = s.medium ∧ t.choices = s.choices := by
  unfold commitStart at h
  split at h
  · exact commitBegin_frame h
  · simp at h

@[simp] theorem State.noteCommitDue_frame (s : State) :
    s.noteCommitDue.pending = s.pending ∧ s.noteCommitDue.power = s.power ∧ s.noteCommitDue.pfw = s.pfw ∧
    s.noteCommitDue.window = s.window ∧ s.noteCommitDue.port = s.port ∧ s.noteCommitDue.causes = s.causes ∧
    s.noteCommitDue.idle = s.idle ∧ s.noteCommitDue.staging = s.staging ∧ s.noteCommitDue.index = s.index ∧
    s.noteCommitDue.space = s.space ∧ s.noteCommitDue.commit = s.commit ∧
    s.noteCommitDue.reclaim = s.reclaim ∧ s.noteCommitDue.sequencer = s.sequencer ∧
    s.noteCommitDue.mount = s.mount ∧ s.noteCommitDue.mountReport = s.mountReport ∧
    s.noteCommitDue.background = s.background ∧ s.noteCommitDue.drain = s.drain ∧
    s.noteCommitDue.health = s.health ∧ s.noteCommitDue.medium = s.medium ∧
    s.noteCommitDue.choices = s.choices := by
  simp [State.noteCommitDue]

@[simp] theorem State.leaveHalt_frame (s : State) :
    s.leaveHalt.pending = s.pending ∧ s.leaveHalt.power = s.power ∧ s.leaveHalt.pfw = s.pfw ∧
    s.leaveHalt.window = s.window ∧ s.leaveHalt.index.entries = s.index.entries ∧
    s.leaveHalt.index.reservations = s.index.reservations ∧ s.leaveHalt.space.present = s.space.present ∧
    s.leaveHalt.space.segments = s.space.segments ∧ s.leaveHalt.space.freeList = s.space.freeList ∧
    s.leaveHalt.space.openCounter = s.space.openCounter ∧ s.leaveHalt.space.range = s.space.range ∧
    s.leaveHalt.space.state = s.space.state ∧ s.leaveHalt.reclaim = s.reclaim ∧
    s.leaveHalt.sequencer.inFlight = s.sequencer.inFlight ∧
    s.leaveHalt.sequencer.fairness = s.sequencer.fairness ∧ s.leaveHalt.sequencer.pin = s.sequencer.pin ∧
    s.leaveHalt.mount = s.mount ∧ s.leaveHalt.mountReport = s.mountReport ∧
    s.leaveHalt.background = s.background ∧ s.leaveHalt.health = s.health ∧ s.leaveHalt.medium = s.medium ∧
    s.leaveHalt.choices = s.choices := by
  unfold State.leaveHalt
  (try dsimp only)
  (repeat' split) <;> first | (simp; done) | (simp_all; done)

theorem commitHaltEnd_frame {s : State} {t : State} (h : commitHaltEnd s = some t) :
    t.pending = s.pending ∧ t.power = s.power ∧ t.pfw = s.pfw ∧ t.window = s.window ∧
    t.index.entries = s.index.entries ∧ t.index.reservations = s.index.reservations ∧
    t.space.present = s.space.present ∧ t.space.segments = s.space.segments ∧
    t.space.freeList = s.space.freeList ∧ t.space.openCounter = s.space.openCounter ∧
    t.space.range = s.space.range ∧ t.space.state = s.space.state ∧ t.reclaim = s.reclaim ∧
    t.sequencer.inFlight = s.sequencer.inFlight ∧ t.sequencer.fairness = s.sequencer.fairness ∧
    t.sequencer.pin = s.sequencer.pin ∧ t.mount = s.mount ∧ t.mountReport = s.mountReport ∧
    t.background = s.background ∧ t.health = s.health ∧ t.medium = s.medium ∧ t.choices = s.choices := by
  unfold commitHaltEnd at h
  (try dsimp only at h)
  (repeat' split at h) <;> first | (simp at h; done) | (cases h; simp; done) | (cases h; simp_all; done)

@[simp] theorem State.commitNoRoom_frame (s : State) :
    s.commitNoRoom.pending = s.pending ∧ s.commitNoRoom.power = s.power ∧ s.commitNoRoom.pfw = s.pfw ∧
    s.commitNoRoom.window = s.window ∧ s.commitNoRoom.index = s.index ∧
    s.commitNoRoom.space.present = s.space.present ∧ s.commitNoRoom.space.segments = s.space.segments ∧
    s.commitNoRoom.space.freeList = s.space.freeList ∧
    s.commitNoRoom.space.openCounter = s.space.openCounter ∧ s.commitNoRoom.space.range = s.space.range ∧
    s.commitNoRoom.space.reasons = s.space.reasons ∧ s.commitNoRoom.reclaim = s.reclaim ∧
    s.commitNoRoom.sequencer.inFlight = s.sequencer.inFlight ∧
    s.commitNoRoom.sequencer.fairness = s.sequencer.fairness ∧
    s.commitNoRoom.sequencer.pin = s.sequencer.pin ∧ s.commitNoRoom.mount = s.mount ∧
    s.commitNoRoom.mountReport = s.mountReport ∧ s.commitNoRoom.background = s.background ∧
    s.commitNoRoom.health = s.health ∧ s.commitNoRoom.medium = s.medium ∧ s.commitNoRoom.choices = s.choices := by
  unfold State.commitNoRoom
  (try dsimp only)
  (repeat' split) <;> first | (simp; done) | (simp_all; done)

@[simp] theorem State.programMember_frame (s : State) (u : CommitUnit) (entries : List PwlEntry) (segment : Nat) (page : Nat) :
    (s.programMember u entries segment page).pending = s.pending ∧
    (s.programMember u entries segment page).power = s.power ∧
    (s.programMember u entries segment page).pfw = s.pfw ∧
    (s.programMember u entries segment page).window = s.window ∧
    (s.programMember u entries segment page).port = s.port ∧
    (s.programMember u entries segment page).causes = s.causes ∧
    (s.programMember u entries segment page).idle = s.idle ∧
    (s.programMember u entries segment page).staging = s.staging ∧
    (s.programMember u entries segment page).index = s.index ∧
    (s.programMember u entries segment page).space = s.space ∧
    (s.programMember u entries segment page).commit = s.commit ∧
    (s.programMember u entries segment page).reclaim = s.reclaim ∧
    (s.programMember u entries segment page).sequencer.requests = s.sequencer.requests ∧
    (s.programMember u entries segment page).sequencer.fairness = s.sequencer.fairness ∧
    (s.programMember u entries segment page).sequencer.pin = s.sequencer.pin ∧
    (s.programMember u entries segment page).mount = s.mount ∧
    (s.programMember u entries segment page).mountReport = s.mountReport ∧
    (s.programMember u entries segment page).background = s.background ∧
    (s.programMember u entries segment page).drain = s.drain ∧
    (s.programMember u entries segment page).health = s.health ∧
    (s.programMember u entries segment page).medium = s.medium ∧
    (s.programMember u entries segment page).choices = s.choices := by
  unfold State.programMember
  (try dsimp only)
  (repeat' split) <;> first | (simp; done) | (simp_all; done)

@[simp] theorem State.grantCommit_frame (s : State) :
    s.grantCommit.pending = s.pending ∧ s.grantCommit.power = s.power ∧ s.grantCommit.pfw = s.pfw ∧
    s.grantCommit.window = s.window ∧ s.grantCommit.index = s.index ∧
    s.grantCommit.space.present = s.space.present ∧ s.grantCommit.space.reasons = s.space.reasons ∧
    s.grantCommit.mount = s.mount ∧ s.grantCommit.mountReport = s.mountReport ∧
    s.grantCommit.background = s.background ∧ s.grantCommit.health = s.health ∧
    s.grantCommit.medium = s.medium ∧ s.grantCommit.choices = s.choices := by
  unfold State.grantCommit
  (try dsimp only)
  (repeat' split) <;> first | (simp; done) | (simp_all; done) | (rename_i h; have H := State.claimPages_frame' h; simp_all; done) | (rename_i h _; have H := State.claimPages_frame' h; simp_all; done) | (rename_i h _ _; have H := State.claimPages_frame' h; simp_all; done) | (rename_i h _ _ _; have H := State.claimPages_frame' h; simp_all; done) | (rename_i h _ _ _ _; have H := State.claimPages_frame' h; simp_all; done)

@[simp] theorem State.supersede_frame (s : State) (tag : Nat) :
    (s.supersede tag).pending = s.pending ∧ (s.supersede tag).power = s.power ∧
    (s.supersede tag).pfw = s.pfw ∧ (s.supersede tag).window = s.window ∧ (s.supersede tag).port = s.port ∧
    (s.supersede tag).causes = s.causes ∧ (s.supersede tag).idle = s.idle ∧
    (s.supersede tag).staging = s.staging ∧ (s.supersede tag).index = s.index ∧
    (s.supersede tag).space.present = s.space.present ∧
    (s.supersede tag).space.freeList = s.space.freeList ∧
    (s.supersede tag).space.openCounter = s.space.openCounter ∧
    (s.supersede tag).space.range = s.space.range ∧ (s.supersede tag).space.state = s.space.state ∧
    (s.supersede tag).space.reasons = s.space.reasons ∧ (s.supersede tag).commit = s.commit ∧
    (s.supersede tag).reclaim = s.reclaim ∧ (s.supersede tag).sequencer = s.sequencer ∧
    (s.supersede tag).mount = s.mount ∧ (s.supersede tag).mountReport = s.mountReport ∧
    (s.supersede tag).background = s.background ∧ (s.supersede tag).drain = s.drain ∧
    (s.supersede tag).health = s.health ∧ (s.supersede tag).medium = s.medium ∧
    (s.supersede tag).choices = s.choices := by
  unfold State.supersede
  (try dsimp only)
  (repeat' split) <;> first | (simp; done) | (simp_all; done)

@[simp] theorem State.installRecord_frame (s : State) (r : Record) (segment : Nat) (page : Nat) :
    (s.installRecord r segment page).pending = s.pending ∧
    (s.installRecord r segment page).power = s.power ∧ (s.installRecord r segment page).pfw = s.pfw ∧
    (s.installRecord r segment page).window = s.window ∧ (s.installRecord r segment page).port = s.port ∧
    (s.installRecord r segment page).causes = s.causes ∧ (s.installRecord r segment page).idle = s.idle ∧
    (s.installRecord r segment page).staging = s.staging ∧
    (s.installRecord r segment page).index.nextSequence = s.index.nextSequence ∧
    (s.installRecord r segment page).index.reservations = s.index.reservations ∧
    (s.installRecord r segment page).space.present = s.space.present ∧
    (s.installRecord r segment page).space.freeList = s.space.freeList ∧
    (s.installRecord r segment page).space.openCounter = s.space.openCounter ∧
    (s.installRecord r segment page).space.range = s.space.range ∧
    (s.installRecord r segment page).space.state = s.space.state ∧
    (s.installRecord r segment page).space.reasons = s.space.reasons ∧
    (s.installRecord r segment page).commit = s.commit ∧
    (s.installRecord r segment page).reclaim = s.reclaim ∧
    (s.installRecord r segment page).sequencer = s.sequencer ∧
    (s.installRecord r segment page).mount = s.mount ∧
    (s.installRecord r segment page).mountReport = s.mountReport ∧
    (s.installRecord r segment page).background = s.background ∧
    (s.installRecord r segment page).drain = s.drain ∧ (s.installRecord r segment page).health = s.health ∧
    (s.installRecord r segment page).medium = s.medium ∧
    (s.installRecord r segment page).choices = s.choices := by
  unfold State.installRecord
  (try dsimp only)
  (repeat' split) <;> first | (simp; done) | (simp_all; done)

@[simp] theorem State.installAll_frame (s : State) (segment : Nat) (page : Nat) (outcome : List Record) :
    (s.installAll segment page outcome).pending = s.pending ∧
    (s.installAll segment page outcome).power = s.power ∧ (s.installAll segment page outcome).pfw = s.pfw ∧
    (s.installAll segment page outcome).window = s.window ∧
    (s.installAll segment page outcome).port = s.port ∧
    (s.installAll segment page outcome).causes = s.causes ∧
    (s.installAll segment page outcome).idle = s.idle ∧
    (s.installAll segment page outcome).staging = s.staging ∧
    (s.installAll segment page outcome).index.nextSequence = s.index.nextSequence ∧
    (s.installAll segment page outcome).index.reservations = s.index.reservations ∧
    (s.installAll segment page outcome).space.present = s.space.present ∧
    (s.installAll segment page outcome).space.freeList = s.space.freeList ∧
    (s.installAll segment page outcome).space.openCounter = s.space.openCounter ∧
    (s.installAll segment page outcome).space.range = s.space.range ∧
    (s.installAll segment page outcome).space.state = s.space.state ∧
    (s.installAll segment page outcome).space.reasons = s.space.reasons ∧
    (s.installAll segment page outcome).commit = s.commit ∧
    (s.installAll segment page outcome).reclaim = s.reclaim ∧
    (s.installAll segment page outcome).sequencer = s.sequencer ∧
    (s.installAll segment page outcome).mount = s.mount ∧
    (s.installAll segment page outcome).mountReport = s.mountReport ∧
    (s.installAll segment page outcome).background = s.background ∧
    (s.installAll segment page outcome).drain = s.drain ∧
    (s.installAll segment page outcome).health = s.health ∧
    (s.installAll segment page outcome).medium = s.medium ∧
    (s.installAll segment page outcome).choices = s.choices := by
  induction outcome generalizing s segment page with
  | nil => simp [State.installAll]
  | cons r rest ih => simp [State.installAll, ih]

@[simp] theorem State.finishUnit_frame (s : State) (entries : List PwlEntry) :
    (s.finishUnit entries).pending = s.pending ∧ (s.finishUnit entries).power = s.power ∧
    (s.finishUnit entries).pfw = s.pfw ∧ (s.finishUnit entries).window = s.window ∧
    (s.finishUnit entries).port = s.port ∧ (s.finishUnit entries).causes = s.causes ∧
    (s.finishUnit entries).idle.qualified = s.idle.qualified ∧ (s.finishUnit entries).index = s.index ∧
    (s.finishUnit entries).space = s.space ∧ (s.finishUnit entries).reclaim = s.reclaim ∧
    (s.finishUnit entries).sequencer = s.sequencer ∧ (s.finishUnit entries).mount = s.mount ∧
    (s.finishUnit entries).mountReport = s.mountReport ∧ (s.finishUnit entries).background = s.background ∧
    (s.finishUnit entries).drain = s.drain ∧ (s.finishUnit entries).health = s.health ∧
    (s.finishUnit entries).medium = s.medium ∧ (s.finishUnit entries).choices = s.choices := by
  unfold State.finishUnit
  (try dsimp only)
  (repeat' split) <;> first | (simp; done) | (simp_all; done)

@[simp] theorem State.refuseInstall_frame (s : State) (segment : Nat) (k : Nat) :
    (s.refuseInstall segment k).pending = s.pending ∧ (s.refuseInstall segment k).power = s.power ∧
    (s.refuseInstall segment k).pfw = s.pfw ∧ (s.refuseInstall segment k).window = s.window ∧
    (s.refuseInstall segment k).port = s.port ∧ (s.refuseInstall segment k).causes = s.causes ∧
    (s.refuseInstall segment k).idle = s.idle ∧
    (s.refuseInstall segment k).staging.slots = s.staging.slots ∧
    (s.refuseInstall segment k).index = s.index ∧
    (s.refuseInstall segment k).space.present = s.space.present ∧
    (s.refuseInstall segment k).space.freeList = s.space.freeList ∧
    (s.refuseInstall segment k).space.openCounter = s.space.openCounter ∧
    (s.refuseInstall segment k).space.range = s.space.range ∧
    (s.refuseInstall segment k).space.state = s.space.state ∧
    (s.refuseInstall segment k).space.reasons = s.space.reasons ∧
    (s.refuseInstall segment k).reclaim = s.reclaim ∧ (s.refuseInstall segment k).sequencer = s.sequencer ∧
    (s.refuseInstall segment k).mount = s.mount ∧ (s.refuseInstall segment k).mountReport = s.mountReport ∧
    (s.refuseInstall segment k).background = s.background ∧ (s.refuseInstall segment k).drain = s.drain ∧
    (s.refuseInstall segment k).health = s.health ∧ (s.refuseInstall segment k).medium = s.medium ∧
    (s.refuseInstall segment k).choices = s.choices := by
  unfold State.refuseInstall
  (try dsimp only)
  (repeat' split) <;> first | (simp; done) | (simp_all; done)

@[simp] theorem State.commitInstall_frame (s : State) (u : CommitUnit) (segment : Nat) (page : Nat) :
    (s.commitInstall u segment page).pending = s.pending ∧
    (s.commitInstall u segment page).power = s.power ∧ (s.commitInstall u segment page).pfw = s.pfw ∧
    (s.commitInstall u segment page).window = s.window ∧ (s.commitInstall u segment page).port = s.port ∧
    (s.commitInstall u segment page).causes = s.causes ∧
    (s.commitInstall u segment page).idle.qualified = s.idle.qualified ∧
    (s.commitInstall u segment page).index.nextSequence = s.index.nextSequence ∧
    (s.commitInstall u segment page).index.reservations = s.index.reservations ∧
    (s.commitInstall u segment page).space.present = s.space.present ∧
    (s.commitInstall u segment page).space.freeList = s.space.freeList ∧
    (s.commitInstall u segment page).space.openCounter = s.space.openCounter ∧
    (s.commitInstall u segment page).space.state = s.space.state ∧
    (s.commitInstall u segment page).space.reasons = s.space.reasons ∧
    (s.commitInstall u segment page).reclaim = s.reclaim ∧
    (s.commitInstall u segment page).sequencer = s.sequencer ∧
    (s.commitInstall u segment page).mount = s.mount ∧
    (s.commitInstall u segment page).mountReport = s.mountReport ∧
    (s.commitInstall u segment page).background = s.background ∧
    (s.commitInstall u segment page).drain = s.drain ∧ (s.commitInstall u segment page).health = s.health ∧
    (s.commitInstall u segment page).medium = s.medium ∧
    (s.commitInstall u segment page).choices = s.choices := by
  unfold State.commitInstall
  (try dsimp only)
  (repeat' split) <;> first | (simp; done) | (simp_all; done)

@[simp] theorem State.commitProgramDone_frame (s : State) (segment : Nat) (page : Nat) :
    (s.commitProgramDone segment page).pending = s.pending ∧
    (s.commitProgramDone segment page).power = s.power ∧ (s.commitProgramDone segment page).pfw = s.pfw ∧
    (s.commitProgramDone segment page).window = s.window ∧
    (s.commitProgramDone segment page).port = s.port ∧
    (s.commitProgramDone segment page).causes = s.causes ∧
    (s.commitProgramDone segment page).idle.qualified = s.idle.qualified ∧
    (s.commitProgramDone segment page).index.nextSequence = s.index.nextSequence ∧
    (s.commitProgramDone segment page).index.reservations = s.index.reservations ∧
    (s.commitProgramDone segment page).space.present = s.space.present ∧
    (s.commitProgramDone segment page).space.freeList = s.space.freeList ∧
    (s.commitProgramDone segment page).space.openCounter = s.space.openCounter ∧
    (s.commitProgramDone segment page).space.state = s.space.state ∧
    (s.commitProgramDone segment page).space.reasons = s.space.reasons ∧
    (s.commitProgramDone segment page).reclaim = s.reclaim ∧
    (s.commitProgramDone segment page).sequencer.inFlight = s.sequencer.inFlight ∧
    (s.commitProgramDone segment page).sequencer.fairness = s.sequencer.fairness ∧
    (s.commitProgramDone segment page).sequencer.pin = s.sequencer.pin ∧
    (s.commitProgramDone segment page).mount = s.mount ∧
    (s.commitProgramDone segment page).mountReport = s.mountReport ∧
    (s.commitProgramDone segment page).background = s.background ∧
    (s.commitProgramDone segment page).drain = s.drain ∧
    (s.commitProgramDone segment page).health = s.health ∧
    (s.commitProgramDone segment page).medium = s.medium ∧
    (s.commitProgramDone segment page).choices = s.choices := by
  unfold State.commitProgramDone
  (try dsimp only)
  (repeat' split) <;> first | (simp; done) | (simp_all; done)

@[simp] theorem State.commitFailure_frame (s : State) (segment : Nat) (k : Nat) (failure : Failure) :
    (s.commitFailure segment k failure).pending = s.pending ∧
    (s.commitFailure segment k failure).power = s.power ∧ (s.commitFailure segment k failure).pfw = s.pfw ∧
    (s.commitFailure segment k failure).window = s.window ∧
    (s.commitFailure segment k failure).index = s.index ∧
    (s.commitFailure segment k failure).space.present = s.space.present ∧
    (s.commitFailure segment k failure).space.freeList = s.space.freeList ∧
    (s.commitFailure segment k failure).space.openCounter = s.space.openCounter ∧
    (s.commitFailure segment k failure).space.state = s.space.state ∧
    (s.commitFailure segment k failure).space.reasons = s.space.reasons ∧
    (s.commitFailure segment k failure).reclaim = s.reclaim ∧
    (s.commitFailure segment k failure).sequencer.inFlight = s.sequencer.inFlight ∧
    (s.commitFailure segment k failure).sequencer.fairness = s.sequencer.fairness ∧
    (s.commitFailure segment k failure).sequencer.pin = s.sequencer.pin ∧
    (s.commitFailure segment k failure).mount = s.mount ∧
    (s.commitFailure segment k failure).mountReport = s.mountReport ∧
    (s.commitFailure segment k failure).background = s.background ∧
    (s.commitFailure segment k failure).health.conditions = s.health.conditions ∧
    (s.commitFailure segment k failure).medium = s.medium ∧
    (s.commitFailure segment k failure).choices = s.choices := by
  unfold State.commitFailure
  (try dsimp only)
  (repeat' split) <;> first | (simp; done) | (simp_all; done)

@[simp] theorem State.abandonRange_frame (s : State) :
    s.abandonRange.pending = s.pending ∧ s.abandonRange.power = s.power ∧ s.abandonRange.pfw = s.pfw ∧
    s.abandonRange.window = s.window ∧ s.abandonRange.port = s.port ∧ s.abandonRange.causes = s.causes ∧
    s.abandonRange.idle = s.idle ∧ s.abandonRange.staging = s.staging ∧ s.abandonRange.index = s.index ∧
    s.abandonRange.space.present = s.space.present ∧ s.abandonRange.space.freeList = s.space.freeList ∧
    s.abandonRange.space.openCounter = s.space.openCounter ∧ s.abandonRange.space.state = s.space.state ∧
    s.abandonRange.space.reasons = s.space.reasons ∧ s.abandonRange.commit = s.commit ∧
    s.abandonRange.reclaim = s.reclaim ∧ s.abandonRange.sequencer = s.sequencer ∧
    s.abandonRange.mount = s.mount ∧ s.abandonRange.mountReport = s.mountReport ∧
    s.abandonRange.background = s.background ∧ s.abandonRange.drain = s.drain ∧
    s.abandonRange.health = s.health ∧ s.abandonRange.medium = s.medium ∧ s.abandonRange.choices = s.choices := by
  unfold State.abandonRange
  (try dsimp only)
  (repeat' split) <;> first | (simp; done) | (simp_all; done)

@[simp] theorem State.discardStaged_frame (s : State) :
    s.discardStaged.pending = s.pending ∧ s.discardStaged.power = s.power ∧ s.discardStaged.pfw = s.pfw ∧
    s.discardStaged.window = s.window ∧ s.discardStaged.port = s.port ∧ s.discardStaged.causes = s.causes ∧
    s.discardStaged.idle = s.idle ∧ s.discardStaged.index = s.index ∧
    s.discardStaged.space.present = s.space.present ∧ s.discardStaged.space.freeList = s.space.freeList ∧
    s.discardStaged.space.openCounter = s.space.openCounter ∧ s.discardStaged.space.state = s.space.state ∧
    s.discardStaged.space.reasons = s.space.reasons ∧ s.discardStaged.reclaim = s.reclaim ∧
    s.discardStaged.sequencer.inFlight = s.sequencer.inFlight ∧
    s.discardStaged.sequencer.fairness = s.sequencer.fairness ∧
    s.discardStaged.sequencer.pin = s.sequencer.pin ∧ s.discardStaged.mount = s.mount ∧
    s.discardStaged.mountReport = s.mountReport ∧ s.discardStaged.background = s.background ∧
    s.discardStaged.drain = s.drain ∧ s.discardStaged.health = s.health ∧
    s.discardStaged.medium = s.medium ∧ s.discardStaged.choices = s.choices := by
  unfold State.discardStaged
  (try dsimp only)
  (repeat' split) <;> first | (simp; done) | (simp_all; done)

theorem State.damagedClaim_frame {s : State} {tag : Nat} {sequence : Nat} {segment : Nat} {page : Nat} {t : State} (h : s.damagedClaim tag sequence segment page = some t) :
    t.pending = s.pending ∧ t.power = s.power ∧ t.pfw = s.pfw ∧ t.window = s.window ∧ t.port = s.port ∧
    t.causes = s.causes ∧ t.idle = s.idle ∧ t.staging = s.staging ∧
    t.index.nextSequence = s.index.nextSequence ∧ t.index.reservations = s.index.reservations ∧
    t.space = s.space ∧ t.commit = s.commit ∧ t.reclaim = s.reclaim ∧ t.sequencer = s.sequencer ∧
    t.mount = s.mount ∧ t.mountReport = s.mountReport ∧ t.background = s.background ∧ t.drain = s.drain ∧
    t.health = s.health ∧ t.medium = s.medium ∧ t.choices = s.choices := by
  unfold State.damagedClaim at h
  (try dsimp only at h)
  (repeat' split at h) <;> first | (simp at h; done) | (cases h; simp; done) | (cases h; simp_all; done)

@[simp] theorem State.reclaimMove_frame (s : State) (b : CopyBuffer) (segment : Nat) (page : Nat) :
    (s.reclaimMove b segment page).pending = s.pending ∧ (s.reclaimMove b segment page).power = s.power ∧
    (s.reclaimMove b segment page).pfw = s.pfw ∧ (s.reclaimMove b segment page).window = s.window ∧
    (s.reclaimMove b segment page).port = s.port ∧ (s.reclaimMove b segment page).causes = s.causes ∧
    (s.reclaimMove b segment page).idle = s.idle ∧ (s.reclaimMove b segment page).staging = s.staging ∧
    (s.reclaimMove b segment page).index.nextSequence = s.index.nextSequence ∧
    (s.reclaimMove b segment page).index.reservations = s.index.reservations ∧
    (s.reclaimMove b segment page).space.present = s.space.present ∧
    (s.reclaimMove b segment page).space.freeList = s.space.freeList ∧
    (s.reclaimMove b segment page).space.openCounter = s.space.openCounter ∧
    (s.reclaimMove b segment page).space.range = s.space.range ∧
    (s.reclaimMove b segment page).space.state = s.space.state ∧
    (s.reclaimMove b segment page).space.reasons = s.space.reasons ∧
    (s.reclaimMove b segment page).commit = s.commit ∧ (s.reclaimMove b segment page).reclaim = s.reclaim ∧
    (s.reclaimMove b segment page).sequencer = s.sequencer ∧
    (s.reclaimMove b segment page).mount = s.mount ∧
    (s.reclaimMove b segment page).mountReport = s.mountReport ∧
    (s.reclaimMove b segment page).background = s.background ∧
    (s.reclaimMove b segment page).drain = s.drain ∧ (s.reclaimMove b segment page).health = s.health ∧
    (s.reclaimMove b segment page).medium = s.medium ∧ (s.reclaimMove b segment page).choices = s.choices := by
  unfold State.reclaimMove
  (try dsimp only)
  (repeat' split) <;> first | (simp; done) | (simp_all; done)

@[simp] theorem State.lossReplacement_frame (s : State) (b : CopyBuffer) (segment : Nat) (page : Nat) :
    (s.lossReplacement b segment page).pending = s.pending ∧
    (s.lossReplacement b segment page).power = s.power ∧ (s.lossReplacement b segment page).pfw = s.pfw ∧
    (s.lossReplacement b segment page).window = s.window ∧
    (s.lossReplacement b segment page).port = s.port ∧
    (s.lossReplacement b segment page).causes = s.causes ∧
    (s.lossReplacement b segment page).idle = s.idle ∧
    (s.lossReplacement b segment page).staging = s.staging ∧
    (s.lossReplacement b segment page).index.nextSequence = s.index.nextSequence ∧
    (s.lossReplacement b segment page).index.reservations = s.index.reservations ∧
    (s.lossReplacement b segment page).space.present = s.space.present ∧
    (s.lossReplacement b segment page).space.freeList = s.space.freeList ∧
    (s.lossReplacement b segment page).space.openCounter = s.space.openCounter ∧
    (s.lossReplacement b segment page).space.range = s.space.range ∧
    (s.lossReplacement b segment page).space.state = s.space.state ∧
    (s.lossReplacement b segment page).space.reasons = s.space.reasons ∧
    (s.lossReplacement b segment page).commit = s.commit ∧
    (s.lossReplacement b segment page).reclaim = s.reclaim ∧
    (s.lossReplacement b segment page).sequencer = s.sequencer ∧
    (s.lossReplacement b segment page).mount = s.mount ∧
    (s.lossReplacement b segment page).mountReport = s.mountReport ∧
    (s.lossReplacement b segment page).background = s.background ∧
    (s.lossReplacement b segment page).drain = s.drain ∧
    (s.lossReplacement b segment page).health.conditions = s.health.conditions ∧
    (s.lossReplacement b segment page).medium = s.medium ∧
    (s.lossReplacement b segment page).choices = s.choices := by
  unfold State.lossReplacement
  (try dsimp only)
  (repeat' split) <;> first | (simp; done) | (simp_all; done)

@[simp] theorem State.setJob_frame (s : State) (j : Job) :
    (s.setJob j).pending = s.pending ∧ (s.setJob j).power = s.power ∧ (s.setJob j).pfw = s.pfw ∧
    (s.setJob j).window = s.window ∧ (s.setJob j).port = s.port ∧ (s.setJob j).causes = s.causes ∧
    (s.setJob j).idle = s.idle ∧ (s.setJob j).staging = s.staging ∧ (s.setJob j).index = s.index ∧
    (s.setJob j).space = s.space ∧ (s.setJob j).commit = s.commit ∧
    (s.setJob j).reclaim.refreshList = s.reclaim.refreshList ∧
    (s.setJob j).reclaim.exclusion = s.reclaim.exclusion ∧ (s.setJob j).sequencer = s.sequencer ∧
    (s.setJob j).mount = s.mount ∧ (s.setJob j).mountReport = s.mountReport ∧
    (s.setJob j).background = s.background ∧ (s.setJob j).drain = s.drain ∧
    (s.setJob j).health = s.health ∧ (s.setJob j).medium = s.medium ∧ (s.setJob j).choices = s.choices := by
  unfold State.setJob
  (try dsimp only)
  (repeat' split) <;> first | (simp; done) | (simp_all; done)

@[simp] theorem State.endJob_frame (s : State) :
    s.endJob.pending = s.pending ∧ s.endJob.power = s.power ∧ s.endJob.pfw = s.pfw ∧
    s.endJob.window = s.window ∧ s.endJob.port = s.port ∧ s.endJob.causes = s.causes ∧
    s.endJob.idle = s.idle ∧ s.endJob.staging = s.staging ∧ s.endJob.index = s.index ∧
    s.endJob.space = s.space ∧ s.endJob.commit = s.commit ∧
    s.endJob.reclaim.refreshList = s.reclaim.refreshList ∧
    s.endJob.reclaim.exclusion = s.reclaim.exclusion ∧ s.endJob.sequencer.inFlight = s.sequencer.inFlight ∧
    s.endJob.sequencer.fairness = s.sequencer.fairness ∧ s.endJob.sequencer.pin = s.sequencer.pin ∧
    s.endJob.mount = s.mount ∧ s.endJob.mountReport = s.mountReport ∧ s.endJob.background = s.background ∧
    s.endJob.drain = s.drain ∧ s.endJob.health = s.health ∧ s.endJob.medium = s.medium ∧
    s.endJob.choices = s.choices := by
  unfold State.endJob
  (try dsimp only)
  (repeat' split) <;> first | (simp; done) | (simp_all; done)

@[simp] theorem State.endRefresh_frame (s : State) :
    s.endRefresh.pending = s.pending ∧ s.endRefresh.power = s.power ∧ s.endRefresh.pfw = s.pfw ∧
    s.endRefresh.window = s.window ∧ s.endRefresh.port = s.port ∧ s.endRefresh.causes = s.causes ∧
    s.endRefresh.idle = s.idle ∧ s.endRefresh.staging = s.staging ∧ s.endRefresh.index = s.index ∧
    s.endRefresh.space = s.space ∧ s.endRefresh.commit = s.commit ∧
    s.endRefresh.reclaim.exclusion = s.reclaim.exclusion ∧
    s.endRefresh.sequencer.inFlight = s.sequencer.inFlight ∧
    s.endRefresh.sequencer.fairness = s.sequencer.fairness ∧ s.endRefresh.sequencer.pin = s.sequencer.pin ∧
    s.endRefresh.mount = s.mount ∧ s.endRefresh.mountReport = s.mountReport ∧
    s.endRefresh.background = s.background ∧ s.endRefresh.drain = s.drain ∧
    s.endRefresh.health = s.health ∧ s.endRefresh.medium = s.medium ∧ s.endRefresh.choices = s.choices := by
  unfold State.endRefresh
  (try dsimp only)
  (repeat' split) <;> first | (simp; done) | (simp_all; done)

@[simp] theorem State.abandonJob_frame (s : State) (exclude : Bool) :
    (s.abandonJob exclude).pending = s.pending ∧ (s.abandonJob exclude).power = s.power ∧
    (s.abandonJob exclude).pfw = s.pfw ∧ (s.abandonJob exclude).window = s.window ∧
    (s.abandonJob exclude).port = s.port ∧ (s.abandonJob exclude).causes = s.causes ∧
    (s.abandonJob exclude).idle = s.idle ∧ (s.abandonJob exclude).staging = s.staging ∧
    (s.abandonJob exclude).index = s.index ∧ (s.abandonJob exclude).space.present = s.space.present ∧
    (s.abandonJob exclude).space.freeList = s.space.freeList ∧
    (s.abandonJob exclude).space.openCounter = s.space.openCounter ∧
    (s.abandonJob exclude).space.range = s.space.range ∧
    (s.abandonJob exclude).space.state = s.space.state ∧
    (s.abandonJob exclude).space.reasons = s.space.reasons ∧ (s.abandonJob exclude).commit = s.commit ∧
    (s.abandonJob exclude).reclaim.refreshList = s.reclaim.refreshList ∧
    (s.abandonJob exclude).sequencer.inFlight = s.sequencer.inFlight ∧
    (s.abandonJob exclude).sequencer.pin = s.sequencer.pin ∧ (s.abandonJob exclude).mount = s.mount ∧
    (s.abandonJob exclude).mountReport = s.mountReport ∧ (s.abandonJob exclude).background = s.background ∧
    (s.abandonJob exclude).drain = s.drain ∧ (s.abandonJob exclude).health = s.health ∧
    (s.abandonJob exclude).medium = s.medium ∧ (s.abandonJob exclude).choices = s.choices := by
  unfold State.abandonJob
  (try dsimp only)
  (repeat' split) <;> first | (simp; done) | (simp_all; done)

/-- Emptying the Reclaimer's lists changes the Reclaimer alone. -/
theorem State.emptyReclaimLists_eq (s : State) : s.emptyReclaimLists =
    { s with reclaim := ⟨s.reclaim.job, [], [], none⟩ } := rfl

@[simp] theorem State.emptyReclaimLists_frame (s : State) :
    s.emptyReclaimLists.pending = s.pending ∧ s.emptyReclaimLists.power = s.power ∧
    s.emptyReclaimLists.pfw = s.pfw ∧ s.emptyReclaimLists.window = s.window ∧
    s.emptyReclaimLists.port = s.port ∧ s.emptyReclaimLists.causes = s.causes ∧
    s.emptyReclaimLists.idle = s.idle ∧ s.emptyReclaimLists.staging = s.staging ∧
    s.emptyReclaimLists.index = s.index ∧ s.emptyReclaimLists.space = s.space ∧
    s.emptyReclaimLists.commit = s.commit ∧ s.emptyReclaimLists.reclaim.job = s.reclaim.job ∧
    s.emptyReclaimLists.reclaim.refreshList = [] ∧ s.emptyReclaimLists.reclaim.exclusion = [] ∧
    s.emptyReclaimLists.reclaim.evaluated = none ∧ s.emptyReclaimLists.sequencer = s.sequencer ∧
    s.emptyReclaimLists.mount = s.mount ∧ s.emptyReclaimLists.mountReport = s.mountReport ∧
    s.emptyReclaimLists.background = s.background ∧ s.emptyReclaimLists.drain = s.drain ∧
    s.emptyReclaimLists.health = s.health ∧ s.emptyReclaimLists.medium = s.medium ∧
    s.emptyReclaimLists.choices = s.choices := by
  simp [State.emptyReclaimLists]

theorem jobAbandon_frame {s : State} {t : State} (h : jobAbandon s = some t) :
    t.pending = s.pending ∧ t.power = s.power ∧ t.pfw = s.pfw ∧ t.window = s.window ∧ t.port = s.port ∧
    t.causes = s.causes ∧ t.idle = s.idle ∧ t.staging = s.staging ∧ t.index = s.index ∧
    t.space.present = s.space.present ∧ t.space.freeList = s.space.freeList ∧
    t.space.openCounter = s.space.openCounter ∧ t.space.range = s.space.range ∧
    t.space.state = s.space.state ∧ t.space.reasons = s.space.reasons ∧ t.commit = s.commit ∧
    t.reclaim.refreshList = (if s.erasing then [] else s.reclaim.refreshList) ∧
    t.sequencer.inFlight = s.sequencer.inFlight ∧
    t.sequencer.pin = s.sequencer.pin ∧ t.mount = s.mount ∧ t.mountReport = s.mountReport ∧
    t.background = s.background ∧ t.drain = s.drain ∧ t.health = s.health ∧ t.medium = s.medium ∧
    t.choices = s.choices := by
  unfold jobAbandon at h
  (try dsimp only at h)
  (repeat' split at h) <;> first | (simp at h; done) | (cases h; simp; done) | (cases h; simp_all; done)

@[simp] theorem State.markAbandon_frame (s : State) :
    s.markAbandon.pending = s.pending ∧ s.markAbandon.power = s.power ∧ s.markAbandon.pfw = s.pfw ∧
    s.markAbandon.window = s.window ∧ s.markAbandon.port = s.port ∧ s.markAbandon.causes = s.causes ∧
    s.markAbandon.idle = s.idle ∧ s.markAbandon.staging = s.staging ∧ s.markAbandon.index = s.index ∧
    s.markAbandon.space = s.space ∧ s.markAbandon.commit = s.commit ∧
    s.markAbandon.reclaim.refreshList = s.reclaim.refreshList ∧
    s.markAbandon.reclaim.exclusion = s.reclaim.exclusion ∧ s.markAbandon.sequencer = s.sequencer ∧
    s.markAbandon.mount = s.mount ∧ s.markAbandon.mountReport = s.mountReport ∧
    s.markAbandon.background = s.background ∧ s.markAbandon.drain = s.drain ∧
    s.markAbandon.health = s.health ∧ s.markAbandon.medium = s.medium ∧ s.markAbandon.choices = s.choices := by
  unfold State.markAbandon
  (try dsimp only)
  (repeat' split) <;> first | (simp; done) | (simp_all; done)

/-- What the beginning of ERASE STORE makes of the Reclaimer. -/
theorem State.yieldToErase_eq (s : State) : s.yieldToErase =
    { s with reclaim := match s.reclaim.job with
      | none => ⟨none, [], [], none⟩
      | some j => { s.reclaim with job := some { j with abandoning := true } } } := by
  unfold State.yieldToErase State.emptyReclaimLists State.markAbandon
  cases h : s.reclaim.job <;> simp [h]

@[simp] theorem State.yieldToErase_frame (s : State) :
    s.yieldToErase.pending = s.pending ∧ s.yieldToErase.power = s.power ∧ s.yieldToErase.pfw = s.pfw ∧
    s.yieldToErase.window = s.window ∧ s.yieldToErase.port = s.port ∧ s.yieldToErase.causes = s.causes ∧
    s.yieldToErase.idle = s.idle ∧ s.yieldToErase.staging = s.staging ∧ s.yieldToErase.index = s.index ∧
    s.yieldToErase.space = s.space ∧ s.yieldToErase.commit = s.commit ∧
    s.yieldToErase.sequencer = s.sequencer ∧ s.yieldToErase.mount = s.mount ∧
    s.yieldToErase.mountReport = s.mountReport ∧ s.yieldToErase.background = s.background ∧
    s.yieldToErase.drain = s.drain ∧ s.yieldToErase.health = s.health ∧ s.yieldToErase.medium = s.medium ∧
    s.yieldToErase.choices = s.choices := by
  simp [State.yieldToErase_eq]

@[simp] theorem State.beginJob_frame (s : State) (kind : JobKind) :
    (s.beginJob kind).pending = s.pending ∧ (s.beginJob kind).power = s.power ∧
    (s.beginJob kind).pfw = s.pfw ∧ (s.beginJob kind).window = s.window ∧ (s.beginJob kind).port = s.port ∧
    (s.beginJob kind).causes = s.causes ∧ (s.beginJob kind).idle = s.idle ∧
    (s.beginJob kind).staging = s.staging ∧ (s.beginJob kind).index = s.index ∧
    (s.beginJob kind).space.present = s.space.present ∧
    (s.beginJob kind).space.freeList = s.space.freeList ∧
    (s.beginJob kind).space.openCounter = s.space.openCounter ∧
    (s.beginJob kind).space.range = s.space.range ∧ (s.beginJob kind).space.state = s.space.state ∧
    (s.beginJob kind).space.reasons = s.space.reasons ∧ (s.beginJob kind).commit = s.commit ∧
    (s.beginJob kind).reclaim.refreshList = s.reclaim.refreshList ∧
    (s.beginJob kind).reclaim.exclusion = s.reclaim.exclusion ∧ (s.beginJob kind).sequencer = s.sequencer ∧
    (s.beginJob kind).mount = s.mount ∧ (s.beginJob kind).mountReport = s.mountReport ∧
    (s.beginJob kind).background = s.background ∧ (s.beginJob kind).drain = s.drain ∧
    (s.beginJob kind).health = s.health ∧ (s.beginJob kind).medium = s.medium ∧
    (s.beginJob kind).choices = s.choices := by
  unfold State.beginJob
  (try dsimp only)
  (repeat' split) <;> first | (simp; done) | (simp_all; done)

@[simp] theorem State.noteSelection_frame (s : State) (note : Option Quantities) :
    (s.noteSelection note).pending = s.pending ∧ (s.noteSelection note).power = s.power ∧
    (s.noteSelection note).pfw = s.pfw ∧ (s.noteSelection note).window = s.window ∧
    (s.noteSelection note).port = s.port ∧ (s.noteSelection note).causes = s.causes ∧
    (s.noteSelection note).idle = s.idle ∧ (s.noteSelection note).staging = s.staging ∧
    (s.noteSelection note).index = s.index ∧ (s.noteSelection note).space = s.space ∧
    (s.noteSelection note).commit = s.commit ∧
    (s.noteSelection note).reclaim.job = s.reclaim.job ∧
    (s.noteSelection note).reclaim.refreshList = s.reclaim.refreshList ∧
    (s.noteSelection note).reclaim.exclusion = s.reclaim.exclusion ∧
    (s.noteSelection note).sequencer = s.sequencer ∧ (s.noteSelection note).mount = s.mount ∧
    (s.noteSelection note).mountReport = s.mountReport ∧
    (s.noteSelection note).background = s.background ∧ (s.noteSelection note).drain = s.drain ∧
    (s.noteSelection note).health = s.health ∧ (s.noteSelection note).medium = s.medium ∧
    (s.noteSelection note).choices = s.choices := by
  refine ⟨?_, ?_, ?_, ?_, ?_, ?_, ?_, ?_, ?_, ?_, ?_, ?_, ?_, ?_, ?_, ?_, ?_, ?_, ?_, ?_, ?_, ?_⟩ <;> rfl

theorem reclaimSelection_frame {s : State} {t : State} (h : reclaimSelection s = some t) :
    t.pending = s.pending ∧ t.power = s.power ∧ t.pfw = s.pfw ∧ t.window = s.window ∧ t.port = s.port ∧
    t.causes = s.causes ∧ t.idle = s.idle ∧ t.staging = s.staging ∧ t.index = s.index ∧
    t.space.present = s.space.present ∧ t.space.freeList = s.space.freeList ∧
    t.space.openCounter = s.space.openCounter ∧ t.space.range = s.space.range ∧
    t.space.state = s.space.state ∧ t.space.reasons = s.space.reasons ∧ t.commit = s.commit ∧
    t.reclaim.refreshList = s.reclaim.refreshList ∧ t.reclaim.exclusion = s.reclaim.exclusion ∧
    t.sequencer = s.sequencer ∧ t.mount = s.mount ∧ t.mountReport = s.mountReport ∧
    t.background = s.background ∧ t.drain = s.drain ∧ t.health = s.health ∧ t.medium = s.medium ∧
    t.choices = s.choices := by
  unfold reclaimSelection at h
  (repeat' split at h) <;> first | (simp at h; done) | (cases h; simp; done)

@[simp] theorem State.finishRecord_frame (s : State) (j : Job) :
    (s.finishRecord j).pending = s.pending ∧ (s.finishRecord j).power = s.power ∧
    (s.finishRecord j).pfw = s.pfw ∧ (s.finishRecord j).window = s.window ∧
    (s.finishRecord j).port = s.port ∧ (s.finishRecord j).causes = s.causes ∧
    (s.finishRecord j).idle = s.idle ∧ (s.finishRecord j).staging = s.staging ∧
    (s.finishRecord j).index = s.index ∧ (s.finishRecord j).space = s.space ∧
    (s.finishRecord j).commit = s.commit ∧ (s.finishRecord j).reclaim.exclusion = s.reclaim.exclusion ∧
    (s.finishRecord j).sequencer.inFlight = s.sequencer.inFlight ∧
    (s.finishRecord j).sequencer.fairness = s.sequencer.fairness ∧
    (s.finishRecord j).sequencer.pin = s.sequencer.pin ∧ (s.finishRecord j).mount = s.mount ∧
    (s.finishRecord j).mountReport = s.mountReport ∧ (s.finishRecord j).background = s.background ∧
    (s.finishRecord j).drain = s.drain ∧ (s.finishRecord j).health = s.health ∧
    (s.finishRecord j).medium = s.medium ∧ (s.finishRecord j).choices = s.choices := by
  unfold State.finishRecord
  (try dsimp only)
  (repeat' split) <;> first | (simp; done) | (simp_all; done)

@[simp] theorem State.failJob_frame (s : State) (j : Job) :
    (s.failJob j).pending = s.pending ∧ (s.failJob j).power = s.power ∧ (s.failJob j).pfw = s.pfw ∧
    (s.failJob j).window = s.window ∧ (s.failJob j).port = s.port ∧ (s.failJob j).causes = s.causes ∧
    (s.failJob j).idle = s.idle ∧ (s.failJob j).staging = s.staging ∧ (s.failJob j).index = s.index ∧
    (s.failJob j).space.present = s.space.present ∧ (s.failJob j).space.freeList = s.space.freeList ∧
    (s.failJob j).space.openCounter = s.space.openCounter ∧ (s.failJob j).space.range = s.space.range ∧
    (s.failJob j).space.state = s.space.state ∧ (s.failJob j).space.reasons = s.space.reasons ∧
    (s.failJob j).commit = s.commit ∧ (s.failJob j).sequencer.inFlight = s.sequencer.inFlight ∧
    (s.failJob j).sequencer.pin = s.sequencer.pin ∧ (s.failJob j).mount = s.mount ∧
    (s.failJob j).mountReport = s.mountReport ∧ (s.failJob j).background = s.background ∧
    (s.failJob j).drain = s.drain ∧ (s.failJob j).health.conditions = s.health.conditions ∧
    (s.failJob j).medium = s.medium ∧ (s.failJob j).choices = s.choices := by
  unfold State.failJob
  (try dsimp only)
  (repeat' split) <;> first | (simp; done) | (simp_all; done)

@[simp] theorem State.requestFor_frame (s : State) (j : Job) :
    (s.requestFor j).pending = s.pending ∧ (s.requestFor j).power = s.power ∧
    (s.requestFor j).pfw = s.pfw ∧ (s.requestFor j).window = s.window ∧ (s.requestFor j).port = s.port ∧
    (s.requestFor j).causes = s.causes ∧ (s.requestFor j).idle = s.idle ∧
    (s.requestFor j).staging = s.staging ∧ (s.requestFor j).index = s.index ∧
    (s.requestFor j).space = s.space ∧ (s.requestFor j).commit = s.commit ∧
    (s.requestFor j).reclaim.refreshList = s.reclaim.refreshList ∧
    (s.requestFor j).reclaim.exclusion = s.reclaim.exclusion ∧
    (s.requestFor j).sequencer.inFlight = s.sequencer.inFlight ∧
    (s.requestFor j).sequencer.fairness = s.sequencer.fairness ∧
    (s.requestFor j).sequencer.pin = s.sequencer.pin ∧ (s.requestFor j).mount = s.mount ∧
    (s.requestFor j).mountReport = s.mountReport ∧ (s.requestFor j).background = s.background ∧
    (s.requestFor j).drain = s.drain ∧ (s.requestFor j).health = s.health ∧
    (s.requestFor j).medium = s.medium ∧ (s.requestFor j).choices = s.choices := by
  unfold State.requestFor
  (try dsimp only)
  (repeat' split) <;> first | (simp; done) | (simp_all; done)

@[simp] theorem State.walkEnded_frame (s : State) (j : Job) (v : Nat) :
    (s.walkEnded j v).pending = s.pending ∧ (s.walkEnded j v).power = s.power ∧
    (s.walkEnded j v).pfw = s.pfw ∧ (s.walkEnded j v).window = s.window ∧ (s.walkEnded j v).port = s.port ∧
    (s.walkEnded j v).causes = s.causes ∧ (s.walkEnded j v).idle = s.idle ∧
    (s.walkEnded j v).staging = s.staging ∧ (s.walkEnded j v).index = s.index ∧
    (s.walkEnded j v).space.present = s.space.present ∧
    (s.walkEnded j v).space.freeList = s.space.freeList ∧
    (s.walkEnded j v).space.openCounter = s.space.openCounter ∧
    (s.walkEnded j v).space.range = s.space.range ∧ (s.walkEnded j v).space.state = s.space.state ∧
    (s.walkEnded j v).commit = s.commit ∧ (s.walkEnded j v).reclaim.refreshList = s.reclaim.refreshList ∧
    (s.walkEnded j v).reclaim.exclusion = s.reclaim.exclusion ∧
    (s.walkEnded j v).sequencer.inFlight = s.sequencer.inFlight ∧
    (s.walkEnded j v).sequencer.fairness = s.sequencer.fairness ∧
    (s.walkEnded j v).sequencer.pin = s.sequencer.pin ∧ (s.walkEnded j v).mount = s.mount ∧
    (s.walkEnded j v).mountReport = s.mountReport ∧ (s.walkEnded j v).background = s.background ∧
    (s.walkEnded j v).drain = s.drain ∧ (s.walkEnded j v).health = s.health ∧
    (s.walkEnded j v).medium = s.medium ∧ (s.walkEnded j v).choices = s.choices := by
  unfold State.walkEnded
  (try dsimp only)
  (repeat' split) <;> first | (simp; done) | (simp_all; done)

@[simp] theorem State.dropTombstone_frame (s : State) (j : Job) (e : IndexEntry) :
    (s.dropTombstone j e).pending = s.pending ∧ (s.dropTombstone j e).power = s.power ∧
    (s.dropTombstone j e).pfw = s.pfw ∧ (s.dropTombstone j e).window = s.window ∧
    (s.dropTombstone j e).port = s.port ∧ (s.dropTombstone j e).causes = s.causes ∧
    (s.dropTombstone j e).idle = s.idle ∧ (s.dropTombstone j e).staging = s.staging ∧
    (s.dropTombstone j e).index.nextSequence = s.index.nextSequence ∧
    (s.dropTombstone j e).index.reservations = s.index.reservations ∧
    (s.dropTombstone j e).space.present = s.space.present ∧
    (s.dropTombstone j e).space.freeList = s.space.freeList ∧
    (s.dropTombstone j e).space.openCounter = s.space.openCounter ∧
    (s.dropTombstone j e).space.range = s.space.range ∧ (s.dropTombstone j e).space.state = s.space.state ∧
    (s.dropTombstone j e).space.reasons = s.space.reasons ∧ (s.dropTombstone j e).commit = s.commit ∧
    (s.dropTombstone j e).reclaim.refreshList = s.reclaim.refreshList ∧
    (s.dropTombstone j e).reclaim.exclusion = s.reclaim.exclusion ∧
    (s.dropTombstone j e).sequencer = s.sequencer ∧ (s.dropTombstone j e).mount = s.mount ∧
    (s.dropTombstone j e).mountReport = s.mountReport ∧ (s.dropTombstone j e).background = s.background ∧
    (s.dropTombstone j e).drain = s.drain ∧ (s.dropTombstone j e).health = s.health ∧
    (s.dropTombstone j e).medium = s.medium ∧ (s.dropTombstone j e).choices = s.choices := by
  unfold State.dropTombstone
  (try dsimp only)
  (repeat' split) <;> first | (simp; done) | (simp_all; done)

@[simp] theorem State.walk_frame (s : State) (j : Job) (v : Nat) :
    (s.walk j v).pending = s.pending ∧ (s.walk j v).power = s.power ∧ (s.walk j v).pfw = s.pfw ∧
    (s.walk j v).window = s.window ∧ (s.walk j v).port = s.port ∧ (s.walk j v).causes = s.causes ∧
    (s.walk j v).idle = s.idle ∧ (s.walk j v).staging = s.staging ∧
    (s.walk j v).index.nextSequence = s.index.nextSequence ∧
    (s.walk j v).index.reservations = s.index.reservations ∧ (s.walk j v).space.present = s.space.present ∧
    (s.walk j v).space.freeList = s.space.freeList ∧ (s.walk j v).space.openCounter = s.space.openCounter ∧
    (s.walk j v).space.range = s.space.range ∧ (s.walk j v).space.state = s.space.state ∧
    (s.walk j v).commit = s.commit ∧ (s.walk j v).reclaim.refreshList = s.reclaim.refreshList ∧
    (s.walk j v).reclaim.exclusion = s.reclaim.exclusion ∧
    (s.walk j v).sequencer.inFlight = s.sequencer.inFlight ∧
    (s.walk j v).sequencer.fairness = s.sequencer.fairness ∧ (s.walk j v).sequencer.pin = s.sequencer.pin ∧
    (s.walk j v).mount = s.mount ∧ (s.walk j v).mountReport = s.mountReport ∧
    (s.walk j v).background = s.background ∧ (s.walk j v).drain = s.drain ∧
    (s.walk j v).health = s.health ∧ (s.walk j v).medium = s.medium ∧ (s.walk j v).choices = s.choices := by
  unfold State.walk
  (try dsimp only)
  (repeat' split) <;> first | (simp; done) | (simp_all; done)

@[simp] theorem State.refreshLookup_frame (s : State) (j : Job) (tag : Nat) :
    (s.refreshLookup j tag).pending = s.pending ∧ (s.refreshLookup j tag).power = s.power ∧
    (s.refreshLookup j tag).pfw = s.pfw ∧ (s.refreshLookup j tag).window = s.window ∧
    (s.refreshLookup j tag).port = s.port ∧ (s.refreshLookup j tag).causes = s.causes ∧
    (s.refreshLookup j tag).idle = s.idle ∧ (s.refreshLookup j tag).staging = s.staging ∧
    (s.refreshLookup j tag).index = s.index ∧ (s.refreshLookup j tag).space = s.space ∧
    (s.refreshLookup j tag).commit = s.commit ∧
    (s.refreshLookup j tag).reclaim.exclusion = s.reclaim.exclusion ∧
    (s.refreshLookup j tag).sequencer.inFlight = s.sequencer.inFlight ∧
    (s.refreshLookup j tag).sequencer.fairness = s.sequencer.fairness ∧
    (s.refreshLookup j tag).sequencer.pin = s.sequencer.pin ∧ (s.refreshLookup j tag).mount = s.mount ∧
    (s.refreshLookup j tag).mountReport = s.mountReport ∧
    (s.refreshLookup j tag).background = s.background ∧ (s.refreshLookup j tag).drain = s.drain ∧
    (s.refreshLookup j tag).health = s.health ∧ (s.refreshLookup j tag).medium = s.medium ∧
    (s.refreshLookup j tag).choices = s.choices := by
  unfold State.refreshLookup
  (try dsimp only)
  (repeat' split) <;> first | (simp; done) | (simp_all; done)

theorem jobSelect_frame {s : State} {t : State} (h : jobSelect s = some t) :
    t.pending = s.pending ∧ t.power = s.power ∧ t.pfw = s.pfw ∧ t.window = s.window ∧ t.port = s.port ∧
    t.causes = s.causes ∧ t.idle = s.idle ∧ t.staging = s.staging ∧
    t.index.nextSequence = s.index.nextSequence ∧ t.index.reservations = s.index.reservations ∧
    t.space.present = s.space.present ∧ t.space.freeList = s.space.freeList ∧
    t.space.openCounter = s.space.openCounter ∧ t.space.range = s.space.range ∧
    t.space.state = s.space.state ∧ t.commit = s.commit ∧ t.reclaim.exclusion = s.reclaim.exclusion ∧
    t.sequencer.inFlight = s.sequencer.inFlight ∧ t.sequencer.fairness = s.sequencer.fairness ∧
    t.sequencer.pin = s.sequencer.pin ∧ t.mount = s.mount ∧ t.mountReport = s.mountReport ∧
    t.background = s.background ∧ t.drain = s.drain ∧ t.health = s.health ∧ t.medium = s.medium ∧
    t.choices = s.choices := by
  unfold jobSelect at h
  (try dsimp only at h)
  (repeat' split at h) <;> first | (simp at h; done) | (cases h; simp; done) | (cases h; simp_all; done)

theorem jobRequest_frame {s : State} {t : State} (h : jobRequest s = some t) :
    t.pending = s.pending ∧ t.power = s.power ∧ t.pfw = s.pfw ∧ t.window = s.window ∧ t.port = s.port ∧
    t.causes = s.causes ∧ t.idle = s.idle ∧ t.staging = s.staging ∧ t.index = s.index ∧ t.space = s.space ∧
    t.commit = s.commit ∧ t.reclaim.refreshList = s.reclaim.refreshList ∧
    t.reclaim.exclusion = s.reclaim.exclusion ∧ t.sequencer.inFlight = s.sequencer.inFlight ∧
    t.sequencer.fairness = s.sequencer.fairness ∧ t.sequencer.pin = s.sequencer.pin ∧ t.mount = s.mount ∧
    t.mountReport = s.mountReport ∧ t.background = s.background ∧ t.drain = s.drain ∧ t.health = s.health ∧
    t.medium = s.medium ∧ t.choices = s.choices := by
  unfold jobRequest at h
  (try dsimp only at h)
  (repeat' split at h) <;> first | (simp at h; done) | (cases h; simp; done) | (cases h; simp_all; done)

@[simp] theorem State.lossMarker_frame (s : State) (j : Job) (e : IndexEntry) :
    (s.lossMarker j e).pending = s.pending ∧ (s.lossMarker j e).power = s.power ∧
    (s.lossMarker j e).pfw = s.pfw ∧ (s.lossMarker j e).window = s.window ∧
    (s.lossMarker j e).port = s.port ∧ (s.lossMarker j e).causes = s.causes ∧
    (s.lossMarker j e).idle = s.idle ∧ (s.lossMarker j e).staging = s.staging ∧
    (s.lossMarker j e).index.entries = s.index.entries ∧
    (s.lossMarker j e).index.reservations = s.index.reservations ∧
    (s.lossMarker j e).space.present = s.space.present ∧
    (s.lossMarker j e).space.freeList = s.space.freeList ∧
    (s.lossMarker j e).space.openCounter = s.space.openCounter ∧
    (s.lossMarker j e).space.range = s.space.range ∧ (s.lossMarker j e).space.state = s.space.state ∧
    (s.lossMarker j e).commit = s.commit ∧ (s.lossMarker j e).reclaim.refreshList = s.reclaim.refreshList ∧
    (s.lossMarker j e).sequencer.inFlight = s.sequencer.inFlight ∧
    (s.lossMarker j e).sequencer.pin = s.sequencer.pin ∧ (s.lossMarker j e).mount = s.mount ∧
    (s.lossMarker j e).mountReport = s.mountReport ∧ (s.lossMarker j e).background = s.background ∧
    (s.lossMarker j e).drain = s.drain ∧ (s.lossMarker j e).health = s.health ∧
    (s.lossMarker j e).medium = s.medium ∧ (s.lossMarker j e).choices = s.choices := by
  unfold State.lossMarker
  (try dsimp only)
  (repeat' split) <;> first | (simp; done) | (simp_all; done) | (rename_i h; have H := State.takeNumbers_frame' h; simp_all; done) | (rename_i h _; have H := State.takeNumbers_frame' h; simp_all; done) | (rename_i h _ _; have H := State.takeNumbers_frame' h; simp_all; done) | (rename_i h _ _ _; have H := State.takeNumbers_frame' h; simp_all; done) | (rename_i h _ _ _ _; have H := State.takeNumbers_frame' h; simp_all; done)

@[simp] theorem State.copyReadGood_frame (s : State) (r : Record) :
    (s.copyReadGood r).pending = s.pending ∧ (s.copyReadGood r).power = s.power ∧
    (s.copyReadGood r).pfw = s.pfw ∧ (s.copyReadGood r).window = s.window ∧
    (s.copyReadGood r).port = s.port ∧ (s.copyReadGood r).causes = s.causes ∧
    (s.copyReadGood r).idle = s.idle ∧ (s.copyReadGood r).staging = s.staging ∧
    (s.copyReadGood r).index = s.index ∧ (s.copyReadGood r).space = s.space ∧
    (s.copyReadGood r).commit = s.commit ∧ (s.copyReadGood r).reclaim.refreshList = s.reclaim.refreshList ∧
    (s.copyReadGood r).reclaim.exclusion = s.reclaim.exclusion ∧
    (s.copyReadGood r).sequencer.inFlight = s.sequencer.inFlight ∧
    (s.copyReadGood r).sequencer.fairness = s.sequencer.fairness ∧
    (s.copyReadGood r).sequencer.pin = s.sequencer.pin ∧ (s.copyReadGood r).mount = s.mount ∧
    (s.copyReadGood r).mountReport = s.mountReport ∧ (s.copyReadGood r).background = s.background ∧
    (s.copyReadGood r).drain = s.drain ∧ (s.copyReadGood r).health = s.health ∧
    (s.copyReadGood r).medium = s.medium ∧ (s.copyReadGood r).choices = s.choices := by
  unfold State.copyReadGood
  (try dsimp only)
  (repeat' split) <;> first | (simp; done) | (simp_all; done)

@[simp] theorem State.copyReadBad_frame (s : State) :
    s.copyReadBad.pending = s.pending ∧ s.copyReadBad.power = s.power ∧ s.copyReadBad.pfw = s.pfw ∧
    s.copyReadBad.window = s.window ∧ s.copyReadBad.port = s.port ∧ s.copyReadBad.causes = s.causes ∧
    s.copyReadBad.idle = s.idle ∧ s.copyReadBad.staging = s.staging ∧
    s.copyReadBad.index.reservations = s.index.reservations ∧ s.copyReadBad.commit = s.commit ∧
    s.copyReadBad.mount = s.mount ∧ s.copyReadBad.mountReport = s.mountReport ∧
    s.copyReadBad.background = s.background ∧ s.copyReadBad.drain = s.drain ∧
    s.copyReadBad.health = s.health ∧ s.copyReadBad.medium = s.medium ∧ s.copyReadBad.choices = s.choices := by
  unfold State.copyReadBad
  (try dsimp only)
  (repeat' split) <;> first | (simp; done) | (simp_all; done) | (rename_i h; have H := State.damagedClaim_frame h; simp_all; done) | (rename_i h _; have H := State.damagedClaim_frame h; simp_all; done) | (rename_i h _ _; have H := State.damagedClaim_frame h; simp_all; done) | (rename_i h _ _ _; have H := State.damagedClaim_frame h; simp_all; done) | (rename_i h _ _ _ _; have H := State.damagedClaim_frame h; simp_all; done)

@[simp] theorem State.grantCopy_frame (s : State) (j : Job) (b : CopyBuffer) :
    (s.grantCopy j b).pending = s.pending ∧ (s.grantCopy j b).power = s.power ∧
    (s.grantCopy j b).pfw = s.pfw ∧ (s.grantCopy j b).window = s.window ∧ (s.grantCopy j b).port = s.port ∧
    (s.grantCopy j b).causes = s.causes ∧ (s.grantCopy j b).idle = s.idle ∧
    (s.grantCopy j b).staging = s.staging ∧ (s.grantCopy j b).index = s.index ∧
    (s.grantCopy j b).space.present = s.space.present ∧ (s.grantCopy j b).space.range = s.space.range ∧
    (s.grantCopy j b).space.state = s.space.state ∧ (s.grantCopy j b).space.reasons = s.space.reasons ∧
    (s.grantCopy j b).commit = s.commit ∧ (s.grantCopy j b).mount = s.mount ∧
    (s.grantCopy j b).mountReport = s.mountReport ∧ (s.grantCopy j b).background = s.background ∧
    (s.grantCopy j b).drain = s.drain ∧ (s.grantCopy j b).health.conditions = s.health.conditions ∧
    (s.grantCopy j b).medium = s.medium ∧ (s.grantCopy j b).choices = s.choices := by
  unfold State.grantCopy
  (try dsimp only)
  (repeat' split) <;> first | (simp; done) | (simp_all; done) | (rename_i h; have H := State.claimPages_frame' h; simp_all; done) | (rename_i h _; have H := State.claimPages_frame' h; simp_all; done) | (rename_i h _ _; have H := State.claimPages_frame' h; simp_all; done) | (rename_i h _ _ _; have H := State.claimPages_frame' h; simp_all; done) | (rename_i h _ _ _ _; have H := State.claimPages_frame' h; simp_all; done)

@[simp] theorem State.grantReclaimer_frame (s : State) :
    s.grantReclaimer.pending = s.pending ∧ s.grantReclaimer.power = s.power ∧
    s.grantReclaimer.pfw = s.pfw ∧ s.grantReclaimer.window = s.window ∧ s.grantReclaimer.port = s.port ∧
    s.grantReclaimer.causes = s.causes ∧ s.grantReclaimer.idle = s.idle ∧
    s.grantReclaimer.staging = s.staging ∧ s.grantReclaimer.index = s.index ∧
    s.grantReclaimer.space.present = s.space.present ∧ s.grantReclaimer.space.range = s.space.range ∧
    s.grantReclaimer.space.state = s.space.state ∧ s.grantReclaimer.space.reasons = s.space.reasons ∧
    s.grantReclaimer.commit = s.commit ∧ s.grantReclaimer.mount = s.mount ∧
    s.grantReclaimer.mountReport = s.mountReport ∧ s.grantReclaimer.background = s.background ∧
    s.grantReclaimer.drain = s.drain ∧ s.grantReclaimer.health.conditions = s.health.conditions ∧
    s.grantReclaimer.medium = s.medium ∧ s.grantReclaimer.choices = s.choices := by
  unfold State.grantReclaimer
  (try dsimp only)
  (repeat' split) <;> first | (simp; done) | (simp_all; done)

@[simp] theorem State.copyProgramDone_frame (s : State) (segment : Nat) (page : Nat) :
    (s.copyProgramDone segment page).pending = s.pending ∧
    (s.copyProgramDone segment page).power = s.power ∧ (s.copyProgramDone segment page).pfw = s.pfw ∧
    (s.copyProgramDone segment page).window = s.window ∧ (s.copyProgramDone segment page).port = s.port ∧
    (s.copyProgramDone segment page).causes = s.causes ∧ (s.copyProgramDone segment page).idle = s.idle ∧
    (s.copyProgramDone segment page).staging = s.staging ∧
    (s.copyProgramDone segment page).index.nextSequence = s.index.nextSequence ∧
    (s.copyProgramDone segment page).index.reservations = s.index.reservations ∧
    (s.copyProgramDone segment page).space.present = s.space.present ∧
    (s.copyProgramDone segment page).space.freeList = s.space.freeList ∧
    (s.copyProgramDone segment page).space.openCounter = s.space.openCounter ∧
    (s.copyProgramDone segment page).space.range = s.space.range ∧
    (s.copyProgramDone segment page).space.state = s.space.state ∧
    (s.copyProgramDone segment page).space.reasons = s.space.reasons ∧
    (s.copyProgramDone segment page).commit = s.commit ∧
    (s.copyProgramDone segment page).reclaim.exclusion = s.reclaim.exclusion ∧
    (s.copyProgramDone segment page).sequencer.inFlight = s.sequencer.inFlight ∧
    (s.copyProgramDone segment page).sequencer.fairness = s.sequencer.fairness ∧
    (s.copyProgramDone segment page).sequencer.pin = s.sequencer.pin ∧
    (s.copyProgramDone segment page).mount = s.mount ∧
    (s.copyProgramDone segment page).mountReport = s.mountReport ∧
    (s.copyProgramDone segment page).background = s.background ∧
    (s.copyProgramDone segment page).drain = s.drain ∧
    (s.copyProgramDone segment page).health.conditions = s.health.conditions ∧
    (s.copyProgramDone segment page).medium = s.medium ∧
    (s.copyProgramDone segment page).choices = s.choices := by
  unfold State.copyProgramDone
  (try dsimp only)
  (repeat' split) <;> first | (simp; done) | (simp_all; done)

@[simp] theorem State.copyFailure_frame (s : State) (segment : Nat) (k : Nat) (failure : Failure) :
    (s.copyFailure segment k failure).pending = s.pending ∧
    (s.copyFailure segment k failure).power = s.power ∧ (s.copyFailure segment k failure).pfw = s.pfw ∧
    (s.copyFailure segment k failure).window = s.window ∧ (s.copyFailure segment k failure).port = s.port ∧
    (s.copyFailure segment k failure).causes = s.causes ∧ (s.copyFailure segment k failure).idle = s.idle ∧
    (s.copyFailure segment k failure).staging = s.staging ∧
    (s.copyFailure segment k failure).index.entries = s.index.entries ∧
    (s.copyFailure segment k failure).index.reservations = s.index.reservations ∧
    (s.copyFailure segment k failure).space.present = s.space.present ∧
    (s.copyFailure segment k failure).space.freeList = s.space.freeList ∧
    (s.copyFailure segment k failure).space.openCounter = s.space.openCounter ∧
    (s.copyFailure segment k failure).space.range = s.space.range ∧
    (s.copyFailure segment k failure).space.state = s.space.state ∧
    (s.copyFailure segment k failure).commit = s.commit ∧
    (s.copyFailure segment k failure).sequencer.inFlight = s.sequencer.inFlight ∧
    (s.copyFailure segment k failure).sequencer.pin = s.sequencer.pin ∧
    (s.copyFailure segment k failure).mount = s.mount ∧
    (s.copyFailure segment k failure).mountReport = s.mountReport ∧
    (s.copyFailure segment k failure).background = s.background ∧
    (s.copyFailure segment k failure).drain = s.drain ∧
    (s.copyFailure segment k failure).health.conditions = s.health.conditions ∧
    (s.copyFailure segment k failure).medium = s.medium ∧
    (s.copyFailure segment k failure).choices = s.choices := by
  unfold State.copyFailure
  (try dsimp only)
  (repeat' split) <;> first | (simp; done) | (simp_all; done)

@[simp] theorem State.jobNext_frame (s : State) (j : Job) (outcome : EraseNext) :
    (s.jobNext j outcome).pending = s.pending ∧ (s.jobNext j outcome).power = s.power ∧
    (s.jobNext j outcome).pfw = s.pfw ∧ (s.jobNext j outcome).window = s.window ∧
    (s.jobNext j outcome).port = s.port ∧ (s.jobNext j outcome).causes = s.causes ∧
    (s.jobNext j outcome).idle = s.idle ∧ (s.jobNext j outcome).staging = s.staging ∧
    (s.jobNext j outcome).index = s.index ∧ (s.jobNext j outcome).space = s.space ∧
    (s.jobNext j outcome).commit = s.commit ∧
    (s.jobNext j outcome).reclaim.refreshList = s.reclaim.refreshList ∧
    (s.jobNext j outcome).reclaim.exclusion = s.reclaim.exclusion ∧
    (s.jobNext j outcome).sequencer.inFlight = s.sequencer.inFlight ∧
    (s.jobNext j outcome).sequencer.fairness = s.sequencer.fairness ∧
    (s.jobNext j outcome).sequencer.pin = s.sequencer.pin ∧ (s.jobNext j outcome).mount = s.mount ∧
    (s.jobNext j outcome).mountReport = s.mountReport ∧ (s.jobNext j outcome).background = s.background ∧
    (s.jobNext j outcome).drain = s.drain ∧ (s.jobNext j outcome).health = s.health ∧
    (s.jobNext j outcome).medium = s.medium ∧ (s.jobNext j outcome).choices = s.choices := by
  unfold State.jobNext
  (try dsimp only)
  (repeat' split) <;> first | (simp; done) | (simp_all; done)

@[simp] theorem State.jobEraseEnd_frame (s : State) (segment : Nat) (outcome : MediumEnd) :
    (s.jobEraseEnd segment outcome).pending = s.pending ∧ (s.jobEraseEnd segment outcome).power = s.power ∧
    (s.jobEraseEnd segment outcome).pfw = s.pfw ∧ (s.jobEraseEnd segment outcome).window = s.window ∧
    (s.jobEraseEnd segment outcome).port = s.port ∧ (s.jobEraseEnd segment outcome).causes = s.causes ∧
    (s.jobEraseEnd segment outcome).idle = s.idle ∧ (s.jobEraseEnd segment outcome).staging = s.staging ∧
    (s.jobEraseEnd segment outcome).index = s.index ∧
    (s.jobEraseEnd segment outcome).space.present = s.space.present ∧
    (s.jobEraseEnd segment outcome).space.freeList = s.space.freeList ∧
    (s.jobEraseEnd segment outcome).space.openCounter = s.space.openCounter ∧
    (s.jobEraseEnd segment outcome).space.range = s.space.range ∧
    (s.jobEraseEnd segment outcome).space.state = s.space.state ∧
    (s.jobEraseEnd segment outcome).space.reasons = s.space.reasons ∧
    (s.jobEraseEnd segment outcome).commit = s.commit ∧
    (s.jobEraseEnd segment outcome).reclaim.refreshList = s.reclaim.refreshList ∧
    (s.jobEraseEnd segment outcome).reclaim.exclusion = s.reclaim.exclusion ∧
    (s.jobEraseEnd segment outcome).sequencer.inFlight = s.sequencer.inFlight ∧
    (s.jobEraseEnd segment outcome).sequencer.fairness = s.sequencer.fairness ∧
    (s.jobEraseEnd segment outcome).sequencer.pin = s.sequencer.pin ∧
    (s.jobEraseEnd segment outcome).mount = s.mount ∧
    (s.jobEraseEnd segment outcome).mountReport = s.mountReport ∧
    (s.jobEraseEnd segment outcome).background = s.background ∧
    (s.jobEraseEnd segment outcome).drain = s.drain ∧
    (s.jobEraseEnd segment outcome).health.conditions = s.health.conditions ∧
    (s.jobEraseEnd segment outcome).medium = s.medium ∧ (s.jobEraseEnd segment outcome).choices = s.choices := by
  unfold State.jobEraseEnd
  (try dsimp only)
  (repeat' split) <;> first | (simp; done) | (simp_all; done)

@[simp] theorem State.jobFormatEnd_frame (s : State) (segment : Nat) (outcome : MediumEnd) :
    (s.jobFormatEnd segment outcome).pending = s.pending ∧
    (s.jobFormatEnd segment outcome).power = s.power ∧ (s.jobFormatEnd segment outcome).pfw = s.pfw ∧
    (s.jobFormatEnd segment outcome).window = s.window ∧ (s.jobFormatEnd segment outcome).port = s.port ∧
    (s.jobFormatEnd segment outcome).causes = s.causes ∧ (s.jobFormatEnd segment outcome).idle = s.idle ∧
    (s.jobFormatEnd segment outcome).staging = s.staging ∧
    (s.jobFormatEnd segment outcome).index = s.index ∧
    (s.jobFormatEnd segment outcome).space.present = s.space.present ∧
    (s.jobFormatEnd segment outcome).space.openCounter = s.space.openCounter ∧
    (s.jobFormatEnd segment outcome).space.range = s.space.range ∧
    (s.jobFormatEnd segment outcome).space.state = s.space.state ∧
    (s.jobFormatEnd segment outcome).space.reasons = s.space.reasons ∧
    (s.jobFormatEnd segment outcome).commit = s.commit ∧
    (s.jobFormatEnd segment outcome).reclaim.refreshList = s.reclaim.refreshList ∧
    (s.jobFormatEnd segment outcome).sequencer.inFlight = s.sequencer.inFlight ∧
    (s.jobFormatEnd segment outcome).sequencer.fairness = s.sequencer.fairness ∧
    (s.jobFormatEnd segment outcome).sequencer.pin = s.sequencer.pin ∧
    (s.jobFormatEnd segment outcome).mount = s.mount ∧
    (s.jobFormatEnd segment outcome).mountReport = s.mountReport ∧
    (s.jobFormatEnd segment outcome).background = s.background ∧
    (s.jobFormatEnd segment outcome).drain = s.drain ∧
    (s.jobFormatEnd segment outcome).health.conditions = s.health.conditions ∧
    (s.jobFormatEnd segment outcome).medium = s.medium ∧
    (s.jobFormatEnd segment outcome).choices = s.choices := by
  unfold State.jobFormatEnd
  (try dsimp only)
  (repeat' split) <;> first | (simp; done) | (simp_all; done)

@[simp] theorem State.jobRetireEnd_frame (s : State) (segment : Nat) (reason : RetireReason) (outcome : MediumEnd) :
    (s.jobRetireEnd segment reason outcome).pending = s.pending ∧
    (s.jobRetireEnd segment reason outcome).power = s.power ∧
    (s.jobRetireEnd segment reason outcome).pfw = s.pfw ∧
    (s.jobRetireEnd segment reason outcome).window = s.window ∧
    (s.jobRetireEnd segment reason outcome).port = s.port ∧
    (s.jobRetireEnd segment reason outcome).causes = s.causes ∧
    (s.jobRetireEnd segment reason outcome).idle = s.idle ∧
    (s.jobRetireEnd segment reason outcome).staging = s.staging ∧
    (s.jobRetireEnd segment reason outcome).index = s.index ∧
    (s.jobRetireEnd segment reason outcome).space.present = s.space.present ∧
    (s.jobRetireEnd segment reason outcome).space.freeList = s.space.freeList ∧
    (s.jobRetireEnd segment reason outcome).space.openCounter = s.space.openCounter ∧
    (s.jobRetireEnd segment reason outcome).space.range = s.space.range ∧
    (s.jobRetireEnd segment reason outcome).space.state = s.space.state ∧
    (s.jobRetireEnd segment reason outcome).commit = s.commit ∧
    (s.jobRetireEnd segment reason outcome).reclaim.refreshList = s.reclaim.refreshList ∧
    (s.jobRetireEnd segment reason outcome).reclaim.exclusion = s.reclaim.exclusion ∧
    (s.jobRetireEnd segment reason outcome).sequencer.inFlight = s.sequencer.inFlight ∧
    (s.jobRetireEnd segment reason outcome).sequencer.fairness = s.sequencer.fairness ∧
    (s.jobRetireEnd segment reason outcome).sequencer.pin = s.sequencer.pin ∧
    (s.jobRetireEnd segment reason outcome).mount = s.mount ∧
    (s.jobRetireEnd segment reason outcome).mountReport = s.mountReport ∧
    (s.jobRetireEnd segment reason outcome).background = s.background ∧
    (s.jobRetireEnd segment reason outcome).drain = s.drain ∧
    (s.jobRetireEnd segment reason outcome).health.conditions = s.health.conditions ∧
    (s.jobRetireEnd segment reason outcome).medium = s.medium ∧
    (s.jobRetireEnd segment reason outcome).choices = s.choices := by
  unfold State.jobRetireEnd
  (try dsimp only)
  (repeat' split) <;> first | (simp; done) | (simp_all; done)

@[simp] theorem State.offerRefresh_frame (s : State) (tag : Nat) :
    (s.offerRefresh tag).pending = s.pending ∧ (s.offerRefresh tag).power = s.power ∧
    (s.offerRefresh tag).pfw = s.pfw ∧ (s.offerRefresh tag).window = s.window ∧
    (s.offerRefresh tag).port = s.port ∧ (s.offerRefresh tag).causes = s.causes ∧
    (s.offerRefresh tag).idle = s.idle ∧ (s.offerRefresh tag).staging = s.staging ∧
    (s.offerRefresh tag).index = s.index ∧ (s.offerRefresh tag).space = s.space ∧
    (s.offerRefresh tag).commit = s.commit ∧ (s.offerRefresh tag).reclaim.job = s.reclaim.job ∧
    (s.offerRefresh tag).reclaim.exclusion = s.reclaim.exclusion ∧
    (s.offerRefresh tag).sequencer = s.sequencer ∧ (s.offerRefresh tag).mount = s.mount ∧
    (s.offerRefresh tag).mountReport = s.mountReport ∧ (s.offerRefresh tag).background = s.background ∧
    (s.offerRefresh tag).drain = s.drain ∧ (s.offerRefresh tag).health.conditions = s.health.conditions ∧
    (s.offerRefresh tag).medium = s.medium ∧ (s.offerRefresh tag).choices = s.choices := by
  unfold State.offerRefresh
  (try dsimp only)
  (repeat' split) <;> first | (simp; done) | (simp_all; done)

@[simp] theorem State.loadLength_frame (s : State) (n : Nat) :
    (s.loadLength n).pending = s.pending ∧ (s.loadLength n).power = s.power ∧
    (s.loadLength n).pfw = s.pfw ∧ (s.loadLength n).window.options = s.window.options ∧
    (s.loadLength n).window.nextBundle = s.window.nextBundle ∧
    (s.loadLength n).window.mask = s.window.mask ∧ (s.loadLength n).window.refused = s.window.refused ∧
    (s.loadLength n).window.frame = s.window.frame ∧ (s.loadLength n).window.busOut = s.window.busOut ∧
    (s.loadLength n).port = s.port ∧ (s.loadLength n).causes = s.causes ∧ (s.loadLength n).idle = s.idle ∧
    (s.loadLength n).staging = s.staging ∧ (s.loadLength n).index = s.index ∧
    (s.loadLength n).space = s.space ∧ (s.loadLength n).commit = s.commit ∧
    (s.loadLength n).reclaim = s.reclaim ∧ (s.loadLength n).sequencer = s.sequencer ∧
    (s.loadLength n).mount = s.mount ∧ (s.loadLength n).mountReport = s.mountReport ∧
    (s.loadLength n).background = s.background ∧ (s.loadLength n).drain = s.drain ∧
    (s.loadLength n).health = s.health ∧ (s.loadLength n).medium = s.medium ∧
    (s.loadLength n).choices = s.choices := by
  unfold State.loadLength
  (try dsimp only)
  (repeat' split) <;> first | (simp; done) | (simp_all; done)

@[simp] theorem State.loadSequence_frame (s : State) (n : Nat) :
    (s.loadSequence n).pending = s.pending ∧ (s.loadSequence n).power = s.power ∧
    (s.loadSequence n).pfw = s.pfw ∧ (s.loadSequence n).window.options = s.window.options ∧
    (s.loadSequence n).window.nextBundle = s.window.nextBundle ∧
    (s.loadSequence n).window.mask = s.window.mask ∧ (s.loadSequence n).window.refused = s.window.refused ∧
    (s.loadSequence n).window.frame = s.window.frame ∧ (s.loadSequence n).window.busOut = s.window.busOut ∧
    (s.loadSequence n).port = s.port ∧ (s.loadSequence n).causes = s.causes ∧
    (s.loadSequence n).idle = s.idle ∧ (s.loadSequence n).staging = s.staging ∧
    (s.loadSequence n).index = s.index ∧ (s.loadSequence n).space = s.space ∧
    (s.loadSequence n).commit = s.commit ∧ (s.loadSequence n).reclaim = s.reclaim ∧
    (s.loadSequence n).sequencer = s.sequencer ∧ (s.loadSequence n).mount = s.mount ∧
    (s.loadSequence n).mountReport = s.mountReport ∧ (s.loadSequence n).background = s.background ∧
    (s.loadSequence n).drain = s.drain ∧ (s.loadSequence n).health = s.health ∧
    (s.loadSequence n).medium = s.medium ∧ (s.loadSequence n).choices = s.choices := by
  unfold State.loadSequence
  (try dsimp only)
  (repeat' split) <;> first | (simp; done) | (simp_all; done)

@[simp] theorem State.deliver_frame (s : State) (payload : List Byte) (length : Nat) (sequence : Nat) :
    (s.deliver payload length sequence).pending = s.pending ∧
    (s.deliver payload length sequence).power = s.power ∧ (s.deliver payload length sequence).pfw = s.pfw ∧
    (s.deliver payload length sequence).window.options = s.window.options ∧
    (s.deliver payload length sequence).window.nextBundle = s.window.nextBundle ∧
    (s.deliver payload length sequence).window.mask = s.window.mask ∧
    (s.deliver payload length sequence).window.refused = s.window.refused ∧
    (s.deliver payload length sequence).window.busOut = s.window.busOut ∧
    (s.deliver payload length sequence).staging.pwl = s.staging.pwl ∧
    (s.deliver payload length sequence).index = s.index ∧
    (s.deliver payload length sequence).space = s.space ∧
    (s.deliver payload length sequence).commit = s.commit ∧
    (s.deliver payload length sequence).reclaim = s.reclaim ∧
    (s.deliver payload length sequence).sequencer = s.sequencer ∧
    (s.deliver payload length sequence).mount = s.mount ∧
    (s.deliver payload length sequence).mountReport = s.mountReport ∧
    (s.deliver payload length sequence).background = s.background ∧
    (s.deliver payload length sequence).health = s.health ∧
    (s.deliver payload length sequence).medium = s.medium ∧
    (s.deliver payload length sequence).choices = s.choices := by
  unfold State.deliver
  (try dsimp only)
  (repeat' split) <;> first | (simp; done) | (simp_all; done)

@[simp] theorem State.requestRead_frame (s : State) (e : IndexEntry) :
    (s.requestRead e).pending = s.pending ∧ (s.requestRead e).power = s.power ∧
    (s.requestRead e).pfw = s.pfw ∧ (s.requestRead e).window = s.window ∧
    (s.requestRead e).port.result = s.port.result ∧ (s.requestRead e).port.detail = s.port.detail ∧
    (s.requestRead e).causes = s.causes ∧ (s.requestRead e).idle = s.idle ∧
    (s.requestRead e).staging = s.staging ∧ (s.requestRead e).index = s.index ∧
    (s.requestRead e).space = s.space ∧ (s.requestRead e).commit = s.commit ∧
    (s.requestRead e).reclaim = s.reclaim ∧ (s.requestRead e).sequencer.inFlight = s.sequencer.inFlight ∧
    (s.requestRead e).sequencer.fairness = s.sequencer.fairness ∧
    (s.requestRead e).sequencer.pin = s.sequencer.pin ∧ (s.requestRead e).mount = s.mount ∧
    (s.requestRead e).mountReport = s.mountReport ∧ (s.requestRead e).background = s.background ∧
    (s.requestRead e).drain = s.drain ∧ (s.requestRead e).health = s.health ∧
    (s.requestRead e).medium = s.medium ∧ (s.requestRead e).choices = s.choices := by
  unfold State.requestRead
  (try dsimp only)
  (repeat' split) <;> first | (simp; done) | (simp_all; done)

@[simp] theorem State.fetchLookup_frame (s : State) (tag : Nat) :
    (s.fetchLookup tag).pending = s.pending ∧ (s.fetchLookup tag).power = s.power ∧
    (s.fetchLookup tag).pfw = s.pfw ∧ (s.fetchLookup tag).window.options = s.window.options ∧
    (s.fetchLookup tag).window.nextBundle = s.window.nextBundle ∧
    (s.fetchLookup tag).window.mask = s.window.mask ∧
    (s.fetchLookup tag).window.refused = s.window.refused ∧
    (s.fetchLookup tag).window.busOut = s.window.busOut ∧ (s.fetchLookup tag).staging.pwl = s.staging.pwl ∧
    (s.fetchLookup tag).index = s.index ∧ (s.fetchLookup tag).space = s.space ∧
    (s.fetchLookup tag).commit = s.commit ∧ (s.fetchLookup tag).reclaim = s.reclaim ∧
    (s.fetchLookup tag).sequencer.inFlight = s.sequencer.inFlight ∧
    (s.fetchLookup tag).sequencer.fairness = s.sequencer.fairness ∧
    (s.fetchLookup tag).sequencer.pin = s.sequencer.pin ∧ (s.fetchLookup tag).mount = s.mount ∧
    (s.fetchLookup tag).mountReport = s.mountReport ∧ (s.fetchLookup tag).background = s.background ∧
    (s.fetchLookup tag).health = s.health ∧ (s.fetchLookup tag).medium = s.medium ∧
    (s.fetchLookup tag).choices = s.choices := by
  unfold State.fetchLookup
  (try dsimp only)
  (repeat' split) <;> first | (simp; done) | (simp_all; done)

@[simp] theorem State.grantRead_frame (s : State) :
    s.grantRead.pending = s.pending ∧ s.grantRead.power = s.power ∧ s.grantRead.pfw = s.pfw ∧
    s.grantRead.window = s.window ∧ s.grantRead.port = s.port ∧ s.grantRead.causes = s.causes ∧
    s.grantRead.idle = s.idle ∧ s.grantRead.staging = s.staging ∧ s.grantRead.index = s.index ∧
    s.grantRead.space = s.space ∧ s.grantRead.commit = s.commit ∧ s.grantRead.reclaim = s.reclaim ∧
    s.grantRead.sequencer.requests = s.sequencer.requests ∧
    s.grantRead.sequencer.fairness = s.sequencer.fairness ∧ s.grantRead.mount = s.mount ∧
    s.grantRead.mountReport = s.mountReport ∧ s.grantRead.background = s.background ∧
    s.grantRead.drain = s.drain ∧ s.grantRead.health = s.health ∧ s.grantRead.medium = s.medium ∧
    s.grantRead.choices = s.choices := by
  unfold State.grantRead
  (try dsimp only)
  (repeat' split) <;> first | (simp; done) | (simp_all; done)

@[simp] theorem State.offerAfter_frame (s : State) (tag : Nat) (outcome : ReadOutcome) :
    (s.offerAfter tag outcome).pending = s.pending ∧ (s.offerAfter tag outcome).power = s.power ∧
    (s.offerAfter tag outcome).pfw = s.pfw ∧ (s.offerAfter tag outcome).window = s.window ∧
    (s.offerAfter tag outcome).port = s.port ∧ (s.offerAfter tag outcome).causes = s.causes ∧
    (s.offerAfter tag outcome).idle = s.idle ∧ (s.offerAfter tag outcome).staging = s.staging ∧
    (s.offerAfter tag outcome).index = s.index ∧ (s.offerAfter tag outcome).space = s.space ∧
    (s.offerAfter tag outcome).commit = s.commit ∧ (s.offerAfter tag outcome).reclaim.job = s.reclaim.job ∧
    (s.offerAfter tag outcome).reclaim.exclusion = s.reclaim.exclusion ∧
    (s.offerAfter tag outcome).sequencer = s.sequencer ∧ (s.offerAfter tag outcome).mount = s.mount ∧
    (s.offerAfter tag outcome).mountReport = s.mountReport ∧
    (s.offerAfter tag outcome).background = s.background ∧ (s.offerAfter tag outcome).drain = s.drain ∧
    (s.offerAfter tag outcome).health.conditions = s.health.conditions ∧
    (s.offerAfter tag outcome).medium = s.medium ∧ (s.offerAfter tag outcome).choices = s.choices := by
  unfold State.offerAfter
  (try dsimp only)
  (repeat' split) <;> first | (simp; done) | (simp_all; done)

@[simp] theorem State.takeRead_frame (s : State) (e : IndexEntry) (outcome : ReadOutcome) :
    (s.takeRead e outcome).pending = s.pending ∧ (s.takeRead e outcome).power = s.power ∧
    (s.takeRead e outcome).pfw = s.pfw ∧ (s.takeRead e outcome).index.nextSequence = s.index.nextSequence ∧
    (s.takeRead e outcome).index.reservations = s.index.reservations ∧
    (s.takeRead e outcome).space = s.space ∧ (s.takeRead e outcome).commit = s.commit ∧
    (s.takeRead e outcome).reclaim = s.reclaim ∧ (s.takeRead e outcome).mount = s.mount ∧
    (s.takeRead e outcome).mountReport = s.mountReport ∧ (s.takeRead e outcome).background = s.background ∧
    (s.takeRead e outcome).health = s.health ∧ (s.takeRead e outcome).medium = s.medium ∧
    (s.takeRead e outcome).choices = s.choices := by
  unfold State.takeRead
  (try dsimp only)
  (repeat' split) <;> first | (simp; done) | (simp_all; done) | (rename_i h; have H := State.damagedClaim_frame h; simp_all; done) | (rename_i h _; have H := State.damagedClaim_frame h; simp_all; done) | (rename_i h _ _; have H := State.damagedClaim_frame h; simp_all; done) | (rename_i h _ _ _; have H := State.damagedClaim_frame h; simp_all; done) | (rename_i h _ _ _ _; have H := State.damagedClaim_frame h; simp_all; done)

/-- What a read without its command changes, at the most: the entries of the index (R18). -/
@[simp] theorem State.detachedEnd_frame (s : State) (op : Op) (outcome : ReadOutcome) :
    (s.detachedEnd op outcome).pending = s.pending ∧ (s.detachedEnd op outcome).power = s.power ∧
    (s.detachedEnd op outcome).pfw = s.pfw ∧ (s.detachedEnd op outcome).window = s.window ∧
    (s.detachedEnd op outcome).port = s.port ∧ (s.detachedEnd op outcome).causes = s.causes ∧
    (s.detachedEnd op outcome).idle = s.idle ∧ (s.detachedEnd op outcome).staging = s.staging ∧
    (s.detachedEnd op outcome).index.nextSequence = s.index.nextSequence ∧
    (s.detachedEnd op outcome).index.reservations = s.index.reservations ∧
    (s.detachedEnd op outcome).space = s.space ∧ (s.detachedEnd op outcome).commit = s.commit ∧
    (s.detachedEnd op outcome).reclaim = s.reclaim ∧ (s.detachedEnd op outcome).sequencer = s.sequencer ∧
    (s.detachedEnd op outcome).mount = s.mount ∧ (s.detachedEnd op outcome).mountReport = s.mountReport ∧
    (s.detachedEnd op outcome).background = s.background ∧ (s.detachedEnd op outcome).drain = s.drain ∧
    (s.detachedEnd op outcome).health = s.health ∧ (s.detachedEnd op outcome).medium = s.medium ∧
    (s.detachedEnd op outcome).choices = s.choices := by
  cases outcome <;> cases op <;> simp only [State.detachedEnd, and_self]
  rename_i segment page _ tag sequence
  cases h : s.damagedClaim tag sequence segment page with
  | none => simp
  | some t =>
    have H := State.damagedClaim_frame h
    simp_all

@[simp] theorem State.fetchOutcome_frame (s : State) (op : Op) (tag : Nat) (detached : Bool) (outcome : ReadOutcome) :
    (s.fetchOutcome op tag detached outcome).pending = s.pending ∧
    (s.fetchOutcome op tag detached outcome).power = s.power ∧
    (s.fetchOutcome op tag detached outcome).pfw = s.pfw ∧
    (s.fetchOutcome op tag detached outcome).index.nextSequence = s.index.nextSequence ∧
    (s.fetchOutcome op tag detached outcome).index.reservations = s.index.reservations ∧
    (s.fetchOutcome op tag detached outcome).space = s.space ∧
    (s.fetchOutcome op tag detached outcome).commit = s.commit ∧
    (s.fetchOutcome op tag detached outcome).reclaim.job = s.reclaim.job ∧
    (s.fetchOutcome op tag detached outcome).reclaim.exclusion = s.reclaim.exclusion ∧
    (s.fetchOutcome op tag detached outcome).mount = s.mount ∧
    (s.fetchOutcome op tag detached outcome).mountReport = s.mountReport ∧
    (s.fetchOutcome op tag detached outcome).background = s.background ∧
    (s.fetchOutcome op tag detached outcome).health.conditions = s.health.conditions ∧
    (s.fetchOutcome op tag detached outcome).medium = s.medium ∧
    (s.fetchOutcome op tag detached outcome).choices = s.choices := by
  unfold State.fetchOutcome
  (try dsimp only)
  (repeat' split) <;> first | (simp; done) | (simp_all; done)

@[simp] theorem State.leaveFetch_frame (s : State) :
    s.leaveFetch.pending = s.pending ∧ s.leaveFetch.power = s.power ∧ s.leaveFetch.pfw = s.pfw ∧
    s.leaveFetch.window = s.window ∧ s.leaveFetch.port = s.port ∧ s.leaveFetch.causes = s.causes ∧
    s.leaveFetch.idle = s.idle ∧ s.leaveFetch.staging = s.staging ∧ s.leaveFetch.index = s.index ∧
    s.leaveFetch.space = s.space ∧ s.leaveFetch.commit = s.commit ∧ s.leaveFetch.reclaim = s.reclaim ∧
    s.leaveFetch.sequencer.fairness = s.sequencer.fairness ∧ s.leaveFetch.sequencer.pin = s.sequencer.pin ∧
    s.leaveFetch.mount = s.mount ∧ s.leaveFetch.mountReport = s.mountReport ∧
    s.leaveFetch.background = s.background ∧ s.leaveFetch.drain = s.drain ∧
    s.leaveFetch.health = s.health ∧ s.leaveFetch.medium = s.medium ∧ s.leaveFetch.choices = s.choices := by
  unfold State.leaveFetch
  (try dsimp only)
  (repeat' split) <;> first | (simp; done) | (simp_all; done)

@[simp] theorem State.eraserEnd_frame (s : State) (segment : Nat) (stage : EraseStage) (outcome : MediumEnd) :
    (s.eraserEnd segment stage outcome).2.pending = s.pending ∧
    (s.eraserEnd segment stage outcome).2.power = s.power ∧
    (s.eraserEnd segment stage outcome).2.pfw = s.pfw ∧
    (s.eraserEnd segment stage outcome).2.window = s.window ∧
    (s.eraserEnd segment stage outcome).2.port = s.port ∧
    (s.eraserEnd segment stage outcome).2.causes = s.causes ∧
    (s.eraserEnd segment stage outcome).2.idle = s.idle ∧
    (s.eraserEnd segment stage outcome).2.staging = s.staging ∧
    (s.eraserEnd segment stage outcome).2.index = s.index ∧
    (s.eraserEnd segment stage outcome).2.space.present = s.space.present ∧
    (s.eraserEnd segment stage outcome).2.space.openCounter = s.space.openCounter ∧
    (s.eraserEnd segment stage outcome).2.space.range = s.space.range ∧
    (s.eraserEnd segment stage outcome).2.space.state = s.space.state ∧
    (s.eraserEnd segment stage outcome).2.commit = s.commit ∧
    (s.eraserEnd segment stage outcome).2.reclaim.job = s.reclaim.job ∧
    (s.eraserEnd segment stage outcome).2.reclaim.refreshList = s.reclaim.refreshList ∧
    (s.eraserEnd segment stage outcome).2.sequencer.inFlight = s.sequencer.inFlight ∧
    (s.eraserEnd segment stage outcome).2.sequencer.fairness = s.sequencer.fairness ∧
    (s.eraserEnd segment stage outcome).2.sequencer.pin = s.sequencer.pin ∧
    (s.eraserEnd segment stage outcome).2.mount = s.mount ∧
    (s.eraserEnd segment stage outcome).2.mountReport = s.mountReport ∧
    (s.eraserEnd segment stage outcome).2.background = s.background ∧
    (s.eraserEnd segment stage outcome).2.drain = s.drain ∧
    (s.eraserEnd segment stage outcome).2.health.conditions = s.health.conditions ∧
    (s.eraserEnd segment stage outcome).2.medium = s.medium ∧
    (s.eraserEnd segment stage outcome).2.choices = s.choices := by
  unfold State.eraserEnd
  (try dsimp only)
  (repeat' split) <;> first | (simp; done) | (simp_all; done)

@[simp] theorem State.setHand_frame (s : State) (hand : Option (Nat × EraseStage)) :
    (s.setHand hand).pending = s.pending ∧ (s.setHand hand).power = s.power ∧
    (s.setHand hand).pfw = s.pfw ∧ (s.setHand hand).window = s.window ∧ (s.setHand hand).port = s.port ∧
    (s.setHand hand).causes = s.causes ∧ (s.setHand hand).idle = s.idle ∧
    (s.setHand hand).staging = s.staging ∧ (s.setHand hand).index = s.index ∧
    (s.setHand hand).space = s.space ∧ (s.setHand hand).commit = s.commit ∧
    (s.setHand hand).reclaim = s.reclaim ∧ (s.setHand hand).sequencer = s.sequencer ∧
    (s.setHand hand).mount = s.mount ∧ (s.setHand hand).mountReport = s.mountReport ∧
    (s.setHand hand).drain = s.drain ∧ (s.setHand hand).health = s.health ∧
    (s.setHand hand).medium = s.medium ∧ (s.setHand hand).choices = s.choices := by
  unfold State.setHand
  (try dsimp only)
  (repeat' split) <;> first | (simp; done) | (simp_all; done)

@[simp] theorem State.grantBackground_frame (s : State) :
    s.grantBackground.pending = s.pending ∧ s.grantBackground.power = s.power ∧
    s.grantBackground.pfw = s.pfw ∧ s.grantBackground.window = s.window ∧ s.grantBackground.port = s.port ∧
    s.grantBackground.causes = s.causes ∧ s.grantBackground.idle = s.idle ∧
    s.grantBackground.staging = s.staging ∧ s.grantBackground.index = s.index ∧
    s.grantBackground.space = s.space ∧ s.grantBackground.commit = s.commit ∧
    s.grantBackground.reclaim = s.reclaim ∧ s.grantBackground.sequencer.requests = s.sequencer.requests ∧
    s.grantBackground.sequencer.fairness = s.sequencer.fairness ∧
    s.grantBackground.sequencer.pin = s.sequencer.pin ∧ s.grantBackground.mount = s.mount ∧
    s.grantBackground.mountReport = s.mountReport ∧ s.grantBackground.drain = s.drain ∧
    s.grantBackground.health = s.health ∧ s.grantBackground.medium = s.medium ∧
    s.grantBackground.choices = s.choices := by
  unfold State.grantBackground
  (try dsimp only)
  (repeat' split) <;> first | (simp; done) | (simp_all; done)

@[simp] theorem State.backgroundEnd_frame (s : State) (outcome : MediumEnd) :
    (s.backgroundEnd outcome).pending = s.pending ∧ (s.backgroundEnd outcome).power = s.power ∧
    (s.backgroundEnd outcome).pfw = s.pfw ∧ (s.backgroundEnd outcome).window = s.window ∧
    (s.backgroundEnd outcome).port = s.port ∧ (s.backgroundEnd outcome).causes = s.causes ∧
    (s.backgroundEnd outcome).idle = s.idle ∧ (s.backgroundEnd outcome).staging = s.staging ∧
    (s.backgroundEnd outcome).index = s.index ∧ (s.backgroundEnd outcome).space.present = s.space.present ∧
    (s.backgroundEnd outcome).space.openCounter = s.space.openCounter ∧
    (s.backgroundEnd outcome).space.range = s.space.range ∧
    (s.backgroundEnd outcome).space.state = s.space.state ∧ (s.backgroundEnd outcome).commit = s.commit ∧
    (s.backgroundEnd outcome).reclaim.job = s.reclaim.job ∧
    (s.backgroundEnd outcome).reclaim.refreshList = s.reclaim.refreshList ∧
    (s.backgroundEnd outcome).sequencer.inFlight = s.sequencer.inFlight ∧
    (s.backgroundEnd outcome).sequencer.fairness = s.sequencer.fairness ∧
    (s.backgroundEnd outcome).sequencer.pin = s.sequencer.pin ∧ (s.backgroundEnd outcome).mount = s.mount ∧
    (s.backgroundEnd outcome).mountReport = s.mountReport ∧ (s.backgroundEnd outcome).drain = s.drain ∧
    (s.backgroundEnd outcome).health.conditions = s.health.conditions ∧
    (s.backgroundEnd outcome).medium = s.medium ∧ (s.backgroundEnd outcome).choices = s.choices := by
  unfold State.backgroundEnd
  (try dsimp only)
  (repeat' split) <;> first | (simp; done) | (simp_all; done)

theorem backgroundRequest_frame {s : State} {t : State} (h : backgroundRequest s = some t) :
    t.pending = s.pending ∧ t.power = s.power ∧ t.pfw = s.pfw ∧ t.window = s.window ∧ t.port = s.port ∧
    t.causes = s.causes ∧ t.idle = s.idle ∧ t.staging = s.staging ∧ t.index = s.index ∧ t.space = s.space ∧
    t.commit = s.commit ∧ t.reclaim = s.reclaim ∧ t.sequencer.inFlight = s.sequencer.inFlight ∧
    t.sequencer.fairness = s.sequencer.fairness ∧ t.sequencer.pin = s.sequencer.pin ∧ t.mount = s.mount ∧
    t.mountReport = s.mountReport ∧ t.background = s.background ∧ t.drain = s.drain ∧ t.health = s.health ∧
    t.medium = s.medium ∧ t.choices = s.choices := by
  unfold backgroundRequest at h
  (try dsimp only at h)
  (repeat' split at h) <;> first | (simp at h; done) | (cases h; simp; done) | (cases h; simp_all; done)

@[simp] theorem State.setErasure_frame (s : State) (p : EraseProgress) :
    (s.setErasure p).pending = s.pending ∧ (s.setErasure p).power = s.power ∧
    (s.setErasure p).pfw = s.pfw ∧ (s.setErasure p).window = s.window ∧
    (s.setErasure p).port.state = s.port.state ∧ (s.setErasure p).port.residue = s.port.residue ∧
    (s.setErasure p).port.result = s.port.result ∧ (s.setErasure p).port.detail = s.port.detail ∧
    (s.setErasure p).port.dataTimer = s.port.dataTimer ∧ (s.setErasure p).causes = s.causes ∧
    (s.setErasure p).idle = s.idle ∧ (s.setErasure p).staging = s.staging ∧
    (s.setErasure p).index = s.index ∧ (s.setErasure p).space = s.space ∧
    (s.setErasure p).commit = s.commit ∧ (s.setErasure p).reclaim = s.reclaim ∧
    (s.setErasure p).sequencer = s.sequencer ∧ (s.setErasure p).mount = s.mount ∧
    (s.setErasure p).mountReport = s.mountReport ∧ (s.setErasure p).background = s.background ∧
    (s.setErasure p).drain = s.drain ∧ (s.setErasure p).health = s.health ∧
    (s.setErasure p).medium = s.medium ∧ (s.setErasure p).choices = s.choices := by
  unfold State.setErasure
  (try dsimp only)
  (repeat' split) <;> first | (simp; done) | (simp_all; done)

@[simp] theorem State.recordEnd_frame (s : State) (e : RecordedEnd) :
    (s.recordEnd e).pending = s.pending ∧ (s.recordEnd e).power = s.power ∧ (s.recordEnd e).pfw = s.pfw ∧
    (s.recordEnd e).window = s.window ∧ (s.recordEnd e).port.state = s.port.state ∧
    (s.recordEnd e).port.residue = s.port.residue ∧ (s.recordEnd e).port.result = s.port.result ∧
    (s.recordEnd e).port.detail = s.port.detail ∧ (s.recordEnd e).port.dataTimer = s.port.dataTimer ∧
    (s.recordEnd e).causes = s.causes ∧ (s.recordEnd e).idle = s.idle ∧
    (s.recordEnd e).staging = s.staging ∧ (s.recordEnd e).index = s.index ∧
    (s.recordEnd e).space = s.space ∧ (s.recordEnd e).commit = s.commit ∧
    (s.recordEnd e).reclaim = s.reclaim ∧ (s.recordEnd e).sequencer = s.sequencer ∧
    (s.recordEnd e).mount = s.mount ∧ (s.recordEnd e).mountReport = s.mountReport ∧
    (s.recordEnd e).background = s.background ∧ (s.recordEnd e).drain = s.drain ∧
    (s.recordEnd e).health = s.health ∧ (s.recordEnd e).medium = s.medium ∧
    (s.recordEnd e).choices = s.choices := by
  unfold State.recordEnd
  (try dsimp only)
  (repeat' split) <;> first | (simp; done) | (simp_all; done)

@[simp] theorem State.recordPortReset_frame (s : State) :
    s.recordPortReset.pending = s.pending ∧ s.recordPortReset.power = s.power ∧
    s.recordPortReset.pfw = s.pfw ∧ s.recordPortReset.window = s.window ∧
    s.recordPortReset.port.state = s.port.state ∧ s.recordPortReset.port.residue = s.port.residue ∧
    s.recordPortReset.port.result = s.port.result ∧ s.recordPortReset.port.detail = s.port.detail ∧
    s.recordPortReset.port.dataTimer = s.port.dataTimer ∧ s.recordPortReset.causes = s.causes ∧
    s.recordPortReset.idle = s.idle ∧ s.recordPortReset.staging = s.staging ∧
    s.recordPortReset.index = s.index ∧ s.recordPortReset.space = s.space ∧
    s.recordPortReset.commit = s.commit ∧ s.recordPortReset.reclaim = s.reclaim ∧
    s.recordPortReset.sequencer = s.sequencer ∧ s.recordPortReset.mount = s.mount ∧
    s.recordPortReset.mountReport = s.mountReport ∧ s.recordPortReset.background = s.background ∧
    s.recordPortReset.drain = s.drain ∧ s.recordPortReset.health = s.health ∧
    s.recordPortReset.medium = s.medium ∧ s.recordPortReset.choices = s.choices := by
  unfold State.recordPortReset
  (try dsimp only)
  (repeat' split) <;> first | (simp; done) | (simp_all; done)

@[simp] theorem State.endErasure_frame (s : State) :
    s.endErasure.pending = s.pending ∧ s.endErasure.power = s.power ∧ s.endErasure.pfw = s.pfw ∧
    s.endErasure.window = s.window ∧ s.endErasure.staging.pwl = s.staging.pwl ∧
    s.endErasure.index = s.index ∧ s.endErasure.space = s.space ∧ s.endErasure.commit = s.commit ∧
    s.endErasure.reclaim = s.reclaim ∧ s.endErasure.sequencer = s.sequencer ∧
    s.endErasure.mount = s.mount ∧ s.endErasure.mountReport = s.mountReport ∧
    s.endErasure.background = s.background ∧ s.endErasure.health = s.health ∧
    s.endErasure.medium = s.medium ∧ s.endErasure.choices = s.choices := by
  unfold State.endErasure
  (try dsimp only)
  (repeat' split) <;> first | (simp; done) | (simp_all; done)

@[simp] theorem State.emptyStore_frame (s : State) :
    s.emptyStore.pending = s.pending ∧ s.emptyStore.power = s.power ∧ s.emptyStore.pfw = s.pfw ∧
    s.emptyStore.window = s.window ∧ s.emptyStore.port = s.port ∧ s.emptyStore.causes = s.causes ∧
    s.emptyStore.idle = s.idle ∧ s.emptyStore.staging = s.staging ∧
    s.emptyStore.space.present = s.space.present ∧ s.emptyStore.space.segments = s.space.segments ∧
    s.emptyStore.space.freeList = s.space.freeList ∧ s.emptyStore.space.openCounter = s.space.openCounter ∧
    s.emptyStore.space.range = s.space.range ∧ s.emptyStore.space.state = s.space.state ∧
    s.emptyStore.commit = s.commit ∧ s.emptyStore.reclaim = s.reclaim ∧
    s.emptyStore.sequencer = s.sequencer ∧ s.emptyStore.mount = s.mount ∧
    s.emptyStore.mountReport = s.mountReport ∧ s.emptyStore.background = s.background ∧
    s.emptyStore.drain = s.drain ∧ s.emptyStore.health = s.health ∧ s.emptyStore.medium = s.medium ∧
    s.emptyStore.choices = s.choices := by
  unfold State.emptyStore
  (try dsimp only)
  (repeat' split) <;> first | (simp; done) | (simp_all; done)

@[simp] theorem State.stopErasure_frame (s : State) :
    s.stopErasure.pending = s.pending ∧ s.stopErasure.power = s.power ∧ s.stopErasure.pfw = s.pfw ∧
    s.stopErasure.window = s.window ∧ s.stopErasure.staging.pwl = s.staging.pwl ∧
    s.stopErasure.index = s.index ∧ s.stopErasure.space = s.space ∧ s.stopErasure.commit = s.commit ∧
    s.stopErasure.reclaim = s.reclaim ∧ s.stopErasure.sequencer = s.sequencer ∧
    s.stopErasure.mount = s.mount ∧ s.stopErasure.mountReport = s.mountReport ∧
    s.stopErasure.health = s.health ∧ s.stopErasure.medium = s.medium ∧ s.stopErasure.choices = s.choices := by
  unfold State.stopErasure
  (try dsimp only)
  (repeat' split) <;> first | (simp; done) | (simp_all; done)

@[simp] theorem State.clearSegment_frame (s : State) (n : Nat) :
    (s.clearSegment n).pending = s.pending ∧ (s.clearSegment n).power = s.power ∧
    (s.clearSegment n).pfw = s.pfw ∧ (s.clearSegment n).window = s.window ∧
    (s.clearSegment n).port = s.port ∧ (s.clearSegment n).causes = s.causes ∧
    (s.clearSegment n).idle = s.idle ∧ (s.clearSegment n).staging = s.staging ∧
    (s.clearSegment n).index.nextSequence = s.index.nextSequence ∧
    (s.clearSegment n).index.reservations = s.index.reservations ∧
    (s.clearSegment n).space.present = s.space.present ∧
    (s.clearSegment n).space.freeList = s.space.freeList ∧
    (s.clearSegment n).space.openCounter = s.space.openCounter ∧
    (s.clearSegment n).space.range = s.space.range ∧ (s.clearSegment n).space.state = s.space.state ∧
    (s.clearSegment n).space.reasons = s.space.reasons ∧ (s.clearSegment n).commit = s.commit ∧
    (s.clearSegment n).reclaim = s.reclaim ∧ (s.clearSegment n).sequencer = s.sequencer ∧
    (s.clearSegment n).mount = s.mount ∧ (s.clearSegment n).mountReport = s.mountReport ∧
    (s.clearSegment n).background = s.background ∧ (s.clearSegment n).drain = s.drain ∧
    (s.clearSegment n).health = s.health ∧ (s.clearSegment n).medium = s.medium ∧
    (s.clearSegment n).choices = s.choices := by
  unfold State.clearSegment
  (try dsimp only)
  (repeat' split) <;> first | (simp; done) | (simp_all; done)

@[simp] theorem State.eraseStage_frame (s : State) (n : Nat) (stage : EraseStage) :
    (s.eraseStage n stage).pending = s.pending ∧ (s.eraseStage n stage).power = s.power ∧
    (s.eraseStage n stage).pfw = s.pfw ∧ (s.eraseStage n stage).window = s.window ∧
    (s.eraseStage n stage).port.state = s.port.state ∧
    (s.eraseStage n stage).port.residue = s.port.residue ∧
    (s.eraseStage n stage).port.result = s.port.result ∧
    (s.eraseStage n stage).port.detail = s.port.detail ∧
    (s.eraseStage n stage).port.dataTimer = s.port.dataTimer ∧ (s.eraseStage n stage).causes = s.causes ∧
    (s.eraseStage n stage).idle = s.idle ∧ (s.eraseStage n stage).staging = s.staging ∧
    (s.eraseStage n stage).index = s.index ∧ (s.eraseStage n stage).space = s.space ∧
    (s.eraseStage n stage).commit = s.commit ∧ (s.eraseStage n stage).reclaim = s.reclaim ∧
    (s.eraseStage n stage).sequencer.requests = s.sequencer.requests ∧
    (s.eraseStage n stage).sequencer.fairness = s.sequencer.fairness ∧
    (s.eraseStage n stage).sequencer.pin = s.sequencer.pin ∧ (s.eraseStage n stage).mount = s.mount ∧
    (s.eraseStage n stage).mountReport = s.mountReport ∧ (s.eraseStage n stage).background = s.background ∧
    (s.eraseStage n stage).drain = s.drain ∧ (s.eraseStage n stage).health = s.health ∧
    (s.eraseStage n stage).medium = s.medium ∧ (s.eraseStage n stage).choices = s.choices := by
  unfold State.eraseStage
  (try dsimp only)
  (repeat' split) <;> first | (simp; done) | (simp_all; done)

@[simp] theorem State.setTodo_frame (s : State) (rest : List Nat) :
    (s.setTodo rest).pending = s.pending ∧ (s.setTodo rest).power = s.power ∧
    (s.setTodo rest).pfw = s.pfw ∧ (s.setTodo rest).window = s.window ∧
    (s.setTodo rest).port.state = s.port.state ∧ (s.setTodo rest).port.residue = s.port.residue ∧
    (s.setTodo rest).port.result = s.port.result ∧ (s.setTodo rest).port.detail = s.port.detail ∧
    (s.setTodo rest).port.dataTimer = s.port.dataTimer ∧ (s.setTodo rest).causes = s.causes ∧
    (s.setTodo rest).idle = s.idle ∧ (s.setTodo rest).staging = s.staging ∧
    (s.setTodo rest).index = s.index ∧ (s.setTodo rest).space = s.space ∧
    (s.setTodo rest).commit = s.commit ∧ (s.setTodo rest).reclaim = s.reclaim ∧
    (s.setTodo rest).sequencer = s.sequencer ∧ (s.setTodo rest).mount = s.mount ∧
    (s.setTodo rest).mountReport = s.mountReport ∧ (s.setTodo rest).background = s.background ∧
    (s.setTodo rest).drain = s.drain ∧ (s.setTodo rest).health = s.health ∧
    (s.setTodo rest).medium = s.medium ∧ (s.setTodo rest).choices = s.choices := by
  unfold State.setTodo
  (try dsimp only)
  (repeat' split) <;> first | (simp; done) | (simp_all; done)

@[simp] theorem State.eraseFrom_frame (outcome : List Nat) (s : State) :
    (State.eraseFrom outcome s).pending = s.pending ∧ (State.eraseFrom outcome s).power = s.power ∧
    (State.eraseFrom outcome s).pfw = s.pfw ∧ (State.eraseFrom outcome s).window = s.window ∧
    (State.eraseFrom outcome s).staging.pwl = s.staging.pwl ∧
    (State.eraseFrom outcome s).space.present = s.space.present ∧
    (State.eraseFrom outcome s).space.freeList = s.space.freeList ∧
    (State.eraseFrom outcome s).space.openCounter = s.space.openCounter ∧
    (State.eraseFrom outcome s).space.range = s.space.range ∧
    (State.eraseFrom outcome s).space.state = s.space.state ∧
    (State.eraseFrom outcome s).commit = s.commit ∧ (State.eraseFrom outcome s).reclaim = s.reclaim ∧
    (State.eraseFrom outcome s).sequencer.requests = s.sequencer.requests ∧
    (State.eraseFrom outcome s).sequencer.fairness = s.sequencer.fairness ∧
    (State.eraseFrom outcome s).sequencer.pin = s.sequencer.pin ∧
    (State.eraseFrom outcome s).mount = s.mount ∧ (State.eraseFrom outcome s).mountReport = s.mountReport ∧
    (State.eraseFrom outcome s).health = s.health ∧ (State.eraseFrom outcome s).medium = s.medium ∧
    (State.eraseFrom outcome s).choices = s.choices := by
  induction outcome generalizing s with
  | nil => simp [State.eraseFrom]
  | cons n rest ih =>
    unfold State.eraseFrom
    dsimp only
    repeat' split
    all_goals simp [ih]

@[simp] theorem State.eraseStoreEnd_frame (s : State) (outcome : MediumEnd) :
    (s.eraseStoreEnd outcome).pending = s.pending ∧ (s.eraseStoreEnd outcome).power = s.power ∧
    (s.eraseStoreEnd outcome).pfw = s.pfw ∧ (s.eraseStoreEnd outcome).window = s.window ∧
    (s.eraseStoreEnd outcome).staging.pwl = s.staging.pwl ∧
    (s.eraseStoreEnd outcome).space.present = s.space.present ∧
    (s.eraseStoreEnd outcome).space.openCounter = s.space.openCounter ∧
    (s.eraseStoreEnd outcome).space.range = s.space.range ∧
    (s.eraseStoreEnd outcome).space.state = s.space.state ∧ (s.eraseStoreEnd outcome).commit = s.commit ∧
    (s.eraseStoreEnd outcome).reclaim.job = s.reclaim.job ∧
    (s.eraseStoreEnd outcome).reclaim.refreshList = s.reclaim.refreshList ∧
    (s.eraseStoreEnd outcome).sequencer.fairness = s.sequencer.fairness ∧
    (s.eraseStoreEnd outcome).sequencer.pin = s.sequencer.pin ∧ (s.eraseStoreEnd outcome).mount = s.mount ∧
    (s.eraseStoreEnd outcome).mountReport = s.mountReport ∧
    (s.eraseStoreEnd outcome).health.conditions = s.health.conditions ∧
    (s.eraseStoreEnd outcome).medium = s.medium ∧ (s.eraseStoreEnd outcome).choices = s.choices := by
  unfold State.eraseStoreEnd
  (try dsimp only)
  (repeat' split) <;> first | (simp; done) | (simp_all; done)

@[simp] theorem State.clearWork_frame (s : State) (discard : Bool) :
    (s.clearWork discard).pending = s.pending ∧ (s.clearWork discard).power = s.power ∧
    (s.clearWork discard).pfw = s.pfw ∧ (s.clearWork discard).window = s.window ∧
    (s.clearWork discard).port = s.port ∧ (s.clearWork discard).causes = s.causes ∧
    (s.clearWork discard).idle = s.idle ∧ (s.clearWork discard).index = s.index ∧
    (s.clearWork discard).space.present = s.space.present ∧
    (s.clearWork discard).space.freeList = s.space.freeList ∧
    (s.clearWork discard).space.openCounter = s.space.openCounter ∧
    (s.clearWork discard).space.state = s.space.state ∧
    (s.clearWork discard).space.reasons = s.space.reasons ∧
    (s.clearWork discard).sequencer.inFlight = s.sequencer.inFlight ∧
    (s.clearWork discard).sequencer.pin = s.sequencer.pin ∧ (s.clearWork discard).mount = s.mount ∧
    (s.clearWork discard).mountReport = s.mountReport ∧ (s.clearWork discard).drain = s.drain ∧
    (s.clearWork discard).health = s.health ∧ (s.clearWork discard).medium = s.medium ∧
    (s.clearWork discard).choices = s.choices := by
  unfold State.clearWork
  (try dsimp only)
  (repeat' split) <;> first | (simp; done) | (simp_all; done)

theorem eraseStoreStart_frame {s : State} {t : State} (h : eraseStoreStart s = some t) :
    t.pending = s.pending ∧ t.power = s.power ∧ t.pfw = s.pfw ∧ t.window = s.window ∧
    t.space.present = s.space.present ∧ t.space.freeList = s.space.freeList ∧
    t.space.openCounter = s.space.openCounter ∧ t.space.state = s.space.state ∧
    t.sequencer.pin = s.sequencer.pin ∧ t.mount = s.mount ∧ t.mountReport = s.mountReport ∧
    t.health = s.health ∧ t.medium = s.medium ∧ t.choices = s.choices := by
  unfold eraseStoreStart at h
  (try dsimp only at h)
  (repeat' split at h) <;> first | (simp at h; done) | (cases h; simp; done) | (cases h; simp_all; done)

@[simp] theorem State.grantTo_frame (s : State) (a : Applicant) :
    (s.grantTo a).pending = s.pending ∧ (s.grantTo a).power = s.power ∧ (s.grantTo a).pfw = s.pfw ∧
    (s.grantTo a).window = s.window ∧ (s.grantTo a).index = s.index ∧
    (s.grantTo a).space.present = s.space.present ∧ (s.grantTo a).space.reasons = s.space.reasons ∧
    (s.grantTo a).mount = s.mount ∧ (s.grantTo a).mountReport = s.mountReport ∧
    (s.grantTo a).health.conditions = s.health.conditions ∧ (s.grantTo a).medium = s.medium := by
  unfold State.grantTo
  (try dsimp only)
  (repeat' split) <;> first | (simp; done) | (simp_all; done)

theorem grant_frame {s : State} {t : State} (h : grant s = some t) :
    t.pending = s.pending ∧ t.power = s.power ∧ t.pfw = s.pfw ∧ t.window = s.window ∧ t.index = s.index ∧
    t.space.present = s.space.present ∧ t.space.reasons = s.space.reasons ∧ t.mount = s.mount ∧
    t.mountReport = s.mountReport ∧ t.health.conditions = s.health.conditions ∧ t.medium = s.medium := by
  unfold grant at h
  split at h
  · simp only [Option.map_eq_some_iff] at h
    obtain ⟨k, _, rfl⟩ := h
    simp
  · simp at h

@[simp] theorem State.mountIssue_frame (s : State) (m : MountWork) (op : Op) (allowed : Nat) :
    (s.mountIssue m op allowed).pending = s.pending ∧ (s.mountIssue m op allowed).power = s.power ∧
    (s.mountIssue m op allowed).pfw = s.pfw ∧ (s.mountIssue m op allowed).window = s.window ∧
    (s.mountIssue m op allowed).port = s.port ∧ (s.mountIssue m op allowed).causes = s.causes ∧
    (s.mountIssue m op allowed).idle = s.idle ∧ (s.mountIssue m op allowed).staging = s.staging ∧
    (s.mountIssue m op allowed).index = s.index ∧ (s.mountIssue m op allowed).space = s.space ∧
    (s.mountIssue m op allowed).commit = s.commit ∧ (s.mountIssue m op allowed).reclaim = s.reclaim ∧
    (s.mountIssue m op allowed).sequencer.requests = s.sequencer.requests ∧
    (s.mountIssue m op allowed).sequencer.fairness = s.sequencer.fairness ∧
    (s.mountIssue m op allowed).sequencer.pin = s.sequencer.pin ∧
    (s.mountIssue m op allowed).mountReport = s.mountReport ∧
    (s.mountIssue m op allowed).background = s.background ∧ (s.mountIssue m op allowed).drain = s.drain ∧
    (s.mountIssue m op allowed).health = s.health ∧ (s.mountIssue m op allowed).medium = s.medium ∧
    (s.mountIssue m op allowed).choices = s.choices := by
  unfold State.mountIssue
  (try dsimp only)
  (repeat' split) <;> first | (simp; done) | (simp_all; done)

@[simp] theorem State.leaveMounting_frame (s : State) :
    s.leaveMounting.pending = s.pending ∧ s.leaveMounting.power = s.power ∧ s.leaveMounting.pfw = s.pfw ∧
    s.leaveMounting.window = s.window ∧ s.leaveMounting.port.activity = s.port.activity ∧
    s.leaveMounting.port.residue = s.port.residue ∧ s.leaveMounting.port.result = s.port.result ∧
    s.leaveMounting.port.detail = s.port.detail ∧ s.leaveMounting.port.dataTimer = s.port.dataTimer ∧
    s.leaveMounting.causes = s.causes ∧ s.leaveMounting.staging = s.staging ∧
    s.leaveMounting.index = s.index ∧ s.leaveMounting.space = s.space ∧ s.leaveMounting.commit = s.commit ∧
    s.leaveMounting.reclaim = s.reclaim ∧ s.leaveMounting.sequencer = s.sequencer ∧
    s.leaveMounting.mount = s.mount ∧ s.leaveMounting.mountReport = s.mountReport ∧
    s.leaveMounting.background = s.background ∧ s.leaveMounting.health = s.health ∧
    s.leaveMounting.medium = s.medium ∧ s.leaveMounting.choices = s.choices := by
  unfold State.leaveMounting
  (try dsimp only)
  (repeat' split) <;> first | (simp; done) | (simp_all; done)

@[simp] theorem State.mountEnd_frame (s : State) (m : MountWork) (opened : Option Nat) (torn : Nat) :
    (s.mountEnd m opened torn).pending = s.pending ∧ (s.mountEnd m opened torn).power = s.power ∧
    (s.mountEnd m opened torn).pfw = s.pfw ∧ (s.mountEnd m opened torn).window = s.window ∧
    (s.mountEnd m opened torn).port.activity = s.port.activity ∧
    (s.mountEnd m opened torn).port.residue = s.port.residue ∧
    (s.mountEnd m opened torn).port.result = s.port.result ∧
    (s.mountEnd m opened torn).port.detail = s.port.detail ∧
    (s.mountEnd m opened torn).port.dataTimer = s.port.dataTimer ∧
    (s.mountEnd m opened torn).staging = s.staging ∧ (s.mountEnd m opened torn).commit = s.commit ∧
    (s.mountEnd m opened torn).reclaim = s.reclaim ∧
    (s.mountEnd m opened torn).sequencer.requests = s.sequencer.requests ∧
    (s.mountEnd m opened torn).sequencer.fairness = s.sequencer.fairness ∧
    (s.mountEnd m opened torn).health = s.health ∧ (s.mountEnd m opened torn).medium = s.medium ∧
    (s.mountEnd m opened torn).choices = s.choices := by
  unfold State.mountEnd
  (try dsimp only)
  (repeat' split) <;> first | (simp; done) | (simp_all; done)

@[simp] theorem State.mountResolve_frame (s : State) (m : MountWork) :
    (s.mountResolve m).pending = s.pending ∧ (s.mountResolve m).power = s.power ∧
    (s.mountResolve m).pfw = s.pfw ∧ (s.mountResolve m).window = s.window ∧
    (s.mountResolve m).port.activity = s.port.activity ∧ (s.mountResolve m).port.residue = s.port.residue ∧
    (s.mountResolve m).port.result = s.port.result ∧ (s.mountResolve m).port.detail = s.port.detail ∧
    (s.mountResolve m).port.dataTimer = s.port.dataTimer ∧ (s.mountResolve m).staging = s.staging ∧
    (s.mountResolve m).commit = s.commit ∧ (s.mountResolve m).reclaim = s.reclaim ∧
    (s.mountResolve m).sequencer.requests = s.sequencer.requests ∧
    (s.mountResolve m).sequencer.fairness = s.sequencer.fairness ∧ (s.mountResolve m).health = s.health ∧
    (s.mountResolve m).medium = s.medium ∧ (s.mountResolve m).choices = s.choices := by
  unfold State.mountResolve
  (try dsimp only)
  (repeat' split) <;> first | (simp; done) | (simp_all; done)

@[simp] theorem State.mountScanNext_frame (s : State) (m : MountWork) (outcome : List Nat) :
    (s.mountScanNext m outcome).pending = s.pending ∧ (s.mountScanNext m outcome).power = s.power ∧
    (s.mountScanNext m outcome).pfw = s.pfw ∧ (s.mountScanNext m outcome).window = s.window ∧
    (s.mountScanNext m outcome).port.activity = s.port.activity ∧
    (s.mountScanNext m outcome).port.residue = s.port.residue ∧
    (s.mountScanNext m outcome).port.result = s.port.result ∧
    (s.mountScanNext m outcome).port.detail = s.port.detail ∧
    (s.mountScanNext m outcome).port.dataTimer = s.port.dataTimer ∧
    (s.mountScanNext m outcome).staging = s.staging ∧ (s.mountScanNext m outcome).commit = s.commit ∧
    (s.mountScanNext m outcome).reclaim = s.reclaim ∧
    (s.mountScanNext m outcome).sequencer.requests = s.sequencer.requests ∧
    (s.mountScanNext m outcome).sequencer.fairness = s.sequencer.fairness ∧
    (s.mountScanNext m outcome).health = s.health ∧ (s.mountScanNext m outcome).medium = s.medium ∧
    (s.mountScanNext m outcome).choices = s.choices := by
  unfold State.mountScanNext
  (try dsimp only)
  (repeat' split) <;> first | (simp; done) | (simp_all; done)

@[simp] theorem State.mountHeadersNext_frame (s : State) (m : MountWork) (outcome : List Nat) :
    (s.mountHeadersNext m outcome).pending = s.pending ∧ (s.mountHeadersNext m outcome).power = s.power ∧
    (s.mountHeadersNext m outcome).pfw = s.pfw ∧ (s.mountHeadersNext m outcome).window = s.window ∧
    (s.mountHeadersNext m outcome).port.activity = s.port.activity ∧
    (s.mountHeadersNext m outcome).port.residue = s.port.residue ∧
    (s.mountHeadersNext m outcome).port.result = s.port.result ∧
    (s.mountHeadersNext m outcome).port.detail = s.port.detail ∧
    (s.mountHeadersNext m outcome).port.dataTimer = s.port.dataTimer ∧
    (s.mountHeadersNext m outcome).staging = s.staging ∧ (s.mountHeadersNext m outcome).commit = s.commit ∧
    (s.mountHeadersNext m outcome).reclaim = s.reclaim ∧
    (s.mountHeadersNext m outcome).sequencer.requests = s.sequencer.requests ∧
    (s.mountHeadersNext m outcome).sequencer.fairness = s.sequencer.fairness ∧
    (s.mountHeadersNext m outcome).health = s.health ∧ (s.mountHeadersNext m outcome).medium = s.medium ∧
    (s.mountHeadersNext m outcome).choices = s.choices := by
  unfold State.mountHeadersNext
  (try dsimp only)
  (repeat' split) <;> first | (simp; done) | (simp_all; done)

@[simp] theorem State.mountProbeEnd_frame (s : State) (answer : ProbeAnswer) :
    (s.mountProbeEnd answer).pending = s.pending ∧ (s.mountProbeEnd answer).power = s.power ∧
    (s.mountProbeEnd answer).pfw = s.pfw ∧ (s.mountProbeEnd answer).window = s.window ∧
    (s.mountProbeEnd answer).port.activity = s.port.activity ∧
    (s.mountProbeEnd answer).port.residue = s.port.residue ∧
    (s.mountProbeEnd answer).port.result = s.port.result ∧
    (s.mountProbeEnd answer).port.detail = s.port.detail ∧
    (s.mountProbeEnd answer).port.dataTimer = s.port.dataTimer ∧
    (s.mountProbeEnd answer).staging = s.staging ∧ (s.mountProbeEnd answer).commit = s.commit ∧
    (s.mountProbeEnd answer).reclaim = s.reclaim ∧
    (s.mountProbeEnd answer).sequencer.requests = s.sequencer.requests ∧
    (s.mountProbeEnd answer).sequencer.fairness = s.sequencer.fairness ∧
    (s.mountProbeEnd answer).health = s.health ∧ (s.mountProbeEnd answer).medium = s.medium ∧
    (s.mountProbeEnd answer).choices = s.choices := by
  unfold State.mountProbeEnd
  (try dsimp only)
  (repeat' split) <;> first | (simp; done) | (simp_all; done)

@[simp] theorem State.mountHeaderEnd_frame (s : State) (segment : Nat) (p : PageFindings) :
    (s.mountHeaderEnd segment p).pending = s.pending ∧ (s.mountHeaderEnd segment p).power = s.power ∧
    (s.mountHeaderEnd segment p).pfw = s.pfw ∧ (s.mountHeaderEnd segment p).window = s.window ∧
    (s.mountHeaderEnd segment p).port.activity = s.port.activity ∧
    (s.mountHeaderEnd segment p).port.residue = s.port.residue ∧
    (s.mountHeaderEnd segment p).port.result = s.port.result ∧
    (s.mountHeaderEnd segment p).port.detail = s.port.detail ∧
    (s.mountHeaderEnd segment p).port.dataTimer = s.port.dataTimer ∧
    (s.mountHeaderEnd segment p).staging = s.staging ∧ (s.mountHeaderEnd segment p).commit = s.commit ∧
    (s.mountHeaderEnd segment p).reclaim = s.reclaim ∧
    (s.mountHeaderEnd segment p).sequencer.requests = s.sequencer.requests ∧
    (s.mountHeaderEnd segment p).sequencer.fairness = s.sequencer.fairness ∧
    (s.mountHeaderEnd segment p).health = s.health ∧ (s.mountHeaderEnd segment p).medium = s.medium ∧
    (s.mountHeaderEnd segment p).choices = s.choices := by
  unfold State.mountHeaderEnd
  (try dsimp only)
  (repeat' split) <;> first | (simp; done) | (simp_all; done)

@[simp] theorem State.mountScanEnd_frame (s : State) (segment : Nat) (page : Nat) (finding : Finding Record) :
    (s.mountScanEnd segment page finding).pending = s.pending ∧
    (s.mountScanEnd segment page finding).power = s.power ∧
    (s.mountScanEnd segment page finding).pfw = s.pfw ∧
    (s.mountScanEnd segment page finding).window = s.window ∧
    (s.mountScanEnd segment page finding).port.activity = s.port.activity ∧
    (s.mountScanEnd segment page finding).port.residue = s.port.residue ∧
    (s.mountScanEnd segment page finding).port.result = s.port.result ∧
    (s.mountScanEnd segment page finding).port.detail = s.port.detail ∧
    (s.mountScanEnd segment page finding).port.dataTimer = s.port.dataTimer ∧
    (s.mountScanEnd segment page finding).staging = s.staging ∧
    (s.mountScanEnd segment page finding).commit = s.commit ∧
    (s.mountScanEnd segment page finding).reclaim = s.reclaim ∧
    (s.mountScanEnd segment page finding).sequencer.requests = s.sequencer.requests ∧
    (s.mountScanEnd segment page finding).sequencer.fairness = s.sequencer.fairness ∧
    (s.mountScanEnd segment page finding).health = s.health ∧
    (s.mountScanEnd segment page finding).medium = s.medium ∧
    (s.mountScanEnd segment page finding).choices = s.choices := by
  unfold State.mountScanEnd
  (try dsimp only)
  (repeat' split) <;> first | (simp; done) | (simp_all; done)

@[simp] theorem State.mountBlankEnd_frame (s : State) (segment : Nat) (blank : Bool) :
    (s.mountBlankEnd segment blank).pending = s.pending ∧ (s.mountBlankEnd segment blank).power = s.power ∧
    (s.mountBlankEnd segment blank).pfw = s.pfw ∧ (s.mountBlankEnd segment blank).window = s.window ∧
    (s.mountBlankEnd segment blank).port.activity = s.port.activity ∧
    (s.mountBlankEnd segment blank).port.residue = s.port.residue ∧
    (s.mountBlankEnd segment blank).port.result = s.port.result ∧
    (s.mountBlankEnd segment blank).port.detail = s.port.detail ∧
    (s.mountBlankEnd segment blank).port.dataTimer = s.port.dataTimer ∧
    (s.mountBlankEnd segment blank).staging = s.staging ∧
    (s.mountBlankEnd segment blank).commit = s.commit ∧
    (s.mountBlankEnd segment blank).reclaim = s.reclaim ∧
    (s.mountBlankEnd segment blank).sequencer.requests = s.sequencer.requests ∧
    (s.mountBlankEnd segment blank).sequencer.fairness = s.sequencer.fairness ∧
    (s.mountBlankEnd segment blank).health = s.health ∧ (s.mountBlankEnd segment blank).medium = s.medium ∧
    (s.mountBlankEnd segment blank).choices = s.choices := by
  unfold State.mountBlankEnd
  (try dsimp only)
  (repeat' split) <;> first | (simp; done) | (simp_all; done)

end Sys2Proof.Machine
end

