-- ==== Sys2Proof/Laws/FramePort.lean ====
section
/-! SUPPORT. What each operation of the port, the medium events and the resets leaves unchanged, field by
field, as simp rules. -/

namespace Sys2Proof.Machine

theorem drainEnd_frame {s : State} {t : State} (h : drainEnd s = some t) :
    t.pending = s.pending ∧ t.power = s.power ∧ t.pfw = s.pfw ∧ t.window = s.window ∧ t.port = s.port ∧
    t.idle = s.idle ∧ t.staging = s.staging ∧ t.index = s.index ∧ t.space = s.space ∧ t.commit = s.commit ∧
    t.reclaim = s.reclaim ∧ t.sequencer = s.sequencer ∧ t.mount = s.mount ∧ t.mountReport = s.mountReport ∧
    t.background = s.background ∧ t.health = s.health ∧ t.medium = s.medium ∧ t.choices = s.choices := by
  unfold drainEnd at h
  (try dsimp only at h)
  (repeat' split at h) <;> first | (simp at h; done) | (cases h; simp; done) | (cases h; simp_all; done)

@[simp] theorem State.ageRequests_frame (s : State) :
    s.ageRequests.pending = s.pending ∧ s.ageRequests.power = s.power ∧ s.ageRequests.pfw = s.pfw ∧
    s.ageRequests.window = s.window ∧ s.ageRequests.port = s.port ∧ s.ageRequests.causes = s.causes ∧
    s.ageRequests.idle = s.idle ∧ s.ageRequests.staging = s.staging ∧ s.ageRequests.index = s.index ∧
    s.ageRequests.space = s.space ∧ s.ageRequests.commit = s.commit ∧ s.ageRequests.reclaim = s.reclaim ∧
    s.ageRequests.sequencer.inFlight = s.sequencer.inFlight ∧
    s.ageRequests.sequencer.fairness = s.sequencer.fairness ∧
    s.ageRequests.sequencer.pin = s.sequencer.pin ∧ s.ageRequests.mount = s.mount ∧
    s.ageRequests.mountReport = s.mountReport ∧ s.ageRequests.background = s.background ∧
    s.ageRequests.drain = s.drain ∧ s.ageRequests.health = s.health ∧ s.ageRequests.medium = s.medium ∧
    s.ageRequests.choices = s.choices ∧ s.ageRequests.commitDue = s.commitDue := by
  unfold State.ageRequests
  (try dsimp only)
  (repeat' split) <;> first | (simp; done) | (simp_all; done)

@[simp] theorem State.refuse_frame (s : State) :
    s.refuse.pending = s.pending ∧ s.refuse.power = s.power ∧ s.refuse.pfw = s.pfw ∧
    s.refuse.window.options = s.window.options ∧ s.refuse.window.nextBundle = s.window.nextBundle ∧
    s.refuse.window.mask = s.window.mask ∧ s.refuse.window.frame = s.window.frame ∧
    s.refuse.window.busOut = s.window.busOut ∧ s.refuse.port = s.port ∧ s.refuse.causes = s.causes ∧
    s.refuse.idle = s.idle ∧ s.refuse.staging = s.staging ∧ s.refuse.index = s.index ∧
    s.refuse.space = s.space ∧ s.refuse.commit = s.commit ∧ s.refuse.reclaim = s.reclaim ∧
    s.refuse.sequencer = s.sequencer ∧ s.refuse.mount = s.mount ∧ s.refuse.mountReport = s.mountReport ∧
    s.refuse.background = s.background ∧ s.refuse.drain = s.drain ∧ s.refuse.health = s.health ∧
    s.refuse.medium = s.medium ∧ s.refuse.choices = s.choices := by
  unfold State.refuse
  (try dsimp only)
  (repeat' split) <;> first | (simp; done) | (simp_all; done)

@[simp] theorem State.take_frame (s : State) (code : Word) :
    (s.take code).pending = s.pending ∧ (s.take code).power = s.power ∧ (s.take code).pfw = s.pfw ∧
    (s.take code).window.options = s.window.options ∧
    (s.take code).window.nextBundle = s.window.nextBundle ∧ (s.take code).window.mask = s.window.mask ∧
    (s.take code).window.refused = s.window.refused ∧ (s.take code).window.frame = s.window.frame ∧
    (s.take code).window.busOut = s.window.busOut ∧ (s.take code).causes = s.causes ∧
    (s.take code).staging = s.staging ∧ (s.take code).index = s.index ∧ (s.take code).space = s.space ∧
    (s.take code).commit = s.commit ∧ (s.take code).reclaim = s.reclaim ∧
    (s.take code).sequencer = s.sequencer ∧ (s.take code).mount = s.mount ∧
    (s.take code).mountReport = s.mountReport ∧ (s.take code).background = s.background ∧
    (s.take code).drain = s.drain ∧ (s.take code).health = s.health ∧ (s.take code).medium = s.medium ∧
    (s.take code).choices = s.choices := by
  unfold State.take
  (try dsimp only)
  (repeat' split) <;> first | (simp; done) | (simp_all; done)

@[simp] theorem State.storeBody_frame (s : State) :
    s.storeBody.pending = s.pending ∧ s.storeBody.power = s.power ∧ s.storeBody.pfw = s.pfw ∧
    s.storeBody.window = s.window ∧ s.storeBody.index = s.index ∧ s.storeBody.space = s.space ∧
    s.storeBody.commit = s.commit ∧ s.storeBody.reclaim = s.reclaim ∧ s.storeBody.sequencer = s.sequencer ∧
    s.storeBody.mount = s.mount ∧ s.storeBody.mountReport = s.mountReport ∧
    s.storeBody.background = s.background ∧ s.storeBody.health = s.health ∧ s.storeBody.medium = s.medium ∧
    s.storeBody.choices = s.choices := by
  unfold State.storeBody
  (try dsimp only)
  (repeat' split) <;> first | (simp; done) | (simp_all; done)

@[simp] theorem State.removeBody_frame (s : State) :
    s.removeBody.pending = s.pending ∧ s.removeBody.power = s.power ∧ s.removeBody.pfw = s.pfw ∧
    s.removeBody.window = s.window ∧ s.removeBody.index = s.index ∧ s.removeBody.space = s.space ∧
    s.removeBody.commit = s.commit ∧ s.removeBody.reclaim = s.reclaim ∧
    s.removeBody.sequencer = s.sequencer ∧ s.removeBody.mount = s.mount ∧
    s.removeBody.mountReport = s.mountReport ∧ s.removeBody.background = s.background ∧
    s.removeBody.health = s.health ∧ s.removeBody.medium = s.medium ∧ s.removeBody.choices = s.choices := by
  unfold State.removeBody
  (try dsimp only)
  (repeat' split) <;> first | (simp; done) | (simp_all; done)

@[simp] theorem State.bundleBody_frame (s : State) :
    s.bundleBody.pending = s.pending ∧ s.bundleBody.power = s.power ∧ s.bundleBody.pfw = s.pfw ∧
    s.bundleBody.window = s.window ∧ s.bundleBody.staging.pwl = s.staging.pwl ∧
    s.bundleBody.index = s.index ∧ s.bundleBody.space = s.space ∧ s.bundleBody.commit = s.commit ∧
    s.bundleBody.reclaim = s.reclaim ∧ s.bundleBody.sequencer = s.sequencer ∧
    s.bundleBody.mount = s.mount ∧ s.bundleBody.mountReport = s.mountReport ∧
    s.bundleBody.background = s.background ∧ s.bundleBody.health = s.health ∧
    s.bundleBody.medium = s.medium ∧ s.bundleBody.choices = s.choices := by
  unfold State.bundleBody
  (try dsimp only)
  (repeat' split) <;> first | (simp; done) | (simp_all; done)

@[simp] theorem State.bundleAccepted_frame (s : State) (members : List DescriptorMember) (through : Bool) :
    (s.bundleAccepted members through).pending = s.pending ∧
    (s.bundleAccepted members through).power = s.power ∧ (s.bundleAccepted members through).pfw = s.pfw ∧
    (s.bundleAccepted members through).window.options = s.window.options ∧
    (s.bundleAccepted members through).window.mask = s.window.mask ∧
    (s.bundleAccepted members through).window.refused = s.window.refused ∧
    (s.bundleAccepted members through).window.frame = s.window.frame ∧
    (s.bundleAccepted members through).window.busOut = s.window.busOut ∧
    (s.bundleAccepted members through).index = s.index ∧
    (s.bundleAccepted members through).space = s.space ∧
    (s.bundleAccepted members through).commit = s.commit ∧
    (s.bundleAccepted members through).reclaim = s.reclaim ∧
    (s.bundleAccepted members through).sequencer = s.sequencer ∧
    (s.bundleAccepted members through).mount = s.mount ∧
    (s.bundleAccepted members through).mountReport = s.mountReport ∧
    (s.bundleAccepted members through).background = s.background ∧
    (s.bundleAccepted members through).health = s.health ∧
    (s.bundleAccepted members through).medium = s.medium ∧
    (s.bundleAccepted members through).choices = s.choices := by
  unfold State.bundleAccepted
  (try dsimp only)
  (repeat' split) <;> first | (simp; done) | (simp_all; done)

@[simp] theorem State.bundleChecks_frame (s : State) (n : Nat) (through : Bool) :
    (s.bundleChecks n through).pending = s.pending ∧ (s.bundleChecks n through).power = s.power ∧
    (s.bundleChecks n through).pfw = s.pfw ∧ (s.bundleChecks n through).window.options = s.window.options ∧
    (s.bundleChecks n through).window.mask = s.window.mask ∧
    (s.bundleChecks n through).window.refused = s.window.refused ∧
    (s.bundleChecks n through).window.frame = s.window.frame ∧
    (s.bundleChecks n through).window.busOut = s.window.busOut ∧
    (s.bundleChecks n through).index = s.index ∧ (s.bundleChecks n through).space = s.space ∧
    (s.bundleChecks n through).commit = s.commit ∧ (s.bundleChecks n through).reclaim = s.reclaim ∧
    (s.bundleChecks n through).sequencer = s.sequencer ∧ (s.bundleChecks n through).mount = s.mount ∧
    (s.bundleChecks n through).mountReport = s.mountReport ∧
    (s.bundleChecks n through).background = s.background ∧ (s.bundleChecks n through).health = s.health ∧
    (s.bundleChecks n through).medium = s.medium ∧ (s.bundleChecks n through).choices = s.choices := by
  unfold State.bundleChecks
  (try dsimp only)
  (repeat' split) <;> first | (simp; done) | (simp_all; done)

@[simp] theorem State.fetchBody_frame (s : State) :
    s.fetchBody.pending = s.pending ∧ s.fetchBody.power = s.power ∧ s.fetchBody.pfw = s.pfw ∧
    s.fetchBody.window.options = s.window.options ∧ s.fetchBody.window.nextBundle = s.window.nextBundle ∧
    s.fetchBody.window.mask = s.window.mask ∧ s.fetchBody.window.refused = s.window.refused ∧
    s.fetchBody.window.busOut = s.window.busOut ∧ s.fetchBody.staging.pwl = s.staging.pwl ∧
    s.fetchBody.index = s.index ∧ s.fetchBody.space = s.space ∧ s.fetchBody.commit = s.commit ∧
    s.fetchBody.reclaim = s.reclaim ∧ s.fetchBody.sequencer.inFlight = s.sequencer.inFlight ∧
    s.fetchBody.sequencer.fairness = s.sequencer.fairness ∧ s.fetchBody.sequencer.pin = s.sequencer.pin ∧
    s.fetchBody.mount = s.mount ∧ s.fetchBody.mountReport = s.mountReport ∧
    s.fetchBody.background = s.background ∧ s.fetchBody.health = s.health ∧ s.fetchBody.medium = s.medium ∧
    s.fetchBody.choices = s.choices := by
  unfold State.fetchBody
  (try dsimp only)
  (repeat' split) <;> first | (simp; done) | (simp_all; done)

@[simp] theorem State.describeBody_frame (s : State) :
    s.describeBody.pending = s.pending ∧ s.describeBody.power = s.power ∧ s.describeBody.pfw = s.pfw ∧
    s.describeBody.window.options = s.window.options ∧
    s.describeBody.window.nextBundle = s.window.nextBundle ∧ s.describeBody.window.mask = s.window.mask ∧
    s.describeBody.window.refused = s.window.refused ∧ s.describeBody.window.frame = s.window.frame ∧
    s.describeBody.window.busOut = s.window.busOut ∧ s.describeBody.staging.pwl = s.staging.pwl ∧
    s.describeBody.index = s.index ∧ s.describeBody.space = s.space ∧ s.describeBody.commit = s.commit ∧
    s.describeBody.reclaim = s.reclaim ∧ s.describeBody.sequencer = s.sequencer ∧
    s.describeBody.mount = s.mount ∧ s.describeBody.mountReport = s.mountReport ∧
    s.describeBody.background = s.background ∧ s.describeBody.health = s.health ∧
    s.describeBody.medium = s.medium ∧ s.describeBody.choices = s.choices := by
  unfold State.describeBody
  (try dsimp only)
  (repeat' split) <;> first | (simp; done) | (simp_all; done)

@[simp] theorem State.enumerateBody_frame (s : State) :
    s.enumerateBody.pending = s.pending ∧ s.enumerateBody.power = s.power ∧ s.enumerateBody.pfw = s.pfw ∧
    s.enumerateBody.window.options = s.window.options ∧
    s.enumerateBody.window.nextBundle = s.window.nextBundle ∧ s.enumerateBody.window.mask = s.window.mask ∧
    s.enumerateBody.window.refused = s.window.refused ∧ s.enumerateBody.window.busOut = s.window.busOut ∧
    s.enumerateBody.staging.pwl = s.staging.pwl ∧ s.enumerateBody.index = s.index ∧
    s.enumerateBody.space = s.space ∧ s.enumerateBody.commit = s.commit ∧
    s.enumerateBody.reclaim = s.reclaim ∧ s.enumerateBody.sequencer = s.sequencer ∧
    s.enumerateBody.mount = s.mount ∧ s.enumerateBody.mountReport = s.mountReport ∧
    s.enumerateBody.background = s.background ∧ s.enumerateBody.health = s.health ∧
    s.enumerateBody.medium = s.medium ∧ s.enumerateBody.choices = s.choices := by
  unfold State.enumerateBody
  (try dsimp only)
  (repeat' split) <;> first | (simp; done) | (simp_all; done)

@[simp] theorem State.syncOn_frame (s : State) :
    s.syncOn.pending = s.pending ∧ s.syncOn.power = s.power ∧ s.syncOn.pfw = s.pfw ∧
    s.syncOn.window = s.window ∧ s.syncOn.staging.pwl = s.staging.pwl ∧ s.syncOn.index = s.index ∧
    s.syncOn.space = s.space ∧ s.syncOn.commit = s.commit ∧ s.syncOn.reclaim = s.reclaim ∧
    s.syncOn.sequencer = s.sequencer ∧ s.syncOn.mount = s.mount ∧ s.syncOn.mountReport = s.mountReport ∧
    s.syncOn.background = s.background ∧ s.syncOn.health = s.health ∧ s.syncOn.medium = s.medium ∧
    s.syncOn.choices = s.choices := by
  unfold State.syncOn
  (try dsimp only)
  (repeat' split) <;> first | (simp; done) | (simp_all; done)

@[simp] theorem State.syncBody_frame (s : State) :
    s.syncBody.pending = s.pending ∧ s.syncBody.power = s.power ∧ s.syncBody.pfw = s.pfw ∧
    s.syncBody.window = s.window ∧ s.syncBody.index.entries = s.index.entries ∧
    s.syncBody.index.reservations = s.index.reservations ∧ s.syncBody.space.present = s.space.present ∧
    s.syncBody.space.segments = s.space.segments ∧ s.syncBody.space.freeList = s.space.freeList ∧
    s.syncBody.space.openCounter = s.space.openCounter ∧ s.syncBody.space.range = s.space.range ∧
    s.syncBody.space.state = s.space.state ∧ s.syncBody.reclaim = s.reclaim ∧
    s.syncBody.sequencer.inFlight = s.sequencer.inFlight ∧
    s.syncBody.sequencer.fairness = s.sequencer.fairness ∧ s.syncBody.sequencer.pin = s.sequencer.pin ∧
    s.syncBody.mount = s.mount ∧ s.syncBody.mountReport = s.mountReport ∧
    s.syncBody.background = s.background ∧ s.syncBody.health = s.health ∧ s.syncBody.medium = s.medium ∧
    s.syncBody.choices = s.choices := by
  unfold State.syncBody
  (try dsimp only)
  (repeat' split) <;> first | (simp; done) | (simp_all; done)

@[simp] theorem State.setOptionBody_frame (s : State) :
    s.setOptionBody.pending = s.pending ∧ s.setOptionBody.power = s.power ∧ s.setOptionBody.pfw = s.pfw ∧
    s.setOptionBody.window.nextBundle = s.window.nextBundle ∧ s.setOptionBody.window.mask = s.window.mask ∧
    s.setOptionBody.window.refused = s.window.refused ∧ s.setOptionBody.window.frame = s.window.frame ∧
    s.setOptionBody.window.busOut = s.window.busOut ∧ s.setOptionBody.staging.pwl = s.staging.pwl ∧
    s.setOptionBody.index = s.index ∧ s.setOptionBody.space = s.space ∧ s.setOptionBody.commit = s.commit ∧
    s.setOptionBody.reclaim = s.reclaim ∧ s.setOptionBody.sequencer = s.sequencer ∧
    s.setOptionBody.mount = s.mount ∧ s.setOptionBody.mountReport = s.mountReport ∧
    s.setOptionBody.background = s.background ∧ s.setOptionBody.health = s.health ∧
    s.setOptionBody.medium = s.medium ∧ s.setOptionBody.choices = s.choices := by
  unfold State.setOptionBody
  (try dsimp only)
  (repeat' split) <;> first | (simp; done) | (simp_all; done)

@[simp] theorem State.readOptionBody_frame (s : State) :
    s.readOptionBody.pending = s.pending ∧ s.readOptionBody.power = s.power ∧
    s.readOptionBody.pfw = s.pfw ∧ s.readOptionBody.window.options = s.window.options ∧
    s.readOptionBody.window.nextBundle = s.window.nextBundle ∧
    s.readOptionBody.window.mask = s.window.mask ∧ s.readOptionBody.window.refused = s.window.refused ∧
    s.readOptionBody.window.frame = s.window.frame ∧ s.readOptionBody.window.busOut = s.window.busOut ∧
    s.readOptionBody.staging.pwl = s.staging.pwl ∧ s.readOptionBody.index = s.index ∧
    s.readOptionBody.space = s.space ∧ s.readOptionBody.commit = s.commit ∧
    s.readOptionBody.reclaim = s.reclaim ∧ s.readOptionBody.sequencer = s.sequencer ∧
    s.readOptionBody.mount = s.mount ∧ s.readOptionBody.mountReport = s.mountReport ∧
    s.readOptionBody.background = s.background ∧ s.readOptionBody.health = s.health ∧
    s.readOptionBody.medium = s.medium ∧ s.readOptionBody.choices = s.choices := by
  unfold State.readOptionBody
  (try dsimp only)
  (repeat' split) <;> first | (simp; done) | (simp_all; done)

@[simp] theorem State.reportBody_frame (s : State) :
    s.reportBody.pending = s.pending ∧ s.reportBody.power = s.power ∧ s.reportBody.pfw = s.pfw ∧
    s.reportBody.window.options = s.window.options ∧ s.reportBody.window.nextBundle = s.window.nextBundle ∧
    s.reportBody.window.mask = s.window.mask ∧ s.reportBody.window.refused = s.window.refused ∧
    s.reportBody.window.busOut = s.window.busOut ∧ s.reportBody.port.result = s.port.result ∧
    s.reportBody.port.detail = s.port.detail ∧ s.reportBody.idle = s.idle ∧
    s.reportBody.staging = s.staging ∧ s.reportBody.index = s.index ∧ s.reportBody.space = s.space ∧
    s.reportBody.commit = s.commit ∧ s.reportBody.reclaim = s.reclaim ∧
    s.reportBody.sequencer = s.sequencer ∧ s.reportBody.mount = s.mount ∧
    s.reportBody.mountReport = s.mountReport ∧ s.reportBody.background = s.background ∧
    s.reportBody.drain = s.drain ∧ s.reportBody.health = s.health ∧ s.reportBody.medium = s.medium ∧
    s.reportBody.choices = s.choices := by
  unfold State.reportBody
  (try dsimp only)
  (repeat' split) <;> first | (simp; done) | (simp_all; done)

@[simp] theorem State.eraseBody_frame (s : State) :
    s.eraseBody.pending = s.pending ∧ s.eraseBody.power = s.power ∧ s.eraseBody.pfw = s.pfw ∧
    s.eraseBody.window = s.window ∧ s.eraseBody.staging.pwl = s.staging.pwl ∧ s.eraseBody.index = s.index ∧
    s.eraseBody.space = s.space ∧ s.eraseBody.commit = s.commit ∧ s.eraseBody.sequencer = s.sequencer ∧
    s.eraseBody.mount = s.mount ∧ s.eraseBody.mountReport = s.mountReport ∧
    s.eraseBody.background = s.background ∧ s.eraseBody.health = s.health ∧ s.eraseBody.medium = s.medium ∧
    s.eraseBody.choices = s.choices := by
  unfold State.eraseBody
  (try dsimp only)
  (repeat' split) <;> first | (simp; done) | (simp_all; done)

/-- The Reclaimer's lists stand, or are emptied by the beginning of ERASE STORE (R98). -/
theorem State.eraseBody_lists (s : State) :
    (s.eraseBody.reclaim.refreshList = s.reclaim.refreshList ∧
        s.eraseBody.reclaim.exclusion = s.reclaim.exclusion) ∨
      (s.eraseBody.reclaim.refreshList = [] ∧ s.eraseBody.reclaim.exclusion = []) := by
  unfold State.eraseBody
  split
  · simp
  · rw [State.yieldToErase_eq]
    dsimp only
    split <;> simp

@[simp] theorem State.commandBody_frame (code : Word) (s : State) :
    (State.commandBody code s).pending = s.pending ∧ (State.commandBody code s).power = s.power ∧
    (State.commandBody code s).pfw = s.pfw ∧
    (State.commandBody code s).window.nextBundle = s.window.nextBundle ∧
    (State.commandBody code s).window.mask = s.window.mask ∧
    (State.commandBody code s).window.refused = s.window.refused ∧
    (State.commandBody code s).window.busOut = s.window.busOut ∧
    (State.commandBody code s).index.entries = s.index.entries ∧
    (State.commandBody code s).index.reservations = s.index.reservations ∧
    (State.commandBody code s).space.present = s.space.present ∧
    (State.commandBody code s).space.segments = s.space.segments ∧
    (State.commandBody code s).space.freeList = s.space.freeList ∧
    (State.commandBody code s).space.openCounter = s.space.openCounter ∧
    (State.commandBody code s).space.range = s.space.range ∧
    (State.commandBody code s).space.state = s.space.state ∧
    (State.commandBody code s).sequencer.inFlight = s.sequencer.inFlight ∧
    (State.commandBody code s).sequencer.fairness = s.sequencer.fairness ∧
    (State.commandBody code s).sequencer.pin = s.sequencer.pin ∧
    (State.commandBody code s).mount = s.mount ∧ (State.commandBody code s).mountReport = s.mountReport ∧
    (State.commandBody code s).background = s.background ∧ (State.commandBody code s).health = s.health ∧
    (State.commandBody code s).medium = s.medium ∧ (State.commandBody code s).choices = s.choices := by
  unfold State.commandBody
  (try dsimp only)
  (repeat' split) <;> first | (simp; done) | (simp_all; done)

/-- The Reclaimer's lists stand, or are emptied by the beginning of ERASE STORE (R98). -/
theorem State.commandBody_lists (code : Word) (s : State) :
    ((State.commandBody code s).reclaim.refreshList = s.reclaim.refreshList ∧
        (State.commandBody code s).reclaim.exclusion = s.reclaim.exclusion) ∨
      ((State.commandBody code s).reclaim.refreshList = [] ∧ (State.commandBody code s).reclaim.exclusion = []) := by
  unfold State.commandBody
  split <;> first | exact State.eraseBody_lists s | (simp; done)

@[simp] theorem State.commandWrite_frame (s : State) (code : Word) :
    (s.commandWrite code).pending = s.pending ∧ (s.commandWrite code).power = s.power ∧
    (s.commandWrite code).pfw = s.pfw ∧ (s.commandWrite code).window.nextBundle = s.window.nextBundle ∧
    (s.commandWrite code).window.mask = s.window.mask ∧
    (s.commandWrite code).window.busOut = s.window.busOut ∧
    (s.commandWrite code).index.entries = s.index.entries ∧
    (s.commandWrite code).index.reservations = s.index.reservations ∧
    (s.commandWrite code).space.present = s.space.present ∧
    (s.commandWrite code).space.segments = s.space.segments ∧
    (s.commandWrite code).space.freeList = s.space.freeList ∧
    (s.commandWrite code).space.openCounter = s.space.openCounter ∧
    (s.commandWrite code).space.range = s.space.range ∧ (s.commandWrite code).space.state = s.space.state ∧
    (s.commandWrite code).sequencer.inFlight = s.sequencer.inFlight ∧
    (s.commandWrite code).sequencer.fairness = s.sequencer.fairness ∧
    (s.commandWrite code).sequencer.pin = s.sequencer.pin ∧ (s.commandWrite code).mount = s.mount ∧
    (s.commandWrite code).mountReport = s.mountReport ∧ (s.commandWrite code).background = s.background ∧
    (s.commandWrite code).health = s.health ∧ (s.commandWrite code).medium = s.medium ∧
    (s.commandWrite code).choices = s.choices := by
  unfold State.commandWrite State.accept
  split <;> simp

/-- The Reclaimer's lists stand, or are emptied by the beginning of ERASE STORE (R98). -/
theorem State.commandWrite_lists (s : State) (code : Word) :
    ((s.commandWrite code).reclaim.refreshList = s.reclaim.refreshList ∧
        (s.commandWrite code).reclaim.exclusion = s.reclaim.exclusion) ∨
      ((s.commandWrite code).reclaim.refreshList = [] ∧ (s.commandWrite code).reclaim.exclusion = []) := by
  unfold State.commandWrite State.accept
  split
  · have h := State.commandBody_lists code (s.take code)
    simpa using h
  · simp

@[simp] theorem State.takeDescriptorWord_frame (s : State) (n : Nat) (through : Bool) (word : Word) :
    (s.takeDescriptorWord n through word).pending = s.pending ∧
    (s.takeDescriptorWord n through word).power = s.power ∧
    (s.takeDescriptorWord n through word).pfw = s.pfw ∧
    (s.takeDescriptorWord n through word).window.options = s.window.options ∧
    (s.takeDescriptorWord n through word).window.mask = s.window.mask ∧
    (s.takeDescriptorWord n through word).window.refused = s.window.refused ∧
    (s.takeDescriptorWord n through word).window.busOut = s.window.busOut ∧
    (s.takeDescriptorWord n through word).index = s.index ∧
    (s.takeDescriptorWord n through word).space = s.space ∧
    (s.takeDescriptorWord n through word).commit = s.commit ∧
    (s.takeDescriptorWord n through word).reclaim = s.reclaim ∧
    (s.takeDescriptorWord n through word).sequencer = s.sequencer ∧
    (s.takeDescriptorWord n through word).mount = s.mount ∧
    (s.takeDescriptorWord n through word).mountReport = s.mountReport ∧
    (s.takeDescriptorWord n through word).background = s.background ∧
    (s.takeDescriptorWord n through word).health = s.health ∧
    (s.takeDescriptorWord n through word).medium = s.medium ∧
    (s.takeDescriptorWord n through word).choices = s.choices := by
  unfold State.takeDescriptorWord
  (try dsimp only)
  (repeat' split) <;> first | (simp; done) | (simp_all; done)

@[simp] theorem State.dataWrite_frame (s : State) (word : Word) :
    (s.dataWrite word).pending = s.pending ∧ (s.dataWrite word).power = s.power ∧
    (s.dataWrite word).pfw = s.pfw ∧ (s.dataWrite word).window.options = s.window.options ∧
    (s.dataWrite word).window.mask = s.window.mask ∧ (s.dataWrite word).window.busOut = s.window.busOut ∧
    (s.dataWrite word).index = s.index ∧ (s.dataWrite word).space = s.space ∧
    (s.dataWrite word).commit = s.commit ∧ (s.dataWrite word).reclaim = s.reclaim ∧
    (s.dataWrite word).sequencer = s.sequencer ∧ (s.dataWrite word).mount = s.mount ∧
    (s.dataWrite word).mountReport = s.mountReport ∧ (s.dataWrite word).background = s.background ∧
    (s.dataWrite word).health = s.health ∧ (s.dataWrite word).medium = s.medium ∧
    (s.dataWrite word).choices = s.choices := by
  unfold State.dataWrite
  (try dsimp only)
  (repeat' split) <;> first | (simp; done) | (simp_all; done)

@[simp] theorem State.drive_frame (s : State) (word : Word) :
    (s.drive word).pending = s.pending ∧ (s.drive word).power = s.power ∧ (s.drive word).pfw = s.pfw ∧
    (s.drive word).window.options = s.window.options ∧
    (s.drive word).window.nextBundle = s.window.nextBundle ∧ (s.drive word).window.mask = s.window.mask ∧
    (s.drive word).window.refused = s.window.refused ∧ (s.drive word).window.frame = s.window.frame ∧
    (s.drive word).port = s.port ∧ (s.drive word).causes = s.causes ∧ (s.drive word).idle = s.idle ∧
    (s.drive word).staging = s.staging ∧ (s.drive word).index = s.index ∧ (s.drive word).space = s.space ∧
    (s.drive word).commit = s.commit ∧ (s.drive word).reclaim = s.reclaim ∧
    (s.drive word).sequencer = s.sequencer ∧ (s.drive word).mount = s.mount ∧
    (s.drive word).mountReport = s.mountReport ∧ (s.drive word).background = s.background ∧
    (s.drive word).drain = s.drain ∧ (s.drive word).health = s.health ∧ (s.drive word).medium = s.medium ∧
    (s.drive word).choices = s.choices := by
  unfold State.drive
  (try dsimp only)
  (repeat' split) <;> first | (simp; done) | (simp_all; done)

@[simp] theorem State.dataRead_frame (s : State) :
    s.dataRead.pending = s.pending ∧ s.dataRead.power = s.power ∧ s.dataRead.pfw = s.pfw ∧
    s.dataRead.window.options = s.window.options ∧ s.dataRead.window.nextBundle = s.window.nextBundle ∧
    s.dataRead.window.mask = s.window.mask ∧ s.dataRead.window.refused = s.window.refused ∧
    s.dataRead.window.frame = s.window.frame ∧ s.dataRead.staging.pwl = s.staging.pwl ∧
    s.dataRead.index = s.index ∧ s.dataRead.space = s.space ∧ s.dataRead.commit = s.commit ∧
    s.dataRead.reclaim = s.reclaim ∧ s.dataRead.sequencer = s.sequencer ∧ s.dataRead.mount = s.mount ∧
    s.dataRead.mountReport = s.mountReport ∧ s.dataRead.background = s.background ∧
    s.dataRead.health = s.health ∧ s.dataRead.medium = s.medium ∧ s.dataRead.choices = s.choices := by
  unfold State.dataRead
  (try dsimp only)
  (repeat' split) <;> first | (simp; done) | (simp_all; done)

@[simp] theorem State.statusRead_frame (s : State) :
    s.statusRead.pending = s.pending ∧ s.statusRead.power = s.power ∧ s.statusRead.pfw = s.pfw ∧
    s.statusRead.window.options = s.window.options ∧ s.statusRead.window.nextBundle = s.window.nextBundle ∧
    s.statusRead.window.mask = s.window.mask ∧ s.statusRead.window.frame = s.window.frame ∧
    s.statusRead.port = s.port ∧ s.statusRead.causes = s.causes ∧ s.statusRead.idle = s.idle ∧
    s.statusRead.staging = s.staging ∧ s.statusRead.index = s.index ∧ s.statusRead.space = s.space ∧
    s.statusRead.commit = s.commit ∧ s.statusRead.reclaim = s.reclaim ∧
    s.statusRead.sequencer = s.sequencer ∧ s.statusRead.mount = s.mount ∧
    s.statusRead.mountReport = s.mountReport ∧ s.statusRead.background = s.background ∧
    s.statusRead.drain = s.drain ∧ s.statusRead.health = s.health ∧ s.statusRead.medium = s.medium ∧
    s.statusRead.choices = s.choices := by
  unfold State.statusRead
  (try dsimp only)
  (repeat' split) <;> first | (simp; done) | (simp_all; done)

@[simp] theorem State.abort_frame (s : State) :
    s.abort.pending = s.pending ∧ s.abort.power = s.power ∧ s.abort.pfw = s.pfw ∧
    s.abort.window.options = s.window.options ∧ s.abort.window.nextBundle = s.window.nextBundle ∧
    s.abort.window.mask = s.window.mask ∧ s.abort.window.frame = s.window.frame ∧
    s.abort.window.busOut = s.window.busOut ∧ s.abort.staging.pwl = s.staging.pwl ∧
    s.abort.index = s.index ∧ s.abort.space = s.space ∧ s.abort.commit = s.commit ∧
    s.abort.reclaim = s.reclaim ∧ s.abort.sequencer = s.sequencer ∧ s.abort.mount = s.mount ∧
    s.abort.mountReport = s.mountReport ∧ s.abort.background = s.background ∧ s.abort.health = s.health ∧
    s.abort.medium = s.medium ∧ s.abort.choices = s.choices := by
  unfold State.abort
  (try dsimp only)
  (repeat' split) <;> first | (simp; done) | (simp_all; done)

@[simp] theorem State.clearPort_frame (s : State) :
    s.clearPort.pending = s.pending ∧ s.clearPort.power = s.power ∧ s.clearPort.pfw = s.pfw ∧
    s.clearPort.window.options = s.window.options ∧ s.clearPort.window.nextBundle = s.window.nextBundle ∧
    s.clearPort.window.mask = s.window.mask ∧ s.clearPort.window.frame = s.window.frame ∧
    s.clearPort.window.busOut = s.window.busOut ∧ s.clearPort.port.state = s.port.state ∧
    s.clearPort.port.activity = s.port.activity ∧ s.clearPort.idle = s.idle ∧
    s.clearPort.staging = s.staging ∧ s.clearPort.index = s.index ∧ s.clearPort.space = s.space ∧
    s.clearPort.commit = s.commit ∧ s.clearPort.reclaim = s.reclaim ∧ s.clearPort.sequencer = s.sequencer ∧
    s.clearPort.mount = s.mount ∧ s.clearPort.mountReport = s.mountReport ∧
    s.clearPort.background = s.background ∧ s.clearPort.drain = s.drain ∧ s.clearPort.health = s.health ∧
    s.clearPort.medium = s.medium ∧ s.clearPort.choices = s.choices := by
  unfold State.clearPort
  (try dsimp only)
  (repeat' split) <;> first | (simp; done) | (simp_all; done)

@[simp] theorem State.resetIdle_frame (s : State) :
    s.resetIdle.pending = s.pending ∧ s.resetIdle.power = s.power ∧ s.resetIdle.pfw = s.pfw ∧
    s.resetIdle.window = s.window ∧ s.resetIdle.port = s.port ∧ s.resetIdle.causes = s.causes ∧
    s.resetIdle.idle.qualified = s.idle.qualified ∧ s.resetIdle.staging = s.staging ∧
    s.resetIdle.index = s.index ∧ s.resetIdle.space = s.space ∧ s.resetIdle.commit = s.commit ∧
    s.resetIdle.reclaim = s.reclaim ∧ s.resetIdle.sequencer = s.sequencer ∧ s.resetIdle.mount = s.mount ∧
    s.resetIdle.mountReport = s.mountReport ∧ s.resetIdle.background = s.background ∧
    s.resetIdle.drain = s.drain ∧ s.resetIdle.health = s.health ∧ s.resetIdle.medium = s.medium ∧
    s.resetIdle.choices = s.choices := by
  unfold State.resetIdle
  (try dsimp only)
  (repeat' split) <;> first | (simp; done) | (simp_all; done)

@[simp] theorem State.portReset_frame (s : State) :
    s.portReset.pending = s.pending ∧ s.portReset.power = s.power ∧ s.portReset.pfw = s.pfw ∧
    s.portReset.window.options = s.window.options ∧ s.portReset.window.nextBundle = s.window.nextBundle ∧
    s.portReset.window.mask = s.window.mask ∧ s.portReset.window.frame = s.window.frame ∧
    s.portReset.window.busOut = s.window.busOut ∧ s.portReset.staging.pwl = s.staging.pwl ∧
    s.portReset.index = s.index ∧ s.portReset.space = s.space ∧ s.portReset.commit = s.commit ∧
    s.portReset.reclaim = s.reclaim ∧ s.portReset.sequencer.fairness = s.sequencer.fairness ∧
    s.portReset.sequencer.pin = s.sequencer.pin ∧ s.portReset.mount = s.mount ∧
    s.portReset.mountReport = s.mountReport ∧ s.portReset.background = s.background ∧
    s.portReset.health = s.health ∧ s.portReset.medium = s.medium ∧ s.portReset.choices = s.choices := by
  unfold State.portReset
  (try dsimp only)
  (repeat' split) <;> first | (simp; done) | (simp_all; done)

@[simp] theorem State.acknowledge_frame (s : State) (word : Word) :
    (s.acknowledge word).pending = s.pending ∧ (s.acknowledge word).power = s.power ∧
    (s.acknowledge word).pfw = s.pfw ∧ (s.acknowledge word).window = s.window ∧
    (s.acknowledge word).port = s.port ∧ (s.acknowledge word).idle = s.idle ∧
    (s.acknowledge word).staging = s.staging ∧ (s.acknowledge word).index = s.index ∧
    (s.acknowledge word).space = s.space ∧ (s.acknowledge word).commit = s.commit ∧
    (s.acknowledge word).reclaim = s.reclaim ∧ (s.acknowledge word).sequencer = s.sequencer ∧
    (s.acknowledge word).mount = s.mount ∧ (s.acknowledge word).mountReport = s.mountReport ∧
    (s.acknowledge word).background = s.background ∧ (s.acknowledge word).drain = s.drain ∧
    (s.acknowledge word).health = s.health ∧ (s.acknowledge word).medium = s.medium ∧
    (s.acknowledge word).choices = s.choices := by
  unfold State.acknowledge
  (try dsimp only)
  (repeat' split) <;> first | (simp; done) | (simp_all; done)

@[simp] theorem State.writeMask_frame (s : State) (word : Word) :
    (s.writeMask word).pending = s.pending ∧ (s.writeMask word).power = s.power ∧
    (s.writeMask word).pfw = s.pfw ∧ (s.writeMask word).window.options = s.window.options ∧
    (s.writeMask word).window.nextBundle = s.window.nextBundle ∧
    (s.writeMask word).window.refused = s.window.refused ∧
    (s.writeMask word).window.frame = s.window.frame ∧ (s.writeMask word).window.busOut = s.window.busOut ∧
    (s.writeMask word).port = s.port ∧ (s.writeMask word).causes = s.causes ∧
    (s.writeMask word).idle = s.idle ∧ (s.writeMask word).staging = s.staging ∧
    (s.writeMask word).index = s.index ∧ (s.writeMask word).space = s.space ∧
    (s.writeMask word).commit = s.commit ∧ (s.writeMask word).reclaim = s.reclaim ∧
    (s.writeMask word).sequencer = s.sequencer ∧ (s.writeMask word).mount = s.mount ∧
    (s.writeMask word).mountReport = s.mountReport ∧ (s.writeMask word).background = s.background ∧
    (s.writeMask word).drain = s.drain ∧ (s.writeMask word).health = s.health ∧
    (s.writeMask word).medium = s.medium ∧ (s.writeMask word).choices = s.choices := by
  unfold State.writeMask
  (try dsimp only)
  (repeat' split) <;> first | (simp; done) | (simp_all; done)

@[simp] theorem State.controlWrite_frame (s : State) (word : Word) :
    (s.controlWrite word).pending = s.pending ∧ (s.controlWrite word).power = s.power ∧
    (s.controlWrite word).pfw = s.pfw ∧ (s.controlWrite word).window.options = s.window.options ∧
    (s.controlWrite word).window.nextBundle = s.window.nextBundle ∧
    (s.controlWrite word).window.mask = s.window.mask ∧
    (s.controlWrite word).window.frame = s.window.frame ∧
    (s.controlWrite word).window.busOut = s.window.busOut ∧
    (s.controlWrite word).staging.pwl = s.staging.pwl ∧ (s.controlWrite word).index = s.index ∧
    (s.controlWrite word).space = s.space ∧ (s.controlWrite word).commit = s.commit ∧
    (s.controlWrite word).reclaim = s.reclaim ∧
    (s.controlWrite word).sequencer.fairness = s.sequencer.fairness ∧
    (s.controlWrite word).sequencer.pin = s.sequencer.pin ∧ (s.controlWrite word).mount = s.mount ∧
    (s.controlWrite word).mountReport = s.mountReport ∧ (s.controlWrite word).background = s.background ∧
    (s.controlWrite word).health = s.health ∧ (s.controlWrite word).medium = s.medium ∧
    (s.controlWrite word).choices = s.choices := by
  unfold State.controlWrite
  (try dsimp only)
  (repeat' split) <;> first | (simp; done) | (simp_all; done)

@[simp] theorem State.parameterWrite_frame (s : State) (address : Nat) (word : Word) :
    (s.parameterWrite address word).pending = s.pending ∧ (s.parameterWrite address word).power = s.power ∧
    (s.parameterWrite address word).pfw = s.pfw ∧ (s.parameterWrite address word).port = s.port ∧
    (s.parameterWrite address word).causes = s.causes ∧ (s.parameterWrite address word).idle = s.idle ∧
    (s.parameterWrite address word).staging = s.staging ∧ (s.parameterWrite address word).index = s.index ∧
    (s.parameterWrite address word).space = s.space ∧ (s.parameterWrite address word).commit = s.commit ∧
    (s.parameterWrite address word).reclaim = s.reclaim ∧
    (s.parameterWrite address word).sequencer = s.sequencer ∧
    (s.parameterWrite address word).mount = s.mount ∧
    (s.parameterWrite address word).mountReport = s.mountReport ∧
    (s.parameterWrite address word).background = s.background ∧
    (s.parameterWrite address word).drain = s.drain ∧ (s.parameterWrite address word).health = s.health ∧
    (s.parameterWrite address word).medium = s.medium ∧ (s.parameterWrite address word).choices = s.choices := by
  unfold State.parameterWrite
  (try dsimp only)
  (repeat' split) <;> first | (simp; done) | (simp_all; done)

@[simp] theorem State.registerWrite_frame (s : State) (address : BitVec 4) (word : Word) :
    (s.registerWrite address word).pending = s.pending ∧ (s.registerWrite address word).power = s.power ∧
    (s.registerWrite address word).pfw = s.pfw ∧
    (s.registerWrite address word).index.entries = s.index.entries ∧
    (s.registerWrite address word).index.reservations = s.index.reservations ∧
    (s.registerWrite address word).space.present = s.space.present ∧
    (s.registerWrite address word).space.segments = s.space.segments ∧
    (s.registerWrite address word).space.freeList = s.space.freeList ∧
    (s.registerWrite address word).space.openCounter = s.space.openCounter ∧
    (s.registerWrite address word).space.range = s.space.range ∧
    (s.registerWrite address word).space.state = s.space.state ∧
    (s.registerWrite address word).sequencer.fairness = s.sequencer.fairness ∧
    (s.registerWrite address word).sequencer.pin = s.sequencer.pin ∧
    (s.registerWrite address word).mount = s.mount ∧
    (s.registerWrite address word).mountReport = s.mountReport ∧
    (s.registerWrite address word).background = s.background ∧
    (s.registerWrite address word).health = s.health ∧ (s.registerWrite address word).medium = s.medium ∧
    (s.registerWrite address word).choices = s.choices := by
  unfold State.registerWrite
  (try dsimp only)
  (repeat' split) <;> first | (simp; done) | (simp_all; done)

/-- The Reclaimer's lists stand, or are emptied by the beginning of ERASE STORE (R98). -/
theorem State.registerWrite_lists (s : State) (address : BitVec 4) (word : Word) :
    ((s.registerWrite address word).reclaim.refreshList = s.reclaim.refreshList ∧
        (s.registerWrite address word).reclaim.exclusion = s.reclaim.exclusion) ∨
      ((s.registerWrite address word).reclaim.refreshList = [] ∧
        (s.registerWrite address word).reclaim.exclusion = []) := by
  unfold State.registerWrite
  (repeat' split) <;> first | (exact State.commandWrite_lists _ _) | (simp; done) | (simp_all; done)

@[simp] theorem State.dataTimeout_frame (s : State) :
    s.dataTimeout.pending = s.pending ∧ s.dataTimeout.power = s.power ∧ s.dataTimeout.pfw = s.pfw ∧
    s.dataTimeout.window = s.window ∧ s.dataTimeout.staging.pwl = s.staging.pwl ∧
    s.dataTimeout.index = s.index ∧ s.dataTimeout.space = s.space ∧ s.dataTimeout.commit = s.commit ∧
    s.dataTimeout.reclaim = s.reclaim ∧ s.dataTimeout.sequencer = s.sequencer ∧
    s.dataTimeout.mount = s.mount ∧ s.dataTimeout.mountReport = s.mountReport ∧
    s.dataTimeout.background = s.background ∧ s.dataTimeout.health = s.health ∧
    s.dataTimeout.medium = s.medium ∧ s.dataTimeout.choices = s.choices := by
  unfold State.dataTimeout
  (try dsimp only)
  (repeat' split) <;> first | (simp; done) | (simp_all; done)

@[simp] theorem State.idleExpiry_frame (s : State) :
    s.idleExpiry.pending = s.pending ∧ s.idleExpiry.power = s.power ∧ s.idleExpiry.pfw = s.pfw ∧
    s.idleExpiry.window = s.window ∧ s.idleExpiry.port = s.port ∧ s.idleExpiry.causes = s.causes ∧
    s.idleExpiry.staging = s.staging ∧ s.idleExpiry.index = s.index ∧ s.idleExpiry.space = s.space ∧
    s.idleExpiry.commit = s.commit ∧ s.idleExpiry.reclaim = s.reclaim ∧
    s.idleExpiry.sequencer = s.sequencer ∧ s.idleExpiry.mount = s.mount ∧
    s.idleExpiry.mountReport = s.mountReport ∧ s.idleExpiry.background = s.background ∧
    s.idleExpiry.drain = s.drain ∧ s.idleExpiry.health = s.health ∧ s.idleExpiry.medium = s.medium ∧
    s.idleExpiry.choices = s.choices := by
  unfold State.idleExpiry
  (try dsimp only)
  (repeat' split) <;> first | (simp; done) | (simp_all; done)

@[simp] theorem State.namedWrite_frame (s : State) (outcome : RefusedTarget) :
    (s.namedWrite outcome).pending = s.pending ∧ (s.namedWrite outcome).power = s.power ∧
    (s.namedWrite outcome).pfw = s.pfw ∧ (s.namedWrite outcome).window.mask = s.window.mask ∧
    (s.namedWrite outcome).window.busOut = s.window.busOut ∧
    (s.namedWrite outcome).index.entries = s.index.entries ∧
    (s.namedWrite outcome).index.reservations = s.index.reservations ∧
    (s.namedWrite outcome).space.present = s.space.present ∧
    (s.namedWrite outcome).space.segments = s.space.segments ∧
    (s.namedWrite outcome).space.freeList = s.space.freeList ∧
    (s.namedWrite outcome).space.openCounter = s.space.openCounter ∧
    (s.namedWrite outcome).space.range = s.space.range ∧
    (s.namedWrite outcome).space.state = s.space.state ∧
    (s.namedWrite outcome).sequencer.inFlight = s.sequencer.inFlight ∧
    (s.namedWrite outcome).sequencer.fairness = s.sequencer.fairness ∧
    (s.namedWrite outcome).sequencer.pin = s.sequencer.pin ∧ (s.namedWrite outcome).mount = s.mount ∧
    (s.namedWrite outcome).mountReport = s.mountReport ∧ (s.namedWrite outcome).background = s.background ∧
    (s.namedWrite outcome).health = s.health ∧ (s.namedWrite outcome).medium = s.medium ∧
    (s.namedWrite outcome).choices = s.choices := by
  unfold State.namedWrite
  (try dsimp only)
  (repeat' split) <;> first | (simp; done) | (simp_all; done)

/-- The Reclaimer's lists stand, or are emptied by the beginning of ERASE STORE (R98). -/
theorem State.namedWrite_lists (s : State) (outcome : RefusedTarget) :
    ((s.namedWrite outcome).reclaim.refreshList = s.reclaim.refreshList ∧
        (s.namedWrite outcome).reclaim.exclusion = s.reclaim.exclusion) ∨
      ((s.namedWrite outcome).reclaim.refreshList = [] ∧ (s.namedWrite outcome).reclaim.exclusion = []) := by
  unfold State.namedWrite
  (repeat' split) <;> first | (exact State.commandWrite_lists _ _) | (simp; done) | (simp_all; done)

@[simp] theorem State.noteTimeout_frame (s : State) :
    s.noteTimeout.pending = s.pending ∧ s.noteTimeout.power = s.power ∧ s.noteTimeout.pfw = s.pfw ∧
    s.noteTimeout.window = s.window ∧ s.noteTimeout.port = s.port ∧ s.noteTimeout.causes = s.causes ∧
    s.noteTimeout.idle = s.idle ∧ s.noteTimeout.staging = s.staging ∧ s.noteTimeout.index = s.index ∧
    s.noteTimeout.space = s.space ∧ s.noteTimeout.commit = s.commit ∧ s.noteTimeout.reclaim = s.reclaim ∧
    s.noteTimeout.sequencer = s.sequencer ∧ s.noteTimeout.mountReport = s.mountReport ∧
    s.noteTimeout.background = s.background ∧ s.noteTimeout.drain = s.drain ∧
    s.noteTimeout.health.conditions = s.health.conditions ∧ s.noteTimeout.medium = s.medium ∧
    s.noteTimeout.choices = s.choices := by
  unfold State.noteTimeout
  (try dsimp only)
  (repeat' split) <;> first | (simp; done) | (simp_all; done)

@[simp] theorem State.noteRecovered_frame (s : State) :
    s.noteRecovered.pending = s.pending ∧ s.noteRecovered.power = s.power ∧ s.noteRecovered.pfw = s.pfw ∧
    s.noteRecovered.window = s.window ∧ s.noteRecovered.port = s.port ∧ s.noteRecovered.causes = s.causes ∧
    s.noteRecovered.idle = s.idle ∧ s.noteRecovered.staging = s.staging ∧ s.noteRecovered.index = s.index ∧
    s.noteRecovered.space = s.space ∧ s.noteRecovered.commit = s.commit ∧
    s.noteRecovered.reclaim = s.reclaim ∧ s.noteRecovered.sequencer = s.sequencer ∧
    s.noteRecovered.mountReport = s.mountReport ∧ s.noteRecovered.background = s.background ∧
    s.noteRecovered.drain = s.drain ∧ s.noteRecovered.health.conditions = s.health.conditions ∧
    s.noteRecovered.medium = s.medium ∧ s.noteRecovered.choices = s.choices := by
  unfold State.noteRecovered
  (try dsimp only)
  (repeat' split) <;> first | (simp; done) | (simp_all; done)

@[simp] theorem State.noteUnreadable_frame (s : State) :
    s.noteUnreadable.pending = s.pending ∧ s.noteUnreadable.power = s.power ∧
    s.noteUnreadable.pfw = s.pfw ∧ s.noteUnreadable.window = s.window ∧ s.noteUnreadable.port = s.port ∧
    s.noteUnreadable.causes = s.causes ∧ s.noteUnreadable.idle = s.idle ∧
    s.noteUnreadable.staging = s.staging ∧ s.noteUnreadable.index = s.index ∧
    s.noteUnreadable.space = s.space ∧ s.noteUnreadable.commit = s.commit ∧
    s.noteUnreadable.reclaim = s.reclaim ∧ s.noteUnreadable.sequencer = s.sequencer ∧
    s.noteUnreadable.mountReport = s.mountReport ∧ s.noteUnreadable.background = s.background ∧
    s.noteUnreadable.drain = s.drain ∧ s.noteUnreadable.health.conditions = s.health.conditions ∧
    s.noteUnreadable.medium = s.medium ∧ s.noteUnreadable.choices = s.choices := by
  unfold State.noteUnreadable
  (try dsimp only)
  (repeat' split) <;> first | (simp; done) | (simp_all; done)

@[simp] theorem State.recordOutcome_frame (s : State) (f : InFlight) (outcome : ReadOutcome) :
    (s.recordOutcome f outcome).pending = s.pending ∧ (s.recordOutcome f outcome).power = s.power ∧
    (s.recordOutcome f outcome).pfw = s.pfw ∧
    (s.recordOutcome f outcome).index.reservations = s.index.reservations ∧
    (s.recordOutcome f outcome).commit = s.commit ∧ (s.recordOutcome f outcome).mount = s.mount ∧
    (s.recordOutcome f outcome).mountReport = s.mountReport ∧
    (s.recordOutcome f outcome).background = s.background ∧
    (s.recordOutcome f outcome).health.conditions = s.health.conditions ∧
    (s.recordOutcome f outcome).medium = s.medium ∧ (s.recordOutcome f outcome).choices = s.choices := by
  unfold State.recordOutcome
  (try dsimp only)
  (repeat' split) <;> first | (simp; done) | (simp_all; done)

@[simp] theorem State.readUnreadable_frame (s : State) (f : InFlight) :
    (s.readUnreadable f).pending = s.pending ∧ (s.readUnreadable f).power = s.power ∧
    (s.readUnreadable f).pfw = s.pfw ∧ (s.readUnreadable f).commit = s.commit ∧
    (s.readUnreadable f).health.conditions = s.health.conditions ∧ (s.readUnreadable f).medium = s.medium ∧
    (s.readUnreadable f).choices = s.choices := by
  unfold State.readUnreadable
  (try dsimp only)
  (repeat' split) <;> first | (simp; done) | (simp_all; done)

@[simp] theorem State.attemptBad_frame (s : State) (f : InFlight) :
    (s.attemptBad f).pending = s.pending ∧ (s.attemptBad f).power = s.power ∧
    (s.attemptBad f).pfw = s.pfw ∧ (s.attemptBad f).commit = s.commit ∧
    (s.attemptBad f).health.conditions = s.health.conditions ∧ (s.attemptBad f).medium = s.medium ∧
    (s.attemptBad f).choices = s.choices := by
  unfold State.attemptBad
  (try dsimp only)
  (repeat' split) <;> first | (simp; done) | (simp_all; done)

@[simp] theorem State.attemptGood_frame (s : State) (f : InFlight) :
    (s.attemptGood f).pending = s.pending ∧ (s.attemptGood f).power = s.power ∧
    (s.attemptGood f).pfw = s.pfw ∧ (s.attemptGood f).window = s.window ∧ (s.attemptGood f).port = s.port ∧
    (s.attemptGood f).causes = s.causes ∧ (s.attemptGood f).idle = s.idle ∧
    (s.attemptGood f).staging = s.staging ∧ (s.attemptGood f).index = s.index ∧
    (s.attemptGood f).space = s.space ∧ (s.attemptGood f).commit = s.commit ∧
    (s.attemptGood f).reclaim = s.reclaim ∧ (s.attemptGood f).sequencer.requests = s.sequencer.requests ∧
    (s.attemptGood f).sequencer.fairness = s.sequencer.fairness ∧
    (s.attemptGood f).mountReport = s.mountReport ∧ (s.attemptGood f).background = s.background ∧
    (s.attemptGood f).drain = s.drain ∧ (s.attemptGood f).health.conditions = s.health.conditions ∧
    (s.attemptGood f).medium = s.medium ∧ (s.attemptGood f).choices = s.choices := by
  unfold State.attemptGood
  (try dsimp only)
  (repeat' split) <;> first | (simp; done) | (simp_all; done)

@[simp] theorem State.attemptTimeout_frame (s : State) (f : InFlight) :
    (s.attemptTimeout f).pending = s.pending ∧ (s.attemptTimeout f).power = s.power ∧
    (s.attemptTimeout f).pfw = s.pfw ∧ (s.attemptTimeout f).commit = s.commit ∧
    (s.attemptTimeout f).health.conditions = s.health.conditions ∧ (s.attemptTimeout f).medium = s.medium ∧
    (s.attemptTimeout f).choices = s.choices := by
  unfold State.attemptTimeout
  (try dsimp only)
  (repeat' split) <;> first | (simp; done) | (simp_all; done)

@[simp] theorem State.pageAttempt_frame (s : State) (f : InFlight) (segment : Nat) (p : PageFindings) :
    (s.pageAttempt f segment p).pending = s.pending ∧ (s.pageAttempt f segment p).power = s.power ∧
    (s.pageAttempt f segment p).pfw = s.pfw ∧ (s.pageAttempt f segment p).commit = s.commit ∧
    (s.pageAttempt f segment p).health.conditions = s.health.conditions ∧
    (s.pageAttempt f segment p).medium = s.medium ∧ (s.pageAttempt f segment p).choices = s.choices := by
  unfold State.pageAttempt
  (try dsimp only)
  (repeat' split) <;> first | (simp; done) | (simp_all; done)

@[simp] theorem State.recordAttempt_frame (s : State) (f : InFlight) (segment : Nat) (page : Nat) (h : Finding Record) :
    (s.recordAttempt f segment page h).pending = s.pending ∧
    (s.recordAttempt f segment page h).power = s.power ∧ (s.recordAttempt f segment page h).pfw = s.pfw ∧
    (s.recordAttempt f segment page h).commit = s.commit ∧
    (s.recordAttempt f segment page h).health.conditions = s.health.conditions ∧
    (s.recordAttempt f segment page h).medium = s.medium ∧
    (s.recordAttempt f segment page h).choices = s.choices := by
  unfold State.recordAttempt
  (try dsimp only)
  (repeat' split) <;> first | (simp; done) | (simp_all; done)

@[simp] theorem State.readAttempt_frame (s : State) (f : InFlight) (outcome : Option Record) :
    (s.readAttempt f outcome).pending = s.pending ∧ (s.readAttempt f outcome).power = s.power ∧
    (s.readAttempt f outcome).pfw = s.pfw ∧ (s.readAttempt f outcome).commit = s.commit ∧
    (s.readAttempt f outcome).health.conditions = s.health.conditions ∧
    (s.readAttempt f outcome).medium = s.medium ∧ (s.readAttempt f outcome).choices = s.choices := by
  unfold State.readAttempt
  (try dsimp only)
  (repeat' split) <;> first | (simp; done) | (simp_all; done)

@[simp] theorem State.blankAttempt_frame (s : State) (segment : Nat) (blank : Bool) :
    (s.blankAttempt segment blank).pending = s.pending ∧
    (s.blankAttempt segment blank).power = s.power ∧ (s.blankAttempt segment blank).pfw = s.pfw ∧
    (s.blankAttempt segment blank).window = s.window ∧
    (s.blankAttempt segment blank).port.activity = s.port.activity ∧
    (s.blankAttempt segment blank).port.residue = s.port.residue ∧
    (s.blankAttempt segment blank).port.result = s.port.result ∧
    (s.blankAttempt segment blank).port.detail = s.port.detail ∧
    (s.blankAttempt segment blank).port.dataTimer = s.port.dataTimer ∧
    (s.blankAttempt segment blank).staging = s.staging ∧
    (s.blankAttempt segment blank).commit = s.commit ∧
    (s.blankAttempt segment blank).reclaim = s.reclaim ∧
    (s.blankAttempt segment blank).sequencer.requests = s.sequencer.requests ∧
    (s.blankAttempt segment blank).sequencer.fairness = s.sequencer.fairness ∧
    (s.blankAttempt segment blank).health.conditions = s.health.conditions ∧
    (s.blankAttempt segment blank).medium = s.medium ∧
    (s.blankAttempt segment blank).choices = s.choices := by
  unfold State.blankAttempt
  (try dsimp only)
  (repeat' split) <;> first | (simp; done) | (simp_all; done)

@[simp] theorem State.commitProgramEnd_frame (s : State) (op : Op) (outcome : MediumEnd) :
    (s.commitProgramEnd op outcome).pending = s.pending ∧ (s.commitProgramEnd op outcome).power = s.power ∧
    (s.commitProgramEnd op outcome).pfw = s.pfw ∧ (s.commitProgramEnd op outcome).window = s.window ∧
    (s.commitProgramEnd op outcome).index.nextSequence = s.index.nextSequence ∧
    (s.commitProgramEnd op outcome).index.reservations = s.index.reservations ∧
    (s.commitProgramEnd op outcome).space.present = s.space.present ∧
    (s.commitProgramEnd op outcome).space.freeList = s.space.freeList ∧
    (s.commitProgramEnd op outcome).space.openCounter = s.space.openCounter ∧
    (s.commitProgramEnd op outcome).space.state = s.space.state ∧
    (s.commitProgramEnd op outcome).space.reasons = s.space.reasons ∧
    (s.commitProgramEnd op outcome).reclaim = s.reclaim ∧
    (s.commitProgramEnd op outcome).sequencer.inFlight = s.sequencer.inFlight ∧
    (s.commitProgramEnd op outcome).sequencer.fairness = s.sequencer.fairness ∧
    (s.commitProgramEnd op outcome).sequencer.pin = s.sequencer.pin ∧
    (s.commitProgramEnd op outcome).mount = s.mount ∧
    (s.commitProgramEnd op outcome).mountReport = s.mountReport ∧
    (s.commitProgramEnd op outcome).background = s.background ∧
    (s.commitProgramEnd op outcome).health.conditions = s.health.conditions ∧
    (s.commitProgramEnd op outcome).medium = s.medium ∧ (s.commitProgramEnd op outcome).choices = s.choices := by
  unfold State.commitProgramEnd
  (try dsimp only)
  (repeat' split) <;> first | (simp; done) | (simp_all; done)

@[simp] theorem State.jobHeaderEnd_frame (s : State) (segment : Nat) (slot : SlotContent) (outcome : MediumEnd) :
    (s.jobHeaderEnd segment slot outcome).pending = s.pending ∧
    (s.jobHeaderEnd segment slot outcome).power = s.power ∧
    (s.jobHeaderEnd segment slot outcome).pfw = s.pfw ∧
    (s.jobHeaderEnd segment slot outcome).window = s.window ∧
    (s.jobHeaderEnd segment slot outcome).port = s.port ∧
    (s.jobHeaderEnd segment slot outcome).causes = s.causes ∧
    (s.jobHeaderEnd segment slot outcome).idle = s.idle ∧
    (s.jobHeaderEnd segment slot outcome).staging = s.staging ∧
    (s.jobHeaderEnd segment slot outcome).index.entries = s.index.entries ∧
    (s.jobHeaderEnd segment slot outcome).index.reservations = s.index.reservations ∧
    (s.jobHeaderEnd segment slot outcome).space.present = s.space.present ∧
    (s.jobHeaderEnd segment slot outcome).space.openCounter = s.space.openCounter ∧
    (s.jobHeaderEnd segment slot outcome).space.range = s.space.range ∧
    (s.jobHeaderEnd segment slot outcome).space.state = s.space.state ∧
    (s.jobHeaderEnd segment slot outcome).commit = s.commit ∧
    (s.jobHeaderEnd segment slot outcome).sequencer.inFlight = s.sequencer.inFlight ∧
    (s.jobHeaderEnd segment slot outcome).sequencer.pin = s.sequencer.pin ∧
    (s.jobHeaderEnd segment slot outcome).mount = s.mount ∧
    (s.jobHeaderEnd segment slot outcome).mountReport = s.mountReport ∧
    (s.jobHeaderEnd segment slot outcome).background = s.background ∧
    (s.jobHeaderEnd segment slot outcome).drain = s.drain ∧
    (s.jobHeaderEnd segment slot outcome).health.conditions = s.health.conditions ∧
    (s.jobHeaderEnd segment slot outcome).medium = s.medium ∧
    (s.jobHeaderEnd segment slot outcome).choices = s.choices := by
  unfold State.jobHeaderEnd
  (try dsimp only)
  (repeat' split) <;> first | (simp; done) | (simp_all; done)

@[simp] theorem State.jobOpEnd_frame (s : State) (op : Op) (outcome : MediumEnd) :
    (s.jobOpEnd op outcome).pending = s.pending ∧ (s.jobOpEnd op outcome).power = s.power ∧
    (s.jobOpEnd op outcome).pfw = s.pfw ∧ (s.jobOpEnd op outcome).window = s.window ∧
    (s.jobOpEnd op outcome).port = s.port ∧ (s.jobOpEnd op outcome).causes = s.causes ∧
    (s.jobOpEnd op outcome).idle = s.idle ∧ (s.jobOpEnd op outcome).staging = s.staging ∧
    (s.jobOpEnd op outcome).index.reservations = s.index.reservations ∧
    (s.jobOpEnd op outcome).space.present = s.space.present ∧
    (s.jobOpEnd op outcome).space.openCounter = s.space.openCounter ∧
    (s.jobOpEnd op outcome).space.range = s.space.range ∧
    (s.jobOpEnd op outcome).space.state = s.space.state ∧ (s.jobOpEnd op outcome).commit = s.commit ∧
    (s.jobOpEnd op outcome).sequencer.inFlight = s.sequencer.inFlight ∧
    (s.jobOpEnd op outcome).sequencer.pin = s.sequencer.pin ∧ (s.jobOpEnd op outcome).mount = s.mount ∧
    (s.jobOpEnd op outcome).mountReport = s.mountReport ∧
    (s.jobOpEnd op outcome).background = s.background ∧ (s.jobOpEnd op outcome).drain = s.drain ∧
    (s.jobOpEnd op outcome).health.conditions = s.health.conditions ∧
    (s.jobOpEnd op outcome).medium = s.medium ∧ (s.jobOpEnd op outcome).choices = s.choices := by
  unfold State.jobOpEnd
  (try dsimp only)
  (repeat' split) <;> first | (simp; done) | (simp_all; done)

@[simp] theorem State.programEnd_frame (s : State) (f : InFlight) (outcome : MediumEnd) :
    (s.programEnd f outcome).pending = s.pending ∧ (s.programEnd f outcome).power = s.power ∧
    (s.programEnd f outcome).pfw = s.pfw ∧ (s.programEnd f outcome).window = s.window ∧
    (s.programEnd f outcome).space.present = s.space.present ∧
    (s.programEnd f outcome).space.openCounter = s.space.openCounter ∧
    (s.programEnd f outcome).space.state = s.space.state ∧ (s.programEnd f outcome).mount = s.mount ∧
    (s.programEnd f outcome).mountReport = s.mountReport ∧
    (s.programEnd f outcome).health.conditions = s.health.conditions ∧
    (s.programEnd f outcome).choices = s.choices := by
  unfold State.programEnd
  (try dsimp only)
  (repeat' split) <;> first | (simp; done) | (simp_all; done)

@[simp] theorem State.probeEvent_frame (s : State) (f : InFlight) (answer : ProbeAnswer) :
    (s.probeEvent f answer).pending = s.pending ∧ (s.probeEvent f answer).power = s.power ∧
    (s.probeEvent f answer).pfw = s.pfw ∧ (s.probeEvent f answer).window = s.window ∧
    (s.probeEvent f answer).port.activity = s.port.activity ∧
    (s.probeEvent f answer).port.residue = s.port.residue ∧
    (s.probeEvent f answer).port.result = s.port.result ∧
    (s.probeEvent f answer).port.detail = s.port.detail ∧
    (s.probeEvent f answer).port.dataTimer = s.port.dataTimer ∧
    (s.probeEvent f answer).staging = s.staging ∧ (s.probeEvent f answer).commit = s.commit ∧
    (s.probeEvent f answer).reclaim = s.reclaim ∧
    (s.probeEvent f answer).sequencer.requests = s.sequencer.requests ∧
    (s.probeEvent f answer).sequencer.fairness = s.sequencer.fairness ∧
    (s.probeEvent f answer).health = s.health ∧ (s.probeEvent f answer).medium = s.medium ∧
    (s.probeEvent f answer).choices = s.choices := by
  unfold State.probeEvent
  (try dsimp only)
  (repeat' split) <;> first | (simp; done) | (simp_all; done)

@[simp] theorem State.headerEvent_frame (s : State) (f : InFlight) (attempt : ReadAttempt) :
    (s.headerEvent f attempt).pending = s.pending ∧ (s.headerEvent f attempt).power = s.power ∧
    (s.headerEvent f attempt).pfw = s.pfw ∧ (s.headerEvent f attempt).commit = s.commit ∧
    (s.headerEvent f attempt).health.conditions = s.health.conditions ∧
    (s.headerEvent f attempt).medium = s.medium ∧ (s.headerEvent f attempt).choices = s.choices := by
  unfold State.headerEvent
  (try dsimp only)
  (repeat' split) <;> first | (simp; done) | (simp_all; done)

@[simp] theorem State.recordEvent_frame (s : State) (f : InFlight) (attempt : ReadAttempt) :
    (s.recordEvent f attempt).pending = s.pending ∧ (s.recordEvent f attempt).power = s.power ∧
    (s.recordEvent f attempt).pfw = s.pfw ∧ (s.recordEvent f attempt).commit = s.commit ∧
    (s.recordEvent f attempt).health.conditions = s.health.conditions ∧
    (s.recordEvent f attempt).medium = s.medium ∧ (s.recordEvent f attempt).choices = s.choices := by
  unfold State.recordEvent
  (try dsimp only)
  (repeat' split) <;> first | (simp; done) | (simp_all; done)

@[simp] theorem State.blankEvent_frame (s : State) (f : InFlight) (attempt : ReadAttempt) :
    (s.blankEvent f attempt).pending = s.pending ∧ (s.blankEvent f attempt).power = s.power ∧
    (s.blankEvent f attempt).pfw = s.pfw ∧ (s.blankEvent f attempt).commit = s.commit ∧
    (s.blankEvent f attempt).health.conditions = s.health.conditions ∧
    (s.blankEvent f attempt).medium = s.medium ∧ (s.blankEvent f attempt).choices = s.choices := by
  unfold State.blankEvent
  (try dsimp only)
  (repeat' split) <;> first | (simp; done) | (simp_all; done)

@[simp] theorem State.recordProgramEvent_frame (s : State) (f : InFlight) (outcome : MediumEnd) :
    (s.recordProgramEvent f outcome).pending = s.pending ∧
    (s.recordProgramEvent f outcome).power = s.power ∧ (s.recordProgramEvent f outcome).pfw = s.pfw ∧
    (s.recordProgramEvent f outcome).window = s.window ∧
    (s.recordProgramEvent f outcome).space.present = s.space.present ∧
    (s.recordProgramEvent f outcome).space.openCounter = s.space.openCounter ∧
    (s.recordProgramEvent f outcome).space.state = s.space.state ∧
    (s.recordProgramEvent f outcome).mount = s.mount ∧
    (s.recordProgramEvent f outcome).mountReport = s.mountReport ∧
    (s.recordProgramEvent f outcome).health.conditions = s.health.conditions ∧
    (s.recordProgramEvent f outcome).choices = s.choices := by
  unfold State.recordProgramEvent
  (try dsimp only)
  (repeat' split) <;> first | (simp; done) | (simp_all; done)

@[simp] theorem State.headerProgramEvent_frame (s : State) (f : InFlight) (outcome : MediumEnd) :
    (s.headerProgramEvent f outcome).pending = s.pending ∧
    (s.headerProgramEvent f outcome).power = s.power ∧ (s.headerProgramEvent f outcome).pfw = s.pfw ∧
    (s.headerProgramEvent f outcome).window = s.window ∧
    (s.headerProgramEvent f outcome).space.present = s.space.present ∧
    (s.headerProgramEvent f outcome).space.openCounter = s.space.openCounter ∧
    (s.headerProgramEvent f outcome).space.state = s.space.state ∧
    (s.headerProgramEvent f outcome).mount = s.mount ∧
    (s.headerProgramEvent f outcome).mountReport = s.mountReport ∧
    (s.headerProgramEvent f outcome).health.conditions = s.health.conditions ∧
    (s.headerProgramEvent f outcome).choices = s.choices := by
  unfold State.headerProgramEvent
  (try dsimp only)
  (repeat' split) <;> first | (simp; done) | (simp_all; done)

@[simp] theorem State.eraseEvent_frame (s : State) (f : InFlight) (outcome : MediumEnd) :
    (s.eraseEvent f outcome).pending = s.pending ∧ (s.eraseEvent f outcome).power = s.power ∧
    (s.eraseEvent f outcome).pfw = s.pfw ∧ (s.eraseEvent f outcome).window = s.window ∧
    (s.eraseEvent f outcome).space.present = s.space.present ∧
    (s.eraseEvent f outcome).space.openCounter = s.space.openCounter ∧
    (s.eraseEvent f outcome).space.state = s.space.state ∧ (s.eraseEvent f outcome).mount = s.mount ∧
    (s.eraseEvent f outcome).mountReport = s.mountReport ∧
    (s.eraseEvent f outcome).health.conditions = s.health.conditions ∧
    (s.eraseEvent f outcome).choices = s.choices := by
  unfold State.eraseEvent
  (try dsimp only)
  (repeat' split) <;> first | (simp; done) | (simp_all; done)

@[simp] theorem State.timeoutEvent_frame (s : State) (f : InFlight) (left : Remnant) :
    (s.timeoutEvent f left).pending = s.pending ∧ (s.timeoutEvent f left).power = s.power ∧
    (s.timeoutEvent f left).pfw = s.pfw ∧ (s.timeoutEvent f left).health.conditions = s.health.conditions ∧
    (s.timeoutEvent f left).choices = s.choices := by
  unfold State.timeoutEvent
  (try dsimp only)
  (repeat' split) <;> first | (simp; done) | (simp_all; done)

@[simp] theorem State.commitBeginEvent_frame (s : State) :
    s.commitBeginEvent.pending = s.pending ∧ s.commitBeginEvent.power = s.power ∧
    s.commitBeginEvent.pfw = s.pfw ∧ s.commitBeginEvent.window = s.window ∧
    s.commitBeginEvent.index.entries = s.index.entries ∧
    s.commitBeginEvent.index.reservations = s.index.reservations ∧
    s.commitBeginEvent.space.present = s.space.present ∧
    s.commitBeginEvent.space.segments = s.space.segments ∧
    s.commitBeginEvent.space.freeList = s.space.freeList ∧
    s.commitBeginEvent.space.openCounter = s.space.openCounter ∧
    s.commitBeginEvent.space.range = s.space.range ∧ s.commitBeginEvent.space.state = s.space.state ∧
    s.commitBeginEvent.reclaim = s.reclaim ∧ s.commitBeginEvent.sequencer.inFlight = s.sequencer.inFlight ∧
    s.commitBeginEvent.sequencer.fairness = s.sequencer.fairness ∧
    s.commitBeginEvent.sequencer.pin = s.sequencer.pin ∧ s.commitBeginEvent.mount = s.mount ∧
    s.commitBeginEvent.mountReport = s.mountReport ∧ s.commitBeginEvent.background = s.background ∧
    s.commitBeginEvent.health = s.health ∧ s.commitBeginEvent.medium = s.medium ∧
    s.commitBeginEvent.choices = s.choices := by
  unfold State.commitBeginEvent
  split
  · cases h : commitBegin s with
    | none => simp
    | some t => simpa using commitBegin_frame h
  · simp

@[simp] theorem State.selectionEvent_frame (s : State) :
    s.selectionEvent.pending = s.pending ∧ s.selectionEvent.power = s.power ∧
    s.selectionEvent.pfw = s.pfw ∧ s.selectionEvent.window = s.window ∧ s.selectionEvent.port = s.port ∧
    s.selectionEvent.causes = s.causes ∧ s.selectionEvent.idle = s.idle ∧
    s.selectionEvent.staging = s.staging ∧ s.selectionEvent.index = s.index ∧
    s.selectionEvent.space.present = s.space.present ∧ s.selectionEvent.space.freeList = s.space.freeList ∧
    s.selectionEvent.space.openCounter = s.space.openCounter ∧
    s.selectionEvent.space.range = s.space.range ∧ s.selectionEvent.space.state = s.space.state ∧
    s.selectionEvent.space.reasons = s.space.reasons ∧ s.selectionEvent.commit = s.commit ∧
    s.selectionEvent.reclaim.refreshList = s.reclaim.refreshList ∧
    s.selectionEvent.reclaim.exclusion = s.reclaim.exclusion ∧ s.selectionEvent.sequencer = s.sequencer ∧
    s.selectionEvent.mount = s.mount ∧ s.selectionEvent.mountReport = s.mountReport ∧
    s.selectionEvent.background = s.background ∧ s.selectionEvent.drain = s.drain ∧
    s.selectionEvent.health = s.health ∧ s.selectionEvent.medium = s.medium ∧
    s.selectionEvent.choices = s.choices := by
  unfold State.selectionEvent
  split
  · cases h : reclaimSelection s with
    | none => simp
    | some t => simpa using reclaimSelection_frame h
  · simp

@[simp] theorem State.slotWaitEvent_frame (s : State) :
    s.slotWaitEvent.pending = s.pending ∧ s.slotWaitEvent.power = s.power ∧ s.slotWaitEvent.pfw = s.pfw ∧
    s.slotWaitEvent.window = s.window ∧ s.slotWaitEvent.index = s.index ∧ s.slotWaitEvent.space = s.space ∧
    s.slotWaitEvent.commit = s.commit ∧ s.slotWaitEvent.reclaim = s.reclaim ∧
    s.slotWaitEvent.sequencer = s.sequencer ∧ s.slotWaitEvent.mount = s.mount ∧
    s.slotWaitEvent.mountReport = s.mountReport ∧ s.slotWaitEvent.background = s.background ∧
    s.slotWaitEvent.health = s.health ∧ s.slotWaitEvent.medium = s.medium ∧
    s.slotWaitEvent.choices = s.choices := by
  unfold State.slotWaitEvent
  split
  · cases h : slotWaitEnd s with
    | none => simp
    | some t => simpa using slotWaitEnd_frame h
  · simp

@[simp] theorem State.writeThroughEvent_frame (s : State) :
    s.writeThroughEvent.pending = s.pending ∧ s.writeThroughEvent.power = s.power ∧
    s.writeThroughEvent.pfw = s.pfw ∧ s.writeThroughEvent.window = s.window ∧
    s.writeThroughEvent.staging.pwl = s.staging.pwl ∧ s.writeThroughEvent.index = s.index ∧
    s.writeThroughEvent.space = s.space ∧ s.writeThroughEvent.commit = s.commit ∧
    s.writeThroughEvent.reclaim = s.reclaim ∧ s.writeThroughEvent.sequencer = s.sequencer ∧
    s.writeThroughEvent.mount = s.mount ∧ s.writeThroughEvent.mountReport = s.mountReport ∧
    s.writeThroughEvent.background = s.background ∧ s.writeThroughEvent.health = s.health ∧
    s.writeThroughEvent.medium = s.medium ∧ s.writeThroughEvent.choices = s.choices := by
  unfold State.writeThroughEvent
  split
  · cases h : writeThroughComplete s with
    | none => simp
    | some t => simpa using writeThroughComplete_frame h
  · simp

@[simp] theorem State.syncEvent_frame (s : State) :
    s.syncEvent.pending = s.pending ∧ s.syncEvent.power = s.power ∧ s.syncEvent.pfw = s.pfw ∧
    s.syncEvent.window = s.window ∧ s.syncEvent.staging.pwl = s.staging.pwl ∧ s.syncEvent.index = s.index ∧
    s.syncEvent.space = s.space ∧ s.syncEvent.commit = s.commit ∧ s.syncEvent.reclaim = s.reclaim ∧
    s.syncEvent.sequencer = s.sequencer ∧ s.syncEvent.mount = s.mount ∧
    s.syncEvent.mountReport = s.mountReport ∧ s.syncEvent.background = s.background ∧
    s.syncEvent.health = s.health ∧ s.syncEvent.medium = s.medium ∧ s.syncEvent.choices = s.choices := by
  unfold State.syncEvent
  split
  · cases h : syncComplete s with
    | none => simp
    | some t => simpa using syncComplete_frame h
  · simp

@[simp] theorem State.drainEvent_frame (s : State) :
    s.drainEvent.pending = s.pending ∧ s.drainEvent.power = s.power ∧ s.drainEvent.pfw = s.pfw ∧
    s.drainEvent.window = s.window ∧ s.drainEvent.port = s.port ∧ s.drainEvent.idle = s.idle ∧
    s.drainEvent.staging = s.staging ∧ s.drainEvent.index = s.index ∧ s.drainEvent.space = s.space ∧
    s.drainEvent.commit = s.commit ∧ s.drainEvent.reclaim = s.reclaim ∧
    s.drainEvent.sequencer = s.sequencer ∧ s.drainEvent.mount = s.mount ∧
    s.drainEvent.mountReport = s.mountReport ∧ s.drainEvent.background = s.background ∧
    s.drainEvent.health = s.health ∧ s.drainEvent.medium = s.medium ∧ s.drainEvent.choices = s.choices := by
  unfold State.drainEvent
  split
  · cases h : drainEnd s with
    | none => simp
    | some t => simpa using drainEnd_frame h
  · simp

@[simp] theorem State.haltEndEvent_frame (s : State) :
    s.haltEndEvent.pending = s.pending ∧ s.haltEndEvent.power = s.power ∧ s.haltEndEvent.pfw = s.pfw ∧
    s.haltEndEvent.window = s.window ∧ s.haltEndEvent.index.entries = s.index.entries ∧
    s.haltEndEvent.index.reservations = s.index.reservations ∧
    s.haltEndEvent.space.present = s.space.present ∧ s.haltEndEvent.space.segments = s.space.segments ∧
    s.haltEndEvent.space.freeList = s.space.freeList ∧
    s.haltEndEvent.space.openCounter = s.space.openCounter ∧ s.haltEndEvent.space.range = s.space.range ∧
    s.haltEndEvent.space.state = s.space.state ∧ s.haltEndEvent.reclaim = s.reclaim ∧
    s.haltEndEvent.sequencer.inFlight = s.sequencer.inFlight ∧
    s.haltEndEvent.sequencer.fairness = s.sequencer.fairness ∧
    s.haltEndEvent.sequencer.pin = s.sequencer.pin ∧ s.haltEndEvent.mount = s.mount ∧
    s.haltEndEvent.mountReport = s.mountReport ∧ s.haltEndEvent.background = s.background ∧
    s.haltEndEvent.health = s.health ∧ s.haltEndEvent.medium = s.medium ∧ s.haltEndEvent.choices = s.choices := by
  unfold State.haltEndEvent
  split
  · cases h : commitHaltEnd s with
    | none => simp
    | some t => simpa using commitHaltEnd_frame h
  · simp

@[simp] theorem State.powerFailCommand_frame (s : State) :
    s.powerFailCommand.pending = s.pending ∧ s.powerFailCommand.power = s.power ∧
    s.powerFailCommand.pfw = s.pfw ∧ s.powerFailCommand.window = s.window ∧
    s.powerFailCommand.staging.pwl = s.staging.pwl ∧ s.powerFailCommand.index = s.index ∧
    s.powerFailCommand.space = s.space ∧ s.powerFailCommand.commit = s.commit ∧
    s.powerFailCommand.reclaim = s.reclaim ∧ s.powerFailCommand.sequencer.fairness = s.sequencer.fairness ∧
    s.powerFailCommand.sequencer.pin = s.sequencer.pin ∧ s.powerFailCommand.mount = s.mount ∧
    s.powerFailCommand.mountReport = s.mountReport ∧ s.powerFailCommand.background = s.background ∧
    s.powerFailCommand.health = s.health ∧ s.powerFailCommand.medium = s.medium ∧
    s.powerFailCommand.choices = s.choices := by
  unfold State.powerFailCommand
  (try dsimp only)
  (repeat' split) <;> first | (simp; done) | (simp_all; done)

@[simp] theorem State.powerFailCommit_frame (s : State) :
    s.powerFailCommit.pending = s.pending ∧ s.powerFailCommit.power = s.power ∧
    s.powerFailCommit.pfw = s.pfw ∧ s.powerFailCommit.window = s.window ∧
    s.powerFailCommit.index.entries = s.index.entries ∧
    s.powerFailCommit.index.reservations = s.index.reservations ∧
    s.powerFailCommit.space.present = s.space.present ∧
    s.powerFailCommit.space.segments = s.space.segments ∧
    s.powerFailCommit.space.freeList = s.space.freeList ∧
    s.powerFailCommit.space.openCounter = s.space.openCounter ∧
    s.powerFailCommit.space.range = s.space.range ∧ s.powerFailCommit.space.state = s.space.state ∧
    s.powerFailCommit.reclaim = s.reclaim ∧ s.powerFailCommit.sequencer.inFlight = s.sequencer.inFlight ∧
    s.powerFailCommit.sequencer.fairness = s.sequencer.fairness ∧
    s.powerFailCommit.sequencer.pin = s.sequencer.pin ∧ s.powerFailCommit.mount = s.mount ∧
    s.powerFailCommit.mountReport = s.mountReport ∧ s.powerFailCommit.background = s.background ∧
    s.powerFailCommit.health = s.health ∧ s.powerFailCommit.medium = s.medium ∧
    s.powerFailCommit.choices = s.choices := by
  unfold State.powerFailCommit
  (try dsimp only)
  (repeat' split) <;> first | (simp; done) | (simp_all; done)

@[simp] theorem State.pfwAssert_frame (s : State) :
    s.pfwAssert.pending = s.pending ∧ s.pfwAssert.power = s.power ∧ s.pfwAssert.window = s.window ∧
    s.pfwAssert.index.entries = s.index.entries ∧ s.pfwAssert.index.reservations = s.index.reservations ∧
    s.pfwAssert.space.present = s.space.present ∧ s.pfwAssert.space.segments = s.space.segments ∧
    s.pfwAssert.space.freeList = s.space.freeList ∧ s.pfwAssert.space.openCounter = s.space.openCounter ∧
    s.pfwAssert.space.range = s.space.range ∧ s.pfwAssert.space.state = s.space.state ∧
    s.pfwAssert.reclaim.refreshList = s.reclaim.refreshList ∧
    s.pfwAssert.reclaim.exclusion = s.reclaim.exclusion ∧
    s.pfwAssert.sequencer.fairness = s.sequencer.fairness ∧ s.pfwAssert.sequencer.pin = s.sequencer.pin ∧
    s.pfwAssert.mount = s.mount ∧ s.pfwAssert.mountReport = s.mountReport ∧
    s.pfwAssert.background = s.background ∧ s.pfwAssert.health = s.health ∧ s.pfwAssert.medium = s.medium ∧
    s.pfwAssert.choices = s.choices := by
  unfold State.pfwAssert
  (try dsimp only)
  (repeat' split) <;> first | (simp; done) | (simp_all; done)

@[simp] theorem State.cutDrain_frame (s : State) :
    s.cutDrain.pending = s.pending ∧ s.cutDrain.power = s.power ∧ s.cutDrain.pfw = s.pfw ∧
    s.cutDrain.window = s.window ∧ s.cutDrain.port = s.port ∧ s.cutDrain.causes = s.causes ∧
    s.cutDrain.idle = s.idle ∧ s.cutDrain.staging = s.staging ∧ s.cutDrain.index = s.index ∧
    s.cutDrain.space = s.space ∧ s.cutDrain.commit = s.commit ∧ s.cutDrain.reclaim = s.reclaim ∧
    s.cutDrain.sequencer = s.sequencer ∧ s.cutDrain.mount = s.mount ∧
    s.cutDrain.mountReport = s.mountReport ∧ s.cutDrain.background = s.background ∧
    s.cutDrain.health = s.health ∧ s.cutDrain.medium = s.medium ∧ s.cutDrain.choices = s.choices := by
  unfold State.cutDrain
  (try dsimp only)
  (repeat' split) <;> first | (simp; done) | (simp_all; done)

@[simp] theorem State.pfwRelease_frame (s : State) :
    s.pfwRelease.pending = s.pending ∧ s.pfwRelease.power = s.power ∧ s.pfwRelease.window = s.window ∧
    s.pfwRelease.port.activity = s.port.activity ∧ s.pfwRelease.port.residue = s.port.residue ∧
    s.pfwRelease.port.result = s.port.result ∧ s.pfwRelease.port.detail = s.port.detail ∧
    s.pfwRelease.port.dataTimer = s.port.dataTimer ∧ s.pfwRelease.causes = s.causes ∧
    s.pfwRelease.idle.qualified = s.idle.qualified ∧ s.pfwRelease.staging = s.staging ∧
    s.pfwRelease.index = s.index ∧ s.pfwRelease.space = s.space ∧ s.pfwRelease.commit = s.commit ∧
    s.pfwRelease.reclaim = s.reclaim ∧ s.pfwRelease.sequencer = s.sequencer ∧
    s.pfwRelease.mount = s.mount ∧ s.pfwRelease.mountReport = s.mountReport ∧
    s.pfwRelease.background = s.background ∧ s.pfwRelease.health = s.health ∧
    s.pfwRelease.medium = s.medium ∧ s.pfwRelease.choices = s.choices := by
  unfold State.pfwRelease
  (try dsimp only)
  (repeat' split) <;> first | (simp; done) | (simp_all; done)

end Sys2Proof.Machine
end

