-- ==== Sys2Proof/Laws/Jobs.lean ====
section
/-! SUPPORT. What the shared operations of the Reclaimer's jobs and of a step's consequences do: the walk of a victim,
the drop condition, the end of a job, the work list of ERASE STORE, the worn check, a retirement report, and a change
that does not arise. -/

namespace Sys2Proof.Machine

/-! ## The consequences of a step -/

/-- When no change of a list arises, none of them does. -/
theorem firstChange_none : ∀ (l : List (State → Option State)) (s : State), firstChange l s = none →
    ∀ f ∈ l, f s = none := by
  intro l s
  induction l with
  | nil => simp
  | cons g l ih =>
    intro h f hf
    unfold firstChange at h
    cases hg : g s with
    | some t => simp [hg] at h
    | none =>
      simp [hg] at h
      rcases List.mem_cons.mp hf with rfl | hf
      · exact hg
      · exact ih h f hf

/-! ## The walk of a victim (R104, R108) -/

/-- The located record with the lowest first page at or above the cursor, or none of them. -/
theorem nextLocated_spec (v c : Nat) (l : List IndexEntry) : ∀ best : Option IndexEntry,
   let r := l.foldl (fun best e =>
      if e.segment = v ∧ c ≤ e.page then
        match best with
        | some b => if e.page < b.page then some e else some b
        | none => some e
      else best) best
   (∀ e, r = some e → (e ∈ l ∧ e.segment = v ∧ c ≤ e.page ∨ best = some e) ∧ (∀ x ∈ l, x.segment = v →
       c ≤ x.page → e.page ≤ x.page) ∧ (∀ b, best = some b → e.page ≤ b.page)) ∧
   (r = none → best = none ∧ ∀ x ∈ l, x.segment = v → x.page < c) := by
  induction l with
  | nil => intro best; simp; intro e he; exact ⟨he, fun b hb => by rw [he] at hb; cases hb; exact le_refl _⟩
  | cons x l ih =>
    intro best
    simp only [List.foldl_cons]
    obtain ⟨i1, i2⟩ := ih (if x.segment = v ∧ c ≤ x.page then
        match best with
        | some b => if x.page < b.page then some x else some b
        | none => some x
      else best)
    by_cases h : x.segment = v ∧ c ≤ x.page
    · rw [if_pos h] at i1 i2 ⊢
      cases best with
      | none =>
        simp only [] at i1 i2 ⊢
        refine ⟨fun e he => ?_, fun hn => ?_⟩
        · obtain ⟨a, b, d⟩ := i1 e he
          have dd := d x rfl
          refine ⟨?_, fun y hy h1 h2 => ?_, by simp⟩
          · rcases a with ⟨a1, a2, a3⟩ | a
            · exact Or.inl ⟨by simp [a1], a2, a3⟩
            · simp at a; subst a; exact Or.inl ⟨by simp, h⟩
          · rcases List.mem_cons.mp hy with rfl | hy
            · exact dd
            · exact b y hy h1 h2
        · have := (i2 hn).1; simp at this
      | some b0 =>
        simp only [] at i1 i2 ⊢
        by_cases hb : x.page < b0.page
        · rw [if_pos hb] at i1 i2 ⊢
          refine ⟨fun e he => ?_, fun hn => ?_⟩
          · obtain ⟨a, b, d⟩ := i1 e he
            have dd := d x rfl
            refine ⟨?_, fun y hy h1 h2 => ?_, by rintro _ ⟨⟩; omega⟩
            · rcases a with ⟨a1, a2, a3⟩ | a
              · exact Or.inl ⟨by simp [a1], a2, a3⟩
              · simp at a; subst a; exact Or.inl ⟨by simp, h⟩
            · rcases List.mem_cons.mp hy with rfl | hy
              · exact dd
              · exact b y hy h1 h2
          · have := (i2 hn).1; simp at this
        · rw [if_neg hb] at i1 i2 ⊢
          refine ⟨fun e he => ?_, fun hn => ?_⟩
          · obtain ⟨a, b, d⟩ := i1 e he
            have dd := d b0 rfl
            refine ⟨?_, fun y hy h1 h2 => ?_, by rintro _ ⟨⟩; omega⟩
            · rcases a with ⟨a1, a2, a3⟩ | a
              · exact Or.inl ⟨by simp [a1], a2, a3⟩
              · exact Or.inr a
            · rcases List.mem_cons.mp hy with rfl | hy
              · omega
              · exact b y hy h1 h2
          · have := (i2 hn).1; simp at this
    · rw [if_neg h] at i1 i2 ⊢
      refine ⟨fun e he => ?_, fun hn => ?_⟩
      · obtain ⟨a, b, d⟩ := i1 e he
        refine ⟨?_, fun y hy h1 h2 => ?_, d⟩
        · rcases a with ⟨a1, a2, a3⟩ | a
          · exact Or.inl ⟨by simp [a1], a2, a3⟩
          · exact Or.inr a
        · rcases List.mem_cons.mp hy with rfl | hy
          · exact absurd ⟨h1, h2⟩ h
          · exact b y hy h1 h2
      · obtain ⟨a, b⟩ := i2 hn
        refine ⟨a, fun y hy h1 => ?_⟩
        rcases List.mem_cons.mp hy with rfl | hy
        · by_contra k; exact h ⟨h1, by omega⟩
        · exact b y hy h1

/-- The drop condition holds when no other segment that may be scanned has a low sequence from 1 to the prior. -/
theorem State.dropCondition_true (s : State) (v prior : Nat) (h : ∀ g ∈ s.space.segments, g.number ≠ v →
    g.state = .open ∨ g.state = .filled ∨ g.state = .reclaiming ∨
          g.state = .retiring ∨ (g.state = .retired ∧ g.mark = some .unmarked) →
          g.lowSequence = 0 ∨ prior < g.lowSequence) : s.dropCondition v prior = true := by
  unfold State.dropCondition
  rw [List.all_eq_true]
  intro g hg
  by_cases hn : g.number = v
  · simp [hn]
  · have := h g hg hn
    simp only [Bool.or_eq_true, beq_iff_eq, Bool.not_eq_true',
        Bool.or_eq_false_iff, Bool.and_eq_false_iff, beq_eq_false_iff_ne, decide_eq_false_iff_not]
    by_cases c : g.state = .open ∨ g.state = .filled ∨ g.state = .reclaiming ∨ g.state = .retiring ∨
        (g.state = .retired ∧ g.mark = some .unmarked)
    · right; have := this c; omega
    · left; right
      simp only [not_or, not_and] at c
      obtain ⟨c1, c2, c3, c4, c5⟩ := c
      refine ⟨⟨⟨⟨c1, c2⟩, c3⟩, c4⟩, ?_⟩
      by_cases k : g.state = .retired
      · right; exact c5 k
      · left; exact k

/-- The drop condition fails when such a segment exists. -/
theorem State.dropCondition_false (s : State) (v prior : Nat) (h : ∃ g ∈ s.space.segments, g.number ≠ v ∧
    (g.state = .open ∨ g.state = .filled ∨ g.state = .reclaiming ∨
          g.state = .retiring ∨ (g.state = .retired ∧ g.mark = some .unmarked)) ∧
          1 ≤ g.lowSequence ∧ g.lowSequence ≤ prior) : s.dropCondition v prior = false := by
  obtain ⟨g, hg, hn, hs, h1, h2⟩ := h
  unfold State.dropCondition
  rw [List.all_eq_false]
  refine ⟨g, hg, ?_⟩
  simp only [Bool.or_eq_true, beq_iff_eq, Bool.not_eq_true',
      Bool.or_eq_false_iff, Bool.and_eq_false_iff, beq_eq_false_iff_ne, decide_eq_false_iff_not, not_or,
      not_and]
  refine ⟨⟨hn, ?_⟩, by omega⟩
  intro a
  rcases hs with k | k | k | k | ⟨k, k2⟩
  · exact absurd k a.1.1.1
  · exact absurd k a.1.1.2
  · exact absurd k a.1.2
  · exact absurd k a.2
  · simp [k, k2]

/-! ## The ends of a job (R90, R103, R115, R116) -/

/-- Waking a WAITING engine changes the requests alone. -/
theorem State.wakeWaiting_keeps (s : State) : ∃ q, s.wakeWaiting = { s with sequencer := q } ∧
    q.inFlight = s.sequencer.inFlight := by
  unfold State.wakeWaiting State.lodgeCommit
  split
  · exact ⟨_, rfl, rfl⟩
  · exact ⟨s.sequencer, rfl, rfl⟩

/-- A job that fails: its victim is excluded and leaves RECLAIMING, or its tag leaves the Refresh List. -/
theorem State.failJob_spec (s : State) (j : Job) (hj : s.reclaim.job = some j) :
        (s.failJob j).index = s.index ∧ (s.failJob j).sequencer.inFlight = s.sequencer.inFlight ∧
        (∀ v : Nat, j.kind = .segment v → (s.failJob j).health = s.health ∧
          (s.failJob j).reclaim = { s.reclaim with job := none, exclusion := s.reclaim.exclusion ++ [v] } ∧
          (s.failJob j).space = { s.space with segments := s.space.segments.map fun g =>
            if g.number = v ∧ g.state = .reclaiming then
              (if 100000 ≤ g.eraseCount then
                { g with state := .retiring, reason := some .worn, mark := some .none }
              else { g with state := .filled })
            else g }) ∧
        (∀ tag : Nat, j.kind = .refresh tag → (s.failJob j).space = s.space ∧
          (s.failJob j).reclaim = { s.reclaim with job := none, refreshList := s.reclaim.refreshList.drop 1 } ∧
          (s.failJob j).health.counters = { s.health.counters with
            refreshDrops := bump s.health.counters.refreshDrops }) := by
  unfold State.failJob
  cases hk : j.kind with
  | segment v =>
    simp only []
    have hs : (s.space.segments.map fun g => if g.number = v then g.abandonVictim else g)
        = s.space.segments.map fun g =>
            if g.number = v ∧ g.state = .reclaiming then
              (if 100000 ≤ g.eraseCount then
                { g with state := .retiring, reason := some .worn, mark := some .none }
              else { g with state := .filled })
            else g := by
      apply List.map_congr_left
      intro g _
      by_cases h1 : g.number = v <;> by_cases h2 : g.state = .reclaiming <;> simp [Segment.abandonVictim,
          h1, h2, Config.eraseLimit]
    obtain ⟨q0, hW, hW2⟩ : ∃ q0,
        (s.updateSegment v Segment.abandonVictim).withdrawReclaimer = { s.updateSegment v Segment.abandonVictim with
          sequencer := q0 } ∧ q0.inFlight = s.sequencer.inFlight := by
      unfold State.withdrawReclaimer
      split
      · exact ⟨_, rfl, rfl⟩
      · exact ⟨s.sequencer, rfl, rfl⟩
    have hA : s.abandonJob true = ({ s.updateSegment v Segment.abandonVictim with
          sequencer := q0
          reclaim := { s.reclaim with job := none, exclusion := s.reclaim.exclusion ++ [v] } } : State).wakeWaiting := by
      unfold State.abandonJob; rw [hj]; simp only [hk, if_true, hW]; rfl
    obtain ⟨q, hq, hq2⟩ :=
        State.wakeWaiting_keeps ({ s.updateSegment v Segment.abandonVictim with
          sequencer := q0
          reclaim := { s.reclaim with job := none, exclusion := s.reclaim.exclusion ++ [v] } } : State)
    simp only [] at hq2
    rw [hA, hq]
    refine ⟨rfl, hq2.trans hW2, fun w hw => ?_, fun tag ht => by simp at ht⟩
    simp at hw; subst hw
    refine ⟨rfl, rfl, ?_⟩
    simp only [State.updateSegment]; rw [← hs]
  | refresh tag =>
    simp only []
    unfold State.endRefresh State.endJob
    obtain ⟨q, hq, hq2⟩ :=
        State.wakeWaiting_keeps ({ s with reclaim := { s.reclaim with
            job := none, refreshList := s.reclaim.refreshList.drop 1 } } : State)
    dsimp only
    rw [hq]
    exact ⟨rfl, hq2, fun w hw => by simp at hw, fun _ _ => ⟨rfl, rfl, rfl⟩⟩

/-- The end of a job takes the job and nothing else, but for the request of a WAITING engine. -/
theorem State.endJob_keeps (s : State) : ∃ q, s.endJob =
      { s with reclaim := { s.reclaim with job := none }, sequencer := q } ∧
    q.inFlight = s.sequencer.inFlight ∧ q.requests.reclaimer = s.sequencer.requests.reclaimer ∧
    (s.commit.state ≠ .waiting → q = s.sequencer) := by
  unfold State.endJob State.wakeWaiting
  by_cases h : s.commit.state = .waiting
  · rw [if_pos (by exact h)]
    exact ⟨_, rfl, rfl, rfl, fun k => absurd h k⟩
  · rw [if_neg (by exact h)]
    exact ⟨_, rfl, rfl, rfl, fun _ => rfl⟩

/-- A withdrawn request of the Reclaimer is absent, and the arbiter's state alone changes. -/
theorem State.withdrawReclaimer_keeps (s : State) : ∃ q, s.withdrawReclaimer = { s with sequencer := q } ∧
    q.inFlight = s.sequencer.inFlight ∧ q.requests = { s.sequencer.requests with reclaimer := .absent } := by
  unfold State.withdrawReclaimer
  by_cases h : s.sequencer.requests.reclaimer.lodged = true
  · rw [if_pos h]
    exact ⟨_, rfl, rfl, rfl⟩
  · rw [if_neg h]
    have a : s.sequencer.requests.reclaimer = .absent := by
      cases hh : s.sequencer.requests.reclaimer <;> simp_all [Request.lodged]
    exact ⟨s.sequencer, rfl, rfl, by rw [← a]⟩

/-! ## The work list of ERASE STORE (R174) -/

theorem insertOlder_perm (g : Segment) (l : List Segment) : (insertOlder g l).Perm (g :: l) := by
  induction l with
  | nil => exact List.Perm.refl _
  | cons h l ih =>
    unfold insertOlder
    split
    · exact List.Perm.refl _
    · exact (List.Perm.cons h ih).trans (List.Perm.swap g h l)

theorem insertOlder_ordered (g : Segment) (l : List Segment)
    (hl : l.Pairwise fun a b => a.openSequence < b.openSequence ∨
      (a.openSequence = b.openSequence ∧ a.number ≤ b.number)) :
    (insertOlder g l).Pairwise fun a b => a.openSequence < b.openSequence ∨
      (a.openSequence = b.openSequence ∧ a.number ≤ b.number) := by
  induction l with
  | nil => simp [insertOlder]
  | cons h l ih =>
    rw [List.pairwise_cons] at hl
    unfold insertOlder
    by_cases c : olderSegment g h = true
    · rw [if_pos c, List.pairwise_cons, List.pairwise_cons]
      simp [olderSegment] at c
      refine ⟨fun x hx => ?_, hl⟩
      rcases List.mem_cons.mp hx with rfl | hx
      · omega
      · have := hl.1 x hx
        omega
    · rw [if_neg c, List.pairwise_cons]
      simp [olderSegment] at c
      refine ⟨fun x hx => ?_, ih hl.2⟩
      rcases List.mem_cons.mp ((insertOlder_perm g l).mem_iff.mp hx) with rfl | hx
      · omega
      · exact hl.1 x hx

/-- Segments put in their places one after another are the same segments, in order. -/
theorem foldr_insertOlder (l : List Segment) : (l.foldr insertOlder []).Perm l ∧
    (l.foldr insertOlder []).Pairwise fun a b => a.openSequence < b.openSequence ∨
      (a.openSequence = b.openSequence ∧ a.number ≤ b.number) := by
  induction l with
  | nil => simp
  | cons g l ih => exact ⟨(insertOlder_perm _ _).trans (ih.1.cons g), insertOlder_ordered _ _ ih.2⟩

/-! ## Retirement (R73, R77) -/

/-- The worn check adds WORN when fewer than 4 usable segments are left. -/
theorem State.checkWorn_eq (s : State)
    : s.checkWorn = { s with space := { s.space with reasons := { s.space.reasons with
      worn := s.space.reasons.worn ||
        decide ((s.space.segments.countP fun g => g.state != .retired) < 4) } } } := by
  have e : s.usableCount = (s.space.segments.countP fun g => g.state != .retired) :=
      by rw [List.countP_eq_length_filter]; rfl
  unfold State.checkWorn
  rw [e]
  by_cases h : (s.space.segments.countP fun g => g.state != .retired) < 4
  · rw [if_pos h]; simp [h]
  · rw [if_neg h]; simp [h]

/-- The retirement report of a failed program: the segment leaves OPEN for RETIRING, and the failure is counted. -/
theorem State.reportProgramFailure_eq (s : State) (segment k : Nat) (failure : Failure) :
    s.reportProgramFailure segment k failure = { s with
      space := { s.space with segments := s.space.segments.map fun g => if g.number = segment then
        { g with
          state := .retiring, reason := some .program, mark := some .none, pending := g.pending - k
          dead := g.dead + (128 - g.writePointer), writePointer := 128 }
        else g }
      health := { s.health with counters := match failure with
        | .timeout => { s.health.counters with mediumTimeouts := bump s.health.counters.mediumTimeouts }
        | .failed => { s.health.counters with programFailures := bump s.health.counters.programFailures } } } := by
  unfold State.reportProgramFailure State.updateSegment Segment.retireOpen Segment.close Segment.dropPending
  cases failure <;>
    simp [State.countProgramEnd, State.countProgramFailure, State.countTimeout, Config.segmentPages]

/-- A job abandoned is gone. -/
theorem State.abandonJob_job (s : State) (exclude : Bool) : (s.abandonJob exclude).reclaim.job = none := by
  unfold State.abandonJob
  split
  · assumption
  · split
    · obtain ⟨q, hq, _⟩ := State.endJob_keeps s.withdrawReclaimer; rw [hq]
    · dsimp only; rw [(State.endJob_keeps _).choose_spec.1]

/-- ERASE STORE's abandonment leaves the Reclaimer with nothing: no job, nothing listed, nothing excluded (R116). -/
theorem jobAbandon_erasing {s : State} {j : Job} (h : s.reclaim.job = some j) (a : j.abandoning = true)
    (r : s.reclaimerInFlight = false) (e : s.erasing = true) :
    ∃ t : State, jobAbandon s = some t ∧ t.reclaim = ⟨none, [], [], none⟩ := by
  refine ⟨(s.abandonJob false).emptyReclaimLists, by simp [jobAbandon, h, a, r, e], ?_⟩
  simp only [State.emptyReclaimLists, State.abandonJob_job]
end Sys2Proof.Machine
end

