-- ==== Sys2Proof/Laws/Lists.lean ====
section
/-! SUPPORT. The ordered lists and the choices over lists: the tags that ENUMERATE walks, the free list, the
index's insertion, the best segment by a rule, and the fields that the end of mount sets. -/

namespace Sys2Proof.Machine

/-! ## Insertions -/

theorem mem_insertTag (t x : Nat) (l : List Nat) : x ∈ insertTag t l ↔ x = t ∨ x ∈ l := by
  induction l with
  | nil => simp [insertTag]
  | cons y l ih =>
    unfold insertTag
    split
    · simp
    · split
      · subst_vars; simp
      · simp [ih]; tauto

theorem pairwise_insertTag (t : Nat) (l : List Nat) (h : l.Pairwise (· < ·)) :
    (insertTag t l).Pairwise (· < ·) := by
  induction l with
  | nil => simp [insertTag]
  | cons y l ih =>
    have h' := List.pairwise_cons.mp h
    unfold insertTag
    split
    · next hy =>
      refine List.pairwise_cons.mpr ⟨fun a ha => ?_, h⟩
      rcases List.mem_cons.mp ha with rfl | ha
      · exact hy
      · exact lt_trans hy (h'.1 a ha)
    · split
      · exact h
      · refine List.pairwise_cons.mpr ⟨fun a ha => ?_, ih h'.2⟩
        rcases (mem_insertTag _ _ _).mp ha with rfl | ha
        · omega
        · exact h'.1 a ha

theorem mem_insertEntry {e x : IndexEntry} {l : List IndexEntry} (h : x ∈ insertEntry e l) :
    x = e ∨ x ∈ l := by
  induction l with
  | nil => simp_all [insertEntry]
  | cons y l ih =>
    unfold insertEntry at h
    split at h
    · simp_all
    · split at h
      · simp only [List.mem_cons] at h ⊢; tauto
      · simp only [List.mem_cons] at h ⊢
        rcases h with h | h
        · tauto
        · rcases ih h with h | h <;> tauto

/-- An entry put in its place keeps the index in ascending order of tag. -/
theorem pairwise_insertEntry (e : IndexEntry) (l : List IndexEntry)
    (h : l.Pairwise fun a b => a.tag < b.tag) :
    (insertEntry e l).Pairwise fun a b => a.tag < b.tag := by
  induction l with
  | nil => simp [insertEntry]
  | cons y l ih =>
    have h' := List.pairwise_cons.mp h
    unfold insertEntry
    split
    · next hy =>
      refine List.pairwise_cons.mpr ⟨fun a ha => ?_, h⟩
      rcases List.mem_cons.mp ha with rfl | ha
      · exact hy
      · exact lt_trans hy (h'.1 a ha)
    · split
      · next hy => exact List.pairwise_cons.mpr ⟨fun a ha => by rw [hy]; exact h'.1 a ha, h'.2⟩
      · refine List.pairwise_cons.mpr ⟨fun a ha => ?_, ih h'.2⟩
        rcases mem_insertEntry ha with rfl | ha
        · omega
        · exact h'.1 a ha

/-- A number put into the free list: one longer, with the number and every other in it. -/
theorem insertFree_spec (count : Nat → Nat) (n : Nat) (l : List Nat) :
    (insertFree count n l).length = l.length + 1 ∧ n ∈ insertFree count n l ∧
      ∀ x ∈ l, x ∈ insertFree count n l := by
  induction l with
  | nil => simp [insertFree]
  | cons m l ih => unfold insertFree; split <;> simp_all

/-! ## The best segment by a rule -/

/-- What `pickBy` picks is related to every segment of the list, for a relation that the rule decides. -/
theorem pickBy_spec (better : Segment → Segment → Bool) (R : Segment → Segment → Prop)
    (refl : ∀ a, R a a) (trans : ∀ a b c, R a b → R b c → R a c)
    (yes : ∀ a b, better a b = true → R a b) (no : ∀ a b, better a b = false → R b a)
    (l : List Segment) :
    (l = [] ∧ pickBy better l = none) ∨ ∃ g ∈ l, pickBy better l = some g ∧ ∀ x ∈ l, R g x := by
  induction l with
  | nil => left; simp [pickBy]
  | cons g rest ih =>
    right
    unfold pickBy
    rcases ih with ⟨e, h⟩ | ⟨b, hb, h, hx⟩
    · rw [h]
      exact ⟨g, by simp, rfl, by simp [e, refl]⟩
    · rw [h]
      simp only []
      by_cases hc : better b g = true
      · rw [if_pos hc]
        refine ⟨b, by simp [hb], rfl, ?_⟩
        intro x hxm
        rcases List.mem_cons.mp hxm with rfl | k
        · exact yes _ _ hc
        · exact hx _ k
      · rw [if_neg hc]
        refine ⟨g, by simp, rfl, ?_⟩
        have := no _ _ (by simpa using hc)
        intro x hxm
        rcases List.mem_cons.mp hxm with rfl | k
        · exact refl _
        · exact trans _ _ _ this (hx _ k)

/-! ## The end of mount -/

/-- The counts of mount's reads have no part in the winners, the segments or the index. -/
theorem MountWork.counts_apart (m : MountWork) (a b c : Nat) :
    let t := { m with recovered := a, unreadable := b, timeouts := c }
    t.segment = m.segment ∧ t.index = m.index ∧ t.winners = m.winners := by
  intro t
  have h1 : ∀ l x, t.insertWinner x l = m.insertWinner x l := by
    intro l x
    induction l with
    | nil => rfl
    | cons y l ih => unfold MountWork.insertWinner; rw [ih]; rfl
  have h0 : t.winners = m.winners := by
    unfold MountWork.winners
    rw [show t.insertWinner = m.insertWinner from funext fun x => funext fun l => h1 l x]
  have h2 : t.indexed = m.indexed := by
    unfold MountWork.indexed
    rw [h0]
  refine ⟨?_, by unfold MountWork.index; rw [h2], h0⟩
  funext o h
  unfold MountWork.segment MountWork.candidateSegment MountWork.liveIn MountWork.holdsWinner
  rw [h2]
  rfl

end Sys2Proof.Machine
end

