-- ==== Sys2Proof/Laws/Mount.lean ====
section
/-! SUPPORT. What the parts of mount do: the candidates of R138, the runs of a scan and what the first records of a
candidate leave of them (R140, R141), the winners (R142), the OPEN choice (R143), and the lists that mount builds. -/

namespace Sys2Proof.Machine

/-! ## Candidates and lists (R138, R139, R145) -/

/-- The candidates are the segments of rows 2 and 7 of R138. -/
theorem MountWork.mem_startCandidates (m : MountWork) (d : Candidate) : d ∈ m.startCandidates ↔
    ∃ h ∈ m.headers, ∃ (q : Nat) (retire : Bool), (h.opened = .valid q ∧
        ((h.retired = .corrupt ∧ retire = true) ∨
          (h.retired = .blank ∧ retire = false ∧ ∃ count : Nat, h.formatted = .valid count ∧
              count ≠ 100000))) ∧ d = ⟨h.segment, q, retire, none, 1, 0⟩ := by
  unfold MountWork.startCandidates
  rw [List.mem_filterMap]
  constructor
  · rintro ⟨h, hm, hd⟩
    refine ⟨h, hm, ?_⟩
    unfold HeaderInfo.classify HeaderInfo.classifyUnretired at hd
    cases h1 : h.retired <;> cases h2 : h.formatted <;> cases h3 : h.opened <;> simp_all [Config.eraseLimit]
    · rename_i v; by_cases k : v = 100000 <;> simp [k] at hd
    · rename_i v w; by_cases k : v = 100000 <;> simp [k] at hd; exact ⟨k, hd.symm⟩
    · rename_i v; by_cases k : v = 100000 <;> simp [k] at hd
  · rintro ⟨h, hm, q, rt, ⟨ho, hc⟩, rfl⟩
    refine ⟨h, hm, ?_⟩
    unfold HeaderInfo.classify HeaderInfo.classifyUnretired
    rcases hc with ⟨h1, h2⟩ | ⟨h1, h2, ct, h3, h4⟩
    · simp [h1, ho, h2]
    · simp [h1, ho, h2, h3, h4, Config.eraseLimit]

/-- The candidates stand in the order of the headers. -/
theorem MountWork.startCandidates_sublist (m : MountWork)
    : (m.startCandidates.map (·.segment)).Sublist (m.headers.map (·.segment)) := by
  unfold MountWork.startCandidates
  generalize m.headers = l
  induction l with
  | nil => simp
  | cons h l ih =>
    rw [List.filterMap_cons]
    split
    · simp only [List.map_cons]; exact ih.cons _
    · next b e =>
      have : b.segment = h.segment := by
        split at e <;> simp at e; subst e; rfl
      simp only [List.map_cons, this]; exact ih.cons_cons _

/-- The highest of a list of values bounds them, and is one of them or 0. -/
theorem highest_spec (l : List Nat) : (∀ v ∈ l, v ≤ highest l) ∧ (highest l = 0 ∨ highest l ∈ l) := by
  have key : ∀ (l : List Nat) a, a ≤ l.foldl max a ∧ (∀ v ∈ l, v ≤ l.foldl max a) ∧ (l.foldl max a = a ∨
      l.foldl max a ∈ l) := by
    intro l
    induction l with
    | nil => simp
    | cons x l ih =>
      intro a
      obtain ⟨h1, h2, h3⟩ := ih (max a x)
      simp only [List.foldl_cons]
      refine ⟨by omega, ?_, ?_⟩
      · intro v hv
        rcases List.mem_cons.mp hv with rfl | hv
        · omega
        · exact h2 v hv
      · rcases h3 with h3 | h3
        · rw [h3]
          rcases Nat.le_total a x with k | k
          · right; simp [Nat.max_eq_right k]
          · left; exact Nat.max_eq_left k
        · right; simp [h3]
  exact ⟨(key l 0).2.1, (key l 0).2.2⟩

/-- The values of the valid findings. -/
theorem mem_filterMap_value {α : Type} (f : HeaderInfo → Finding α) (l : List HeaderInfo) (v : α)
    : v ∈ l.filterMap (fun h => (f h).value?) ↔ ∃ h ∈ l, f h = .valid v := by
  rw [List.mem_filterMap]
  constructor
  · rintro ⟨h, a, b⟩; refine ⟨h, a, ?_⟩; cases hf : f h <;> simp [hf, Finding.value?] at b; rw [b]
  · rintro ⟨h, a, b⟩; exact ⟨h, a, by simp [b, Finding.value?]⟩

/-- The numbers of a free list built by insertion. -/
theorem mem_foldl_insertFree (count : Nat → Nat) (l : List Nat) : ∀ (a : List Nat) k,
    k ∈ l.foldl (fun l n => insertFree count n l) a ↔ k ∈ a ∨ k ∈ l := by
  have one : ∀ (n k : Nat) (a : List Nat), k ∈ insertFree count n a ↔ k = n ∨ k ∈ a := by
    intro n k a
    induction a with
    | nil => simp [insertFree]
    | cons m a ih => unfold insertFree; split <;> simp [ih]; tauto
  induction l with
  | nil => simp
  | cons x l ih => intro a k; rw [List.foldl_cons, ih, one]; simp; tauto

/-! ## The OPEN choice (R143) -/

/-- A candidate that ranks above every other is the best for the OPEN choice. -/
theorem bestForOpen_eq (c : Candidate) (l : List Candidate) (hc : c ∈ l)
    (h : ∀ d ∈ l, d = c ∨ d.openSequence < c.openSequence ∨
      (d.openSequence = c.openSequence ∧ c.segment < d.segment)) : bestForOpen l = some c := by
  have none_of : ∀ l : List Candidate, bestForOpen l = none → l = [] := by
    intro l
    cases l with
    | nil => simp
    | cons a l => unfold bestForOpen; split <;> [split; skip] <;> simp
  have mem_of : ∀ (l : List Candidate) d, bestForOpen l = some d → d ∈ l := by
    intro l
    induction l with
    | nil => simp [bestForOpen]
    | cons a l ih =>
      intro d hd
      unfold bestForOpen at hd
      split at hd
      · next e he =>
        split at hd
        · simp at hd; subst hd; exact List.mem_cons_of_mem _ (ih _ he)
        · simp at hd; simp [hd]
      · simp at hd; simp [hd]
  induction l with
  | nil => simp at hc
  | cons a l ih =>
    unfold bestForOpen
    rcases List.mem_cons.mp hc with rfl | hcl
    · cases he : bestForOpen l with
      | none => rfl
      | some d =>
        have hd := mem_of _ _ he
        simp only []
        rcases h d (by simp [hd]) with e | e | e
        · subst e; simp
        · simp [aboveForOpen]; omega
        · simp [aboveForOpen]; omega
    · rw [ih hcl (fun d hd => h d (by simp [hd]))]
      simp only []
      rcases h a (by simp) with e | e | e
      · subst e; simp
      · simp [aboveForOpen, e]
      · simp [aboveForOpen]; omega

/-! ## Winners (R142) -/

/-- `a` ranks at least as high as `b` by R142 and log 21. -/
def MountWork.atLeast (m : MountWork) (a b : Found) : Prop :=
  b.record.sequence < a.record.sequence ∨ (a.record.sequence = b.record.sequence ∧
    (m.openSequenceOf b.segment < m.openSequenceOf a.segment ∨
      (m.openSequenceOf a.segment = m.openSequenceOf b.segment ∧
        (a.segment < b.segment ∨ (a.segment = b.segment ∧ b.page ≤ a.page)))))

theorem MountWork.atLeast_trans {m : MountWork} {a b c : Found} (h : m.atLeast a b) (k : m.atLeast b c)
    : m.atLeast a c := by
  unfold MountWork.atLeast at *
  omega

theorem MountWork.atLeast_of_winsOver {m : MountWork} {a b : Found} :
    (m.winsOver a b = true → m.atLeast a b) ∧ (m.winsOver a b = false → m.atLeast b a) := by
  unfold MountWork.winsOver MountWork.atLeast
  simp
  omega

/-- A record put among the winners: they stay ascending, and none of their tags is lost. -/
theorem MountWork.insertWinner_spec (m : MountWork) (x : Found) (l : List Found)
    (h : l.Pairwise fun a b => a.record.tag < b.record.tag) :
    ((m.insertWinner x l).Pairwise fun a b => a.record.tag < b.record.tag) ∧
    (∀ w ∈ m.insertWinner x l, w = x ∨ w ∈ l) ∧
    (∀ y, y = x ∨ y ∈ l → ∃ w ∈ m.insertWinner x l, w.record.tag = y.record.tag ∧ m.atLeast w y) := by
  have refl : ∀ a, m.atLeast a a := fun a => by unfold MountWork.atLeast; omega
  induction l with
  | nil => simp [insertWinner, refl]
  | cons y l ih =>
    have h' := List.pairwise_cons.mp h
    obtain ⟨i1, i2, i3⟩ := ih h'.2
    unfold MountWork.insertWinner
    split
    · next hlt =>
      refine ⟨List.pairwise_cons.mpr ⟨fun a ha => ?_, h⟩, by simp, fun z hz => ⟨z, by simpa using hz, rfl,
          refl z⟩⟩
      rcases List.mem_cons.mp ha with rfl | ha
      · exact hlt
      · exact lt_trans hlt (h'.1 a ha)
    · split
      · next hn he =>
        obtain ⟨w1, w2⟩ := @MountWork.atLeast_of_winsOver m x y
        by_cases hw : m.winsOver x y = true
        · rw [if_pos hw]
          refine ⟨List.pairwise_cons.mpr ⟨fun a ha => by rw [he]; exact h'.1 a ha, h'.2⟩, ?_, ?_⟩
          · intro w hw; simp at hw ⊢; tauto
          · intro z hz
            rcases hz with rfl | hz
            · exact ⟨z, by simp, rfl, refl z⟩
            · rcases List.mem_cons.mp hz with rfl | hz
              · exact ⟨x, by simp, he, w1 hw⟩
              · exact ⟨z, by simp [hz], rfl, refl z⟩
        · rw [if_neg hw]
          refine ⟨h, ?_, ?_⟩
          · intro w hw; simp at hw ⊢; tauto
          · intro z hz
            rcases hz with rfl | hz
            · exact ⟨y, by simp, he.symm, w2 (by simpa using hw)⟩
            · exact ⟨z, hz, rfl, refl z⟩
      · next hn he =>
        refine ⟨List.pairwise_cons.mpr ⟨fun a ha => ?_, i1⟩, ?_, ?_⟩
        · rcases i2 a ha with rfl | ha
          · omega
          · exact h'.1 a ha
        · intro w hw
          rcases List.mem_cons.mp hw with rfl | hw
          · simp
          · rcases i2 w hw with k | k <;> simp [k]
        · intro z hz
          have : z = y ∨ (z = x ∨ z ∈ l) := by simp at hz; tauto
          rcases this with rfl | k
          · exact ⟨z, by simp, rfl, refl z⟩
          · obtain ⟨w, a, b⟩ := i3 z k
            exact ⟨w, by simp [a], b⟩

/-- The winners: ascending in tag, each one the best record of its tag, and one for each tag found. -/
theorem MountWork.winners_spec (m : MountWork) :
    (m.winners.Pairwise fun a b => a.record.tag < b.record.tag) ∧
    (∀ w ∈ m.winners, (w ∈ m.found ∧ w.discarded = false) ∧
      ∀ y : Found, y ∈ m.found → y.discarded = false → y.record.tag = w.record.tag → m.atLeast w y) ∧
    (∀ y : Found, y ∈ m.found → y.discarded = false → ∃ w ∈ m.winners, w.record.tag = y.record.tag) := by
  have key : ∀ l : List Found, ((l.foldr m.insertWinner []).Pairwise fun a b => a.record.tag < b.record.tag) ∧
      (∀ w ∈ l.foldr m.insertWinner [], w ∈ l) ∧
      (∀ y ∈ l, ∃ w ∈ l.foldr m.insertWinner [], w.record.tag = y.record.tag ∧ m.atLeast w y) := by
    intro l
    induction l with
    | nil => simp
    | cons x l ih =>
      obtain ⟨i1, i2, i3⟩ := ih
      obtain ⟨j1, j2, j3⟩ := m.insertWinner_spec x _ i1
      refine ⟨j1, ?_, ?_⟩
      · intro w hw
        rcases j2 w hw with rfl | k
        · simp
        · simp [i2 w k]
      · intro y hy
        rcases List.mem_cons.mp hy with rfl | hy
        · exact j3 y (Or.inl rfl)
        · obtain ⟨w, a, b, c⟩ := i3 y hy
          obtain ⟨v, d, e, f⟩ := j3 w (Or.inr a)
          exact ⟨v, d, e.trans b, MountWork.atLeast_trans f c⟩
  obtain ⟨k1, k2, k3⟩ := key (m.found.filter fun x => !x.discarded)
  refine ⟨k1, ?_, ?_⟩
  · intro w hw
    refine ⟨by simpa using k2 w hw, ?_⟩
    intro y hy hd ht
    obtain ⟨v, a, b, c⟩ := k3 y (by simp [hy, hd])
    have inj : ∀ (l : List Found), (l.Pairwise fun a b => a.record.tag < b.record.tag) → ∀ a ∈ l, ∀ b ∈ l,
        a.record.tag = b.record.tag → a = b := by
      intro l hl
      induction l with
      | nil => simp
      | cons z l ih =>
        have hl' := List.pairwise_cons.mp hl
        intro a ha b hb hab
        rcases List.mem_cons.mp ha with e1 | ha1 <;> rcases List.mem_cons.mp hb with e2 | hb1
        · rw [e1, e2]
        · have := hl'.1 b hb1; rw [e1] at hab; omega
        · have := hl'.1 a ha1; rw [e2] at hab; omega
        · exact ih hl'.2 a ha1 b hb1 hab
    have := inj _ k1 v a w hw (b.trans ht)
    exact this ▸ c
  · intro y hy hd
    obtain ⟨v, a, b, c⟩ := k3 y (by simp [hy, hd])
    exact ⟨v, a, b⟩

/-! ## Runs (R141) -/

/-- The `n` records from `j` on are those of positions 1 to `n` of a run of `k`, at consecutive sequences. -/
def runAt (records : List (Record × Nat)) (j n k b q : Nat) : Prop :=
  ∀ a < n, ∃ x : Record × Nat, records[j + a]? = some x ∧ x.1.bundle = b ∧ x.1.position = some (a + 1, k) ∧
    x.1.sequence = q + a

/-- Record `i` lies in a whole run among the first `L`. -/
def inRun (records : List (Record × Nat)) (L i : Nat) : Prop :=
  ∃ j k b q, 2 ≤ k ∧ j ≤ i ∧ i < j + k ∧ j + k ≤ L ∧ runAt records j k k b q

/-- Two runs that share a record are one run. -/
theorem runAt_overlap {records : List (Record × Nat)} {j n k b q j' n' k' b' q' p : Nat} (h : runAt records j n k b q)
    (h' : runAt records j' n' k' b' q') (h1 : j ≤ p) (h2 : p < j + n) (h3 : j' ≤ p) (h4 : p < j' + n') :
    j = j' ∧ k = k' ∧ b = b' ∧ q = q' := by
  obtain ⟨x, hx, h5, h6, h7⟩ := h (p - j) (by omega)
  obtain ⟨y, hy, h8, h9, h10⟩ := h' (p - j') (by omega)
  rw [show j + (p - j) = p by omega] at hx
  rw [show j' + (p - j') = p by omega] at hy
  rw [hx] at hy
  cases hy
  rw [h6] at h9
  simp at h9
  have : j = j' := by omega
  subst this
  refine ⟨rfl, h9.2, h5.symm.trans h8, by omega⟩

theorem runAt_shorter {records : List (Record × Nat)} {j n m k b q : Nat} (h : runAt records j n k b q)
    (hm : m ≤ n) :
    runAt records j m k b q := fun a ha => h a (by omega)

theorem runAt_succ {records : List (Record × Nat)} {j n k b q : Nat} {x : Record × Nat} (h : runAt records j n k b q)
    (hx : records[j + n]? = some x) (h1 : x.1.bundle = b) (h2 : x.1.position = some (n + 1, k))
        (h3 : x.1.sequence = q + n) :
    runAt records j (n + 1) k b q := by
  intro a ha
  by_cases he : a = n
  · subst he; exact ⟨x, hx, h1, h2, h3⟩
  · exact h a (by omega)

/-- The records in the run in progress. -/
def MountWork.running (m : MountWork) : Nat := match m.run with | some r => r.found | none => 0

/-- What the first `L` records of a candidate leave. -/
structure RunsAfter (records : List (Record × Nat)) (n : Nat) (base : List Found) (gone : Nat) (L : Nat)
    (m : MountWork) : Prop where
  le : m.running ≤ L
  length : m.found.length = base.length + L
  rest : m.found.drop L = base
  found : ∃ d : Nat → Bool, (∀ i x, i < L → records[i]? = some x → m.found[L - 1 - i]? = some ⟨x.1, n, x.2,
      d i⟩) ∧
    (∀ i, i + m.running < L → ∀ x, records[i]? = some x → (d i = false ↔ x.1.position = none ∨
        inRun records L i)) ∧
    (∀ i, L ≤ i + m.running → i < L → d i = false)
  count : m.discarded = gone + (m.found.take L).countP (·.discarded)
  run : ∀ r, m.run = some r → 1 ≤ r.found ∧ r.next = r.found + 1 ∧ (r.next ≤ r.members ∨ r.members ≤ 1) ∧
    ∃ q, r.lastSequence + 1 = q + r.found ∧ runAt records (L - r.found) r.found r.members r.bundle q
  part : ∀ j k b q, 2 ≤ k → j < L → L < j + k → runAt records j (L - j) k b q →
    ∃ r, m.run = some r ∧ r.found = L - j

theorem RunsAfter.start (records : List (Record × Nat)) (n : Nat) (m : MountWork) (h : m.run = none) :
    RunsAfter records n m.found m.discarded 0 m where
  le := by simp [MountWork.running, h]
  length := by simp
  rest := rfl
  found := ⟨fun _ => false, by simp, by simp, by simp⟩
  count := by simp
  run := by simp [h]
  part := by simp

theorem getElem?_discardNewest (k : Nat) (l : List Found) (p : Nat) :
    (discardNewest k l)[p]? = l[p]?.map fun x => if p < k then { x with discarded := true } else x := by
  induction k generalizing l p with
  | zero => simp [discardNewest]
  | succ k ih =>
    cases l with
    | nil => simp [discardNewest]
    | cons y l =>
      cases p with
      | zero => simp [discardNewest]
      | succ p => simp [discardNewest, ih]

theorem length_discardNewest (k : Nat) (l : List Found) : (discardNewest k l).length = l.length := by
  induction k generalizing l with
  | zero => simp [discardNewest]
  | succ k ih => cases l <;> simp [discardNewest, ih]

theorem drop_discardNewest (k p : Nat) (l : List Found) (h : k ≤ p)
    : (discardNewest k l).drop p = l.drop p := by
  apply List.ext_getElem?
  intro i
  simp only [List.getElem?_drop, getElem?_discardNewest]
  cases l[p + i]? with
  | none => rfl
  | some x => simp; omega

theorem count_discardNewest (k p : Nat) (l : List Found) (h : k ≤ p) (hl : p ≤ l.length)
    (hf : ∀ i x, i < k → l[i]? = some x → x.discarded = false) :
    ((discardNewest k l).take p).countP (·.discarded) = k + (l.take p).countP (·.discarded) := by
  induction k generalizing l p with
  | zero => simp [discardNewest]
  | succ k ih =>
    cases l with
    | nil => simp at hl; omega
    | cons y l =>
      cases p with
      | zero => omega
      | succ p =>
        have := hf 0 y (by omega) (by simp)
        simp [discardNewest, this]
        rw [ih p l (by omega) (by simpa using hl)
          (fun i x hi hx => hf (i + 1) x (by omega) (by simpa using hx))]
        omega

/-- A run that is broken: every record of it stands discarded, and no run is in progress. -/
theorem RunsAfter.broken {records : List (Record × Nat)} {n : Nat} {base : List Found} {gone L : Nat} {m : MountWork}
    (h : RunsAfter records n base gone L m) :
    m.breakRun.run = none ∧ m.breakRun.running = 0 ∧ m.breakRun.found.length = base.length + L ∧
        m.breakRun.found.drop L = base ∧
    m.breakRun.discarded = gone + (m.breakRun.found.take L).countP (·.discarded) ∧
    ∃ d : Nat → Bool, (∀ i x, i < L → records[i]? = some x → m.breakRun.found[L - 1 - i]? = some ⟨x.1, n,
        x.2, d i⟩) ∧
    (∀ i, i < L → ∀ x, records[i]? = some x → (d i = false ↔ x.1.position = none ∨ inRun records L i)) := by
  obtain ⟨d, d1, d2, d3⟩ := h.found
  cases hr : m.run with
  | none =>
    have hr0 : m.running = 0 := by simp [MountWork.running, hr]
    have e : m.breakRun = m := by simp [MountWork.breakRun, hr]
    rw [e]
    exact ⟨hr, hr0, h.length, h.rest, h.count, d, d1, fun i hi => d2 i (by omega)⟩
  | some r =>
    have hr0 : m.running = r.found := by simp [MountWork.running, hr]
    have hle := h.le
    rw [hr0] at hle d2 d3
    obtain ⟨r1, r2, r3, q, r4, r5⟩ := h.run r hr
    have e : m.breakRun = { m with
        run := none, found := discardNewest r.found m.found, discarded := m.discarded + r.found } := by
      simp [MountWork.breakRun, hr]
    rw [e]
    refine ⟨rfl, rfl, by simp [length_discardNewest, h.length], by simp [drop_discardNewest _ _ _ hle,
        h.rest], ?_, fun i => if i + r.found < L then d i else true, ?_, ?_⟩
    · dsimp only
      rw [count_discardNewest _ _ _ hle (by rw [h.length]; omega), h.count]
      · omega
      · intro i x hi hx
        obtain ⟨y, hy, _⟩ := r5 (r.found - 1 - i) (by omega)
        have := d1 (L - r.found + (r.found - 1 - i)) y (by omega) hy
        rw [show L - 1 - (L - r.found + (r.found - 1 - i)) = i by omega] at this
        rw [this] at hx
        simp at hx
        rw [← hx]
        exact d3 _ (by omega) (by omega)
    · intro i x hi hx
      dsimp only
      rw [getElem?_discardNewest, d1 i x hi hx]
      by_cases hc : i + r.found < L
      · have : ¬ L - 1 - i < r.found := by omega
        simp [hc, this]
      · have : L - 1 - i < r.found := by omega
        simp [hc, this]
    · intro i hi x hx
      by_cases hc : i + r.found < L
      · simp only [hc, if_true]
        exact d2 i hc x hx
      · simp only [hc, if_false]
        constructor
        · simp
        · rintro (hn | ⟨j, k, b, q', k2, j1, j2, j3, hj⟩)
          · exfalso
            obtain ⟨y, hy, _, hp, _⟩ := r5 (i - (L - r.found)) (by omega)
            rw [show L - r.found + (i - (L - r.found)) = i by omega, hx] at hy
            cases hy
            rw [hn] at hp; simp at hp
          · exfalso
            have := runAt_overlap r5 hj (p := i) (by omega) (by omega) j1 j2
            omega

/-- The next record, with the run in progress continued or broken. -/
theorem RunsAfter.next {records : List (Record × Nat)} {n : Nat} {base : List Found} {gone L : Nat} {m : MountWork}
    {x : Record × Nat}
    (h : RunsAfter records n base gone L m) (hx : records[L]? = some x) :
    RunsAfter records n base gone (L + 1) (m.addToRuns x.1 n x.2) := by
  by_cases hc : ∃ r, m.run = some r ∧ r.continuedBy x.1 = true
  · obtain ⟨r, hr, hc⟩ := hc
    have hr0 : m.running = r.found := by simp [MountWork.running, hr]
    have hle := h.le
    obtain ⟨d, d1, d2, d3⟩ := h.found
    rw [hr0] at hle d2 d3
    obtain ⟨r1, r2, r3, q, r4, r5⟩ := h.run r hr
    simp [Run.continuedBy] at hc
    obtain ⟨⟨c1, c2⟩, c3⟩ := hc
    have r6 : runAt records (L - r.found) (r.found + 1) r.members r.bundle q :=
      runAt_succ r5 (by rw [show L - r.found + r.found = L by omega]; exact hx) c1 (by rw [c2, r2]) (by omega)
    have e : m.addToRuns x.1 n x.2 = { m with found := ⟨x.1, n, x.2, false⟩ :: m.found, run := r.advance x.1 } := by
      simp [MountWork.addToRuns, hr, Run.continuedBy, c1, c2, c3]
    rw [e]
    have old : ∀ i, i + r.found < L → (inRun records (L + 1) i ↔ inRun records L i) := by
      intro i hi
      constructor
      · rintro ⟨j, k, b, q', k2, j1, j2, j3, hj⟩
        by_cases hjl : j + k ≤ L
        · exact ⟨j, k, b, q', k2, j1, j2, hjl, hj⟩
        · obtain ⟨r', hr', hf⟩ := h.part j k b q' k2 (by omega) (by omega) (runAt_shorter hj (by omega))
          rw [hr] at hr'; cases hr'; omega
      · rintro ⟨j, k, b, q', k2, j1, j2, j3, hj⟩
        exact ⟨j, k, b, q', k2, j1, j2, by omega, hj⟩
    have found1 : ∀ i y, i < L + 1 → records[i]? = some y → (⟨x.1, n, x.2,
        false⟩ :: m.found)[L + 1 - 1 - i]? = some ⟨y.1, n, y.2, if i < L then d i else false⟩ := by
      intro i y hi hy
      by_cases hil : i < L
      · rw [show L + 1 - 1 - i = (L - 1 - i) + 1 by omega, List.getElem?_cons_succ, d1 i y hil hy]; simp [hil]
      · have : i = L := by omega
        subst this
        rw [hx] at hy; cases hy
        simp
    have inx : x.1.position ≠ none := by rw [c2]; simp
    by_cases hn : r.next = r.members
    · have ea : r.advance x.1 = none := by simp [Run.advance, hn]
      rw [ea]
      refine ⟨by simp [MountWork.running], by simp [h.length]; omega, by simp [h.rest], ⟨_, found1, ?_,
          by simp [MountWork.running]; omega⟩, by simp [h.count], by simp, ?_⟩
      · intro i hi y hy
        simp [MountWork.running] at hi
        by_cases hio : i + r.found < L
        · have : i < L := by omega
          rw [if_pos this, d2 i hio y hy, old i hio]
        · have hw : inRun records (L + 1) i := ⟨L - r.found, r.members, r.bundle, q, by omega, by omega,
            by omega, by omega, by
            have hm : r.members = r.found + 1 := by omega
            rw [hm] at r6 ⊢; exact r6⟩
          have : (if i < L then d i else false) = false := by
            split
            · exact d3 i (by omega) (by assumption)
            · rfl
          simp [this, hw]
      · intro j k b q' k2 j1 j2 hj
        exfalso
        by_cases hjl : j = L
        · obtain ⟨y, hy, _, hp, _⟩ := hj 0 (by omega)
          rw [Nat.add_zero, hjl, hx] at hy; cases hy
          rw [c2] at hp; simp at hp; omega
        · have := runAt_overlap r6 hj (p := L) (by omega) (by omega) (by omega) (by omega)
          omega
    · have ea : r.advance x.1 = some { r with
          next := r.next + 1, lastSequence := x.1.sequence, found := r.found + 1 } := by
        simp [Run.advance, hn]
      rw [ea]
      refine ⟨by simp [MountWork.running]; omega, by simp [h.length]; omega, by simp [h.rest], ⟨_, found1,
          ?_, ?_⟩, by simp [h.count], ?_, ?_⟩
      · intro i hi y hy
        simp [MountWork.running] at hi
        have : i < L := by omega
        rw [if_pos this, d2 i (by omega) y hy, old i (by omega)]
      · intro i hi hl
        simp [MountWork.running] at hi
        split
        · exact d3 i (by omega) (by assumption)
        · rfl
      · intro r' hr'
        simp at hr'
        subst hr'
        refine ⟨by simp, by simp [r2], by simp; omega, q, by simp; omega, ?_⟩
        rw [show L + 1 - (r.found + 1) = L - r.found by omega]
        exact r6
      · intro j k b q' k2 j1 j2 hj
        refine ⟨_, rfl, ?_⟩
        by_cases hjl : j = L
        · exfalso
          obtain ⟨y, hy, _, hp, _⟩ := hj 0 (by omega)
          rw [Nat.add_zero, hjl, hx] at hy; cases hy
          rw [c2] at hp; simp at hp; omega
        · have := runAt_overlap r6 hj (p := L) (by omega) (by omega) (by omega) (by omega)
          simp; omega
  · have e : m.addToRuns x.1 n x.2 = m.breakRun.addAlone x.1 n x.2 := by
      unfold MountWork.addToRuns
      cases hr : m.run with
      | none => simp [MountWork.breakRun, hr]
      | some r =>
        have : r.continuedBy x.1 = false := by
          by_contra k; exact hc ⟨r, hr, by simpa using k⟩
        simp [this]
    have none_on : ∀ j k b q, 2 ≤ k → j < L → L < j + k → ¬ runAt records j (L + 1 - j) k b q := by
      intro j k b q k2 j1 j2 hj
      obtain ⟨r, hr, hf⟩ := h.part j k b q k2 j1 j2 (runAt_shorter hj (by omega))
      obtain ⟨r1, r2, r3, q', r4, r5⟩ := h.run r hr
      have ov := runAt_overlap r5 hj (p := j) (by omega) (by omega) (by omega) (by omega)
      obtain ⟨y, hy, h5, h6, h7⟩ := hj (L - j) (by omega)
      rw [show j + (L - j) = L by omega, hx] at hy; cases hy
      refine hc ⟨r, hr, ?_⟩
      simp only [Run.continuedBy, Bool.and_eq_true, beq_iff_eq]
      refine ⟨⟨by rw [h5]; exact ov.2.2.1.symm, ?_⟩, by omega⟩
      rw [h6, r2, hf, ov.2.1]
    have all : ∀ i, inRun records (L + 1) i ↔ i < L ∧ inRun records L i := by
      intro i
      constructor
      · rintro ⟨j, k, b, q', k2, j1, j2, j3, hj⟩
        by_cases hjl : j + k ≤ L
        · exact ⟨by omega, j, k, b, q', k2, j1, j2, hjl, hj⟩
        · exact absurd (runAt_shorter hj (by omega)) (none_on j k b q' k2 (by omega) (by omega))
      · rintro ⟨_, j, k, b, q', k2, j1, j2, j3, hj⟩
        exact ⟨j, k, b, q', k2, j1, j2, by omega, hj⟩
    obtain ⟨b1, b2, b3, b4, b5, d, d1, d2⟩ := h.broken
    rw [e]
    generalize m.breakRun = w at *
    have found1 : ∀ (v : Bool) i y, i < L + 1 → records[i]? = some y → (⟨x.1, n, x.2,
        v⟩ :: w.found)[L + 1 - 1 - i]? = some ⟨y.1, n, y.2, if i < L then d i else v⟩ := by
      intro v i y hi hy
      by_cases hil : i < L
      · rw [show L + 1 - 1 - i = (L - 1 - i) + 1 by omega, List.getElem?_cons_succ, d1 i y hil hy]; simp [hil]
      · have : i = L := by omega
        subst this
        rw [hx] at hy; cases hy
        simp
    have found2 : ∀ (v : Bool), (∀ y, x.1.position = y → (v = false ↔ y = none)) → ∀ i, i < L + 1 → ∀ y,
        records[i]? = some y → ((if i < L then d i else v) = false ↔ y.1.position = none ∨
        inRun records (L + 1) i) := by
      intro v hv i hi y hy
      rw [all]
      by_cases hil : i < L
      · simp [hil, d2 i hil y hy]
      · have : i = L := by omega
        subst this
        rw [hx] at hy; cases hy
        simp [hv _ rfl]
    have nopart : (∀ k, x.1.position ≠ some (1, k)) → ∀ j k b q, 2 ≤ k → j < L + 1 → L + 1 < j + k →
        runAt records j (L + 1 - j) k b q → False := by
      intro hp j k b q k2 j1 j2 hj
      by_cases hjl : j = L
      · obtain ⟨y, hy, _, hpp, _⟩ := hj 0 (by omega)
        rw [Nat.add_zero, hjl, hx] at hy; cases hy
        exact hp _ hpp
      · exact none_on j k b q k2 (by omega) (by omega) hj
    unfold MountWork.addAlone
    cases hp : x.1.position with
    | none =>
      simp only []
      refine ⟨by simp [MountWork.running, b1], by simp [b3]; omega, by simp [b4], ⟨_, found1 false, ?_,
          by simp [MountWork.running, b1]; omega⟩, by simp [b5], by simp [b1], ?_⟩
      · intro i hi
        exact found2 false (by simp [hp]) i (by omega)
      · intro j k b q k2 j1 j2 hj
        exact (nopart (by simp [hp]) j k b q k2 j1 j2 hj).elim
    | some ip =>
      obtain ⟨i0, k0⟩ := ip
      simp only []
      by_cases h1 : i0 = 1
      · subst h1
        simp only [if_true]
        refine ⟨by simp [MountWork.running], by simp [b3]; omega, by simp [b4], ⟨_, found1 false, ?_, ?_⟩,
            by simp [b5], ?_, ?_⟩
        · intro i hi y hy
          simp [MountWork.running] at hi
          simp only [hi, if_true, d2 i hi y hy, all, true_and]
        · intro i hi hl
          simp [MountWork.running] at hi
          have : i = L := by omega
          simp [this]
        · intro r hr
          simp at hr
          subst hr
          refine ⟨by simp, by simp, by simp; omega, x.1.sequence, by simp, ?_⟩
          intro a ha
          have : a = 0 := by simpa using ha
          subst this
          exact ⟨x, by simpa using hx, rfl, by simp [hp], by simp⟩
        · intro j k b q k2 j1 j2 hj
          refine ⟨_, rfl, ?_⟩
          by_cases hjl : j = L
          · simp; omega
          · exact absurd hj (none_on j k b q k2 (by omega) (by omega))
      · simp only [h1, if_false]
        refine ⟨by simp [MountWork.running, b1], by simp [b3]; omega, by simp [b4], ⟨_, found1 true, ?_,
            by simp [MountWork.running, b1]; omega⟩, by simp [b5]; omega, by simp [b1], ?_⟩
        · intro i hi
          exact found2 true (by simp [hp]) i (by omega)
        · intro j k b q k2 j1 j2 hj
          exact (nopart (by simp [hp, h1]) j k b q k2 j1 j2 hj).elim

theorem RunsAfter.of_eq {records : List (Record × Nat)} {n : Nat} {base : List Found} {gone L : Nat} {m t : MountWork}
    (h : RunsAfter records n base gone L m) (h1 : t.found = m.found) (h2 : t.run = m.run)
        (h3 : t.discarded = m.discarded) :
    RunsAfter records n base gone L t := by
  have h4 : t.running = m.running := by unfold MountWork.running; rw [h2]
  obtain ⟨a, b, c, d, e, f, g⟩ := h
  constructor <;> simp only [h1, h2, h3, h4] <;> assumption

/-- The records of a candidate put to the runs in page order, and the end of its scan. -/
theorem RunsAfter.all (records : List (Record × Nat)) (n : Nat) (m : MountWork) (h : m.run = none) :
    RunsAfter records n m.found m.discarded records.length (records.foldl (fun w x => w.addRecord x.1 n x.2) m) := by
  have key : ∀ (rest : List (Record × Nat)) (L : Nat) (w : MountWork), L + rest.length = records.length →
      records.drop L = rest →
      RunsAfter records n m.found m.discarded L w →
      RunsAfter records n m.found m.discarded records.length (rest.foldl (fun w x => w.addRecord x.1 n x.2)
          w) := by
    intro rest
    induction rest with
    | nil => intro L w hl _ hw; simp at hl; rw [← hl]; exact hw
    | cons x rest ih =>
      intro L w hl hd hw
      rw [List.foldl_cons]
      have hx : records[L]? = some x := by
        have := congrArg List.head? hd
        simpa [List.head?_drop] using this
      refine ih (L + 1) _ (by simp at hl; omega) (by rw [← List.drop_drop, hd]; simp)
          ((hw.next hx).of_eq ?_ ?_ ?_)
      all_goals simp [MountWork.addRecord, MountWork.updateCandidate]
  exact key records 0 m (by simp) (by simp) (RunsAfter.start records n m h)

/-- What a record put to the runs leaves as it was. -/
theorem MountWork.addToRuns_keeps (m : MountWork) (r : Record) (n p : Nat) : ∃ f u d,
    m.addToRuns r n p = { m with found := f, run := u, discarded := d } := by
  have alone : ∀ m : MountWork, ∃ f u d,
      m.addAlone r n p = { m with found := f, run := u, discarded := d } := by
    intro m
    unfold MountWork.addAlone
    split
    · exact ⟨_, _, _, rfl⟩
    · split <;> exact ⟨_, _, _, rfl⟩
  unfold MountWork.addToRuns
  split
  · split
    · exact ⟨_, _, _, rfl⟩
    · unfold MountWork.breakRun
      split
      · obtain ⟨f, u, d, e⟩ :=
          alone { m with
            run := none, found := discardNewest (‹Run›).found m.found
            discarded := m.discarded + (‹Run›).found }
        exact ⟨f, u, d, e⟩
      · exact alone m
  · exact alone m

/-- What a broken run leaves as it was. -/
theorem MountWork.breakRun_keeps (m : MountWork) : ∃ f u d,
    m.breakRun = { m with found := f, run := u, discarded := d } := by
  unfold MountWork.breakRun
  split <;> exact ⟨_, _, _, rfl⟩

/-- The sequences and the candidates after a candidate's records. -/
theorem MountWork.foldl_addRecord (records : List (Record × Nat)) (n : Nat) : ∀ m : MountWork,
    let t := records.foldl (fun w x => w.addRecord x.1 n x.2) m
    m.highestSequence ≤ t.highestSequence ∧ (∀ x ∈ records, x.1.sequence ≤ t.highestSequence) ∧
    (t.highestSequence = m.highestSequence ∨ ∃ x ∈ records, x.1.sequence = t.highestSequence) ∧
    t.candidates = m.candidates.map (fun c => if c.segment = n then
      { c with
        lowSequence := records.foldl
          (fun low x => if low = 0 ∨ x.1.sequence < low then x.1.sequence else low) c.lowSequence }
      else c) ∧ t.truncated = m.truncated := by
  induction records with
  | nil => intro m; simp
  | cons x rest ih =>
    intro m
    obtain ⟨f, u, d, e⟩ := m.addToRuns_keeps x.1 n x.2
    have e2 : m.addRecord x.1 n x.2 = { m with
        found := f, run := u, discarded := d
        candidates := m.candidates.map (fun c =>
          if c.segment = n then { c with lowSequence := lowered c.lowSequence x.1.sequence } else c)
        highestSequence := max m.highestSequence x.1.sequence } := by
      simp [MountWork.addRecord, MountWork.updateCandidate, e]
    obtain ⟨h1, h2, h3, h4, h5⟩ := ih (m.addRecord x.1 n x.2)
    simp only [List.foldl_cons]
    rw [e2] at h1 h2 h3 h4 h5 ⊢
    simp only at h1 h2 h3 h4 h5 ⊢
    refine ⟨by omega, ?_, ?_, ?_, h5⟩
    · intro y hy
      rcases List.mem_cons.mp hy with rfl | hy
      · omega
      · exact h2 y hy
    · rcases h3 with h3 | ⟨y, hy, h3⟩
      · rcases Nat.le_total x.1.sequence m.highestSequence with k | k
        · left; rw [h3]; omega
        · right; exact ⟨x, by simp, by rw [h3]; omega⟩
      · right; exact ⟨y, by simp [hy], h3⟩
    · rw [h4, List.map_map]
      apply List.map_congr_left
      intro c _
      by_cases hc : c.segment = n <;> simp [hc, lowered]

end Sys2Proof.Machine
end

