-- ==== Sys2Proof/Laws/Settle.lean ====
section
/-! SUPPORT. What the consequences of an event can do: the cases, the induction over a step's consequences,
what they leave unchanged, and the causes they raise. -/

namespace Sys2Proof.Machine

/-! ## Cases and induction -/

theorem firstChange_mem {l : List (State → Option State)} {s t : State} (h : firstChange l s = some t) :
    ∃ f ∈ l, f s = some t := by
  induction l with
  | nil => simp [firstChange] at h
  | cons f rest ih =>
    unfold firstChange at h
    split at h
    · next u hu => exact ⟨f, by simp, by rw [hu, h]⟩
    · obtain ⟨g, hg, hs⟩ := ih h
      exact ⟨g, by simp [hg], hs⟩

theorem consequence_blocksRun {s t : State} (h : consequence s = some t) : s.blocksRun = true := by
  unfold consequence at h
  split at h
  · assumption
  · simp at h

/-- A consequence is one of the sixteen. -/
theorem consequence_cases {s t : State} (h : consequence s = some t) :
    healthRefresh s = some t ∨ spaceRefresh s = some t ∨ eraseStoreStart s = some t ∨
    jobAbandon s = some t ∨ slotWaitEnd s = some t ∨ writeThroughComplete s = some t ∨
    syncComplete s = some t ∨ commitHaltEnd s = some t ∨ commitNext s = some t ∨ commitStart s = some t ∨
    drainEnd s = some t ∨
    jobSelect s = some t ∨ reclaimSelection s = some t ∨ jobRequest s = some t ∨
    backgroundRequest s = some t ∨ grant s = some t := by
  unfold consequence at h
  split at h
  · obtain ⟨f, hf, hs⟩ := firstChange_mem h
    simp only [consequences, List.mem_cons, List.not_mem_nil, or_false] at hf
    rcases hf with rfl | rfl | rfl | rfl | rfl | rfl | rfl | rfl | rfl | rfl | rfl | rfl | rfl | rfl | rfl | rfl <;>
      simp [hs]
  · simp at h

/-- What every consequence keeps, settling keeps. -/
theorem settle_induction {P : State → Prop} (step : ∀ s t, consequence s = some t → P s → P t) :
    ∀ (n : Nat) (s : State), P s → P (settle n s) := by
  intro n
  induction n with
  | zero => intro s h; exact h
  | succ n ih =>
    intro s h
    unfold settle
    split
    · next t ht => exact ih t (step s t ht h)
    · exact h

/-- A relation that is reflexive and transitive holds between a state and its settled state when every
consequence is in it. -/
theorem settle_relation {R : State → State → Prop} (refl : ∀ s, R s s)
    (trans : ∀ a b c, R a b → R b c → R a c) (step : ∀ s t, consequence s = some t → R s t) :
    ∀ (n : Nat) (s : State), R s (settle n s) := by
  intro n
  induction n with
  | zero => intro s; exact refl s
  | succ n ih =>
    intro s
    unfold settle
    split
    · next t ht => exact trans s t _ (step s t ht) (ih t)
    · exact refl s

/-! ## What the consequences leave unchanged -/

theorem consequence_frame {s t : State} (h : consequence s = some t) :
    t.pending = s.pending ∧ t.power = s.power ∧ t.pfw = s.pfw ∧ t.window = s.window ∧
    t.mount = s.mount ∧ t.mountReport = s.mountReport ∧ t.medium = s.medium := by
  rcases consequence_cases h with h | h | h | h | h | h | h | h | h | h | h | h | h | h | h | h
  · have := healthRefresh_frame h; simp_all
  · have := spaceRefresh_frame h; simp_all
  · have := eraseStoreStart_frame h; simp_all
  · have := jobAbandon_frame h; simp_all
  · have := slotWaitEnd_frame h; simp_all
  · have := writeThroughComplete_frame h; simp_all
  · have := syncComplete_frame h; simp_all
  · have := commitHaltEnd_frame h; simp_all
  · have := commitNext_frame h; simp_all
  · have := commitStart_frame h; simp_all
  · have := drainEnd_frame h; simp_all
  · have := jobSelect_frame h; simp_all
  · have := reclaimSelection_frame h; simp_all
  · have := jobRequest_frame h; simp_all
  · have := backgroundRequest_frame h; simp_all
  · have := grant_frame h; simp_all

@[simp] theorem settle_frame (n : Nat) (s : State) :
    (settle n s).pending = s.pending ∧ (settle n s).power = s.power ∧ (settle n s).pfw = s.pfw ∧
    (settle n s).window = s.window ∧ (settle n s).mount = s.mount ∧
    (settle n s).mountReport = s.mountReport ∧ (settle n s).medium = s.medium := by
  refine settle_relation
    (R := fun s t => t.pending = s.pending ∧ t.power = s.power ∧ t.pfw = s.pfw ∧ t.window = s.window ∧
      t.mount = s.mount ∧ t.mountReport = s.mountReport ∧ t.medium = s.medium)
    (fun s => by simp) ?_ (fun s t h => consequence_frame h) n s
  intro a b c h k
  simp_all

@[simp] theorem State.finish_frame (s : State) :
    s.finish.pending = s.pending ∧ s.finish.power = s.power ∧ s.finish.pfw = s.pfw ∧
    s.finish.window = s.window ∧ s.finish.mount = s.mount ∧
    s.finish.mountReport = s.mountReport ∧ s.finish.medium = s.medium := by
  simp [State.finish]

/-- While mount runs, or the part does not run, a step has no consequence. -/
theorem settle_of_blocked {s : State} (h : s.blocksRun = false) (n : Nat) : settle n s = s := by
  cases n with
  | zero => rfl
  | succ n => simp [settle, consequence, h]

theorem State.finish_of_blocked {s : State} (h : s.blocksRun = false) :
    s.finish = s.refreshReservations.noteCommitDue.ageRequests := by
  simp [State.finish, settle_of_blocked h]

/-! ## The port -/

theorem State.endWaits_of_not_waits {s : State} (h : s.port.activity.waits = false) (code : ResultCode) :
    s.endWaits code = s := by
  unfold State.endWaits
  split <;> simp_all [Activity.waits]

theorem State.enterHalt_port {s : State} (h : s.port.activity.waits = false) (r : HaltReason) :
    (s.enterHalt r).port = s.port := by
  unfold State.enterHalt
  rw [State.endWaits_of_not_waits (by simpa using h)]
  simp

theorem State.holdNumbers_port {s : State} (h : s.port.activity.waits = false) (k prior : Nat) :
    (s.holdNumbers k prior).port = s.port := by
  unfold State.holdNumbers
  split
  · next x hx => simp [(State.takeNumbers_frame' hx)]
  · next x hx =>
    have H := State.takeNumbers_frame' hx
    rw [State.enterHalt_port (by simp [H, h])]
    simp [H]

theorem State.beginUnit_port {s : State} (h : s.port.activity.waits = false) :
    s.beginUnit.port = s.port := by
  unfold State.beginUnit
  split
  · exact State.enterHalt_port h _
  · split
    · rfl
    · dsimp only
      split
      · rw [State.holdNumbers_port (by simpa using h)]
      · split
        · simp
        · split
          · simp
          · rw [State.holdNumbers_port (by simpa using h)]
          · rw [State.holdNumbers_port (by simpa using h)]

theorem State.leaveHalt_port {s : State} (h : s.port.activity.waits = false) :
    s.leaveHalt.port = s.port := by
  unfold State.leaveHalt
  rw [State.beginUnit_port (by simpa using h)]

theorem State.commitNoRoom_port {s : State} (h : s.port.activity.waits = false) :
    s.commitNoRoom.port = s.port := by
  unfold State.commitNoRoom
  split
  · split
    · exact State.enterHalt_port h _
    · rfl
  · rw [State.enterHalt_port (by simpa using h)]

theorem State.grantCommit_port {s : State} (h : s.port.activity.waits = false) :
    s.grantCommit.port = s.port := by
  unfold State.grantCommit
  split
  · rfl
  · dsimp only
    split
    · simp
    · split
      · next hx => have H := State.claimPages_frame' hx; simp [H]
      · next hx => have H := State.claimPages_frame' hx; simp [H]
      · next hx => have H := State.claimPages_frame' hx; simp [H]
      · next hx =>
        have H := State.claimPages_frame' hx
        rw [State.commitNoRoom_port (by simp [H, h])]
        simp [H]

theorem State.grantTo_port {s : State} (h : s.port.activity.waits = false) (a : Applicant) :
    (s.grantTo a).port = s.port := by
  cases a <;> simp only [State.grantTo]
  · simp
  · rw [State.grantCommit_port (by simpa using h)]
  · simp
  · simp

theorem commitStart_port {s t : State} (h : commitStart s = some t) (w : s.port.activity.waits = false) :
    t.port = s.port := by
  unfold commitStart commitBegin at h
  split at h
  · split at h
    · cases h
      exact State.beginUnit_port w
    · simp at h
  · simp at h

/-- With no wait in progress the blocks' work leaves the port as it is. -/
theorem consequence_port {s t : State} (h : consequence s = some t)
    (w : s.port.activity.waits = false) : t.port = s.port := by
  rcases consequence_cases h with h | h | h | h | h | h | h | h | h | h | h | h | h | h | h | h
  · exact (healthRefresh_frame h).2.2.2.2.1
  · exact (spaceRefresh_frame h).2.2.2.2.1
  · unfold eraseStoreStart State.erasure at h
    cases ha : s.port.activity <;> simp_all [Activity.waits]
  · exact (jobAbandon_frame h).2.2.2.2.1
  · unfold slotWaitEnd at h
    cases ha : s.port.activity <;> simp_all [Activity.waits]
  · unfold writeThroughComplete at h
    cases ha : s.port.activity <;> simp_all [Activity.waits]
  · unfold syncComplete at h
    cases ha : s.port.activity <;> simp_all [Activity.waits]
  · unfold commitHaltEnd at h
    split at h
    · cases h; exact State.leaveHalt_port w
    · simp at h
  · unfold commitNext at h
    split at h
    · simp only [Option.some.injEq] at h
      subst h
      split
      · rfl
      · exact State.beginUnit_port w
    · simp at h
  · exact commitStart_port h w
  · exact (drainEnd_frame h).2.2.2.2.1
  · exact (jobSelect_frame h).2.2.2.2.1
  · exact (reclaimSelection_frame h).2.2.2.2.1
  · exact (jobRequest_frame h).2.2.2.2.1
  · exact (backgroundRequest_frame h).2.2.2.2.1
  · unfold grant at h
    split at h
    · simp only [Option.map_eq_some_iff] at h
      obtain ⟨a, _, rfl⟩ := h
      exact State.grantTo_port w a
    · simp at h

theorem settle_port (n : Nat) (s : State) (w : s.port.activity.waits = false) :
    (settle n s).port = s.port := by
  have H := settle_induction (P := fun t => t.port = s.port)
    (fun a b h k => by rw [consequence_port h (by rw [k]; exact w), k]) n s rfl
  exact H

/-- With no wait in progress the end of a step leaves the port as it is. -/
theorem State.finish_port {s : State} (w : s.port.activity.waits = false) : s.finish.port = s.port := by
  simp [State.finish, settle_port _ s w]

end Sys2Proof.Machine
end

