-- ==== Sys2Proof/Laws/Port.lean ====
section
/-! SUPPORT. The shared shapes of a step of the running part: an event's effect followed by the end of the
step, the taking and the ending of a command, the entry into HALTED, the acceptance checks, and the causes that an end
raises. -/

namespace Sys2Proof.Machine

/-! ## A step of the running part -/

theorem State.run_of_on {s : State} (h : s.power = .on) (e : State → State) :
    s.run e = .next (e s).finish := by simp [State.run, h]

/-- Everything that `run` can answer. -/
theorem State.run_next {s t : State} {e : State → State} (h : s.run e = .next t) :
    (s.power = .on ∧ t = (e s).finish) ∨ (s.power ≠ .on ∧ t = s) := by
  unfold State.run at h
  split at h <;> simp at h <;> simp_all

theorem State.runOp_of_exists {s : State} {f : InFlight} (hp : s.power = .on)
    (hf : s.sequencer.inFlight = some f) (hx : s.opExists f.op = true) (e : State → InFlight → State) :
    s.runOp e = .next (e s f).finish := by
  unfold State.runOp
  rw [hf]
  simp [hx, State.run_of_on hp]

/-- Everything that `runOp` can answer, but for its fault. -/
theorem State.runOp_next {s t : State} {e : State → InFlight → State} (h : s.runOp e = .next t) :
    (∃ f, s.sequencer.inFlight = some f ∧ s.power = .on ∧ s.opExists f.op = true ∧ t = (e s f).finish) ∨
      (s.sequencer.inFlight = none ∧ s.power = .on ∧ t = s.finish) ∨ (s.power ≠ .on ∧ t = s) := by
  unfold State.runOp at h
  split at h
  · rcases State.run_next h with ⟨a, b⟩ | ⟨a, b⟩ <;> simp_all
  · next f hf =>
    split at h
    · simp at h
    · rcases State.run_next h with ⟨a, b⟩ | ⟨a, b⟩
      · left
        refine ⟨f, hf, a, ?_, b⟩
        simp_all
      · simp_all

theorem State.accept_of_idle {s : State} (h : s.port.state = .idle) (code : Word) (body : State → State) :
    s.accept code body = body (s.take code) := by simp [State.accept, h]

@[simp] theorem State.releasePort_inFlight (s : State) : s.releasePort.sequencer.inFlight = none := rfl

@[simp] theorem State.releasePort_pin (s : State) : s.releasePort.sequencer.pin = none := rfl

/-- After the end of a program or an erase the medium is as the end left it. -/
theorem State.programEnd_medium (s : State) (f : InFlight) (outcome : MediumEnd) :
    (s.programEnd f outcome).medium = f.op.apply s.medium outcome := by
  unfold State.programEnd
  split <;> simp

/-! ## The end of a command -/

theorem State.enterIdle_eq (s : State) :
    s.enterIdle =
      { s with
        port := { s.port with state := .idle }
        idle := { s.idle with running :=
          if s.staging.pwl = [] ∧ s.window.options.idleDelay ≠ 0 then some s.window.options.idleDelay
          else none } } := by
  unfold State.enterIdle State.startIdle State.stopIdle
  cases h : s.staging.pwl <;> simp [h]

/-- With PFW# deasserted an ended command leaves the port as `completedAs` says. -/
theorem State.endCommand_eq {s : State} (h : s.pfw = false) (r : ResultCode) (d : Nat) :
    s.endCommand r d = s.completedAs r d := by
  unfold State.endCommand State.leaveCommand
  simp [State.enterIdle_eq, State.freeReserved, h, State.raiseDone, State.completedAs]

/-- The staging buffer at a halt is as `Staging.released` says. -/
theorem Staging.release_eq (g : Staging) : g.release = g.released := by
  unfold Staging.release Staging.released clearFlags
  cases h : g.pwl with
  | nil => rfl
  | cons e rest =>
    simp only [List.map_cons, headSuperseded]
    by_cases c : e.bundle = 0 ∧ ∃ x ∈ rest, x.tag = e.tag ∧ x.bundle = 0
    · rw [if_pos c, if_pos]
      simpa using c
    · rw [if_neg c, if_neg]
      simpa using c

/-- An engine that enters HALTED leaves the state as `haltedAs` says. -/
theorem State.enterHalt_eq {s : State} (h : s.port.activity.waits = true → s.pfw = false) (r : HaltReason) :
    s.enterHalt r = s.haltedAs r := by
  unfold State.enterHalt State.haltedAs State.endWaits
  simp only [Staging.release_eq, State.withdrawCommit, State.raiseDeferred]
  cases ha : s.port.activity <;> simp only [] <;>
    (try rw [State.endCommand_eq (by exact h (by simp [ha, Activity.waits]))])

/-- With PFW# asserted an ended command leaves the port DRAINING. -/
theorem State.endCommand_draining {s : State} (h : s.pfw = true) (r : ResultCode) (d : Nat) :
    (s.endCommand r d).port = ⟨.draining, .none, 0, r, d, none⟩ ∧
      (s.endCommand r d).causes.done = true ∧ (s.endCommand r d).window = s.window := by
  unfold State.endCommand State.leaveCommand
  simp [h, State.enterDraining, State.raiseDone, State.freeReserved]

theorem State.take_endCommand {s : State} (h : s.pfw = false) (code : Word) (r : ResultCode) (d : Nat) :
    (s.take code).endCommand r d = s.endedAs code r d := by
  rw [State.endCommand_eq (by simpa using h)]
  simp [State.take, State.endedAs, State.completedAs]
  rfl

theorem setSlots_one (l : List Slot) (n : Nat) (x : SlotState) :
    setSlots l [n] x = l.modify n fun y => { y with state := x } := rfl

/-! ## The acceptance checks -/

/-- STORE's checks are those of `storeVerdict`. -/
theorem State.storeBody_eq (s : State) :
    s.storeBody =
      if s.storeVerdict = .none then s.enterReserve s.storeWork else s.endCommand s.storeVerdict 0 := by
  unfold State.storeBody State.storeVerdict
  have e1 : (!validTag s.window.tag.toNat) =
      decide (s.window.tag.toNat < 1 ∨ 65534 < s.window.tag.toNat) := by
    simp [validTag, Config.lastTag]; grind
  have e2 : (!validLength s.window.length.toNat) = decide (1024 < s.window.length.toNat) := by
    simp [validLength, Config.slotBytes]; grind
  have e3 : s.protectionRefuses s.window.tag.toNat (optReplace s.window.option) =
      decide ((s.visible s.window.tag.toNat).isProtected = true ∧
        s.window.option.getLsbD 1 = false) := by
    simp [State.protectionRefuses, optReplace]
  have e4 : (s.needsReservation s.window.tag.toNat &&
      decide (Config.indexCapacity < s.indexUse + 1)) =
      decide (s.lookup s.window.tag.toNat = none ∧ s.hasWrite s.window.tag.toNat = false ∧
        1024 < s.index.entries.length + s.index.reservations + 1) := by
    simp [State.needsReservation, State.indexUse, Config.indexCapacity]
    cases s.lookup s.window.tag.toNat <;> simp
  simp only [e1, e2, e3, e4, decide_eq_true_eq]
  split <;> [skip; split] <;> [skip; skip; split] <;> [skip; skip; skip; split] <;>
    [skip; skip; skip; skip; split] <;> [skip; skip; skip; skip; skip; split] <;> simp_all

/-- REMOVE's checks are those of `removeVerdict`. -/
theorem State.removeBody_eq (s : State) :
    s.removeBody =
      if s.removeVerdict = .none then s.enterReserve s.removeWork else s.endCommand s.removeVerdict 0 := by
  unfold State.removeBody State.removeVerdict
  simp only [validTag, Config.lastTag, State.protectionRefuses, optReplace]
  have : ((s.visible s.window.tag.toNat).isPresent = false ↔ s.visible s.window.tag.toNat = .absent) := by
    cases s.visible s.window.tag.toNat <;> simp [Visible.isPresent]
  grind

/-! ## Causes -/

theorem Causes.within_refl (a : Causes) : a.within a := by simp [Causes.within]

theorem Causes.within_trans {a b c : Causes} : a.within b → b.within c → a.within c :=
  fun ⟨a1, a2, a3, a4, a5, a6⟩ ⟨b1, b2, b3, b4, b5, b6⟩ =>
    ⟨b1 ∘ a1, b2 ∘ a2, b3 ∘ a3, b4 ∘ a4, b5 ∘ a5, b6 ∘ a6⟩

@[simp] theorem State.endCommand_causes (s : State) (r : ResultCode) (d : Nat) :
    (s.endCommand r d).causes = { s.causes with done := true } := by
  simp [State.endCommand, State.leaveCommand, State.raiseDone]
  split <;> simp

theorem State.endCommand_within (s : State) (r : ResultCode) (d : Nat) :
    s.causes.within (s.endCommand r d).causes := by simp [Causes.within]

theorem State.endWaits_within (s : State) (r : ResultCode) : s.causes.within (s.endWaits r).causes := by
  unfold State.endWaits
  split <;> first | exact State.endCommand_within _ _ _ | exact Causes.within_refl _

theorem State.enterHalt_within (s : State) (r : HaltReason) : s.causes.within (s.enterHalt r).causes := by
  unfold State.enterHalt
  refine Causes.within_trans ?_ (State.endWaits_within _ _)
  simp [Causes.within, State.raiseDeferred]

theorem State.holdNumbers_within (s : State) (k p : Nat) : s.causes.within (s.holdNumbers k p).causes := by
  unfold State.holdNumbers
  split
  · next hx => simp [State.takeNumbers_frame' hx, Causes.within_refl]
  · next hx =>
    refine Causes.within_trans ?_ (State.enterHalt_within _ _)
    simp [State.takeNumbers_frame' hx, Causes.within_refl]

theorem State.beginUnit_within (s : State) : s.causes.within s.beginUnit.causes := by
  unfold State.beginUnit
  split
  · exact State.enterHalt_within _ _
  · split
    · exact Causes.within_refl _
    · dsimp only
      split
      · exact Causes.within_trans (by exact Causes.within_refl _) (State.holdNumbers_within _ _ _)
      · split
        · simp [Causes.within_refl]
        · split
          · simp [Causes.within_refl]
          · exact Causes.within_trans (by exact Causes.within_refl _) (State.holdNumbers_within _ _ _)
          · exact Causes.within_trans (by exact Causes.within_refl _) (State.holdNumbers_within _ _ _)

theorem State.leaveHalt_within (s : State) : s.causes.within s.leaveHalt.causes := by
  unfold State.leaveHalt
  exact Causes.within_trans (by exact Causes.within_refl _) (State.beginUnit_within _)

theorem State.endErasure_within (s : State) : s.causes.within s.endErasure.causes := by
  unfold State.endErasure
  split
  · exact Causes.within_refl _
  · split
    · simp [State.leaveCommand]
      split <;> simp [Causes.within_refl]
    · split <;> exact State.endCommand_within _ _ _

end Sys2Proof.Machine
end

