-- ==== Sys2Proof/Laws/Units.lean ====
section
/-! SUPPORT. What the shared operations over units and entries do: lookups after a claim, the install of a unit's
records, the entries of a bundle, the damaged claim, the begin step, segments by number, and
what the end of a command keeps. -/

namespace Sys2Proof.Machine

/-! ## Lookups (R16, R26) -/

theorem find?_insertEntry (e : IndexEntry) (tag : Nat) (l : List IndexEntry) :
    (insertEntry e l).find? (fun x => x.tag == tag) =
      if tag = e.tag then some e else l.find? (fun x => x.tag == tag) := by
  induction l with
  | nil =>
    by_cases h : tag = e.tag
    · simp [insertEntry, h]
    · have : (e.tag == tag) = false := by simpa using Ne.symm h
      simp [insertEntry, this, h]
  | cons x rest ih =>
    unfold insertEntry
    split
    · by_cases h : tag = e.tag
      · simp [h]
      · have : (e.tag == tag) = false := by simpa using Ne.symm h
        simp [List.find?_cons, this, h]
    · split
      · next h1 h2 =>
        by_cases h : tag = e.tag
        · simp [h]
        · have a : (e.tag == tag) = false := by simpa using Ne.symm h
          have b : (x.tag == tag) = false := by rw [← h2]; exact a
          simp [a, b, h]
      · next h1 h2 =>
        simp only [List.find?_cons, ih]
        by_cases h : tag = e.tag
        · have b : (x.tag == tag) = false := by subst h; simpa using Ne.symm h2
          simp [h]
          rw [h] at b
          simp [b]
        · simp [h]

/-- After an entry is put in the index, its tag locates it and every other tag what it located before. -/
theorem State.lookup_putEntry (s : State) (e : IndexEntry) (tag : Nat) :
    (s.putEntry e).lookup tag = if tag = e.tag then some e else s.lookup tag := by
  unfold State.lookup State.putEntry
  exact find?_insertEntry _ _ _

/-- After a record is installed its tag has the record's entry, and every other tag the entry it had (R26). -/
theorem State.lookup_installRecord (s : State) (r : Record) (segment page tag : Nat) :
    (s.installRecord r segment page).lookup tag =
      if tag = r.tag then some (entryOf r segment page) else s.lookup tag := by
  unfold State.installRecord
  rw [State.lookup_putEntry]
  have : (entryOf r segment page).tag = r.tag := rfl
  rw [this]
  congr 1
  unfold State.lookup State.supersede State.updateSegment
  simp only []
  split <;> rfl

/-! ## The install of a unit (R28, R62) -/

/-- The records installed together: a tag that none of them has keeps its entry, and a record that no later one of
its tag follows has its entry, in the pages after the records before it. -/
theorem State.lookup_installAll (segment : Nat) (records : List Record) : ∀ (s : State) (page : Nat),
    (∀ tag, (∀ r ∈ records, r.tag ≠ tag) → (s.installAll segment page records).lookup tag = s.lookup tag) ∧
    (∀ k r, records[k]? = some r → (∀ a x, k < a → records[a]? = some x → x.tag ≠ r.tag) →
      (s.installAll segment page records).lookup r.tag =
        some (entryOf r segment (page + ((records.take k).map fun x => pagesFor x.length).sum))) := by
  induction records with
  | nil => intro s p; simp [State.installAll]
  | cons r0 rest ih =>
    intro s p
    obtain ⟨i1, i2⟩ := ih (s.installRecord r0 segment p) (p + pagesFor r0.length)
    refine ⟨fun tag h => ?_, fun k r hk hl => ?_⟩
    · unfold State.installAll
      rw [i1 tag (fun r hr => h r (by simp [hr])), State.lookup_installRecord,
        if_neg (fun k => h r0 (by simp) k.symm)]
    · unfold State.installAll
      cases k with
      | zero =>
        simp at hk
        subst hk
        rw [i1 r0.tag (fun r hr => by
          obtain ⟨a, ha, rfl⟩ := List.mem_iff_getElem.mp hr
          exact hl (a + 1) _ (by omega) (by simp [ha])), State.lookup_installRecord]
        simp
      | succ k =>
        simp at hk
        rw [i2 k r hk (fun a x h1 h2 => hl (a + 1) x (by omega) (by simpa using h2))]
        simp [Nat.add_assoc]

/-- An install changes the index's entries and the segments, and nothing else. -/
theorem State.installAll_keeps (segment : Nat) (records : List Record) : ∀ (s : State) (page : Nat), ∃ l g,
    s.installAll segment page records =
      { s with index := { s.index with entries := l }, space := { s.space with segments := g } } := by
  induction records with
  | nil => intro s p; exact ⟨_, _, rfl⟩
  | cons r rest ih =>
    intro s p
    unfold State.installAll
    obtain ⟨l, g, h⟩ := ih (s.installRecord r segment p) (p + pagesFor r.length)
    rw [h]
    refine ⟨l, g, ?_⟩
    unfold State.installRecord State.supersede State.updateSegment State.putEntry
    cases s.lookup r.tag <;> rfl

/-- Records of distinct tags without an entry turn their pages from pending and dead to live, and change no other
segment (R62). -/
theorem State.installAll_segments (segment : Nat) (records : List Record) : ∀ (s : State) (page : Nat),
    (records.map (·.tag)).Nodup → (∀ r ∈ records, s.lookup r.tag = none) →
    (s.installAll segment page records).space.segments = s.space.segments.map fun g =>
      if g.number = segment then g.makeLive ((records.map fun x => pagesFor x.length).sum) else g := by
  induction records with
  | nil => intro s p _ _; simp [State.installAll, Segment.makeLive]
  | cons r rest ih =>
    intro s p hn hl
    simp at hn
    unfold State.installAll
    rw [ih _ _ hn.2 (fun x hx => by
      rw [State.lookup_installRecord, if_neg (fun k => hn.1 x hx k)]
      exact hl x (by simp [hx]))]
    have : (s.installRecord r segment p).space.segments = s.space.segments.map fun g =>
        if g.number = segment then g.makeLive (pagesFor r.length) else g := by
      unfold State.installRecord State.supersede
      rw [hl r (by simp)]
      rfl
    rw [this, List.map_map]
    apply List.map_congr_left
    intro g _
    simp only [Function.comp, List.map_cons, List.sum_cons]
    by_cases h : g.number = segment
    · simp only [h, if_true, Segment.makeLive]
      congr 1 <;> omega
    · simp [h]

/-! ## The records of a unit (R82) -/

theorem State.getElem?_unitRecords (s : State) (u : CommitUnit) (l : List PwlEntry) :
    ∀ i k, (s.unitRecords u i l)[k]? = l[k]?.map fun e => s.unitRecord u e (i + k) := by
  induction l with
  | nil => intro i k; simp [State.unitRecords]
  | cons e rest ih =>
    intro i k
    unfold State.unitRecords
    cases k with
    | zero => simp
    | succ k => simp [ih]; cases rest[k]? <;> simp [Nat.add_assoc, Nat.add_comm 1]

theorem State.unitRecord_tag (s : State) (u : CommitUnit) (e : PwlEntry) (i : Nat) :
    (s.unitRecord u e i).tag = e.tag := by
  unfold State.unitRecord
  cases e.kind <;> rfl

theorem State.unitRecord_sequence (s : State) (u : CommitUnit) (e : PwlEntry) (i : Nat) :
    (s.unitRecord u e i).sequence = u.first + i := by
  unfold State.unitRecord
  cases e.kind <;> rfl

theorem State.unitRecords_tags (s : State) (u : CommitUnit) (l : List PwlEntry) :
    ∀ i, (s.unitRecords u i l).map (·.tag) = l.map (·.tag) := by
  induction l with
  | nil => intro i; simp [State.unitRecords]
  | cons e rest ih =>
    intro i
    unfold State.unitRecords
    simp [ih, State.unitRecord_tag]

/-- The entry of a unit's record: LIVE for a WRITE, TOMBSTONE for a DELETE (R26). -/
theorem State.entryOf_unitRecord (s : State) (u : CommitUnit) (e : PwlEntry) (k segment page : Nat) :
    entryOf (s.unitRecord u e k) segment page =
      ⟨e.tag, match e.kind with
        | .write => .live e.length e.protect false
        | .delete => .tombstone u.prior,
       u.first + k, segment, page, pagesFor (match e.kind with | .write => e.length | .delete => 0)⟩ := by
  unfold State.unitRecord entryOf
  cases e.kind <;> rfl

/-! ## Bundles (R46, R166) -/

theorem bundleEntries_eq (id n : Nat) (members : List Member) (slots : List Nat) (i : Nat) :
    bundleEntries id n (i + 1) members slots = (members.zip slots).mapIdx fun k x =>
      (⟨.write, x.1.tag, x.1.length, x.1.protect, id, some (i + k + 1, n), x.2, false⟩ : PwlEntry) := by
  induction members generalizing slots i with
  | nil => simp [bundleEntries]
  | cons m members ih =>
    cases slots with
    | nil => simp [bundleEntries]
    | cons a slots =>
      simp only [bundleEntries, List.zip_cons_cons, List.mapIdx_cons, ih]
      congr 1
      congr 1
      funext k x
      simp
      omega

theorem Work.bundleEntries_bundleAppend (w : Work) (id : Nat) (slots : List Nat) :
    bundleEntries id w.members.length 1 w.members slots = w.bundleAppend id slots := by
  rw [show 1 = 0 + 1 from rfl, bundleEntries_eq]
  unfold Work.bundleAppend
  congr 1
  funext k x
  simp

/-- The next member with a payload: the first at or after `i` whose length is not 0. -/
theorem nextPayload_some {members : List Member} {i j : Nat} {m : Member} (h : members[j]? = some m)
    (hl : 0 < m.length) (hij : i ≤ j)
    (hb : ∀ (a : Nat) (x : Member), i ≤ a → a < j → members[a]? = some x → x.length = 0) :
    nextPayload members i = some j := by
  unfold nextPayload
  rw [List.find?_eq_some_iff_getElem]
  have hjl : j < members.length := by
    rcases Nat.lt_or_ge j members.length with k | k
    · exact k
    · simp [List.getElem?_eq_none k] at h
  refine ⟨by simp [h, hl], j - i, by simp; omega, by simp; omega, ?_⟩
  intro a ha
  simp only [List.getElem_drop, List.getElem_range]
  have hl : i + a < members.length := by omega
  rw [List.getElem?_eq_getElem hl]
  have := hb (i + a) members[i + a] (by omega) (by omega) (List.getElem?_eq_getElem hl)
  simp [this]

theorem nextPayload_none {members : List Member} {i : Nat}
    (hb : ∀ (a : Nat) (x : Member), i ≤ a → members[a]? = some x → x.length = 0) :
    nextPayload members i = none := by
  unfold nextPayload
  rw [List.find?_eq_none]
  intro a ha
  rw [List.mem_iff_getElem] at ha
  obtain ⟨n, hn, rfl⟩ := ha
  simp only [List.getElem_drop, List.getElem_range]
  simp at hn
  have hl : i + n < members.length := by omega
  rw [List.getElem?_eq_getElem hl]
  simp [hb (i + n) members[i + n] (by omega) (List.getElem?_eq_getElem hl)]

/-! ## The damaged claim (R18) -/

/-- A damaged claim that is taken damages the LIVE entry it names. -/
theorem State.damagedClaim_taken {s : State} {x : IndexEntry} {n tag sequence segment page : Nat} {p d : Bool}
    (h : s.lookup tag = some x) (hk : x.kind = .live n p d) (h1 : x.sequence = sequence)
    (h2 : x.segment = segment) (h3 : x.page = page) :
    s.damagedClaim tag sequence segment page = some (s.putEntry { x with kind := .live n p true }) := by
  unfold State.damagedClaim State.located
  simp [h, h2, h3, hk, h1, EntryKind.isLive, EntryKind.damage]

/-- A damaged claim is refused when the tag has no LIVE entry of that sequence in that place. -/
theorem State.damagedClaim_refused {s : State} {tag sequence segment page : Nat}
    (h : ∀ x : IndexEntry, s.lookup tag = some x →
      ¬ ((∃ n p d, x.kind = .live n p d) ∧ x.sequence = sequence ∧ x.segment = segment ∧ x.page = page)) :
    s.damagedClaim tag sequence segment page = none := by
  unfold State.damagedClaim State.located
  cases hl : s.lookup tag with
  | none => rfl
  | some x =>
    have := h x hl
    simp only []
    split
    · next e he =>
      split at he
      · next c =>
        simp at he
        subst he
        rw [if_neg]
        intro k
        simp at k
        apply this
        refine ⟨?_, k.2, c.1, c.2⟩
        cases hk : x.kind <;> simp_all [EntryKind.isLive]
      · simp at he
    · rfl

/-- A damaged claim changes the index's entries alone. -/
theorem State.damagedClaim_keeps {s t : State} {tag sequence segment page : Nat}
    (h : s.damagedClaim tag sequence segment page = some t) :
    ∃ l, t = { s with index := { s.index with entries := l } } := by
  unfold State.damagedClaim at h
  split at h
  · split at h
    · simp at h
      exact ⟨_, h.symm⟩
    · simp at h
  · simp at h

/-! ## The begin step (R80) -/

/-- A standalone WRITE at the head of a WRITABLE store with numbers left is begun: its flag is set, it takes one
number, and the engine requests the port. -/
theorem State.beginUnit_write {s : State} {e : PwlEntry} {rest : List PwlEntry}
    (h1 : s.staging.pwl = e :: rest) (h2 : e.kind = .write) (h3 : e.position = none) (h4 : s.readOnly = false)
    (h5 : s.index.nextSequence ≤ 4294967294) :
    s.beginUnit = { s with
      staging := { s.staging with pwl := { e with inCommit := true } :: rest }
      index := { s.index with nextSequence := s.index.nextSequence + 1 }
      commit := ⟨.running, some ⟨s.index.nextSequence, 0, 0⟩, s.commit.failures⟩
      sequencer := { s.sequencer with requests := { s.sequencer.requests with
        commit := s.sequencer.requests.commit.lodge } } } := by
  unfold State.beginUnit
  simp [h4, h1, unitEntries, h3, h2, State.holdNumbers, State.takeNumbers, Config.lastSequence]
  rw [if_neg (by omega)]
  simp [State.lodgeCommit, flagHead, h2, h3]

/-- Setting the flags of a unit and clearing them all clears them all. -/
theorem clearFlags_flagHead (n : Nat) (l : List PwlEntry) : clearFlags (flagHead n l) = clearFlags l := by
  unfold clearFlags flagHead
  rw [List.map_append, List.map_map]
  conv_rhs => rw [← List.take_append_drop n l, List.map_append]
  rfl

/-- A unit that gets its numbers holds them and requests the port. -/
theorem State.holdNumbers_taken {s : State} {k : Nat} (prior : Nat)
    (h : s.index.nextSequence + k - 1 ≤ 4294967294) :
    s.holdNumbers k prior = { s with
      index := { s.index with nextSequence := s.index.nextSequence + k }
      commit := { s.commit with state := .running, unit := some ⟨s.index.nextSequence, prior, 0⟩ }
      sequencer := { s.sequencer with requests := { s.sequencer.requests with
        commit := s.sequencer.requests.commit.lodge } } } := by
  unfold State.holdNumbers State.takeNumbers
  rw [if_neg (by simp [Config.lastSequence]; omega)]
  rfl

/-- A flagged unit whose numbers are refused halts the engine, and its flags are cleared. -/
theorem State.holdNumbers_refused {s : State} {k : Nat} (prior n : Nat)
    (hw : s.port.activity.waits = true → s.pfw = false) (h : 4294967294 < s.index.nextSequence + k - 1) :
    ({ s with staging := { s.staging with pwl := flagHead n s.staging.pwl } } : State).holdNumbers k prior =
      ({ s with space := { s.space with reasons := { s.space.reasons with sequence := true } } }
        : State).haltedAs .readOnly := by
  unfold State.holdNumbers State.takeNumbers
  rw [if_pos (by simpa [Config.lastSequence] using h)]
  simp only []
  rw [State.enterHalt_eq (by exact hw)]
  unfold State.haltedAs
  have : ({ s.staging with pwl := flagHead n s.staging.pwl } : Staging).release = s.staging.release := by
    unfold Staging.release
    simp only [clearFlags_flagHead]
  simp only [State.addSequenceReason, ← Staging.release_eq, this]

/-! ## Segments by number -/

/-- A segment found by its number after a change of one segment that keeps its number. -/
theorem find?_updateSegment (l : List Segment) (m k : Nat) (f : Segment → Segment)
    (hf : ∀ g, (f g).number = g.number) :
    (l.map fun g => if g.number = k then f g else g).find? (fun g => g.number == m) =
      (l.find? fun g => g.number == m).map fun g => if g.number = k then f g else g := by
  induction l with
  | nil => rfl
  | cons x l ih =>
    simp only [List.map_cons, List.find?_cons]
    have : (if x.number = k then f x else x).number = x.number := by split <;> simp [hf]
    rw [this]
    split
    · rfl
    · exact ih

/-- A segment that ERASE STORE takes: it holds no live page, is not OPEN, and keeps its number, its retiring and its
reason and mark (R175). -/
theorem Segment.clear_spec (g : Segment) :
    g.clear.live = 0 ∧ g.clear.state ≠ .open ∧ g.clear.number = g.number ∧
      (g.clear.state = .retiring ↔ g.state = .retiring) ∧ g.clear.reason = g.reason ∧ g.clear.mark = g.mark := by
  unfold Segment.clear Segment.makeDead Segment.close
  dsimp only
  split <;> simp_all

/-! ## The end of a command (R153, R160, R176) -/

/-- Leaving a command ends its activity, and keeps the store, its RESULT, the window and the causes. -/
theorem State.leaveCommand_keeps (s : State) :
    s.leaveCommand.space = s.space ∧ s.leaveCommand.index = s.index ∧ s.leaveCommand.health = s.health ∧
      s.leaveCommand.background = s.background ∧ s.leaveCommand.sequencer = s.sequencer ∧
      s.leaveCommand.mountReport = s.mountReport ∧ s.leaveCommand.window = s.window ∧
      s.leaveCommand.reclaim = s.reclaim ∧ s.leaveCommand.commit = s.commit ∧
      s.leaveCommand.causes = s.causes ∧
      s.leaveCommand.port =
        ⟨if s.pfw = true then .draining else .idle, .none, 0, s.port.result, s.port.detail, none⟩ := by
  unfold State.leaveCommand
  dsimp only
  by_cases h : s.pfw = true
  · rw [if_pos (by exact h), if_pos h]
    exact ⟨rfl, rfl, rfl, rfl, rfl, rfl, rfl, rfl, rfl, rfl, rfl⟩
  · rw [if_neg (by exact h), if_neg h, State.enterIdle_eq]
    exact ⟨rfl, rfl, rfl, rfl, rfl, rfl, rfl, rfl, rfl, rfl, rfl⟩

/-- Ending a command sets RESULT and raises DONE, and keeps the store and the window. -/
theorem State.endCommand_keeps (s : State) (r : ResultCode) (d : Nat) :
    (s.endCommand r d).space = s.space ∧ (s.endCommand r d).index = s.index ∧
      (s.endCommand r d).health = s.health ∧ (s.endCommand r d).background = s.background ∧
      (s.endCommand r d).sequencer = s.sequencer ∧ (s.endCommand r d).mountReport = s.mountReport ∧
      (s.endCommand r d).window = s.window ∧ (s.endCommand r d).reclaim = s.reclaim ∧
      (s.endCommand r d).commit = s.commit ∧ (s.endCommand r d).causes.done = true ∧
      (s.endCommand r d).causes.deferred = s.causes.deferred ∧
      (s.endCommand r d).port = ⟨if s.pfw = true then .draining else .idle, .none, 0, r, d, none⟩ := by
  unfold State.endCommand
  obtain ⟨a, b, c, e, f, g, h, i, j, k, l⟩ :=
    State.leaveCommand_keeps ({ s with port := { s.port with result := r, detail := d } } : State)
  exact ⟨a, b, c, e, f, g, h, i, j, rfl, by simp [State.raiseDone], l⟩

end Sys2Proof.Machine
end

