-- ==== Sys2Proof/Tests/Slice0.lean ====
section
/-! SUPPORT. Tests: the checks of WellFormed, the two check sums against their published values, commands on
small states, and for every statement with hypotheses states and operands that meet them. -/

-- One theorem at a time: each is decided by the kernel, and a hundred that wait at once take a thread each.
set_option Elab.async false

namespace Sys2Proof.Tests

open Sys2Proof.Machine

/-! ## Small states -/

/-- A segment with no record. -/
def seg (n : Nat) (state : SegmentState) : Segment := emptySegment n 0 state

/-- A slot of four bytes. -/
def slot (state : SlotState) : Slot := ⟨state, [0x11, 0x22, 0x33, 0x44]⟩

/-- A standalone WRITE. -/
def write (tag length slot : Nat) : PwlEntry := ⟨.write, tag, length, false, 0, none, slot, false⟩

/-- A LIVE entry on page 1 of segment 0. -/
def live (tag length sequence : Nat) (protect damaged : Bool) : IndexEntry :=
  ⟨tag, .live length protect damaged, sequence, 0, 1, pagesFor length⟩

/-- A DATA record of three bytes. -/
def record : Record := ⟨.data, 7, 3, 3, false, 0, none, 0, [0x61, 0x62, 0x63]⟩

/-- After mount: one bank, segment 0 OPEN, five segments ERASED, two slots FREE, nothing stored. -/
def mounted : State :=
  { State.reset with
    mount := none
    port := ⟨.idle, .none, 0, .none, 0, none⟩
    sequencer := ⟨none, ⟨.absent, .absent, .absent, .absent⟩, 0, none⟩
    staging := ⟨[slot .free, slot .free], []⟩
    space :=
      { present := [0]
        segments := [seg 0 .open, seg 1 .erased, seg 2 .erased, seg 3 .erased, seg 4 .erased, seg 5 .erased]
        freeList := [1, 2, 3, 4, 5], openCounter := 2, range := none, state := .normal
        reasons := ⟨false, false, false⟩ } }

/-- With these parameter registers. -/
def params (s : State) (tag length count option value : Word) : State :=
  { s with window := { s.window with
      tag := tag, length := length, count := count, option := option, value := value } }

/-- With tag 7 staged, of four bytes. -/
def staged : State := { mounted with staging := ⟨[slot .pending, slot .free], [write 7 4 0]⟩ }

/-- With both slots taken. -/
def crowded : State :=
  { mounted with staging := ⟨[slot .pending, slot .pending], [write 7 4 0, write 8 4 1]⟩ }

/-- With these index entries. -/
def indexed (l : List IndexEntry) : State := { mounted with index := ⟨l, 9, 0⟩ }

/-- With this command in progress. -/
def busy (s : State) (state : PortState) (activity : Activity) (residue : Nat) (timer : Option Nat) : State :=
  { s with port := ⟨state, activity, residue, .none, 0, timer⟩ }

/-- With this operation in flight. -/
def flying (s : State) (who : Requester) (op : Op) (attempts allowed : Nat) : State :=
  { s with sequencer := { s.sequencer with inFlight := some ⟨who, op, attempts, allowed, none⟩ } }

/-- With the engine in this state. -/
def engine (s : State) (state : CommitState) : State := { s with commit := ⟨state, none, 0⟩ }

/-- With READ_ONLY for WORN. -/
def worn (s : State) : State :=
  { s with space := { s.space with reasons := { s.space.reasons with worn := true } } }

/-- With the space state FULL, no segment free and the OPEN one at this write pointer. -/
def full (s : State) (pointer : Nat) : State :=
  { s with space := { s.space with
      state := .full, freeList := [], segments := [{ seg 0 .open with writePointer := pointer }] } }

/-- Mount at a phase. -/
def mounting (phase : MountPhase) (present : List Nat) (op : Op) : State :=
  flying { State.reset with mount := some { MountWork.begin with phase := phase, present := present } }
    .mount op 0 1

/-- The medium with a record programmed at a page of segment 0. -/
def programmed (page : Nat) (r : Record) : List Host.Cell := Op.complete [] (.recordProgram 0 page r)

/-! ## Operands that are not well formed -/

theorem test_wf_code : (Instr.badCommand 0x10).wf = false ∧ (Instr.badCommand 0x60).wf = false ∧
    (Instr.badCommand 0x13).wf = true := by decide

theorem test_wf_address : (Instr.registerWrite 0 1).wf = false ∧ (Instr.registerWrite 6 1).wf = false ∧
    (Instr.registerWrite 10 1).wf = false ∧ (Instr.registerWrite 11 1).wf = false ∧
    (Instr.registerWrite 9 1).wf = false ∧ (Instr.registerWrite 9 2).wf = false ∧
    (Instr.registerWrite 9 4).wf = true ∧ (Instr.registerWrite 7 1).wf = true := by decide

theorem test_wf_patch : Patch.wf [(32768, 0)] = false ∧ Patch.wf [(32767, 0)] = true := by decide

theorem test_wf_reads : (Instr.headerRead (.ready [(40000, 0)])).wf = false ∧
    (Instr.recordRead (.ready [(40000, 0)])).wf = false ∧
    (Instr.blankCheck (.ready [(40000, 0)])).wf = false ∧ (Instr.blankCheck .timeout).wf = true := by decide

theorem test_wf_ends : (Instr.recordProgram (.failed ⟨.body, [(40000, 0)]⟩)).wf = false ∧
    (Instr.headerProgram (.timeout ⟨.body, [(40000, 0)]⟩)).wf = false ∧
    (Instr.segmentErase (.failed ⟨.body, [(40000, 0)]⟩)).wf = false ∧
    (Instr.segmentErase .done).wf = true := by decide

theorem test_wf_cuts : (Instr.hardReset ⟨.body, [(40000, 0)]⟩).wf = false ∧
    (Instr.resetAsserted ⟨.body, [(40000, 0)]⟩).wf = false ∧
    (Instr.powerLoss ⟨.body, [(40000, 0)]⟩).wf = false ∧
    (Instr.attemptTimeout ⟨.header, [(40000, 0)]⟩).wf = false := by decide

/-- No word of the table spells a command. -/
theorem test_decode_none : decodeTableWord 16 0x10 = none := rfl

/-! ## The two checks, over the nine characters 1 to 9 (R188) -/

theorem test_crc16 : crc16 [0x31, 0x32, 0x33, 0x34, 0x35, 0x36, 0x37, 0x38, 0x39] = 0x29B1 := by
  decide +kernel

theorem test_crc32 : crc32 [0x31, 0x32, 0x33, 0x34, 0x35, 0x36, 0x37, 0x38, 0x39] = 0xCBF43926 := by
  decide +kernel

/-! ## The formats (R188), written out byte by byte -/

theorem test_record_header :
    (recordHeader { record with protect := true, bundle := 5, position := some (2, 3) }).take 30 =
      [0x01, 0x01, 0x07, 0x00, 0x03, 0x00, 0x00, 0x00, 0x03, 0x00, 0x05, 0x02, 0x03, 0x00, 0x00, 0x00,
        0x00, 0x00, 0x00, 0x00, 0x00, 0x00, 0x00, 0x00, 0x00, 0x00, 0x00, 0x00, 0x00, 0x00] := by
  decide +kernel

theorem test_formatted_slot : (slotBytes 3 (.formatted 258)).take 14 =
    [0x01, 0x00, 0x40, 0x52, 0x02, 0x01, 0x00, 0x00, 0x00, 0x00, 0x00, 0x00, 0x00, 0x00] := by decide +kernel

theorem test_opened_slot : (slotBytes 3 (.opened 258)).take 14 =
    [0x02, 0x01, 0x00, 0x00, 0x03, 0x00, 0x00, 0x00, 0x00, 0x00, 0x00, 0x00, 0x00, 0x00] := by decide +kernel

theorem test_page_count : pagesFor 0 = 1 ∧ pagesFor 220 = 1 ∧ pagesFor 221 = 2 ∧ pagesFor 1024 = 5 := by
  decide

/-! ## Commands, each on one small state -/

/-- What a field of the answer is, when the command answers a next state. -/
def after {α : Type} (f : State → α) : Host.Outcome State Fault Refusal → Option α
  | .next t => some (f t)
  | .fault _ => none
  | .refused _ => none

theorem test_reset_mounts :
    after (fun t => (t.port.state, t.sequencer.inFlight.map (·.op))) (exec (.hardReset ⟨.body, []⟩) mounted) =
      some (.mounting, some (.bankProbe 0)) := by decide +kernel

theorem test_reset_asserted_holds :
    after (fun t => (t.power, t.mount.isNone)) (exec (.resetAsserted ⟨.body, []⟩) mounted) =
      some (.held, true) := by decide +kernel

theorem test_power_loss :
    after (fun t => (t.power, t.staging.pwl)) (exec (.powerLoss ⟨.body, []⟩) staged) = some (.off, []) := by
  decide +kernel

theorem test_store_receives :
    after (fun t => (t.port.state, t.port.residue, t.causes.data))
      (exec .store (params mounted 5 3 0 0 0)) = some (.receiving, 2, true) := by decide +kernel

theorem test_store_refused_when_busy :
    after (fun t => t.window.refused) (exec .store State.reset) = some true := by decide +kernel

theorem test_bundle_descriptor :
    after (fun t => (t.port.state, t.port.residue)) (exec .storeBundle (params mounted 0 0 2 0 0)) =
      some (.receiving, 6) := by decide +kernel

theorem test_remove_not_found :
    after (fun t => t.port.result) (exec .remove (params mounted 5 0 0 0 0)) = some .notFound := by
  decide +kernel

theorem test_remove_stages_delete :
    after (fun t => t.staging.pwl.map (·.kind))
      (exec .remove (params (indexed [live 7 4 3 false false]) 7 0 0 0 0)) = some [.delete] := by
  decide +kernel

theorem test_fetch_staged :
    after (fun t => (t.port.residue, t.window.frame.take 2)) (exec .fetch (params staged 7 0 0 0 0)) =
      some (2, [0x2211, 0x4433]) := by decide +kernel

theorem test_fetch_stored_reads :
    after (fun t => (t.port.state, t.sequencer.inFlight.map (·.op), t.sequencer.pin))
      (exec .fetch (params (indexed [live 7 3 3 false false]) 7 0 0 0 0)) =
      some (.executing, some (.recordRead 0 1 1 7 3), some 0) := by decide +kernel

theorem test_describe :
    after (fun t => (t.window.length, t.window.value, t.window.seqlo))
      (exec .describe (params (indexed [live 7 4 3 true false]) 7 0 0 0 0)) =
      some (4, 0x0102, 3) := by decide +kernel

theorem test_enumerate :
    after (fun t => (t.port.residue, t.window.frame.take 3))
      (exec .enumerate (params { staged with index := ⟨[live 9 4 3 false false], 4, 0⟩ } 1 0 4 0 0)) =
      some (3, [2, 7, 9]) := by decide +kernel

theorem test_sync_empty :
    after (fun t => (t.port.state, t.port.result, t.causes.done)) (exec .sync mounted) =
      some (.idle, .none, true) := by decide +kernel

theorem test_set_option :
    after (fun t => t.window.options.lowWatermark) (exec .setOption (params mounted 0 0 0 5 16)) =
      some 16 := by decide +kernel

theorem test_read_option :
    after (fun t => t.window.value) (exec .readOption (params mounted 0 0 0 9 0)) = some 20 := by
  decide +kernel

theorem test_health_report :
    after (fun t => (t.port.residue, (t.window.frame.take 40).foldl (· + ·) 0)) (exec .healthReport mounted) =
      some (40, 0) := by decide +kernel

theorem test_erase_store_pending :
    after (fun t => t.port.result) (exec .eraseStore staged) = some .pendingWrites := by decide +kernel

theorem test_erase_store_erases :
    after (fun t => t.sequencer.inFlight.map (·.op)) (exec .eraseStore mounted) =
      some (some (.segmentErase 0)) := by decide +kernel

theorem test_bad_command :
    after (fun t => (t.port.result, t.window.command)) (exec (.badCommand 0x99) mounted) =
      some (.badCommand, 0x99) := by decide +kernel

theorem test_data_write_appends :
    after (fun t => (t.staging.pwl.map (·.tag), t.staging.slots.map (·.bytes)))
      (exec (.dataWrite 0xBBAA)
        (busy mounted .receiving (.payload ⟨.store, [⟨5, 2, false⟩], false⟩ [0] 0) 1 (some 50))) =
      some ([5], [[0xAA, 0xBB, 0x33, 0x44], [0x11, 0x22, 0x33, 0x44]]) := by decide +kernel

theorem test_data_read_outside :
    after (fun t => t.window.busOut) (exec .dataRead mounted) = some (some 0xFFFF) := by decide +kernel

theorem test_status_clears_refused :
    after (fun t => (t.window.busOut, t.window.refused))
      (exec .statusRead { mounted with window := { mounted.window with refused := true } }) =
      some (some 0x0008, false) := by decide +kernel

theorem test_abort_payload :
    after (fun t => (t.port.result, t.port.detail))
      (exec .abort
        (busy mounted .receiving
          (.payload ⟨.bundle 1, [⟨5, 2, false⟩, ⟨6, 2, false⟩], false⟩ [0, 1] 1) 1 (some 50))) =
      some (.aborted, 2) := by decide +kernel

theorem test_port_reset :
    after (fun t => (t.window.tag, t.causes.done)) (exec .portReset (params mounted 5 0 0 0 0)) =
      some (0, false) := by decide +kernel

theorem test_acknowledge :
    after (fun t => (t.causes.done, t.causes.data))
      (exec (.acknowledge 0x0001) { mounted with causes := ⟨true, true, false, false, false, false⟩ }) =
      some (false, true) := by decide +kernel

theorem test_intmask :
    after (fun t => (t.window.mask, t.intAsserted))
      (exec (.intmaskWrite 0xFFE0) { mounted with causes := ⟨false, false, false, false, false, true⟩ }) =
      some (⟨false, false, false, false, false, true⟩, true) := by decide +kernel

theorem test_register_write :
    after (fun t => (t.window.tag, t.window.refused)) (exec (.registerWrite 1 0xABCD) mounted) =
      some (0xABCD, false) := by decide +kernel

theorem test_refused_write :
    after (fun t => t.window.refused) (exec (.refusedWrite (.data 1)) mounted) = some true := by decide +kernel

theorem test_data_timeout :
    after (fun t => t.port.result) (exec .dataTimeout (busy mounted .sending (.sending 40) 7 (some 50))) =
      some .dataTimeout := by decide +kernel

theorem test_idle_expiry :
    after (fun t => t.idle) (exec .idleTimerExpiry { mounted with idle := ⟨some 20, false⟩ }) =
      some ⟨none, true⟩ := by decide +kernel

theorem test_probe_absent_everywhere :
    after (fun t => (t.port.state, t.readOnly, t.causes.mounted))
      (exec (.bankProbe .timeout) (mounting (.probe 3) [] (.bankProbe 3))) =
      some (.idle, true, true) := by decide +kernel

theorem test_record_read_delivers :
    after (fun t => (t.port.residue, t.window.frame.take 2))
      (exec (.recordRead (.ready []))
        (flying { busy mounted .executing (.fetch (live 7 3 3 false false)) 0 none with
          medium := programmed 1 record } (.fetch 7 false) (.recordRead 0 1 1 7 3) 0 4)) =
      some (2, [0x6261, 0x0063]) := by decide +kernel

theorem test_commit_begin :
    after (fun t => (t.commit.state, t.index.nextSequence, t.sequencer.inFlight.map (·.requester)))
      (exec .commitBegin staged) = some (.running, 2, some .commit) := by decide +kernel

theorem test_drain_end :
    after (fun t => (t.drain.outcome, t.causes.drained))
      (exec .drainEnd { busy mounted .draining .none 0 none with drain := ⟨true, .none, 0⟩, pfw := true }) =
      some (.emptied, true) := by decide +kernel

theorem test_pfw_ends_wait :
    after (fun t => (t.port.state, t.port.result, t.drain.running))
      (exec .pfwAsserted (busy staged .executing .syncWait 0 none)) =
      some (.draining, .powerFail, true) := by decide +kernel

/-! ## Witnesses: states and operands that meet the hypotheses of the statements -/

theorem test_witness_StepRunsFrontCommand : State.reset.pending = [] := rfl

theorem test_witness_EveryCommandCompletes :
    ∀ f : InFlight, State.reset.sequencer.inFlight = some f → State.reset.opExists f.op = true := by
  intro f h
  cases h
  rfl

/-- Segment 32 exists only with bank 1. -/
theorem test_witness_AnswerForMissingAddressFaults :
    let s := flying mounted .background (.segmentErase 32) 0 1
    s.power = .on ∧ s.sequencer.inFlight = some ⟨.background, .segmentErase 32, 0, 1, none⟩ ∧
      s.opExists (.segmentErase 32) = false := by decide +kernel

theorem test_witness_MediumFrame :
    (∃ t, exec .statusRead mounted = .next t) ∧ mounted.sequencer.inFlight = none ∧
    (∃ t, exec (.recordProgram .done) (flying staged .commit (.recordProgram 0 1 record) 0 1) = .next t) ∧
    (0 < (Op.recordProgram 0 1 record).writes.1) ∧
    ((Op.recordProgram 0 1 record).writes.1 + (Op.recordProgram 0 1 record).writes.2 ≤ 295) :=
  ⟨⟨_, rfl⟩, rfl, ⟨_, rfl⟩, by decide +kernel, by decide +kernel⟩

theorem test_witness_HostAccessFrame : ∃ t, exec .fetch mounted = .next t := ⟨_, rfl⟩

theorem test_witness_BackgroundFrame :
    (∃ t, exec .commitBegin staged = .next t) ∧ staged.port.activity.waits = false := ⟨⟨_, rfl⟩, rfl⟩

/-- A condition that rises, one that falls, a space state to follow F, FULL that stays, and a state in which
nothing is left. -/
theorem test_witness_ConsequencesFollowTheState :
    (let s := full mounted 128
     s.awake ∧ s.health.conditions ≠ s.conditionsNow ∧ s.conditionsNow.spaceFull = true ∧
       s.health.conditions.spaceFull = false) ∧
    (let s := { mounted with health := ⟨mounted.health.counters, ⟨true, false, false, false, false⟩⟩ }
     s.awake ∧ s.health.conditions ≠ s.conditionsNow ∧ s.conditionsNow = ⟨false, false, false, false, false⟩) ∧
    (let s := { mounted with space := { mounted.space with freeList := [1, 2, 3] } }
     s.awake ∧ s.health.conditions = s.conditionsNow ∧ s.space.state ≠ .full ∧
       s.space.freeList.length = s.window.options.lowWatermark ∧ s.space.state ≠ .lowSpace) ∧
    (let s := { mounted with reclaim := ⟨none, [], [], some mounted.quantities⟩ }
     s.awake ∧ consequence s = none ∧ 1 ≤ s.window.options.wearAlert) ∧
    (let s := { full mounted 128 with health := ⟨mounted.health.counters, ⟨false, false, true, false, false⟩⟩ }
     s.health.conditions = s.conditionsNow ∧ s.space.state = .full ∧ s.space.freeList.length < 2 ∧
       ∀ g ∈ s.space.segments, g.state ≠ .filled ∧ g.state ≠ .reclaiming) := by decide +kernel

theorem test_witness_CutLosesChipState :
    mounted.power ≠ .off ∧ ({ mounted with power := .off } : State).power = .off := by decide

/-- The erasing state of the next tests. -/
def erasing : State :=
  busy mounted .executing (.eraseStore ⟨false, true, [], none, none, false⟩) 0 none

theorem test_witness_PfwAssertedDrains :
    (State.reset.power = .on ∧ State.reset.pfw = false ∧ State.reset.mount.isSome = true) ∧
    (erasing.power = .on ∧ erasing.pfw = false ∧ erasing.mount = none ∧
      erasing.port.activity = .eraseStore ⟨false, true, [], none, none, false⟩) ∧
    (mounted.power = .on ∧ mounted.pfw = false ∧ mounted.mount = none ∧ mounted.port.activity = .none ∧
      mounted.commit.state = .idle) ∧
    (engine staged .waiting).commit.state = .waiting ∧
    (let s := engine { staged with index := ⟨[], 4294967294, 0⟩ } (.halted .noSpace)
     s.power = .on ∧ s.pfw = false ∧ s.mount = none ∧ s.commit.state = .halted .noSpace ∧
       s.space.freeList ≠ [] ∧ s.staging.pwl = [write 7 4 0] ∧ (write 7 4 0).kind = .write ∧
       (write 7 4 0).position = none ∧ s.readOnly = false ∧ s.index.nextSequence ≤ 4294967294) ∧
    (engine (full staged 128) (.halted .noSpace)).space.freeList = [] ∧
    (let s := busy staged .executing .syncWait 0 none
     s.power = .on ∧ s.pfw = false ∧ s.mount = none ∧ s.erasing = false ∧ s.port.activity ≠ .none) := by
  decide +kernel

/-- A job of this kind, to be abandoned. -/
def leaving (kind : JobKind) : State :=
  { mounted with reclaim := ⟨some ⟨kind, .select, 1, none, none, 0, 0, none, false, true⟩, [7], [], none⟩ }

theorem test_witness_PfwAbandonsTheJob :
    (leaving (.segment 4)).erasing = false ∧
    (leaving (.segment 4)).reclaim.job = some ⟨.segment 4, .select, 1, none, none, 0, 0, none, false, true⟩ ∧
    (leaving (.segment 4)).reclaimerInFlight = false ∧ (leaving (.refresh 7)).reclaimerInFlight = false := by
  decide +kernel

theorem test_witness_PfwDeassertedEndsDrain :
    let s := { busy mounted .draining .none 0 none with pfw := true }
    s.power = .on ∧ s.pfw = true ∧ s.port.state = .draining := by decide +kernel

theorem test_witness_UnknownCodeEndsBadCommand :
    mounted.ready ∧ (0x0000 : Word) ∉ commandCodes ∧ (0x0013 : Word) ∉ commandCodes ∧
      (0xFFFF : Word) ∉ commandCodes := by decide +kernel

/-- Every verdict of STORE's checks, at the boundary values of tag, length and capacity. -/
theorem test_witness_StoreChecksInOrder :
    mounted.ready ∧
    (params mounted 0 0 0 0 0).storeVerdict = .badParameter ∧
    (params mounted 65535 0 0 0 0).storeVerdict = .badParameter ∧
    (params mounted 1 1025 0 0 0).storeVerdict = .badParameter ∧
    (params (worn mounted) 1 1024 0 0 0).storeVerdict = .readOnly ∧
    (params (full mounted 128) 1 1024 0 0 0).storeVerdict = .storeFull ∧
    (params (indexed [live 7 4 3 true false]) 7 0 0 0 0).storeVerdict = .tagProtected ∧
    (params { mounted with index := ⟨[], 1, 1024⟩ } 65534 1024 0 0 0).storeVerdict = .indexFull := by
  decide +kernel

theorem test_witness_StoreReceivesPayload :
    let s := params mounted 1 1 0 0 0
    let t := params mounted 65534 1024 0 7 0
    (s.ready ∧ s.storeVerdict = .none ∧ freeSlots s.staging.slots = [0, 1] ∧ 0 < s.window.length.toNat) ∧
    (t.ready ∧ t.storeVerdict = .none ∧ freeSlots t.staging.slots = [0, 1] ∧ 0 < t.window.length.toNat) := by
  decide +kernel

/-- In write-back, and for both ways into write-through, the engine running or halted. -/
theorem test_witness_EmptyPayloadAppendsAtOnce :
    (let s := params (indexed [live 7 4 3 false false]) 7 0 0 0 0
     s.ready ∧ freeSlots s.staging.slots = [0, 1] ∧ s.storeVerdict = .none ∧ s.window.length = 0 ∧
       s.removeVerdict = .none ∧ s.window.option.getLsbD 2 = false ∧ s.window.options.writeBack ≠ 0) ∧
    (let s := params (engine (indexed [live 7 4 3 false false]) (.halted .medium)) 7 0 0 4 0
     s.ready ∧ freeSlots s.staging.slots = [0, 1] ∧ s.storeVerdict = .none ∧ s.removeVerdict = .none ∧
       s.window.option.getLsbD 2 = true) := by decide +kernel

theorem test_write_through_waits :
    after (fun t => t.port.activity) (exec .store (params mounted 5 0 0 4 0)) = some (.throughWait [0]) ∧
    after (fun t => t.port.result) (exec .store (params (engine staged (.halted .medium)) 5 0 0 4 0)) =
      some .writeFailed := by decide +kernel

theorem test_witness_NoFreeSlotWaitsOrEnds :
    let s := params crowded 7 5 0 0 0
    s.ready ∧ freeSlots s.staging.slots = [] ∧ s.storeVerdict = .none ∧ s.removeVerdict = .none ∧
      (engine s (.halted .medium)).ready ∧ freeSlots (engine s (.halted .medium)).staging.slots = [] ∧
      (engine s (.halted .medium)).storeVerdict = .none := by decide +kernel

/-- Every verdict of REMOVE's checks; in FULL the OPEN segment with 127 pages written has one more. -/
theorem test_witness_RemoveChecksInOrder :
    let s := indexed [live 7 4 3 true false]
    s.ready ∧
    (params s 0 0 0 0 0).removeVerdict = .badParameter ∧
    (params (worn s) 7 0 0 0 0).removeVerdict = .readOnly ∧
    (params s 8 0 0 0 0).removeVerdict = .notFound ∧
    (params (full s 128) 7 0 0 0 0).removeVerdict = .storeFull ∧
    (params (full s 127) 7 0 0 2 0).removeVerdict = .none ∧
    (params s 7 0 0 0 0).removeVerdict = .tagProtected := by decide +kernel

theorem test_witness_BundleCountCheck :
    (params mounted 0 0 1 0 0).ready ∧ (params mounted 0 0 1 0 0).window.count.toNat < 2 ∧
    2 ≤ (params mounted 0 0 2 0 0).window.count.toNat ∧
    (params mounted 0 0 8 0 0).window.count.toNat ≤ 8 ∧
    8 < (params mounted 0 0 9 0 0).window.count.toNat := by decide +kernel

theorem test_witness_BundleChecksNameTheFirstMember :
    firstInvalid 1 [] [⟨⟨5, 0, false⟩, false⟩, ⟨⟨5, 0, false⟩, false⟩] = some 2 ∧
    firstInvalid 1 [] [⟨⟨65534, 1024, false⟩, false⟩, ⟨⟨65535, 0, false⟩, false⟩] = some 2 ∧
    (indexed [live 7 4 3 true false]).firstProtected 1 [⟨⟨7, 0, false⟩, true⟩, ⟨⟨7, 0, false⟩, false⟩] =
      some 2 ∧
    mounted.firstOver 1023 1 [⟨⟨5, 0, false⟩, false⟩, ⟨⟨6, 0, false⟩, false⟩, ⟨⟨8, 0, false⟩, false⟩] =
      some 2 ∧
    mounted.firstOver 1024 1 [⟨⟨5, 0, false⟩, false⟩] = some 1 ∧
    mounted.firstOver 1022 1 [⟨⟨5, 0, false⟩, false⟩, ⟨⟨6, 0, false⟩, false⟩] = none := by decide +kernel

theorem test_witness_FetchActsOnTheVisibleState :
    (params mounted 0 0 0 0 0).ready ∧ (params mounted 65535 0 0 0 0).window.tag.toNat = 65535 ∧
    (params mounted 65534 0 0 0 0).visible 65534 = .absent ∧
    (indexed [⟨7, .lost 2, 3, 0, 1, 1⟩]).visible 7 = .lost ⟨7, .lost 2, 3, 0, 1, 1⟩ ∧
    ({ staged with staging := ⟨[slot .pending], [write 7 0 0]⟩ } : State).visible 7 = .staged (write 7 0 0) ∧
    staged.visible 7 = .staged (write 7 4 0) ∧
    (indexed [live 7 4 3 false false]).visible 7 = .stored (live 7 4 3 false false) ∧
    (indexed [live 7 4 3 false true]).visible 7 = .damaged (live 7 4 3 false true) := by decide +kernel

theorem test_witness_DescribeReportsVisibleState :
    (params mounted 1 0 0 0 0).ready ∧ (params mounted 1 0 0 0 0).window.tag.toNat = 1 ∧
    (params (indexed [live 65534 4 3 false false]) 65534 0 0 0 0).visible 65534 =
      .stored (live 65534 4 3 false false) := by decide +kernel

theorem test_witness_EnumerateSendsTheListing :
    (params mounted 1 0 0 0 0).ready ∧ (params mounted 1 0 0 0 0).window.count.toNat < 1 ∧
    (params mounted 1 0 1 0 0).window.count.toNat = 1 ∧ (params mounted 65534 0 64 0 0).window.count.toNat = 64 ∧
    64 < (params mounted 1 0 65 0 0).window.count.toNat := by decide +kernel

theorem test_witness_ListingIsTheLowestVisibleTags :
    let s := { staged with index := ⟨[live 9 4 3 false false], 4, 0⟩ }
    s.listing 1 1 = [7] ∧ (s.visible 9).isPresent = true ∧ 9 ∉ s.listing 1 1 := by decide +kernel

theorem test_witness_HealthReportSendsFortyWords :
    mounted.ready ∧
    (let s := busy mounted .sending (.sending 40) 1 (some 50)
     s.awake ∧ s.pfw = false ∧ s.port.state = .sending ∧ s.port.activity = .sending 40 ∧
       s.port.residue = 1) := by decide +kernel

theorem test_witness_HealthReportFrame :
    ∃ t, exec .statusRead (busy mounted .sending (.sending 40) 40 (some 50)) = .next t := ⟨_, rfl⟩

theorem test_witness_SyncWaitsForTheList :
    mounted.ready ∧ mounted.staging.pwl = [] ∧ mounted.commit.state ≠ .halted .medium ∧
    (engine staged (.halted .noSpace)).ready ∧ staged.staging.pwl ≠ [] ∧
    (engine staged (.halted .readOnly)).commit.state = .halted .readOnly ∧
    (engine staged .waiting).ready ∧
    (let s := engine { staged with index := ⟨[], 4294967294, 0⟩ } (.halted .medium)
     s.ready ∧ s.staging.pwl = [write 7 4 0] ∧ (write 7 4 0).kind = .write ∧ (write 7 4 0).position = none ∧
       s.readOnly = false ∧ s.index.nextSequence ≤ 4294967294) := by decide +kernel

theorem test_witness_SettingsAreWrittenAndRead :
    mounted.ready ∧ settingRange 0 = none ∧ settingRange 10 = none ∧ settingRange 5 = some (2, 16) ∧
    (params mounted 0 0 0 5 1).window.value.toNat < 2 ∧ 16 < (params mounted 0 0 0 5 17).window.value.toNat ∧
    (2 ≤ (params mounted 0 0 0 5 2).window.value.toNat ∧
      (params mounted 0 0 0 5 2).window.value.toNat ≤ 16) ∧
    (params mounted 0 0 0 5 16).window.value.toNat ≤ 16 := by decide +kernel

/-- ERASE STORE with segment 4 in hand at a stage, segment 5 still to be taken. -/
def wiping (p : EraseProgress) (op : Op) (other : Segment) : State :=
  flying
    { busy mounted .executing (.eraseStore p) 0 none with
      space := { mounted.space with
        segments := [{ seg 4 .erasePending with eraseCount := 99999 }, other], freeList := [] } }
    .eraseStore op 0 1

theorem test_witness_EraseStoreBeginsAndEnds :
    (staged.ready ∧ staged.staging.pwl ≠ [] ∧ staged.window.option.getLsbD 3 = false) ∧
    mounted.staging.pwl = [] ∧ (params staged 0 0 0 8 0).window.option.getLsbD 3 = true ∧
    (let s := wiping ⟨false, false, [], some (4, .erase), none, false⟩ (.segmentErase 4) (seg 5 .filled)
     s.awake ∧ s.opExists (.segmentErase 4) = true) ∧
    (let s := wiping ⟨false, false, [5], some (4, .format), none, false⟩ (.headerProgram 4 (.formatted 99999))
      (seg 5 .filled)
     s.awake ∧ s.opExists (.headerProgram 4 (.formatted 99999)) = true ∧ s.eraseCountOf 4 < 100000 ∧
       s.segment? 5 = some (seg 5 .filled)) ∧
    (let s := wiping ⟨false, false, [5], some (4, .format), none, false⟩ (.headerProgram 4 (.formatted 0))
      { seg 5 .retiring with reason := some .worn, mark := some .unmarked }
     s.awake ∧ s.segment? 5 = some { seg 5 .retiring with reason := some .worn, mark := some .unmarked }) ∧
    (let s := wiping ⟨false, false, [5], some (4, .retire .erase), some .abort, false⟩
      (.headerProgram 4 (.retired .erase)) (seg 5 .filled)
     s.awake ∧ s.opExists (.headerProgram 4 (.retired .erase)) = true) := by decide +kernel

/-- Taking the medium: free, or held by another block's operation; a job and an open bundle range; and a segment to be
taken that is OPEN, RETIRING or RETIRING and UNMARKED. -/
theorem test_witness_EraseStoreTakes :
    (erasing.port.activity = .eraseStore ⟨false, true, [], none, none, false⟩ ∧ erasing.sequencer.inFlight = none ∧
      (flying erasing .reclaimer (.segmentErase 1) 0 1).sequencer.inFlight ≠ none) ∧
    (let s := { busy staged .executing (.eraseStore ⟨true, true, [], none, none, false⟩) 0 none with
       reclaim := ⟨some ⟨.segment 4, .select, 1, none, none, 0, 0, none, false, true⟩, [7], [2], none⟩
       space := { mounted.space with range := some ⟨0, 1, 2⟩, segments := [seg 0 .open, seg 4 .reclaiming] } }
     s.sequencer.inFlight = none ∧ s.reclaim.job ≠ none ∧ s.space.range = some ⟨0, 1, 2⟩ ∧ s.staging.pwl ≠ []) ∧
    (let s := { busy mounted .executing (.eraseStore ⟨false, true, [], none, some .abort, false⟩) 0 none with
       space := { mounted.space with segments := [seg 0 .retired, seg 1 .erased] } }
     s.sequencer.inFlight = none ∧ (s.clearWork false).workList = []) ∧
    (erasing.segment? 0 = some (seg 0 .open)) ∧
    ((wiping ⟨false, false, [5], some (4, .format), none, false⟩ (.headerProgram 4 (.formatted 0))
      { seg 5 .retiring with reason := some .worn, mark := some .unmarked }).segment? 5 =
        some { seg 5 .retiring with reason := some .worn, mark := some .unmarked }) := by decide +kernel

/-- A reclaim job on segment 4 with its request lodged and its lists filled, a FETCH read left in flight. -/
def reclaimingBesideRead : State :=
  { mounted with
    reclaim := ⟨some ⟨.segment 4, .copyRead, 1, none, none, 0, 0, none, false, false⟩, [7], [2], none⟩
    space := { mounted.space with segments := [seg 0 .open, seg 2 .filled, seg 4 .reclaiming] }
    sequencer := ⟨some ⟨.fetch 7 true, .recordRead 0 1 1 7 9, 0, 5, none⟩, ⟨.absent, .absent, .standing, .absent⟩, 0, some 0⟩ }

theorem test_witness_EraseStoreAbandons :
    (let s := { erasing with
       reclaim := ⟨some ⟨.segment 4, .copyRead, 1, none, none, 0, 0, none, false, true⟩, [7], [2], none⟩ }
     s.erasing = true ∧ s.reclaimerInFlight = false ∧
       (flying s .reclaimer (.segmentErase 4) 0 1).reclaimerInFlight = true) ∧
    mounted.reclaim.job = none ∧ reclaimingBesideRead.ready := by decide +kernel

/-- The job is abandoned and its lists emptied in the step of the acceptance, another block's read going on (R116). -/
theorem test_erase_store_abandons_at_acceptance :
    after (·.reclaim) (exec .eraseStore reclaimingBesideRead) = some ⟨none, [], [], none⟩ ∧
    after (fun t => (t.space.segments.map (·.state), t.sequencer.requests.reclaimer))
      (exec .eraseStore reclaimingBesideRead) = some ([.open, .filled, .filled], .absent) ∧
    after (·.sequencer.inFlight) (exec .eraseStore reclaimingBesideRead) =
      some reclaimingBesideRead.sequencer.inFlight := by decide +kernel

/-- The discard, and the work list by open sequence and then number, its first segment being erased (R54, R174). -/
theorem test_erase_store_takes :
    ((eraseStoreStart { busy staged .executing (.eraseStore ⟨true, true, [], none, none, false⟩) 0 none with
        space := { mounted.space with segments := [{ seg 0 .open with openSequence := 3 }, seg 1 .retired,
          { seg 2 .filled with openSequence := 2 }, seg 3 .erased, seg 4 .erasePending, seg 5 .erasePending] } }).map
      fun t => (t.staging.pwl, t.staging.slots.map (·.state), t.erasure.map (·.todo), t.sequencer.inFlight.map (·.op))) =
      some ([], [.free, .free], some [5, 2, 0], some (.segmentErase 4)) := by decide +kernel

/-- After the last segment the store is empty and DONE is raised. -/
theorem test_erase_store_completes :
    after (fun t => (t.space.freeList, t.port.state, t.port.result, t.causes.done))
      (exec (.headerProgram .done)
        (wiping ⟨false, false, [], some (4, .format), none, false⟩ (.headerProgram 4 (.formatted 99999))
          (seg 5 .retired))) = some ([4], .idle, .none, true) := by decide +kernel

/-- PFW# while ERASE STORE waits ends a NO_SPACE halt with F of 1 or more (R92, R179). -/
theorem test_pfw_in_erase_store_ends_halt :
    after (fun t => (t.port.state, t.commit.state))
      (exec .pfwAsserted
        (flying (engine (busy staged .executing (.eraseStore ⟨true, true, [], none, none, false⟩) 0 none)
          (.halted .noSpace)) .reclaimer (.segmentErase 1) 0 1)) = some (.executing, .running) := by
  decide +kernel

/-- Before the last word of a descriptor of two members: `words` are the five that came before. -/
def describing (s : State) (through : Bool) (words : List Word) : State :=
  let t := busy s .receiving (.descriptor 2 through) 1 (some 50)
  { t with window := { t.window with frame := words ++ [0] } }

/-- The two members that a descriptor has with this last word. -/
def membersOf (s : State) (last : Word) : List DescriptorMember :=
  State.descriptor { s with window := { s.window with frame := s.window.frame.set 5 last } } 2

theorem test_witness_DataWriteTakesAWord :
    (let s := busy mounted .receiving (.payload ⟨.store, [⟨5, 3, false⟩], false⟩ [0] 0) 2 (some 50)
     s.power = .on ∧ s.port.state = .receiving ∧ 2 ≤ s.port.residue ∧
       s.port.activity = .payload ⟨.store, [⟨5, 3, false⟩], false⟩ [0] 0) ∧
    (let s := busy mounted .receiving (.descriptor 2 false) 6 (some 50)
     s.power = .on ∧ s.port.state = .receiving ∧ 2 ≤ s.port.residue ∧
       s.port.activity = .descriptor 2 false) := by decide +kernel

/-- Every outcome of the last descriptor word: each check that fails, and the ways on when all pass. -/
theorem test_witness_LastDescriptorWord :
    (let s := describing mounted false [5, 0, 0, 5, 0]
     s.power = .on ∧ s.port.state = .receiving ∧ s.port.residue = 1 ∧ s.pfw = false ∧
       firstInvalid 1 [] (membersOf s 0) = some 2) ∧
    (let s := describing (worn mounted) false [5, 0, 0, 6, 1024]
     firstInvalid 1 [] (membersOf s 0) = none ∧ s.readOnly = true) ∧
    (let s := describing (full mounted 128) false [5, 0, 0, 65534, 0]
     firstInvalid 1 [] (membersOf s 0) = none ∧ s.readOnly = false ∧ s.space.state = .full) ∧
    (let s := describing (indexed [live 7 4 3 true false]) false [5, 0, 0, 7, 0]
     firstInvalid 1 [] (membersOf s 0) = none ∧ s.readOnly = false ∧ s.space.state ≠ .full ∧
       s.firstProtected 1 (membersOf s 0) = some 2 ∧ s.firstProtected 1 (membersOf s 2) = none) ∧
    (let s := describing { mounted with index := ⟨[], 1, 1023⟩ } false [5, 0, 0, 6, 0]
     s.firstProtected 1 (membersOf s 0) = none ∧
       s.firstOver (s.index.entries.length + s.index.reservations) 1 (membersOf s 0) = some 2) ∧
    (let s := describing (engine staged (.halted .medium)) true [5, 0, 0, 6, 0]
     s.firstProtected 1 (membersOf s 0) = none ∧ s.firstOver 0 1 (membersOf s 0) = none ∧
       (freeSlots s.staging.slots).length < 2) ∧
    (let s := describing mounted true [5, 0, 0, 6, 3]
     s.firstOver 0 1 (membersOf s 0) = none ∧ 2 ≤ (freeSlots s.staging.slots).length ∧
       (membersOf s 0)[1]? = some ⟨⟨6, 3, false⟩, false⟩ ∧
       (membersOf s 0)[0]? = some ⟨⟨5, 0, false⟩, false⟩) ∧
    (let s := describing mounted false [5, 0, 0, 6, 0]
     2 ≤ (freeSlots s.staging.slots).length ∧ ∀ d ∈ membersOf s 0, d.member.length = 0) := by decide +kernel

theorem test_bundle_appends_all :
    let s := describing { mounted with window := { mounted.window with nextBundle := 255 } } false [5, 0, 0, 6, 0]
    after (fun t => t.staging.pwl) (exec (.dataWrite 0) s) =
      some [⟨.write, 5, 0, false, 255, some (1, 2), 0, false⟩, ⟨.write, 6, 0, false, 255, some (2, 2), 1, false⟩] ∧
    after (fun t => t.window.nextBundle) (exec (.dataWrite 0) s) = some 1 := by decide +kernel

/-- A STORE, a bundle before its last payload and one at it, in write-through too. -/
theorem test_witness_LastPayloadWordAppends :
    (let s := busy mounted .receiving (.payload ⟨.store, [⟨5, 3, false⟩], false⟩ [0] 0) 1 (some 50)
     s.awake ∧ s.pfw = false ∧ s.port.state = .receiving ∧ s.port.residue = 1) ∧
    (let w : Work := ⟨.bundle 1, [⟨5, 1, false⟩, ⟨6, 0, false⟩, ⟨8, 2, false⟩], true⟩
     let s := busy mounted .receiving (.payload w [0, 1, 2] 0) 1 (some 50)
     s.awake ∧ s.pfw = false ∧ s.port.residue = 1 ∧ s.port.activity = .payload w [0, 1, 2] 0 ∧ 0 < 2 ∧
       w.members[2]? = some ⟨8, 2, false⟩ ∧ w.members[1]? = some ⟨6, 0, false⟩) ∧
    (let w : Work := ⟨.bundle 255, [⟨5, 1, false⟩, ⟨6, 0, false⟩], true⟩
     let s := busy (engine mounted (.halted .noSpace)) .receiving (.payload w [0, 1] 0) 1 (some 50)
     s.awake ∧ s.pfw = false ∧ s.port.residue = 1 ∧ s.port.activity = .payload w [0, 1] 0 ∧
       w.members[1]? = some ⟨6, 0, false⟩ ∧ w.members[2]? = none) := by decide +kernel

theorem test_witness_RefusedWritesSetRefused :
    State.reset.power = .on ∧ State.reset.port.state ≠ .idle ∧ State.reset.port.state ≠ .receiving ∧
      1 ≤ (1 : BitVec 4).toNat ∧ (5 : BitVec 4).toNat ≤ 5 := by decide +kernel

theorem test_witness_ParameterWritesAreStored :
    mounted.power = .on ∧ mounted.port.state = .idle ∧ (0xFFFC : Word).getLsbD 0 = false ∧
      (0xFFFC : Word).getLsbD 1 = false := by decide +kernel

theorem test_witness_DataReadGivesTheNextWord :
    (let s := busy mounted .sending (.sending 2) 2 (some 50)
     s.power = .on ∧ s.port.state = .sending ∧ s.port.activity = .sending 2 ∧ 2 ≤ s.port.residue) ∧
    (let s := busy mounted .sending (.sending 2) 1 (some 50)
     s.power = .on ∧ s.port.residue = 1 ∧ s.pfw = false) ∧
    mounted.port.state ≠ .sending := by decide +kernel

theorem test_witness_StatusReadGivesTheFlags : mounted.power = .on := rfl

theorem test_witness_AbortEndsPhasesAndWaits :
    mounted.power = .on ∧ mounted.pfw = false ∧ erasing.power = .on ∧ erasing.pfw = false ∧
    (0x0001 : Word).getLsbD 0 = true ∧ (0x0001 : Word).getLsbD 1 = false ∧
    (let s := { busy mounted .draining .none 0 none with pfw := true }
     s.power = .on ∧ s.port.activity = .none) := by decide

theorem test_abort_refused_in_draining :
    after (fun t => (t.port.state, t.window.refused))
      (exec .abort { busy mounted .draining .none 0 none with pfw := true }) = some (.draining, true) := by
  decide +kernel

theorem test_witness_PortResetClearsThePort :
    (mounted.power = .on ∧ mounted.pfw = false ∧ mounted.port.activity = .none) ∧
    (let s := { busy mounted .draining .none 0 none with pfw := true }
     s.power = .on ∧ s.port.activity = .none) ∧
    erasing.port.activity = .eraseStore ⟨false, true, [], none, none, false⟩ ∧
    (busy mounted .executing (.fetch (live 7 3 3 false false)) 0 none).port.activity =
      .fetch (live 7 3 3 false false) ∧
    (busy mounted .executing .syncWait 0 none).port.activity ≠ .none ∧ (0x0003 : Word).getLsbD 1 = true := by
  decide +kernel

theorem test_port_reset_in_draining :
    after (fun t => (t.port.state, t.window.tag, t.drain.running))
      (exec .portReset
        (params { busy staged .draining .none 0 none with pfw := true, drain := ⟨true, .none, 0⟩ } 5 0 0 0 0)) =
      some (.draining, 0, true) := by decide +kernel

theorem test_witness_SyncWaitIsNeither :
    (∀ p, (busy mounted .executing .syncWait 0 none).port.activity ≠ .eraseStore p) ∧
      (∀ e, (busy mounted .executing .syncWait 0 none).port.activity ≠ .fetch e) := by
  simp [busy]

theorem test_witness_CausesAreAcknowledgedAndMasked : mounted.power = .on := rfl

theorem test_witness_TimersExpire :
    (let s := busy mounted .receiving (.descriptor 2 false) 6 (some 1)
     s.power = .on ∧ s.pfw = false ∧ s.port.state = .receiving ∧ s.port.dataTimer = some 1) ∧
    ({ mounted with idle := ⟨some 255, false⟩ } : State).idle.running = some 255 := by decide +kernel

/-- The probes of select 0, 2 and 3, the last with a bank found before it and with none. -/
theorem test_witness_BankProbeBuildsThePresentSet :
    (∀ bank ∈ [0, 2, 3],
      let s := mounting (.probe bank) [] (.bankProbe bank)
      s.power = .on ∧ s.mount = some { MountWork.begin with phase := .probe bank } ∧
        s.sequencer.inFlight = some ⟨.mount, .bankProbe bank, 0, 1, none⟩) ∧
    (mounting (.probe 3) [1] (.bankProbe 3)).mount =
      some { MountWork.begin with phase := .probe 3, present := [1] } ∧
    (MountWork.begin.headers = [] ∧ MountWork.begin.candidates = [] ∧ MountWork.begin.found = [] ∧
      MountWork.begin.highestSequence = 0) := by decide +kernel

theorem test_witness_HeaderReadsAreTakenByMount :
    (let s := flying (mounting (.headers [0, 1]) [0] (.headerReadPage 0)) .mount (.headerReadPage 0) 3 4
     s.power = .on ∧ s.opExists (.headerReadPage 0) = true ∧
       s.sequencer.inFlight = some ⟨.mount, .headerReadPage 0, 3, 4, none⟩ ∧ 3 + 1 = 4 ∧
       (Findings.page (readPageHeader s.medium 0 [])).anyCorrupt = false ∧
       (Findings.page (readPageHeader s.medium 0 [(16, 0)])).anyCorrupt = true) ∧
    (let s := flying { mounting (.scan [0] 126) [0] (.headerReadRecord 0 126) with medium := programmed 126 record }
       .mount (.headerReadRecord 0 126) 3 4
     s.power = .on ∧ s.opExists (.headerReadRecord 0 126) = true ∧
       readRecordHeader s.medium 0 126 [] = .valid { record with payload := [] } ∧
       126 + pagesFor record.length < 128 ∧ readRecordHeader s.medium 0 126 [(0, 0)] = .corrupt ∧
       readRecordHeader [] 0 126 [] = .blank ∧
       readRecordHeader (programmed 127 record) 0 127 [] = .valid { record with payload := [] } ∧
       127 + pagesFor record.length = 128 ∧
       readRecordHeader (programmed 127 { record with length := 300 }) 0 127 [] =
         .valid { record with length := 300, payload := [] } ∧ 128 < 127 + pagesFor 300) := by decide +kernel

/-- The last header of all makes a candidate of a segment whose slots FORMATTED and OPENED are written. -/
theorem test_witness_LastHeader :
    let m := Op.complete (Op.complete [] (.headerProgram 31 (.formatted 5))) (.headerProgram 31 (.opened 2))
    readPageHeader m 31 [] = ⟨.valid 5, .valid (2, 31), .blank⟩ ∧
      (Findings.page (readPageHeader m 31 [])).anyCorrupt = false ∧
      readPageHeader [] 31 [] = ⟨.blank, .blank, .blank⟩ := by decide +kernel

/-- At the end of the last scan the candidate of the highest open sequence is the OPEN choice, its scan ended blank
or not. -/
theorem test_witness_OpenChoice :
    let m := { MountWork.begin with candidates := [⟨0, 2, false, none, 1, 0⟩, ⟨1, 9, true, some .full, 128, 4⟩] }
    let c : Candidate := ⟨0, 2, false, some .blank, 5, 0⟩
    m.run = none ∧ c ∈ (m.endScan 0 .blank 5).candidates ∧ c.retire = false ∧
      (∀ d ∈ (m.endScan 0 .blank 5).candidates, d.retire = false → d = c) ∧
      ⟨0, 2, false, some .full, 128, 0⟩ ∈ (m.endScan 0 .full 128).candidates ∧
      (∀ d ∈ (m.endScan 0 .full 128).candidates, d.retire = false → d = ⟨0, 2, false, some .full, 128, 0⟩) ∧
      (∀ d ∈ ({ m with candidates := m.candidates.drop 1 }.endScan 1 .full 128).candidates, d.retire = true) := by
  decide +kernel

/-- The runs of a scan (R141): a whole run of two and a standalone record stand; a run that a wrong position, a wrong
sequence number or the end of the scan breaks is discarded. -/
theorem test_runs_of_a_scan :
    let member := fun (position : Option (Nat × Nat)) (sequence page : Nat) =>
      (({ record with bundle := 5, position := position, sequence := sequence }, page) : Record × Nat)
    let t := ([member (some (1, 3)) 1 1, member (some (1, 2)) 4 2, member (some (2, 2)) 5 3, member none 6 4,
        member (some (2, 2)) 7 5, member (some (1, 2)) 8 6, member (some (2, 2)) 10 7,
        member (some (1, 2)) 11 8].foldl (fun (w : MountWork) x => w.addRecord x.1 0 x.2)
      { MountWork.begin with candidates := [⟨0, 2, false, none, 1, 0⟩] }).endScan 0 .blank 9
    t.found.reverse.map (·.discarded) = [true, false, false, false, true, true, true, true] ∧ t.discarded = 5 ∧
      t.highestSequence = 11 ∧ t.candidates = [⟨0, 2, false, some .blank, 9, 1⟩] := by decide +kernel

/-- The segments of a bank by every row of R138, segments 5 and 6 scanned, with three found records of tag 7. -/
def resolving : MountWork :=
  { MountWork.begin with
    phase := .resolve 5, present := [0]
    headers := [⟨0, .valid 3, .blank, .valid .erase⟩, ⟨1, .valid 4, .blank, .corrupt⟩,
      ⟨2, .valid 100000, .blank, .blank⟩, ⟨3, .blank, .blank, .blank⟩, ⟨4, .valid 3, .blank, .blank⟩,
      ⟨5, .valid 3, .valid 8, .blank⟩, ⟨6, .valid 3, .valid 9, .corrupt⟩, ⟨7, .valid 3, .corrupt, .blank⟩]
    candidates := [⟨5, 8, false, some .blank, 127, 3⟩, ⟨6, 9, true, some .full, 128, 4⟩]
    found := [⟨{ record with sequence := 4 }, 6, 1, false⟩, ⟨record, 5, 2, false⟩,
      ⟨{ record with sequence := 5 }, 5, 1, true⟩]
    highestSequence := 5 }

theorem test_witness_MountResolvesTheStore :
    let s := flying { State.reset with mount := some resolving } .mount (.blankCheck 5 127) 0 1
    s.power = .on ∧ s.sequencer.inFlight = some ⟨.mount, .blankCheck 5 127, 0, 1, none⟩ ∧
      s.opExists (.blankCheck 5 127) = true ∧ s.mount = some resolving ∧
      readBlank s.medium 5 127 [] = true ∧ readBlank s.medium 5 127 [(255, 0)] = false ∧
      (resolving.candidates.find? fun c => c.segment == 5) = some ⟨5, 8, false, some .blank, 127, 3⟩ ∧
      (resolving.candidates.find? fun c => c.segment == 6) = some ⟨6, 9, true, some .full, 128, 4⟩ := by
  decide +kernel

/-- RESOLVE: the copy of the highest sequence that stands is indexed, and each segment has the state of its row. -/
theorem test_resolve :
    resolving.index = ⟨[⟨7, .live 3 false false, 4, 6, 1, 1⟩], 6, 0⟩ ∧
      (resolving.headers.map fun h => (resolving.segment (some 5) h).state) =
        [.retired, .retired, .retired, .erasePending, .erased, .open, .retiring, .erasePending] ∧
      ((resolving.segment none ⟨5, .valid 3, .valid 8, .blank⟩).state,
        (resolving.segment none ⟨5, .valid 3, .valid 8, .blank⟩).dead) = (.filled, 127) ∧
      (resolving.segment none ⟨3, .blank, .blank, .blank⟩).eraseCount = 99999 := by decide +kernel

theorem test_witness_ReadAttemptsAreRetried :
    (let s := flying mounted .reclaimer (.recordRead 0 1 1 7 3) 0 2
     s.power = .on ∧ s.opExists (.recordRead 0 1 1 7 3) = true ∧ 0 + 1 < 2 ∧
       readRecord s.medium 0 1 1 7 3 [] = none) ∧
    (let s := flying (mounting (.headers [0]) [0] (.headerReadPage 0)) .mount (.headerReadPage 0) 2 4
     s.power = .on ∧ s.opExists (.headerReadPage 0) = true ∧
       (readPageHeader s.medium 0 [(0, 0)]).formatted = .corrupt ∧
       (readPageHeader s.medium 0 [(16, 0)]).opened = .corrupt ∧
       (readPageHeader s.medium 0 [(32, 0)]).retired = .corrupt) ∧
    (let s := flying (mounting (.scan [0] 1) [0] (.headerReadRecord 0 1)) .mount (.headerReadRecord 0 1) 0 4
     s.power = .on ∧ s.opExists (.headerReadRecord 0 1) = true ∧
       readRecordHeader s.medium 0 1 [(0, 0)] = .corrupt) ∧
    (let s := flying (mounting (.resolve 0) [0] (.blankCheck 0 1)) .mount (.blankCheck 0 1) 0 4
     s.power = .on ∧ s.opExists (.blankCheck 0 1) = true) := by decide +kernel

/-- The last attempt of a header read or of the BLANK CHECK times out: the findings are those of the last attempt that
did not, and the OPEN choice is counted torn (R125, R126, R143). -/
theorem test_last_attempt_times_out :
    (let s := mounting (.headers [0, 1]) [0] (.headerReadPage 0)
     after (fun t => t.mount.map fun m => (m.headers, m.unreadable, m.timeouts))
       (exec (.headerRead .timeout) { s with sequencer := { s.sequencer with
         inFlight := some ⟨.mount, .headerReadPage 0, 3, 4, some (.page ⟨.blank, .corrupt, .blank⟩)⟩ } })) =
      some (some ([⟨0, .blank, .corrupt, .blank⟩], 1, 1)) ∧
    after (fun t => (t.mountReport.torn, t.mountReport.unreadable, t.mountReport.timeouts))
      (exec (.blankCheck .timeout)
        (flying (mounting (.resolve 0) [0] (.blankCheck 0 1)) .mount (.blankCheck 0 1) 3 4)) =
      some (1, 1, 1) := by decide +kernel

/-- An OPENED slot whose good check goes with a segment number past 127 is corrupt at the attempt (R58, R125). -/
theorem test_opened_number_out_of_range : openedFinding (slotBytes 127 (.opened 1)) = .valid (1, 127) ∧
    openedFinding (slotBytes 128 (.opened 1)) = .corrupt := by decide +kernel

/-- A BLANK CHECK that reads its range after timeouts is DONE, not RECOVERED (R119, R126). -/
theorem test_blank_check_not_recovered :
    after (fun t => (t.mount.isNone, t.mountReport.recovered))
      (exec (.blankCheck (.ready []))
        (flying (mounting (.resolve 0) [0] (.blankCheck 0 1)) .mount (.blankCheck 0 1) 2 4)) =
      some (true, 0) := by decide +kernel

/-- A FETCH in progress with its read in flight, on this medium. -/
def fetching (attempts : Nat) (medium : List Host.Cell) : State :=
  flying
    { busy (indexed [live 7 3 3 false false]) .executing (.fetch (live 7 3 3 false false)) 0 none with
      medium := medium }
    (.fetch 7 false) (.recordRead 0 1 1 7 3) attempts 4

/-- A payload, an empty one read after a retry, a claim taken, one refused, and a read whose command has ended. -/
theorem test_witness_FetchTakesItsRead :
    (let s := fetching 0 (programmed 1 record)
     s.awake ∧ s.opExists (.recordRead 0 1 1 7 3) = true ∧ readRecord s.medium 0 1 1 7 3 [] = some record ∧
       s.port.activity = .fetch (live 7 3 3 false false) ∧ 0 < (live 7 3 3 false false).length) ∧
    (let e := live 7 0 3 false false
     let r : Record := { record with length := 0, payload := [] }
     let s := flying { busy (indexed [e]) .executing (.fetch e) 0 none with medium := programmed 1 r }
       (.fetch 7 false) (.recordRead 0 1 1 7 3) 3 4
     s.awake ∧ s.pfw = false ∧ readRecord s.medium 0 1 1 7 3 [] = some r ∧ e.length = 0 ∧
       s.window.options.refresh = 1 ∧ s.reclaim.refreshList = []) ∧
    (let s := fetching 3 []
     s.awake ∧ readRecord s.medium 0 1 1 7 3 [] = none ∧ 3 + 1 = 4 ∧ s.pfw = false ∧
       s.lookup 7 = some (live 7 3 3 false false) ∧
       (live 7 3 3 false false).kind = .live 3 false false) ∧
    ({ fetching 3 [] with index := ⟨[⟨7, .lost 3, 5, 0, 2, 1⟩], 9, 0⟩ } : State).lookup 7 =
      some ⟨7, .lost 3, 5, 0, 2, 1⟩ ∧
    (let s := flying (indexed [live 7 3 3 false false]) (.fetch 7 true) (.recordRead 0 1 1 7 3) 3 4
     s.awake ∧ readRecord s.medium 0 1 1 7 3 [] = none) := by decide +kernel

/-- A read whose command has ended and that ends UNREADABLE makes STORED into DAMAGED (R10, R18). -/
theorem test_detached_read_damages :
    after (fun t => (t.visible 7, t.port.state))
      (exec (.recordRead .timeout)
        (flying (indexed [live 7 3 3 false false]) (.fetch 7 true) (.recordRead 0 1 1 7 3) 3 4)) =
      some (.damaged (live 7 3 3 false true), .idle) := by decide +kernel

theorem test_witness_ProgramsAndErasesChangeTheMedium :
    let programs := flying mounted .commit (.recordProgram 0 127 record) 0 1
    let slots := flying mounted .commit (.headerProgram 31 (.opened 1)) 0 1
    let erases := flying mounted .background (.segmentErase 31) 0 1
    (programs.power = .on ∧ programs.opExists (.recordProgram 0 127 record) = true) ∧
    (slots.power = .on ∧ slots.opExists (.headerProgram 31 (.opened 1)) = true) ∧
    (erases.power = .on ∧ erases.opExists (.segmentErase 31) = true) ∧ Memory.wf mounted.medium = true := by
  decide +kernel

/-- The Commit Engine with its WRITE's record in flight. -/
def committing (failures : Nat) : State :=
  flying { staged with commit := ⟨.running, some ⟨3, 0, 0⟩, failures⟩ } .commit (.recordProgram 0 1 record) 0 1

/-- A bundle of two with a member's record in flight. -/
def bundling (member : Nat) (op : Op) : State :=
  let m := fun (tag i slot : Nat) => (⟨.write, tag, 4, false, 5, some (i, 2), slot, true⟩ : PwlEntry)
  flying
    { mounted with
      staging := ⟨[slot .pending, slot .pending], [m 7 1 0, m 8 2 1]⟩
      space := { mounted.space with range := some ⟨0, 1, 2⟩ }
      commit := ⟨.running, some ⟨3, 0, member⟩, 0⟩ }
    .commit op 0 1

/-- A DELETE with its tombstone in flight. -/
def removing : State :=
  flying
    { indexed [live 7 4 3 false false] with
      staging := ⟨[slot .pending], [⟨.delete, 7, 0, false, 0, none, 0, true⟩]⟩
      commit := ⟨.running, some ⟨4, 3, 0⟩, 2⟩ }
    .commit (.recordProgram 0 2 ⟨.tombstone, 7, 4, 0, false, 0, none, 3, []⟩) 0 1

theorem test_witness_CommitProgramIsInstalledOrRetried :
    (let s := committing 1
     s.awake ∧ s.opExists (.recordProgram 0 1 record) = true ∧ s.commit.unit = some ⟨3, 0, 0⟩ ∧
       s.space.range = none ∧ unitEntries s.staging.pwl = [write 7 4 0] ∧ s.erasing = false ∧
       s.lookup 7 = none ∧ s.commit.failures < 2) ∧
    (let s := bundling 0 (.recordProgram 0 1 record)
     s.awake ∧ s.opExists (.recordProgram 0 1 record) = true ∧ 0 + 1 < (unitEntries s.staging.pwl).length) ∧
    (let s := bundling 1 (.recordProgram 0 2 record)
     (unitEntries s.staging.pwl).length ≤ 1 + 1 ∧ ((unitEntries s.staging.pwl).map (·.tag)).Nodup ∧
       ∀ e ∈ unitEntries s.staging.pwl, s.lookup e.tag = none) ∧
    (removing.awake ∧ (unitEntries removing.staging.pwl).length = 1 ∧ 2 ≤ removing.commit.failures ∧
      removing.pfw = false ∧ removing.port.activity.waits = false) ∧
    (let s := { committing 2 with index := ⟨[{ live 7 4 4 false false with page := 9 }], 9, 0⟩ }
     s.lookup 7 = some { live 7 4 4 false false with page := 9 } ∧ 3 + 0 < 4) ∧
    (busy (committing 2) .executing (.throughWait [0]) 0 none).port.activity = .throughWait [0] ∧
    (busy (committing 2) .executing (.eraseStore ⟨true, true, [], none, none, false⟩) 0 none).erasing = true := by
  decide +kernel

theorem test_tombstone_installed :
    after (fun t => t.lookup 7) (exec (.recordProgram .done) removing) =
      some (some ⟨7, .tombstone 3, 4, 0, 2, 1⟩) := by decide +kernel

theorem test_third_failure_halts :
    after (fun t => (t.commit.state, t.causes.deferred))
      (exec (.recordProgram (.failed ⟨.body, []⟩)) removing) = some (.halted .medium, true) := by decide +kernel

/-- The background erase with segment 31 in hand. -/
def cleaning (stage : EraseStage) (op : Op) : State :=
  flying
    { mounted with
      background := ⟨[], some (31, stage)⟩
      space := { mounted.space with segments := [{ seg 31 .erasePending with eraseCount := 99999 }] } }
    .background op 0 1

/-- A job on segment 4 in a state, the segment RECLAIMING at an erase count, with an operation in flight. -/
def clearing (state : JobState) (op : Op) (count : Nat) : State :=
  flying
    { mounted with
      space := { mounted.space with
        segments := [seg 0 .open, { seg 4 .reclaiming with eraseCount := count, lowSequence := 6 }] }
      reclaim := ⟨some ⟨.segment 4, state, 1, none, none, 0, 0, none, false, false⟩, [], [], none⟩ }
    .reclaimer op 0 1

theorem test_witness_ErasersTakeTheirOutcomes :
    (let s := cleaning .erase (.segmentErase 31)
     s.awake ∧ s.opExists (.segmentErase 31) = true ∧ s.background.hand = some (31, .erase)) ∧
    (let s := cleaning .format (.headerProgram 31 (.formatted 99999))
     s.awake ∧ s.opExists (.headerProgram 31 (.formatted 99999)) = true ∧
       s.background.hand = some (31, .format) ∧ s.eraseCountOf 31 < 100000) ∧
    (let s := clearing .erase (.segmentErase 4) 7
     s.awake ∧ s.opExists (.segmentErase 4) = true ∧
       (s.reclaim.job.map fun j => j.kind) = some (.segment 4)) ∧
    (let s := clearing .formatMark (.headerProgram 4 (.formatted 7)) 7
     s.awake ∧ s.opExists (.headerProgram 4 (.formatted 7)) = true ∧ s.eraseCountOf 4 < 100000) ∧
    (let s := clearing .formatMark (.headerProgram 4 (.formatted 100000)) 100000
     s.opExists (.headerProgram 4 (.formatted 100000)) = true ∧ 100000 ≤ s.eraseCountOf 4) ∧
    (let s := clearing .retireMark (.headerProgram 4 (.retired .worn)) 100000
     s.awake ∧ s.opExists (.headerProgram 4 (.retired .worn)) = true) := by decide +kernel

/-- FORMATTED programmed DONE at the wear limit: the low sequence is 0 again (R63), and RETIRED follows (R66). -/
theorem test_worn_segment_holds_no_drop :
    after (fun t => (t.space.segments.map (·.lowSequence), t.reclaim.job.map (·.state),
        t.sequencer.inFlight.map (·.op)))
      (exec (.headerProgram .done) (clearing .formatMark (.headerProgram 4 (.formatted 100000)) 100000)) =
      some ([0, 0], some .retireMark, some (.headerProgram 4 (.retired .worn))) := by decide +kernel

theorem test_witness_CommitBeginsTheHead :
    (staged.awake ∧ staged.erasing = false ∧ staged.staging.pwl = [write 7 4 0] ∧ staged.readOnly = false ∧
      staged.index.nextSequence ≤ 4294967294 ∧ staged.commit.state = .idle ∧ staged.commit.unit = none) ∧
    (let s := engine staged (.halted .noSpace)
     s.awake ∧ s.commit.state = .halted .noSpace ∧ s.port.state ≠ .draining ∧ s.space.state ≠ .full) ∧
    ({ staged with commitDue := true } : State).commitDue = true ∧ staged.port.activity.waits = false ∧
    (worn staged).readOnly = true ∧ (engine staged .running).commit.unit = none ∧
    (let s := engine (worn { mounted with staging := ⟨[slot .pending, slot .pending], [write 7 4 0, write 7 4 1]⟩ })
       .running
     s.awake ∧ s.readOnly = true ∧ (s.staging.pwl.map (·.inCommit)) = [false, false] ∧
       s.staging.released = ⟨[slot .free, slot .pending], [write 7 4 1]⟩) ∧
    (let s := engine (busy { staged with index := ⟨[], 4294967295, 0⟩ } .executing (.throughWait [0]) 0 none) .idle
     s.awake ∧ s.port.activity.waits = true ∧ s.pfw = false ∧ s.readOnly = false ∧
       4294967294 < s.index.nextSequence + 1 - 1) ∧
    (let s := { bundling 0 (.recordProgram 0 1 record) with commit := ⟨.idle, none, 0⟩ }
     s.awake ∧ s.erasing = false ∧ s.readOnly = false ∧ (s.staging.pwl.map (·.position)).head? = some (some (1, 2)) ∧
       2 ≤ s.staging.pwl.length ∧ s.index.nextSequence + 2 - 1 ≤ 4294967294) ∧
    (let s := fun l : List IndexEntry => { indexed l with
       staging := ⟨[slot .pending], [⟨.delete, 7, 0, false, 0, none, 0, false⟩]⟩ }
     (s []).awake ∧ (s []).readOnly = false ∧ (s []).lookup 7 = none ∧
       (s [⟨7, .tombstone 3, 4, 0, 2, 1⟩]).lookup 7 = some ⟨7, .tombstone 3, 4, 0, 2, 1⟩ ∧
       (s [⟨7, .lost 3, 4, 0, 2, 1⟩]).lookup 7 = some ⟨7, .lost 3, 4, 0, 2, 1⟩ ∧
       (s [live 7 4 3 false false]).lookup 7 = some (live 7 4 3 false false)) ∧
    (let s := { settle 8 mounted with commitDue := true }
     s.awake ∧ s.erasing = false ∧ s.commitDue = true ∧ (consequence s).isNone = true ∧
       s.commit.state = .idle ∧ s.commit.unit = none) := by decide +kernel

/-- The engine begins in the step after the append, whatever command that step takes (R79). -/
theorem test_append_then_any_command :
    after (fun t => (t.commit.state, t.commitDue,
        after (fun u => (u.commit.state, u.commitDue)) (step t)))
      (step { params mounted 5 0 0 0 0 with pending := [.store, .statusRead] }) =
      some (.idle, true, some (.running, false)) := by decide +kernel

/-- A RETIRING segment, and a tag on the Refresh List. -/
def retiring : State :=
  { mounted with
    space := { mounted.space with segments := [seg 0 .open, seg 4 .retiring] }
    reclaim := ⟨none, [7], [], none⟩ }

/-- A segment job on segment 4 in a state, with the entry it deals with and the buffer. -/
def jobOn (state : JobState) (subject : Option IndexEntry) (buffer : Option CopyBuffer) (loss : Nat) : Job :=
  ⟨.segment 4, state, 1, subject, buffer, loss, 0, none, false, false⟩

/-- An index entry of tag 7 on page 1 of segment 4. -/
def moved (kind : EntryKind) : IndexEntry := ⟨7, kind, 3, 4, 1, 1⟩

/-- With this job, segment 4 RECLAIMING and this entry. -/
def reclaiming (job : Job) (e : IndexEntry) : State :=
  { indexed [e] with
    space := { mounted.space with segments := [seg 0 .open, { seg 4 .reclaiming with lowSequence := 1 }] }
    reclaim := ⟨some job, [7], [], none⟩ }

/-- Its copy read in flight, at its last attempt. -/
def copying (e : IndexEntry) (medium : List Host.Cell) : State :=
  flying { reclaiming (jobOn .copyRead (some e) none 0) e with medium := medium }
    .reclaimer (.recordRead 4 1 1 7 3) 3 4

/-- Its program in flight, of a copy or of a loss marker. -/
def rewriting (e : IndexEntry) (r : Record) (loss : Nat) : State :=
  flying (reclaiming (jobOn .copyProgram (some (moved (.live 3 false true))) (some ⟨r, 4, 1⟩) loss) e)
    .reclaimer (.recordProgram 0 1 r) 0 1

/-- The loss marker of tag 7. -/
def marker : Record := ⟨.loss, 7, 9, 0, false, 0, none, 3, []⟩

theorem test_witness_ReclaimJobsRunTheirCourse :
    (retiring.awake ∧ retiring.reclaim.job = none ∧ retiring.port.state ≠ .mounting ∧
      retiring.port.state ≠ .draining ∧ retiring.erasing = false ∧
      retiring.reclaim.evaluated ≠ some retiring.quantities ∧ retiring.choice = some (.segment 4)) ∧
    ({ mounted with reclaim := ⟨none, [7], [], none⟩ } : State).choice = some (.refresh 7) ∧
    (let s := reclaiming (jobOn .select none none 0) (moved (.tombstone 2))
     s.nextLocated 4 1 = some (moved (.tombstone 2)) ∧ s.nextLocated 4 2 = none ∧
       (∀ g ∈ s.space.segments, g.number ≠ 4 → g.lowSequence = 0) ∧
       s.segment? 4 = some { seg 4 .reclaiming with lowSequence := 1 }) ∧
    (let s := reclaiming (jobOn .select none none 0) (moved (.tombstone 2))
     let t := { s with space := { s.space with segments := [{ seg 0 .open with lowSequence := 2 }] } }
     t.nextLocated 4 1 = some (moved (.tombstone 2)) ∧
       ∃ g ∈ t.space.segments, g.number ≠ 4 ∧ g.state = .open ∧ 1 ≤ g.lowSequence ∧ g.lowSequence ≤ 2) ∧
    (let s := copying (moved (.live 3 false false)) (Op.complete [] (.recordProgram 4 1 record))
     s.awake ∧ s.opExists (.recordRead 4 1 1 7 3) = true ∧ readRecord s.medium 4 1 1 7 3 [] = some record) ∧
    (let s := copying (moved (.live 3 false false)) []
     readRecord s.medium 4 1 1 7 3 [] = none ∧ 3 + 1 = 4 ∧ s.lookup 7 = some (moved (.live 3 false false)) ∧
       s.index.nextSequence ≤ 4294967294 ∧ s.commit.state ≠ .waiting) ∧
    ({ copying (moved (.live 3 false false)) [] with index := ⟨[], 9, 0⟩ } : State).lookup 7 = none ∧
    (let s := rewriting (moved (.live 3 false true)) record 0
     s.awake ∧ s.opExists (.recordProgram 0 1 record) = true ∧
       s.lookup record.tag = some (moved (.live 3 false true))) ∧
    (let s := rewriting (moved (.live 3 false true)) marker 9
     s.awake ∧ s.lookup marker.tag = some (moved (.live 3 false true)) ∧
       (moved (.live 3 false true)).sequence = marker.prior) ∧
    (rewriting { moved (.live 3 false true) with page := 5 } record 0).lookup record.tag =
      some { moved (.live 3 false true) with page := 5 } := by decide +kernel

/-- A job in ERASE, with the read pin on its victim or not; a RETIRING victim, UNMARKED or not, whose walk has
ended. -/
theorem test_witness_VictimsAreEmptied :
    (let s := reclaiming (jobOn .erase none none 0) (live 9 3 3 false false)
     s.reclaimerInFlight = false ∧ s.sequencer.requests.reclaimer = .absent ∧ s.sequencer.pin = none ∧
       ({ s with sequencer := { s.sequencer with pin := some 4 } } : State).sequencer.pin = some 4) ∧
    (let s := reclaiming (jobOn .select none none 0) (live 9 3 3 false false)
     let t := fun mark : Option RetireMark => { s with space := { s.space with
       segments := [seg 0 .open, { seg 4 .retiring with reason := some .program, mark := mark }] } }
     (t none).nextLocated 4 1 = none ∧
       (t none).segment? 4 = some { seg 4 .retiring with reason := some .program } ∧
       (t (some .unmarked)).segment? 4 =
         some { seg 4 .retiring with reason := some .program, mark := some .unmarked }) := by decide +kernel

/-- A job in COPY_PROGRAM, of a segment or of a tag: its source gone, its pages granted, and no room for them. -/
theorem test_witness_CopyGrants :
    (let s := reclaiming (jobOn .copyProgram (some (moved (.live 3 false false))) (some ⟨record, 4, 1⟩) 0)
       (moved (.live 3 false false))
     s.lookup record.tag = some (moved (.live 3 false false)) ∧
       (s.claimPages .copy 1 3).1 = .granted 0 1 ∧
       (let t := { s with space := (full mounted 128).space }
        t.claimPages .copy 1 3 = (.noRoom, t)) ∧
       (let t := { s with index := ⟨[], 9, 0⟩ }
        t.lookup record.tag = none)) ∧
    ({ jobOn .copyProgram (some (moved (.live 3 false false))) (some ⟨record, 4, 1⟩) 0 with
      kind := .refresh 7 } : Job).kind = .refresh 7 := by decide +kernel

/-- The program of a copy or of a loss marker, or the OPENED program before it, at the first and the last failure. -/
theorem test_witness_CopyFailures :
    (let s := rewriting (moved (.live 3 false true)) marker 9
     s.awake ∧ s.index.nextSequence ≤ 4294967294 ∧ s.reclaim.job.map (·.failures) = some 0) ∧
    (let s := flying (reclaiming { jobOn .copyProgram (some (moved (.live 3 false true))) (some ⟨record, 4, 1⟩) 0 with
         failures := 2 } (moved (.live 3 false true))) .reclaimer (.headerProgram 0 (.opened 2)) 0 1
     s.awake ∧ s.opExists (.headerProgram 0 (.opened 2)) = true ∧ s.reclaim.job.map (·.failures) = some 2) := by
  decide +kernel

/-- A copy that fails for the third time: the job ends with its victim excluded and FILLED again (R103, R107). -/
theorem test_third_copy_failure :
    after (fun t => (t.reclaim.job.isNone, t.reclaim.exclusion, t.space.segments.map (·.state)))
      (exec (.headerProgram (.failed ⟨.body, []⟩))
        (flying (reclaiming { jobOn .copyProgram (some (moved (.live 3 false true))) (some ⟨record, 4, 1⟩) 0 with
          failures := 2 } (moved (.live 3 false true))) .reclaimer (.headerProgram 0 (.opened 2)) 0 1)) =
      some (false, [4], [.retiring, .filled]) := by decide +kernel

theorem test_loss_marker_replaces :
    after (fun t => (t.lookup 7, t.health.counters.lostRecords))
      (exec (.recordProgram .done) (rewriting (moved (.live 3 false true)) marker 9)) =
      some (some ⟨7, .lost 3, 9, 0, 1, 1⟩, 1) := by decide +kernel

/-- A change that R99 does not list (here of the OPEN segment's dead pages) begins no job (log 24). -/
theorem test_selection_only_when_due :
    (let s := { full mounted 128 with
        space := { mounted.space with
          state := .full, freeList := [1], segments := [{ seg 0 .open with writePointer := 9, dead := 8 }] } }
     s.choice = some (.segment 0) ∧ s.selectionDue = true ∧
       State.selectionDue { s with reclaim := ⟨none, [], [], some s.quantities⟩ } = false) := by decide +kernel

theorem test_witness_ReclaimChoiceOrder :
    (∃ g ∈ retiring.space.segments, g.state = .retiring ∧ retiring.excluded g = false) ∧
    (∀ g ∈ mounted.space.segments, g.state = .retiring → mounted.excluded g = true) ∧
    (let s := { mounted with
        space := { mounted.space with
          state := .lowSpace, segments := [{ seg 0 .filled with dead := 1 }], freeList := [1] } }
     s.reclaim.refreshList = [] ∧ s.space.state ≠ .normal ∧
       ∃ g ∈ s.space.segments, g.state = .filled ∧ 1 ≤ g.dead ∧ s.excluded g = false) := by
  refine ⟨⟨seg 4 .retiring, ?_⟩, ?_, rfl, ?_, ⟨{ seg 0 .filled with dead := 1 }, ?_⟩⟩ <;> decide +kernel

theorem test_witness_WaitsEnd :
    (let s := busy mounted .executing (.slotWait ⟨.store, [⟨5, 1, false⟩], false⟩) 0 none
     s.awake ∧ freeSlots s.staging.slots = [0, 1] ∧ 1 ≤ (freeSlots s.staging.slots).length) ∧
    (let s := busy crowded .executing (.slotWait ⟨.store, [⟨5, 1, false⟩], false⟩) 0 none
     s.awake ∧ (freeSlots s.staging.slots).length < 1) ∧
    (let w : Work := ⟨.remove, [⟨7, 0, false⟩], false⟩
     let s := busy mounted .executing (.slotWait w) 0 none
     s.awake ∧ s.pfw = false ∧ (∀ m ∈ w.members, m.length = 0) ∧
       (freeSlots s.staging.slots).take w.members.length = [0]) ∧
    (let w : Work := ⟨.store, [⟨5, 0, true⟩], true⟩
     (busy mounted .executing (.slotWait w) 0 none).awake ∧ ∀ m ∈ w.members, m.length = 0) ∧
    (let w : Work := ⟨.bundle 5, [⟨5, 0, true⟩, ⟨6, 0, true⟩], true⟩
     let s := busy mounted .executing (.slotWait w) 0 none
     s.awake ∧ w.members.length ≤ (freeSlots s.staging.slots).length ∧ ∀ m ∈ w.members, m.length = 0) ∧
    (let s := busy mounted .executing (.throughWait [0]) 0 none
     s.awake ∧ s.pfw = false ∧ ∀ e ∈ s.staging.pwl, e.slot ∉ [0]) ∧
    (let s := busy mounted .executing .syncWait 0 none
     s.awake ∧ s.pfw = false ∧ s.staging.pwl = []) := by decide +kernel

theorem test_witness_DrainEndIsReported :
    (let s := { busy mounted .draining .none 0 none with drain := ⟨true, .none, 0⟩ }
     s.awake ∧ s.port.state = .draining ∧ s.drain.running = true ∧ s.staging.pwl = []) ∧
    (let s := engine { busy staged .draining .none 0 none with drain := ⟨true, .none, 0⟩ } (.halted .medium)
     s.awake ∧ s.staging.pwl ≠ [] ∧ s.commit.state = .halted .medium) := by decide +kernel

/-- With these requests at the arbiter and this fairness count. -/
def asking (commit reclaimer : Request) (fairness : Nat) : State :=
  { mounted with sequencer := ⟨none, ⟨.absent, commit, reclaimer, .absent⟩, fairness, none⟩ }

theorem test_witness_FairnessCount :
    ((asking .absent .absent 0).sequencer.fairness ≤ 8 ∧ (asking .absent .absent 0).reclaimApplies = false) ∧
    ((asking .absent .standing 7).grantOrder = .normal ∧
      (asking .absent .standing 7).reclaimApplies = true) ∧
    ((asking .standing .standing 8).grantOrder = .normal ∧
      (asking .standing .standing 8).sequencer.fairness = 8 ∧
      (asking .standing .standing 8).sequencer.requests.reclaimer = .standing) := by decide +kernel

theorem test_witness_SequenceNumbersAreConsecutive :
    ({ mounted with index := ⟨[], 4294967287, 0⟩ } : State).index.nextSequence + 8 - 1 ≤ 4294967294 ∧
    4294967294 < ({ mounted with index := ⟨[], 4294967288, 0⟩ } : State).index.nextSequence + 8 - 1 ∧
    4294967294 < ({ mounted with index := ⟨[], 4294967295, 0⟩ } : State).index.nextSequence + 1 - 1 ∧
    (let s := (({ mounted with index := ⟨[], 4294967294, 0⟩ } : State).takeNumbers 2).2
     s.readOnly = true ∧ (s.takeNumbers 1).1 = some 4294967294) := by
  decide +kernel

/-- With the OPEN segment at this write pointer. -/
def pointer (n : Nat) : State :=
  { mounted with space := { mounted.space with
      segments := [{ seg 0 .open with writePointer := n }, seg 1 .erased] } }

theorem test_witness_PageClaimIsAnswered :
    (Claim.copy.byReclaimer = true ∧
      ({ mounted with space := { mounted.space with range := some ⟨0, 1, 2⟩ } } : State).space.range ≠ none) ∧
    (Claim.commitData.byReclaimer = false ∧
      (pointer 127).openSegment = some { seg 0 .open with writePointer := 127 } ∧ 127 + 1 ≤ 128) ∧
    (128 < 127 + 2 ∧ (pointer 127).space.freeList = [1, 2, 3, 4, 5] ∧
      (pointer 127).mayOpen .commitData = true) ∧
    ({ mounted with space := { mounted.space with freeList := [1] } } : State).mayOpen .commitData = false ∧
    ({ mounted with space := { mounted.space with freeList := [1] } } : State).mayOpen .copy = true := by
  decide +kernel

/-- The engine with its unit's request at the arbiter, in this space. -/
def granting (s : State) (space : Space) : State :=
  { s with
    space := space, commit := ⟨.running, some ⟨3, 0, 0⟩, 0⟩
    sequencer := ⟨none, ⟨.absent, .standing, .absent, .absent⟩, 0, none⟩ }

/-- A grant that gets pages, opens a segment, and finds no room, with a segment eligible and with none, in DRAINING and
outside; the next member of a bundle; and the OPENED program, with a wait in progress and without. -/
theorem test_witness_CommitGrants :
    (let s := granting staged (pointer 127).space
     s.sequencer.inFlight = none ∧ s.chosen = some .commit ∧ s.commit.unit = some ⟨3, 0, 0⟩ ∧
       s.staging.pwl = [write 7 4 0] ∧ (write 7 4 0).position = none ∧ s.port.activity.waits = false ∧
       s.space.range = none ∧ (s.claimPages .commitData 1 3).1 = .granted 0 127) ∧
    ((granting staged (pointer 128).space).claimPages .commitData 1 3).1 = .opening 1 2 ∧
    (let full := (full mounted 128).space
     let spare := { full with segments := full.segments ++ [{ seg 4 .filled with dead := 1 }], state := .lowSpace }
     let s := granting staged full
     let u := granting staged spare
     let v := granting { busy staged .draining .none 0 none with pfw := true } spare
     let w := granting { busy staged .draining .none 0 none with pfw := true } { full with state := .lowSpace }
     s.claimPages .commitData 1 3 = (.noRoom, s) ∧ s.chosen = some .commit ∧ s.anyEligible = false ∧
       u.claimPages .commitData 1 3 = (.noRoom, u) ∧ u.chosen = some .commit ∧
       u.excluded { seg 4 .filled with dead := 1 } = false ∧
       v.chosen = some .commit ∧ v.port.state = .draining ∧ v.port.activity.waits = false ∧
       v.claimPages .commitData 1 3 = (.noRoom, v) ∧
       w.claimPages .commitData 1 3 = (.noRoom, w) ∧ w.chosen = some .commit ∧ w.anyEligible = false ∧
       w.port.state = .draining ∧ w.port.activity.waits = false) ∧
    (let s := { bundling 1 (.recordProgram 0 2 record) with
       sequencer := ⟨none, ⟨.absent, .standing, .absent, .absent⟩, 0, none⟩ }
     s.chosen = some .commit ∧ s.space.range = some ⟨0, 1, 2⟩ ∧ s.commit.unit = some ⟨3, 0, 1⟩ ∧
       s.staging.pwl.length = 2) ∧
    (let s := flying (busy { staged with commit := ⟨.running, some ⟨3, 0, 0⟩, 2⟩ } .executing (.throughWait [0]) 0 none)
       .commit (.headerProgram 1 (.opened 2)) 0 1
     s.awake ∧ s.opExists (.headerProgram 1 (.opened 2)) = true ∧ s.space.range = none ∧ s.erasing = false ∧
       2 ≤ s.commit.failures ∧ s.pfw = false) := by decide +kernel

/-- No room and nothing eligible: the space state is FULL and the engine is HALTED with NO_SPACE (R76, R90). -/
theorem test_no_room_halts :
    (((grant (granting (busy staged .executing (.throughWait [0]) 0 none) (full mounted 128).space)).map
      fun t => (t.space.state, t.commit.state, t.port.result, t.causes.deferred)) =
      some (.full, .halted .noSpace, .storeFull, true)) := by decide +kernel

/-- An opening closes the OPEN segment: its unwritten page is dead, and the head of the free list is OPEN. -/
theorem test_opening_closes :
    (((pointer 127).claimPages .commitData 2 3).2.space.segments.map
      fun g => (g.number, g.state, g.writePointer, g.dead, g.openSequence)) =
      [(0, .filled, 128, 1, 0), (1, .open, 1, 0, 2)] := by decide +kernel

/-- A standalone record, a bundle member of the longest payload, and a tombstone, at the ends of their ranges. -/
theorem test_witness_StoredFormatsReadBack :
    Memory.wf [] = true ∧ record.storable ∧
    (⟨.data, 65534, 4294967294, 1024, true, 255, some (8, 8), 0, List.replicate 1024 0xFF⟩
      : Record).storable ∧
    (⟨.tombstone, 1, 2, 0, false, 0, none, 1, []⟩ : Record).storable ∧
    (⟨.loss, 1, 4294967294, 0, false, 0, none, 4294967293, []⟩ : Record).storable := by
  refine ⟨rfl, ?_, ?_, ?_, ?_⟩ <;> unfold Record.storable <;> dsimp only [record] <;>
    simp only [List.length_replicate, List.length_cons, List.length_nil] <;> decide

/-- A state with an event waiting, in which all four laws hold and from which a step answers a next state. -/
def waiting : State := { mounted with pending := [.statusRead], window := { mounted.window with nextBundle := 255 } }

theorem test_witness_StepKeepsMediumCanonical :
    waiting.mediumCanonical ∧ waiting.indexOrdered ∧ ∃ t, step waiting = .next t :=
  ⟨rfl, List.Pairwise.nil, ⟨_, rfl⟩⟩

theorem test_witness_StepKeepsRanges : waiting.rangesHold := by
  unfold State.rangesHold Reclaim.listLaw Counters.inRange
  decide +kernel

theorem test_witness_StepKeepsPortLaw : waiting.portLaw := by
  unfold State.portLaw
  decide +kernel

end Sys2Proof.Tests
end

section
/-! SUPPORT. What every step keeps in range (R13, R114, R131, R161, R182): one lemma per operation that changes a
setting, the Refresh List, the fairness count, a health counter or the bundle rotation, and the step assembled from
them. An operation that changes none of the five needs no lemma: `rangesHold.of_same` takes its frame rule. -/

-- One theorem at a time: many short ones that wait at once take a thread each.
set_option Elab.async false

namespace Sys2Proof.Machine

/-! ## The quantities with a range -/

/-- A state with the settings, rotation, Refresh List, fairness count and counters of one in range is in range. -/
theorem State.rangesHold.of_same {s t : State} (h : s.rangesHold)
    (e : t.window.options = s.window.options ∧ t.window.nextBundle = s.window.nextBundle ∧
      t.reclaim.refreshList = s.reclaim.refreshList ∧ t.sequencer.fairness = s.sequencer.fairness ∧
      t.health.counters = s.health.counters := by simp) : t.rangesHold := by
  obtain ⟨ho, hb, hr, hf, hc⟩ := e
  obtain ⟨options, list, fairness, counters, low, high⟩ := h
  exact ⟨ho ▸ options, ⟨hr ▸ list.1, hr ▸ list.2⟩, hf ▸ fairness, hc ▸ counters, hb ▸ low, hb ▸ high⟩

/-- The fairness count changed to one within its limit (R131). -/
theorem State.rangesHold.of_fairness {s t : State} (h : s.rangesHold) (limit : t.sequencer.fairness ≤ 8)
    (e : t.window.options = s.window.options ∧ t.window.nextBundle = s.window.nextBundle ∧
      t.reclaim.refreshList = s.reclaim.refreshList ∧ t.health.counters = s.health.counters := by simp) :
    t.rangesHold := by
  obtain ⟨ho, hb, hr, hc⟩ := e
  obtain ⟨options, list, _, counters, low, high⟩ := h
  exact ⟨ho ▸ options, ⟨hr ▸ list.1, hr ▸ list.2⟩, limit, hc ▸ counters, hb ▸ low, hb ▸ high⟩

/-- The Refresh List changed to one that keeps its law (R114). -/
theorem State.rangesHold.of_list {s t : State} (h : s.rangesHold) (law : t.reclaim.listLaw)
    (e : t.window.options = s.window.options ∧ t.window.nextBundle = s.window.nextBundle ∧
      t.sequencer.fairness = s.sequencer.fairness ∧ t.health.counters = s.health.counters := by simp) :
    t.rangesHold := by
  obtain ⟨ho, hb, hf, hc⟩ := e
  obtain ⟨options, _, fairness, counters, low, high⟩ := h
  exact ⟨ho ▸ options, law, hf ▸ fairness, hc ▸ counters, hb ▸ low, hb ▸ high⟩

/-- The counters changed to some within their limits (R182). -/
theorem State.rangesHold.of_counters {s t : State} (h : s.rangesHold) (limit : t.health.counters.inRange)
    (e : t.window.options = s.window.options ∧ t.window.nextBundle = s.window.nextBundle ∧
      t.reclaim.refreshList = s.reclaim.refreshList ∧ t.sequencer.fairness = s.sequencer.fairness := by simp) :
    t.rangesHold := by
  obtain ⟨ho, hb, hr, hf⟩ := e
  obtain ⟨options, list, fairness, _, low, high⟩ := h
  exact ⟨ho ▸ options, ⟨hr ▸ list.1, hr ▸ list.2⟩, hf ▸ fairness, limit, hb ▸ low, hb ▸ high⟩

theorem State.rangesHold.counters {s : State} (h : s.rangesHold) : s.health.counters.inRange := h.2.2.2.1

theorem State.rangesHold.list {s : State} (h : s.rangesHold) : s.reclaim.listLaw := h.2.1

/-! ## Health counters (R182) -/

/-- A counter within its limit stays within it. -/
theorem bump_le {n : Nat} (h : n ≤ 65535) : bump n ≤ 65535 := by
  unfold bump Config.counterLimit
  split <;> omega

theorem State.rangesHold.countRecovered {s : State} (h : s.rangesHold) : s.countRecovered.rangesHold := by
  obtain ⟨a, b, c, d, e, f, g⟩ := h.counters
  exact h.of_counters ⟨bump_le a, b, c, d, e, f, g⟩

theorem State.rangesHold.countUnreadable {s : State} (h : s.rangesHold) : s.countUnreadable.rangesHold := by
  obtain ⟨a, b, c, d, e, f, g⟩ := h.counters
  exact h.of_counters ⟨a, bump_le b, c, d, e, f, g⟩

theorem State.rangesHold.countProgramFailure {s : State} (h : s.rangesHold) :
    s.countProgramFailure.rangesHold := by
  obtain ⟨a, b, c, d, e, f, g⟩ := h.counters
  exact h.of_counters ⟨a, b, bump_le c, d, e, f, g⟩

theorem State.rangesHold.countEraseFailure {s : State} (h : s.rangesHold) : s.countEraseFailure.rangesHold := by
  obtain ⟨a, b, c, d, e, f, g⟩ := h.counters
  exact h.of_counters ⟨a, b, c, bump_le d, e, f, g⟩

theorem State.rangesHold.countTimeout {s : State} (h : s.rangesHold) : s.countTimeout.rangesHold := by
  obtain ⟨a, b, c, d, e, f, g⟩ := h.counters
  exact h.of_counters ⟨a, b, c, d, bump_le e, f, g⟩

theorem State.rangesHold.countLost {s : State} (h : s.rangesHold) : s.countLost.rangesHold := by
  obtain ⟨a, b, c, d, e, f, g⟩ := h.counters
  exact h.of_counters ⟨a, b, c, d, e, bump_le f, g⟩

theorem State.rangesHold.countRefreshDrop {s : State} (h : s.rangesHold) : s.countRefreshDrop.rangesHold := by
  obtain ⟨a, b, c, d, e, f, g⟩ := h.counters
  exact h.of_counters ⟨a, b, c, d, e, f, bump_le g⟩

theorem State.rangesHold.countProgramEnd {s : State} (h : s.rangesHold) (x : Failure) :
    (s.countProgramEnd x).rangesHold := by
  cases x with
  | failed => exact h.countProgramFailure
  | timeout => exact h.countTimeout

theorem State.rangesHold.countEraseEnd {s : State} (h : s.rangesHold) (x : Failure) :
    (s.countEraseEnd x).rangesHold := by
  cases x with
  | failed => exact h.countEraseFailure
  | timeout => exact h.countTimeout

/-! ## The Refresh List (R114, R115, R116) -/

theorem State.rangesHold.endRefresh {s : State} (h : s.rangesHold) : s.endRefresh.rangesHold := by
  have dropped : ({ s with reclaim := { s.reclaim with refreshList := s.reclaim.refreshList.drop 1 } }
      : State).rangesHold :=
    h.of_list ⟨by have := h.list.1; simp only [List.length_drop]; omega, h.list.2.sublist (List.drop_sublist 1 _)⟩
  show (State.endJob _).rangesHold
  exact dropped.of_same

theorem State.rangesHold.emptyReclaimLists {s : State} (h : s.rangesHold) : s.emptyReclaimLists.rangesHold :=
  h.of_list ⟨Nat.zero_le 8, List.nodup_nil⟩

/-- An offer appends a tag that is not listed while fewer than 8 are (R114). -/
theorem State.rangesHold.offerRefresh {s : State} (h : s.rangesHold) (tag : Nat) :
    (s.offerRefresh tag).rangesHold := by
  unfold State.offerRefresh
  split
  · exact h.countRefreshDrop
  · next room =>
    simp only [Config.refreshCapacity, Bool.or_eq_true, List.contains_eq_mem, decide_eq_true_eq, not_or,
      Nat.not_le] at room
    refine h.of_list ⟨by simp only [List.length_append, List.length_singleton]; omega, ?_⟩
    refine List.nodup_append.mpr ⟨h.list.2, List.nodup_singleton tag, fun a listed b offered same => ?_⟩
    exact room.1 (List.mem_singleton.mp offered ▸ same ▸ listed)

theorem State.rangesHold.offerAfter {s : State} (h : s.rangesHold) (tag : Nat) (o : ReadOutcome) :
    (s.offerAfter tag o).rangesHold := by
  cases o with
  | done r => exact h
  | unreadable => exact h
  | recovered r =>
    unfold State.offerAfter
    dsimp only
    split
    · exact h.offerRefresh tag
    · exact h

/-! ## The fairness count (R131) -/

theorem State.rangesHold.withdrawReclaimer {s : State} (h : s.rangesHold) : s.withdrawReclaimer.rangesHold := by
  unfold State.withdrawReclaimer
  split
  · exact h.of_fairness (Nat.zero_le 8)
  · exact h

theorem State.rangesHold.withdrawBackground {s : State} (h : s.rangesHold) : s.withdrawBackground.rangesHold := by
  unfold State.withdrawBackground
  split
  · exact h.of_fairness (Nat.zero_le 8)
  · exact h

/-- A grant leaves the fairness count as it was, sets it to 0, or raises it up to its limit. -/
theorem State.fairnessAfter_le {s : State} (h : s.sequencer.fairness ≤ 8) (a : Applicant) :
    s.fairnessAfter a ≤ 8 := by
  cases a with
  | read => exact h
  | background => exact Nat.zero_le 8
  | reclaimer => exact Nat.zero_le 8
  | commit =>
    unfold State.fairnessAfter
    dsimp only
    split
    · split
      · exact Nat.min_le_right _ _
      all_goals exact h
    · exact Nat.zero_le 8

/-! ## The store's blocks -/

/-- An answer to a page claim keeps the ranges (R67). -/
theorem State.rangesHold.claimPages {s t : State} {claim : Claim} {k low : Nat} {answer : ClaimAnswer}
    (h : s.rangesHold) (e : s.claimPages claim k low = (answer, t)) : t.rangesHold := by
  have claimed : (s.claimPages claim k low).2.rangesHold := by
    unfold State.claimPages
    split
    · exact h
    · split
      · next hx =>
        have frame := State.claimInOpen_frame hx
        exact h.of_same (by simp [frame])
      · split
        · split
          · exact h.of_same
          · exact h
        · exact h
  rwa [e] at claimed

theorem State.rangesHold.reportProgramFailure {s : State} (h : s.rangesHold) (segment k : Nat) (x : Failure) :
    (s.reportProgramFailure segment k x).rangesHold :=
  State.rangesHold.countProgramEnd (h.of_same) x

theorem State.rangesHold.retiredProgramEnd {s : State} (h : s.rangesHold) (segment : Nat) (r : RetireReason)
    (o : MediumEnd) : (s.retiredProgramEnd segment r o).rangesHold := by
  have completed {t : State} (ht : t.rangesHold) (mark : RetireMark) :
      (t.completeRetirement segment r mark).rangesHold := ht.of_same
  cases o with
  | done => exact completed h _
  | failed left => exact completed (h.countProgramEnd .failed) _
  | timeout left => exact completed (h.countProgramEnd .timeout) _

theorem State.rangesHold.eraseEnd {s : State} (h : s.rangesHold) (segment : Nat) (o : MediumEnd) :
    (s.eraseEnd segment o).2.rangesHold := by
  cases o with
  | done => exact h.of_same (t := s.raiseErase segment)
  | failed left => exact h.countEraseEnd .failed
  | timeout left => exact h.countEraseEnd .timeout

theorem State.rangesHold.formatEnd {s : State} (h : s.rangesHold) (segment : Nat) (o : MediumEnd) :
    (s.formatEnd segment o).2.rangesHold := by
  unfold State.formatEnd
  split
  · cases o with
    | done => exact h.of_same
    | failed left => exact h
    | timeout left => exact h
  · cases o with
    | done => exact h.of_same
    | failed left => exact h.countProgramEnd .failed
    | timeout left => exact h.countProgramEnd .timeout

theorem State.rangesHold.eraserEnd {s : State} (h : s.rangesHold) (segment : Nat) (stage : EraseStage)
    (o : MediumEnd) : (s.eraserEnd segment stage o).2.rangesHold := by
  cases stage with
  | erase => exact h.eraseEnd segment o
  | format => exact h.formatEnd segment o
  | retire reason => exact h.retiredProgramEnd segment reason o

/-! ## The Commit Engine -/

theorem State.rangesHold.commitFailure {s : State} (h : s.rangesHold) (segment k : Nat) (x : Failure) :
    (s.commitFailure segment k x).rangesHold := by
  unfold State.commitFailure
  extract_lets pending t
  have reported : t.rangesHold :=
    (h.reportProgramFailure segment pending x).of_same (t := State.closeRange _)
  split
  · exact reported.of_same
  · split
    · exact reported.of_same
    · exact reported.of_same

theorem State.rangesHold.commitProgramEnd {s : State} (h : s.rangesHold) (op : Op) (o : MediumEnd) :
    (s.commitProgramEnd op o).rangesHold := by
  cases op with
  | recordProgram segment page r =>
    unfold State.commitProgramEnd
    dsimp only
    split
    · exact h.of_same
    · exact h.commitFailure segment _ _
  | headerProgram segment slot =>
    unfold State.commitProgramEnd
    dsimp only
    split
    · exact h.of_same
    · exact h.commitFailure segment 0 _
  | _ => exact h

theorem State.rangesHold.grantCommit {s : State} (h : s.rangesHold) : s.grantCommit.rangesHold := by
  unfold State.grantCommit
  split
  · exact h
  · dsimp only
    have running : ({ s with commit := { s.commit with state := .running } } : State).rangesHold := h.of_same
    split
    · exact h.of_same
    · split
      · next answered => exact (running.claimPages answered).of_same
      · next answered => exact (running.claimPages answered).of_same
      · next answered => exact running.claimPages answered
      · next answered => exact (running.claimPages answered).of_same

/-! ## The Reclaimer -/

theorem State.rangesHold.abandonJob {s : State} (h : s.rangesHold) (exclude : Bool) :
    (s.abandonJob exclude).rangesHold := by
  unfold State.abandonJob
  split
  · exact h
  · split
    · exact h.withdrawReclaimer.of_same
    · next v _ =>
      have left : (s.updateSegment v Segment.abandonVictim).rangesHold := h.of_same
      exact left.withdrawReclaimer.of_same

theorem State.rangesHold.jobAbandon {s t : State} (h : s.rangesHold) (e : jobAbandon s = some t) :
    t.rangesHold := by
  unfold Machine.jobAbandon at e
  split at e
  · split at e
    · cases e
      split
      · exact (h.abandonJob false).emptyReclaimLists
      · exact h.abandonJob false
    · cases e
  · cases e

theorem State.rangesHold.yieldToErase {s : State} (h : s.rangesHold) : s.yieldToErase.rangesHold := by
  unfold State.yieldToErase
  split
  · exact h.emptyReclaimLists
  · exact h.of_same

theorem State.rangesHold.finishRecord {s : State} (h : s.rangesHold) (j : Job) :
    (s.finishRecord j).rangesHold := by
  unfold State.finishRecord
  split
  · exact h.endRefresh
  · exact h.of_same

theorem State.rangesHold.failJob {s : State} (h : s.rangesHold) (j : Job) : (s.failJob j).rangesHold := by
  unfold State.failJob
  split
  · exact h.abandonJob true
  · exact h.endRefresh.countRefreshDrop

theorem State.rangesHold.refreshLookup {s : State} (h : s.rangesHold) (j : Job) (tag : Nat) :
    (s.refreshLookup j tag).rangesHold := by
  unfold State.refreshLookup
  split
  · split
    · exact h.of_same
    all_goals exact h.endRefresh
  · exact h.endRefresh

theorem State.rangesHold.jobSelect {s t : State} (h : s.rangesHold) (e : jobSelect s = some t) :
    t.rangesHold := by
  unfold Machine.jobSelect at e
  split at e
  · split at e
    · split at e
      · cases e
        exact h.of_same
      · cases e
        exact h.refreshLookup _ _
    · cases e
  · cases e

theorem State.rangesHold.lossMarker {s : State} (h : s.rangesHold) (j : Job) (e : IndexEntry) :
    (s.lossMarker j e).rangesHold := by
  unfold State.lossMarker
  split
  · next refused =>
    exact (h.of_same (by simp [State.takeNumbers_frame' refused])).abandonJob true
  · next taken => exact h.of_same (by simp [State.takeNumbers_frame' taken])

theorem State.rangesHold.damagedClaim {s t : State} {tag sequence segment page : Nat} (h : s.rangesHold)
    (e : s.damagedClaim tag sequence segment page = some t) : t.rangesHold := by
  obtain ⟨entries, rfl⟩ := State.damagedClaim_keeps e
  exact h.of_same

theorem State.rangesHold.copyReadBad {s : State} (h : s.rangesHold) : s.copyReadBad.rangesHold := by
  unfold State.copyReadBad
  split
  · exact h
  · split
    · exact h
    · split
      · exact h.of_same
      · exact h.of_same
      · split
        · exact h.finishRecord _
        · next claimed =>
          split
          · exact (h.damagedClaim claimed).lossMarker _ _
          · exact (h.damagedClaim claimed).endRefresh

theorem State.rangesHold.grantCopy {s : State} (h : s.rangesHold) (j : Job) (b : CopyBuffer) :
    (s.grantCopy j b).rangesHold := by
  unfold State.grantCopy
  split
  · exact h.finishRecord j
  · split
    · next answered => exact (h.claimPages answered).of_same
    · next answered => exact (h.claimPages answered).of_same
    · next answered => exact (h.claimPages answered).of_same
    · next answered => exact (h.claimPages answered).failJob j

theorem State.rangesHold.grantReclaimer {s : State} (h : s.rangesHold) : s.grantReclaimer.rangesHold := by
  unfold State.grantReclaimer
  split
  · exact h
  · next j _ =>
    split
    · exact h
    · split
      · exact h.of_same
      · exact h
    · split
      · exact h.grantCopy j _
      · exact h
    · split
      · split
        · exact h
        · exact h.of_same
      · exact h
    · split
      · exact h.of_same
      · exact h
    · split
      · exact h.of_same
      · exact h

theorem State.rangesHold.lossReplacement {s : State} (h : s.rangesHold) (b : CopyBuffer) (segment page : Nat) :
    (s.lossReplacement b segment page).rangesHold := by
  unfold State.lossReplacement
  split
  · split
    · exact State.rangesHold.countLost (h.of_same)
    · exact h.of_same
  · exact h.of_same

theorem State.rangesHold.copyProgramDone {s : State} (h : s.rangesHold) (segment page : Nat) :
    (s.copyProgramDone segment page).rangesHold := by
  unfold State.copyProgramDone
  split
  · exact h
  · split
    · exact h
    · split
      · exact State.rangesHold.finishRecord (h.of_same) _
      · exact (h.lossReplacement _ segment page).finishRecord _

theorem State.rangesHold.copyFailure {s : State} (h : s.rangesHold) (segment k : Nat) (x : Failure) :
    (s.copyFailure segment k x).rangesHold := by
  have reported := h.reportProgramFailure segment k x
  unfold State.copyFailure
  dsimp only
  split
  · exact reported
  · split
    · split
      · split
        · exact reported.of_same
        · exact reported.lossMarker _ _
      · exact reported.of_same
    · exact reported.failJob _

theorem State.rangesHold.jobNext {s : State} (h : s.rangesHold) (j : Job) (next : EraseNext) :
    (s.jobNext j next).rangesHold := h.of_same

theorem State.rangesHold.jobHeaderEnd {s : State} (h : s.rangesHold) (segment : Nat) (slot : SlotContent)
    (o : MediumEnd) : (s.jobHeaderEnd segment slot o).rangesHold := by
  cases slot with
  | opened sequence =>
    unfold State.jobHeaderEnd
    dsimp only
    split
    · exact h.of_same
    · exact h.copyFailure segment 0 _
  | formatted count =>
    unfold State.jobHeaderEnd State.jobFormatEnd
    dsimp only
    split
    · exact h
    · exact (h.formatEnd segment o).jobNext _ _
  | retired reason => exact (h.retiredProgramEnd segment reason o).of_same (t := State.endJob _)

theorem State.rangesHold.jobOpEnd {s : State} (h : s.rangesHold) (op : Op) (o : MediumEnd) :
    (s.jobOpEnd op o).rangesHold := by
  cases op with
  | recordProgram segment page r =>
    unfold State.jobOpEnd
    dsimp only
    split
    · exact h.copyProgramDone segment page
    · exact h.copyFailure segment _ _
  | headerProgram segment slot => exact h.jobHeaderEnd segment slot o
  | segmentErase segment =>
    unfold State.jobOpEnd State.jobEraseEnd
    dsimp only
    split
    · exact h
    · exact (h.eraseEnd segment o).jobNext _ _
  | _ => exact h

/-! ## The background erase and ERASE STORE -/

theorem State.rangesHold.backgroundEnd {s : State} (h : s.rangesHold) (o : MediumEnd) :
    (s.backgroundEnd o).rangesHold := by
  unfold State.backgroundEnd
  split
  · exact h
  · next n stage _ =>
    have ended := h.eraserEnd n stage o
    dsimp only
    split
    · exact ended.of_same
    · exact ended.of_same

theorem State.rangesHold.eraseFrom {s : State} (h : s.rangesHold) (todo : List Nat) :
    (State.eraseFrom todo s).rangesHold := h.of_same

theorem State.rangesHold.eraseStoreEnd {s : State} (h : s.rangesHold) (o : MediumEnd) :
    (s.eraseStoreEnd o).rangesHold := by
  unfold State.eraseStoreEnd
  split
  · exact h
  · split
    · exact h
    · next n stage _ =>
      have ended := h.eraserEnd n stage o
      dsimp only
      split
      · exact ended.of_same
      · exact State.rangesHold.eraseFrom (ended.of_same) _

theorem State.rangesHold.clearWork {s : State} (h : s.rangesHold) (discard : Bool) :
    (s.clearWork discard).rangesHold := by
  have discarded : (if discard then s.discardStaged else s).rangesHold := by
    split
    · exact h.of_same
    · exact h
  exact State.rangesHold.withdrawBackground ((discarded.abandonJob false).emptyReclaimLists.of_same)

theorem State.rangesHold.eraseStoreStart {s t : State} (h : s.rangesHold) (e : eraseStoreStart s = some t) :
    t.rangesHold := by
  unfold Machine.eraseStoreStart at e
  split at e
  · split at e
    · next p _ _ =>
      cases e
      exact State.rangesHold.eraseFrom ((h.clearWork p.discard).of_same) _
    · cases e
  · cases e

/-! ## The grant and the other consequences of a step -/

theorem State.rangesHold.grantTo {s : State} (h : s.rangesHold) (a : Applicant) : (s.grantTo a).rangesHold := by
  unfold State.grantTo
  extract_lets _ t
  have taken : t.rangesHold := h.of_fairness (State.fairnessAfter_le h.2.2.1 a) ⟨rfl, rfl, rfl, rfl⟩
  cases a with
  | read => exact taken.of_same
  | commit => exact taken.grantCommit
  | background => exact taken.of_same
  | reclaimer => exact taken.grantReclaimer

theorem State.rangesHold.grant {s t : State} (h : s.rangesHold) (e : grant s = some t) : t.rangesHold := by
  unfold Machine.grant at e
  split at e
  · obtain ⟨a, -, rfl⟩ := Option.map_eq_some_iff.mp e
    exact h.grantTo a
  · cases e

theorem State.rangesHold.consequence {s t : State} (e : consequence s = some t) (h : s.rangesHold) :
    t.rangesHold := by
  rcases consequence_cases e with e | e | e | e | e | e | e | e | e | e | e | e | e | e | e | e
  · exact h.of_same (by simp [healthRefresh_frame e])
  · exact h.of_same (by simp [spaceRefresh_frame e])
  · exact h.eraseStoreStart e
  · exact h.jobAbandon e
  · exact h.of_same (by simp [slotWaitEnd_frame e])
  · exact h.of_same (by simp [writeThroughComplete_frame e])
  · exact h.of_same (by simp [syncComplete_frame e])
  · exact h.of_same (by simp [commitHaltEnd_frame e])
  · exact h.of_same (by simp [commitNext_frame e])
  · exact h.of_same (by simp [commitStart_frame e])
  · exact h.of_same (by simp [drainEnd_frame e])
  · exact h.jobSelect e
  · exact h.of_same (by simp [reclaimSelection_frame e])
  · exact h.of_same (by simp [jobRequest_frame e])
  · exact h.of_same (by simp [backgroundRequest_frame e])
  · exact h.grant e

/-- The end of a step keeps the ranges. -/
theorem State.rangesHold.finish {s : State} (h : s.rangesHold) : s.finish.rangesHold := by
  have settled := settle_induction (fun a b e => State.rangesHold.consequence e) Config.settleRounds s h
  exact settled.of_same (t := s.finish) (by unfold State.finish; simp)

/-! ## Reads (R114, R124, R127) -/

theorem State.rangesHold.noteTimeout {s : State} (h : s.rangesHold) : s.noteTimeout.rangesHold := by
  unfold State.noteTimeout
  split
  · exact h.of_same
  · exact h.countTimeout

theorem State.rangesHold.noteRecovered {s : State} (h : s.rangesHold) : s.noteRecovered.rangesHold := by
  unfold State.noteRecovered
  split
  · exact h.of_same
  · exact h.countRecovered

theorem State.rangesHold.noteUnreadable {s : State} (h : s.rangesHold) : s.noteUnreadable.rangesHold := by
  unfold State.noteUnreadable
  split
  · exact h.of_same
  · exact h.countUnreadable

theorem State.rangesHold.takeRead {s : State} (h : s.rangesHold) (e : IndexEntry) (o : ReadOutcome) :
    (s.takeRead e o).rangesHold := by
  unfold State.takeRead
  split
  · exact h.of_same
  · exact h.of_same
  · split
    · next claimed => exact (h.damagedClaim claimed).of_same
    · exact h.of_same

theorem State.rangesHold.fetchOutcome {s : State} (h : s.rangesHold) (op : Op) (tag : Nat) (detached : Bool)
    (o : ReadOutcome) : (s.fetchOutcome op tag detached o).rangesHold := by
  have offered := h.offerAfter tag o
  unfold State.fetchOutcome
  dsimp only
  split
  · exact offered.of_same
  · split
    · exact offered.takeRead _ o
    · exact offered

theorem State.rangesHold.recordOutcome {s : State} (h : s.rangesHold) (f : InFlight) (o : ReadOutcome) :
    (s.recordOutcome f o).rangesHold := by
  unfold State.recordOutcome
  split
  · exact h.fetchOutcome f.op _ _ o
  · cases o with
    | done r => exact h.of_same (t := s.copyReadGood r)
    | recovered r => exact h.of_same (t := s.copyReadGood r)
    | unreadable => exact h.copyReadBad
  all_goals exact h

theorem State.rangesHold.releasePort {s : State} (h : s.rangesHold) : s.releasePort.rangesHold := h.of_same

theorem State.rangesHold.readUnreadable {s : State} (h : s.rangesHold) (f : InFlight) :
    (s.readUnreadable f).rangesHold := by
  have freed := h.noteUnreadable.releasePort
  unfold State.readUnreadable
  dsimp only
  split
  · exact freed.of_same
  · exact freed.of_same
  · exact freed.recordOutcome f .unreadable
  · exact freed.of_same
  all_goals exact freed

theorem State.rangesHold.attemptBad {s : State} (h : s.rangesHold) (f : InFlight) :
    (s.attemptBad f).rangesHold := by
  unfold State.attemptBad
  dsimp only
  split
  · exact h.of_same
  · exact h.readUnreadable _

theorem State.rangesHold.attemptGood {s : State} (h : s.rangesHold) (f : InFlight) :
    (s.attemptGood f).rangesHold := by
  unfold State.attemptGood
  split
  · exact h.releasePort
  · exact h.noteRecovered.releasePort

theorem State.rangesHold.attemptTimeout {s : State} (h : s.rangesHold) (f : InFlight) :
    (s.attemptTimeout f).rangesHold := h.noteTimeout.attemptBad f

theorem State.rangesHold.headerEvent {s : State} (h : s.rangesHold) (f : InFlight) (a : ReadAttempt) :
    (s.headerEvent f a).rangesHold := by
  unfold State.headerEvent
  split
  · unfold State.pageAttempt
    split
    · exact h.attemptBad _
    · exact (h.attemptGood f).of_same
  · unfold State.recordAttempt
    split
    · exact h.attemptBad _
    · exact (h.attemptGood f).of_same
  · exact h.attemptTimeout f
  · exact h.attemptTimeout f
  · exact h

theorem State.rangesHold.recordEvent {s : State} (h : s.rangesHold) (f : InFlight) (a : ReadAttempt) :
    (s.recordEvent f a).rangesHold := by
  unfold State.recordEvent
  split
  · unfold State.readAttempt
    split
    · exact (h.attemptGood f).recordOutcome f _
    · exact h.attemptBad f
  · exact h.attemptTimeout f
  · exact h

theorem State.rangesHold.blankEvent {s : State} (h : s.rangesHold) (f : InFlight) (a : ReadAttempt) :
    (s.blankEvent f a).rangesHold := by
  unfold State.blankEvent
  split
  · exact h.releasePort.of_same (t := State.mountBlankEnd _ _ _)
  · exact h.attemptTimeout f
  · exact h

/-! ## Programs and erases -/

theorem State.rangesHold.programEnd {s : State} (h : s.rangesHold) (f : InFlight) (o : MediumEnd) :
    (s.programEnd f o).rangesHold := by
  unfold State.programEnd
  extract_lets t
  have freed : t.rangesHold := h.of_same (t := State.releasePort _)
  split
  · exact freed.commitProgramEnd f.op o
  · exact freed.jobOpEnd f.op o
  · exact freed.backgroundEnd o
  · exact freed.eraseStoreEnd o
  · exact freed
  · exact freed

theorem State.rangesHold.recordProgramEvent {s : State} (h : s.rangesHold) (f : InFlight) (o : MediumEnd) :
    (s.recordProgramEvent f o).rangesHold := by
  unfold State.recordProgramEvent
  split
  · exact h.programEnd f o
  · exact h

theorem State.rangesHold.headerProgramEvent {s : State} (h : s.rangesHold) (f : InFlight) (o : MediumEnd) :
    (s.headerProgramEvent f o).rangesHold := by
  unfold State.headerProgramEvent
  split
  · exact h.programEnd f o
  · exact h

theorem State.rangesHold.eraseEvent {s : State} (h : s.rangesHold) (f : InFlight) (o : MediumEnd) :
    (s.eraseEvent f o).rangesHold := by
  unfold State.eraseEvent
  split
  · exact h.programEnd f o
  · exact h

theorem State.rangesHold.timeoutEvent {s : State} (h : s.rangesHold) (f : InFlight) (left : Remnant) :
    (s.timeoutEvent f left).rangesHold := by
  unfold State.timeoutEvent
  split
  · exact h.of_same
  · exact h.attemptTimeout f
  · exact h.attemptTimeout f
  · exact h.attemptTimeout f
  · exact h.attemptTimeout f
  · exact h.programEnd f _
  · exact h.programEnd f _
  · exact h.programEnd f _

/-! ## The host's commands -/

/-- A setting is put only with a value in its range (R161, R173). -/
theorem Options.inRange_setSetting {o p : Options} {code v : Nat} (h : o.inRange = true)
    (e : setSetting o code v = some p) : p.inRange = true := by
  unfold setSetting at e
  split at e
  · cases e
  · next lo hi range =>
    split at e
    · next within =>
      cases e
      unfold settingRange at range
      simp only [Options.inRange, Bool.and_eq_true, decide_eq_true_eq] at h ⊢
      split at range <;> cases range <;> simp only [putSetting] <;> omega
    · cases e

theorem State.rangesHold.setOptionBody {s : State} (h : s.rangesHold) : s.setOptionBody.rangesHold := by
  unfold State.setOptionBody
  split
  · next o put =>
    have set : ({ s with window := { s.window with options := o } } : State).rangesHold := by
      obtain ⟨options, rest⟩ := h
      exact ⟨Options.inRange_setSetting options put, rest⟩
    exact set.of_same
  · exact h.of_same

theorem State.rangesHold.eraseBody {s : State} (h : s.rangesHold) : s.eraseBody.rangesHold := by
  unfold State.eraseBody
  split
  · exact h.of_same
  · exact State.rangesHold.yieldToErase (h.of_same)

/-- The identifier of a bundle that passes its checks rotates from 1 to 255 (R13). -/
theorem State.rangesHold.bundleAccepted {s : State} (h : s.rangesHold) (members : List DescriptorMember)
    (through : Bool) : (s.bundleAccepted members through).rangesHold := by
  have rotated : ({ s with window := { s.window with nextBundle := nextIdentifier s.window.nextBundle } }
      : State).rangesHold := by
    obtain ⟨options, list, fairness, counters, low, high⟩ := h
    have turned : 1 ≤ nextIdentifier s.window.nextBundle ∧ nextIdentifier s.window.nextBundle ≤ 255 := by
      unfold nextIdentifier
      split <;> omega
    exact ⟨options, list, fairness, counters, turned⟩
  exact rotated.of_same (t := State.enterReserve _ _)

theorem State.rangesHold.bundleChecks {s : State} (h : s.rangesHold) (n : Nat) (through : Bool) :
    (s.bundleChecks n through).rangesHold := by
  unfold State.bundleChecks
  extract_lets members
  split
  · exact h.of_same
  · split
    · exact h.of_same
    · split
      · exact h.of_same
      · split
        · exact h.of_same
        · split
          · exact h.of_same
          · exact h.bundleAccepted members through

theorem State.rangesHold.dataWrite {s : State} (h : s.rangesHold) (word : Word) : (s.dataWrite word).rangesHold := by
  unfold State.dataWrite
  split
  · split
    · exact h.of_same
    · unfold State.takeDescriptorWord
      extract_lets _ _ t
      have taken : t.rangesHold := h.of_same ⟨rfl, rfl, rfl, rfl, rfl⟩
      split
      · exact State.rangesHold.bundleChecks (taken.of_same) _ _
      · exact taken
    · exact h
  · exact h.of_same

theorem State.rangesHold.commandBody {s : State} (h : s.rangesHold) (code : Word) :
    (State.commandBody code s).rangesHold := by
  unfold State.commandBody
  split
  case h_8 => exact h.setOptionBody
  case h_11 => exact h.eraseBody
  all_goals exact h.of_same

/-- A COMMAND write keeps the ranges when the body it may run does. -/
theorem State.rangesHold.accept {s : State} (h : s.rangesHold) (code : Word) {body : State → State}
    (keeps : ∀ t : State, t.rangesHold → (body t).rangesHold) : (s.accept code body).rangesHold := by
  unfold State.accept
  split
  · exact keeps _ (h.of_same)
  · exact h.of_same

theorem State.rangesHold.commandWrite {s : State} (h : s.rangesHold) (code : Word) :
    (s.commandWrite code).rangesHold := h.accept code fun _ ht => ht.commandBody code

theorem State.rangesHold.parameterWrite {s : State} (h : s.rangesHold) (address : Nat) (word : Word) :
    (s.parameterWrite address word).rangesHold := by
  unfold State.parameterWrite
  split
  · refine h.of_same ?_
    unfold Window.setParameter
    split <;> simp
  · exact h.of_same

theorem State.rangesHold.registerWrite {s : State} (h : s.rangesHold) (address : BitVec 4) (word : Word) :
    (s.registerWrite address word).rangesHold := by
  unfold State.registerWrite
  split
  · exact h.dataWrite word
  · exact h.parameterWrite 1 word
  · exact h.parameterWrite 2 word
  · exact h.parameterWrite 3 word
  · exact h.parameterWrite 4 word
  · exact h.parameterWrite 5 word
  · exact h.commandWrite word
  all_goals exact h.of_same

theorem State.rangesHold.namedWrite {s : State} (h : s.rangesHold) (target : RefusedTarget) :
    (s.namedWrite target).rangesHold := by
  cases target with
  | command code => exact h.commandWrite code
  | data word => exact h.dataWrite word

/-! ## Resets and the step -/

/-- What a reset leaves of the five quantities is in range (R13, R55, R98, R161, R163, R182). -/
theorem State.rangesHold_reset : State.reset.rangesHold :=
  ⟨rfl, ⟨Nat.zero_le 8, List.nodup_nil⟩, Nat.zero_le 8, by simp [Counters.inRange, State.reset], le_rfl, by decide⟩

theorem State.rangesHold.run {s t : State} {effect : State → State} (h : s.rangesHold)
    (keeps : (effect s).rangesHold) (e : s.run effect = .next t) : t.rangesHold := by
  obtain ⟨-, rfl⟩ | ⟨-, rfl⟩ := State.run_next e
  · exact keeps.finish
  · exact h

theorem State.rangesHold.runOp {s t : State} {effect : State → InFlight → State} (h : s.rangesHold)
    (keeps : ∀ f, (effect s f).rangesHold) (e : s.runOp effect = .next t) : t.rangesHold := by
  obtain ⟨f, -, -, -, rfl⟩ | ⟨-, -, rfl⟩ | ⟨-, rfl⟩ := State.runOp_next e
  · exact (keeps f).finish
  · exact h.finish
  · exact h

theorem State.rangesHold.pfwAsserted {s t : State} (h : s.rangesHold) (e : execPfwAsserted s = .next t) :
    t.rangesHold := by
  unfold execPfwAsserted at e
  split at e
  · cases e
    exact h.of_same
  · refine h.run ?_ e
    split
    · exact h
    · exact h.of_same

theorem State.rangesHold.pfwDeasserted {s t : State} (h : s.rangesHold) (e : execPfwDeasserted s = .next t) :
    t.rangesHold := by
  unfold execPfwDeasserted at e
  split at e
  · cases e
    exact h.of_same
  · refine h.run ?_ e
    split
    · exact h.of_same
    · exact h

theorem State.rangesHold.cutOff (s : State) (power : Power) (cut : Remnant) : (s.cutOff power cut).rangesHold :=
  State.rangesHold_reset.of_same ⟨rfl, rfl, rfl, rfl, rfl⟩

/-- A command written into COMMAND keeps the ranges when its body does. -/
theorem State.rangesHold.command {s t : State} (h : s.rangesHold) (code : Word) (body : State → State)
    (keeps : ∀ t : State, t.rangesHold → (body t).rangesHold)
    (e : (s.run fun t => t.accept code body) = .next t) : t.rangesHold :=
  h.run (effect := fun t => t.accept code body) (h.accept code keeps) e

/-- Every command keeps the ranges. -/
theorem State.rangesHold.exec {s t : State} (c : Instr) (h : s.rangesHold) (e : exec c s = .next t) :
    t.rangesHold := by
  cases c with
  | hardReset cut =>
    cases e
    exact State.rangesHold_reset.of_same ⟨rfl, rfl, rfl, rfl, rfl⟩
  | pfwAsserted => exact h.pfwAsserted e
  | pfwDeasserted => exact h.pfwDeasserted e
  | resetAsserted cut =>
    change execResetAsserted cut s = .next t at e
    unfold execResetAsserted at e
    split at e <;> cases e
    · exact h
    · exact .cutOff s .held cut
  | powerLoss cut =>
    cases e
    exact .cutOff s .off cut
  | store => exact h.command 0x10 State.storeBody (fun _ ht => ht.of_same) e
  | storeBundle => exact h.command 0x11 State.bundleBody (fun _ ht => ht.of_same) e
  | remove => exact h.command 0x12 State.removeBody (fun _ ht => ht.of_same) e
  | fetch => exact h.command 0x20 State.fetchBody (fun _ ht => ht.of_same) e
  | describe => exact h.command 0x21 State.describeBody (fun _ ht => ht.of_same) e
  | enumerate => exact h.command 0x22 State.enumerateBody (fun _ ht => ht.of_same) e
  | sync => exact h.command 0x30 State.syncBody (fun _ ht => ht.of_same) e
  | setOption => exact h.command 0x40 State.setOptionBody (fun _ ht => ht.setOptionBody) e
  | readOption => exact h.command 0x41 State.readOptionBody (fun _ ht => ht.of_same) e
  | healthReport => exact h.command 0x50 State.reportBody (fun _ ht => ht.of_same) e
  | eraseStore => exact h.command 0x60 State.eraseBody (fun _ ht => ht.eraseBody) e
  | badCommand code => exact h.run (effect := fun t => t.commandWrite code) (h.commandWrite code) e
  | dataWrite word => exact h.run (effect := fun t => t.dataWrite word) (h.dataWrite word) e
  | registerWrite address word => exact h.run (effect := fun t => t.registerWrite address word) (h.registerWrite _ _) e
  | refusedWrite target => exact h.run (effect := fun t => t.namedWrite target) (h.namedWrite target) e
  | attemptTimeout left => exact h.runOp (effect := fun t f => t.timeoutEvent f left) (fun f => h.timeoutEvent f _) e
  | bankProbe answer => exact h.runOp (effect := fun t f => t.probeEvent f answer) (fun _ => h.of_same) e
  | headerRead attempt => exact h.runOp (effect := fun t f => t.headerEvent f attempt) (fun f => h.headerEvent f _) e
  | recordRead attempt => exact h.runOp (effect := fun t f => t.recordEvent f attempt) (fun f => h.recordEvent f _) e
  | blankCheck attempt => exact h.runOp (effect := fun t f => t.blankEvent f attempt) (fun f => h.blankEvent f _) e
  | recordProgram outcome =>
    exact h.runOp (effect := fun t f => t.recordProgramEvent f outcome) (fun f => h.recordProgramEvent f _) e
  | headerProgram outcome =>
    exact h.runOp (effect := fun t f => t.headerProgramEvent f outcome) (fun f => h.headerProgramEvent f _) e
  | segmentErase outcome => exact h.runOp (effect := fun t f => t.eraseEvent f outcome) (fun f => h.eraseEvent f _) e
  | dataRead => exact h.run (effect := State.dataRead) h.of_same e
  | statusRead => exact h.run (effect := State.statusRead) h.of_same e
  | abort => exact h.run (effect := State.abort) h.of_same e
  | portReset => exact h.run (effect := State.portReset) h.of_same e
  | acknowledge word => exact h.run (effect := fun t => t.acknowledge word) h.of_same e
  | intmaskWrite word => exact h.run (effect := fun t => t.writeMask word) h.of_same e
  | dataTimeout => exact h.run (effect := State.dataTimeout) h.of_same e
  | idleTimerExpiry => exact h.run (effect := State.idleExpiry) h.of_same e
  | commitBegin => exact h.run (effect := State.commitBeginEvent) h.of_same e
  | reclaimSelection => exact h.run (effect := State.selectionEvent) h.of_same e
  | slotWaitEnd => exact h.run (effect := State.slotWaitEvent) h.of_same e
  | writeThroughComplete => exact h.run (effect := State.writeThroughEvent) h.of_same e
  | syncComplete => exact h.run (effect := State.syncEvent) h.of_same e
  | drainEnd => exact h.run (effect := State.drainEvent) h.of_same e
  | commitHaltEnd => exact h.run (effect := State.haltEndEvent) h.of_same e

/-- Settles O57, from `State.rangesHold.exec`: a step executes the command at the front of the queue. -/
theorem stepKeepsRanges : Obligations.StepKeepsRanges := by
  intro s t h e
  unfold step at e
  split at e
  · exact State.rangesHold.exec _ (h.of_same) e
  · cases e
    exact h

end Sys2Proof.Machine
end

section
/-! SUPPORT. Sequence numbers (R6, R7), and the first member of a bundle that a check by member names (R22, R165). -/

-- One theorem at a time: many short ones that wait at once take a thread each.
set_option Elab.async false

namespace Sys2Proof.Machine

/-! ## Sequence numbers (R6, R7) -/

/-- A request whose numbers end at or below the last that can be assigned gets the counter's value. -/
theorem State.takeNumbers_given {s : State} {k : Nat} (h : s.index.nextSequence + k - 1 ≤ 4294967294) :
    s.takeNumbers k = (some s.index.nextSequence,
      { s with index := { s.index with nextSequence := s.index.nextSequence + k } }) :=
  if_neg (Nat.not_lt.mpr h)

/-- A request that would pass the last number gets none and adds SEQUENCE. -/
theorem State.takeNumbers_refused {s : State} {k : Nat} (h : 4294967294 < s.index.nextSequence + k - 1) :
    s.takeNumbers k = (none, s.addSequenceReason) := if_pos h

theorem State.readOnly_addSequenceReason (s : State) : s.addSequenceReason.readOnly = true := by
  simp [State.readOnly, Reasons.readOnly, State.addSequenceReason]

/-- Settles O53, from the two outcomes of a request for numbers. -/
theorem sequenceNumbersAreConsecutive : Obligations.SequenceNumbersAreConsecutive := by
  intro s k _
  refine ⟨State.takeNumbers_given, fun h => ⟨State.takeNumbers_refused h, ?_⟩⟩
  rw [State.takeNumbers_refused h]
  exact s.readOnly_addSequenceReason

/-! ## The first of a list that a check refuses -/

/-- The position, counted from `i`, of the first of a list that is refused in view of those that stand before it. -/
def firstRefused (refuses : List DescriptorMember → DescriptorMember → Bool) :
    (i : Nat) → (before : List DescriptorMember) → List DescriptorMember → Option Nat
  | _, _, [] => none
  | i, before, d :: rest =>
    if refuses before d then some i else firstRefused refuses (i + 1) (before ++ [d]) rest

/-- `firstRefused` answers the position of a refused member that no refused one precedes. -/
theorem firstRefused_eq_some_iff (refuses : List DescriptorMember → DescriptorMember → Bool)
    (l : List DescriptorMember) : ∀ (i : Nat) (before : List DescriptorMember) (p : Nat),
    firstRefused refuses i before l = some p ↔
      ∃ d, i ≤ p ∧ l[p - i]? = some d ∧ refuses (before ++ l.take (p - i)) d = true ∧
        ∀ (q : Nat) (e : DescriptorMember), q + i < p → l[q]? = some e →
          refuses (before ++ l.take q) e = false := by
  induction l with
  | nil => simp [firstRefused]
  | cons d rest ih =>
    intro i before p
    unfold firstRefused
    split
    · next refused =>
      rw [Option.some.injEq]
      constructor
      · rintro rfl
        exact ⟨d, le_rfl, by simp, by simpa using refused, fun q e late => by omega⟩
      · rintro ⟨e, low, -, -, first⟩
        by_contra late
        have := first 0 d (by omega) rfl
        simp_all
    · next passes =>
      rw [ih (i + 1) (before ++ [d]) p]
      constructor
      · rintro ⟨e, low, here, refused, first⟩
        obtain ⟨n, rfl⟩ := Nat.exists_eq_add_of_le low
        have place : i + 1 + n - i = n + 1 := by omega
        refine ⟨e, by omega, by simp_all, by simp_all, fun q x early at_q => ?_⟩
        cases q with
        | zero => simp_all
        | succ q => simpa using first q x (by omega) (by simpa using at_q)
      · rintro ⟨e, low, here, refused, first⟩
        rcases Nat.eq_or_lt_of_le low with rfl | late
        · simp_all
        · obtain ⟨n, rfl⟩ := Nat.exists_eq_add_of_le (Nat.succ_le_of_lt late)
          have place : i + 1 + n - i = n + 1 := by omega
          rw [place] at here refused
          refine ⟨e, by omega, by simpa using here, by simpa using refused, fun q x early at_q => ?_⟩
          simpa using first (q + 1) x (by omega) (by simpa using at_q)

/-! ## The checks by member (R22, R165) -/

/-- Check 1 refuses a member for its tag, its length, or a tag that an earlier member has. -/
def invalidMember (before : List DescriptorMember) (d : DescriptorMember) : Bool :=
  !validTag d.member.tag || !validLength d.member.length || (before.map (·.member.tag)).contains d.member.tag

theorem firstInvalid_eq (l : List DescriptorMember) :
    ∀ (i : Nat) (earlier : List Nat) (before : List DescriptorMember),
    (∀ t, t ∈ earlier ↔ t ∈ before.map (·.member.tag)) →
      firstInvalid i earlier l = firstRefused invalidMember i before l := by
  induction l with
  | nil => intros; rfl
  | cons d rest ih =>
    intro i earlier before same
    have seen : earlier.contains d.member.tag = (before.map (·.member.tag)).contains d.member.tag := by
      rw [Bool.eq_iff_iff, List.contains_iff_mem, List.contains_iff_mem]
      exact same _
    unfold firstInvalid firstRefused invalidMember
    rw [seen, ih (i + 1) (d.member.tag :: earlier) (before ++ [d])
      (fun t => by rw [List.mem_cons, same, List.map_append, List.mem_append, or_comm]; simp)]
    rfl

theorem invalidMember_eq_true_iff (before : List DescriptorMember) (d : DescriptorMember) :
    invalidMember before d = true ↔ d.member.tag < 1 ∨ 65534 < d.member.tag ∨ 1024 < d.member.length ∨
      d.member.tag ∈ before.map (·.member.tag) := by
  simp only [invalidMember, validTag, validLength, Config.lastTag, Config.slotBytes, Bool.or_eq_true,
    Bool.not_eq_true', Bool.and_eq_false_iff, decide_eq_false_iff_not, List.contains_iff_mem, Nat.not_le]
  tauto

theorem State.firstProtected_eq (s : State) (l : List DescriptorMember) :
    ∀ (i : Nat) (before : List DescriptorMember), s.firstProtected i l =
      firstRefused (fun _ d => s.protectionRefuses d.member.tag d.replace) i before l := by
  induction l with
  | nil => intros; rfl
  | cons d rest ih =>
    intro i before
    unfold State.firstProtected firstRefused
    rw [ih (i + 1) (before ++ [d])]

/-- The members of a list that need a reservation. -/
def State.reservationsIn (s : State) (l : List DescriptorMember) : Nat :=
  l.countP fun e => s.needsReservation e.member.tag

/-- Check 5 refuses a member that needs a reservation where none is left, `used` being taken at the start. -/
def State.overMember (s : State) (used : Nat) (before : List DescriptorMember) (d : DescriptorMember) : Bool :=
  s.needsReservation d.member.tag && decide (1024 < used + s.reservationsIn before + 1)

theorem State.firstOver_eq (s : State) (used : Nat) (l : List DescriptorMember) :
    ∀ (i : Nat) (before : List DescriptorMember),
    s.firstOver (used + s.reservationsIn before) i l = firstRefused (s.overMember used) i before l := by
  induction l with
  | nil => intros; rfl
  | cons d rest ih =>
    intro i before
    have step := ih (i + 1) (before ++ [d])
    unfold State.firstOver firstRefused
    by_cases needs : s.needsReservation d.member.tag = true
    · have more : s.reservationsIn (before ++ [d]) = s.reservationsIn before + 1 := by
        simp [State.reservationsIn, needs]
      rw [more, ← Nat.add_assoc] at step
      rw [step]
      simp [State.overMember, Config.indexCapacity, needs]
    · have same : s.reservationsIn (before ++ [d]) = s.reservationsIn before := by
        simp [State.reservationsIn, needs]
      rw [same] at step
      rw [step]
      simp [State.overMember, needs]

theorem State.overMember_eq_true_iff (s : State) (used : Nat) (before : List DescriptorMember)
    (d : DescriptorMember) : s.overMember used before d = true ↔
      s.needsReservation d.member.tag = true ∧ 1024 < used + s.reservationsIn before + 1 := by
  simp [State.overMember]

/-- Check 5 passes exactly when all reservations fit. -/
theorem State.firstOver_eq_none_iff (s : State) (l : List DescriptorMember) : ∀ (used i : Nat), used ≤ 1024 →
    (s.firstOver used i l = none ↔ used + s.reservationsIn l ≤ 1024) := by
  induction l with
  | nil => intro used i fits; simpa [State.firstOver, State.reservationsIn] using fits
  | cons d rest ih =>
    intro used i fits
    unfold State.firstOver Config.indexCapacity
    by_cases needs : s.needsReservation d.member.tag = true
    · have count : s.reservationsIn (d :: rest) = s.reservationsIn rest + 1 := by
        simp [State.reservationsIn, needs]
      rw [if_pos needs, count]
      split
      · next full => simp only [reduceCtorEq, false_iff]; omega
      · next room => rw [ih (used + 1) (i + 1) (by omega)]; omega
    · have count : s.reservationsIn (d :: rest) = s.reservationsIn rest := by
        simp [State.reservationsIn, needs]
      rw [if_neg needs, count, ih used (i + 1) fits]

theorem State.needsReservation_eq_true_iff (s : State) (tag : Nat) :
    s.needsReservation tag = true ↔
      s.lookup tag = none ∧ ∀ e ∈ s.staging.pwl, e.kind = .write → e.tag ≠ tag := by
  simp only [State.needsReservation, State.hasWrite, Bool.and_eq_true, Option.isNone_iff_eq_none,
    Bool.not_eq_true', List.any_eq_false, beq_iff_eq]
  exact and_congr_right fun _ => ⟨fun h e m k t => h e m ⟨t, k⟩, fun h e m k => h e m k.2 k.1⟩

/-- Settles O20: each check by member is `firstRefused` of what it refuses. -/
theorem bundleChecksNameTheFirstMember : Obligations.BundleChecksNameTheFirstMember := by
  intro s ms p
  refine ⟨?_, ?_, fun d => s.needsReservation_eq_true_iff _, fun used => ⟨?_, fun fits => ?_⟩⟩
  · rw [firstInvalid_eq ms 1 [] [] (by simp), firstRefused_eq_some_iff]
    simp only [List.nil_append, ← Bool.not_eq_true, invalidMember_eq_true_iff, not_or, Nat.not_lt]
  · rw [s.firstProtected_eq ms 1 [], firstRefused_eq_some_iff]
    simp only [State.protectionRefuses, Bool.and_eq_true, Bool.not_eq_true', Bool.and_eq_false_iff,
      Bool.not_eq_false', and_assoc]
  · have counted := s.firstOver_eq used ms 1 []
    rw [show used + s.reservationsIn [] = used from rfl] at counted
    rw [counted, firstRefused_eq_some_iff]
    simp only [List.nil_append, ← Bool.not_eq_true, State.overMember_eq_true_iff, State.reservationsIn, not_and,
      Nat.not_lt, and_assoc]
  · simpa only [List.take_length, State.reservationsIn] using s.firstOver_eq_none_iff ms used 1 fits

end Sys2Proof.Machine
end

section
/-! SUPPORT. A DATA write in RECEIVING (R154, R155, R165, R166): the word taken, the outcomes of the bundle's checks in
their order, and the reservation of a command that has passed its checks. -/

-- One theorem at a time: many short ones that wait at once take a thread each.
set_option Elab.async false

namespace Sys2Proof.Machine

/-! ## The word taken (R154, R155, R156) -/

theorem exec_dataWrite {s : State} (on : s.power = .on) (word : Word) :
    exec (.dataWrite word) s = .next (s.dataWrite word).finish :=
  State.run_of_on on fun t => t.dataWrite word

theorem State.dataWrite_of_payload {s : State} {w : Work} {slots : List Nat} {i : Nat}
    (receiving : s.port.state = .receiving) (activity : s.port.activity = .payload w slots i) (word : Word) :
    s.dataWrite word = s.takePayloadWord w slots i word := by
  unfold State.dataWrite
  rw [if_pos receiving, activity]

theorem State.dataWrite_of_descriptor {s : State} {n : Nat} {through : Bool}
    (receiving : s.port.state = .receiving) (activity : s.port.activity = .descriptor n through) (word : Word) :
    s.dataWrite word = s.takeDescriptorWord n through word := by
  unfold State.dataWrite
  rw [if_pos receiving, activity]

/-- A payload word that is not the last. -/
theorem State.takePayloadWord_of_two_le {s : State} (h : 2 ≤ s.port.residue) (w : Work) (slots : List Nat) (i : Nat)
    (word : Word) :
    s.takePayloadWord w slots i word = { s with
      port := { s.port with residue := s.port.residue - 1, dataTimer := some s.window.options.dataTimeout }
      staging := { s.staging with slots := (s.staging.slots.modify (slots.getD i 0) fun x =>
          x.writeWord (w.lengthOf i) (wordsFor (w.lengthOf i) - s.port.residue) word) } } := by
  unfold State.takePayloadWord
  exact if_neg (by omega)

/-- A descriptor word that is not the last. -/
theorem State.takeDescriptorWord_of_two_le {s : State} (h : 2 ≤ s.port.residue) (n : Nat) (through : Bool)
    (word : Word) :
    s.takeDescriptorWord n through word = { s with
      port := { s.port with residue := s.port.residue - 1, dataTimer := some s.window.options.dataTimeout }
      window := { s.window with frame := s.window.frame.set (3 * n - s.port.residue) word } } := by
  unfold State.takeDescriptorWord
  exact if_neg (by omega)

/-- The state in which the bundle's checks run: the last descriptor word stands in the frame, and the port has returned
to EXECUTING. -/
def State.checking (s : State) (n : Nat) (word : Word) : State :=
  { s with
    window := { s.window with frame := s.window.frame.set (3 * n - 1) word }
    port := { s.port with state := .executing, residue := 0, dataTimer := none } }

/-- The last descriptor word is followed by the bundle's checks in the same step. -/
theorem exec_dataWrite_lastDescriptor {s : State} {n : Nat} {through : Bool} (on : s.power = .on)
    (receiving : s.port.state = .receiving) (last : s.port.residue = 1)
    (activity : s.port.activity = .descriptor n through) (word : Word) :
    exec (.dataWrite word) s = .next ((s.checking n word).bundleChecks n through).finish := by
  rw [exec_dataWrite on, State.dataWrite_of_descriptor receiving activity]
  unfold State.takeDescriptorWord
  rw [last, if_pos le_rfl]
  rfl

/-! ## The bundle's checks, each with those before it passed (R165) -/

section
variable {s : State} {n : Nat} {through : Bool}

theorem State.bundleChecks_invalid {p : Nat} (h : firstInvalid 1 [] (s.descriptor n) = some p) :
    s.bundleChecks n through = s.endCommand .badParameter p := by
  simp only [State.bundleChecks, h]

theorem State.bundleChecks_readOnly (h1 : firstInvalid 1 [] (s.descriptor n) = none) (h2 : s.readOnly = true) :
    s.bundleChecks n through = s.endCommand .readOnly 0 := by
  simp only [State.bundleChecks, h1, h2, if_true]

theorem State.bundleChecks_full (h1 : firstInvalid 1 [] (s.descriptor n) = none) (h2 : s.readOnly = false)
    (h3 : s.space.state = .full) : s.bundleChecks n through = s.endCommand .storeFull 0 := by
  simp [State.bundleChecks, h1, h2, h3]

theorem State.bundleChecks_protected {p : Nat} (h1 : firstInvalid 1 [] (s.descriptor n) = none)
    (h2 : s.readOnly = false) (h3 : s.space.state ≠ .full)
    (h4 : s.firstProtected 1 (s.descriptor n) = some p) :
    s.bundleChecks n through = s.endCommand .tagProtected p := by
  simp [State.bundleChecks, h1, h2, h3, h4]

theorem State.bundleChecks_full_index {p : Nat} (h1 : firstInvalid 1 [] (s.descriptor n) = none)
    (h2 : s.readOnly = false) (h3 : s.space.state ≠ .full)
    (h4 : s.firstProtected 1 (s.descriptor n) = none)
    (h5 : s.firstOver s.indexUse 1 (s.descriptor n) = some p) :
    s.bundleChecks n through = s.endCommand .indexFull p := by
  simp [State.bundleChecks, h1, h2, h3, h4, h5]

theorem State.bundleChecks_passed (h1 : firstInvalid 1 [] (s.descriptor n) = none)
    (h2 : s.readOnly = false) (h3 : s.space.state ≠ .full)
    (h4 : s.firstProtected 1 (s.descriptor n) = none)
    (h5 : s.firstOver s.indexUse 1 (s.descriptor n) = none) :
    s.bundleChecks n through = s.bundleAccepted (s.descriptor n) through := by
  simp [State.bundleChecks, h1, h2, h3, h4, h5]

end

theorem State.length_descriptor (s : State) (n : Nat) : (s.descriptor n).length = n := by
  simp [State.descriptor]

/-! ## The reservation (R39, R50, R51, R166) -/

/-- With too few slots FREE a command waits in EXECUTING, or ends with the halt's code. -/
theorem State.enterReserve_waits {s : State} {w : Work} (pfw : s.pfw = false)
    (h : (freeSlots s.staging.slots).length < w.members.length) :
    s.enterReserve w = match s.commit.state with
      | .halted r => s.completedAs r.code 0
      | .idle | .running | .waiting => { s with port :=
          ⟨.executing, .slotWait w, 0, s.port.result, s.port.detail, none⟩ } := by
  unfold State.enterReserve Work.slotsNeeded
  rw [if_neg (Nat.not_le.mpr h)]
  cases s.commit.state with
  | halted r => exact State.endCommand_eq pfw _ _
  | _ => rfl

/-- With slots enough the lowest FREE ones are reserved, and the command goes on with its first payload. -/
theorem State.enterReserve_payload {s : State} {w : Work} {j : Nat} {m : Member}
    (h : w.members.length ≤ (freeSlots s.staging.slots).length) (hj : w.members[j]? = some m) (hm : 0 < m.length)
    (empty : ∀ (i : Nat) (x : Member), i < j → w.members[i]? = some x → x.length = 0) :
    s.enterReserve w = { s with
      port := ⟨.receiving, .payload w ((freeSlots s.staging.slots).take w.members.length) j, (m.length + 1) / 2,
        s.port.result, s.port.detail, some s.window.options.dataTimeout⟩
      causes := { s.causes with data := true }
      staging := { s.staging with slots := (setSlots s.staging.slots
          ((freeSlots s.staging.slots).take w.members.length) .reserved) } } := by
  have first : nextPayload w.members 0 = some j :=
    nextPayload_some hj hm (Nat.zero_le j) fun a x _ early => empty a x early
  have length : w.lengthOf j = m.length := by simp only [Work.lengthOf, hj]
  unfold State.enterReserve State.reserveAndProceed State.proceed Work.slotsNeeded
  rw [if_pos h]
  simp only [first]
  unfold State.enterPayload
  rw [length]
  rfl

/-- An append in the same step as the reservation, when no member has a payload. -/
theorem State.enterReserve_appends {s : State} {w : Work}
    (h : w.members.length ≤ (freeSlots s.staging.slots).length) (empty : ∀ m ∈ w.members, m.length = 0) :
    s.enterReserve w =
      ((s.reserveSlots ((freeSlots s.staging.slots).take w.members.length)).appendWork w
        ((freeSlots s.staging.slots).take w.members.length)).completeAppend w
          ((freeSlots s.staging.slots).take w.members.length) := by
  have none_left : nextPayload w.members 0 = none :=
    nextPayload_none fun a x _ here => empty x (List.mem_of_getElem? here)
  unfold State.enterReserve State.reserveAndProceed State.proceed Work.slotsNeeded
  rw [if_pos h]
  simp only [none_left]

/-- A bundle appends all its members together (R46). -/
theorem State.appendWork_bundle (s : State) {w : Work} {identifier : Nat} (h : w.kind = .bundle identifier)
    (slots : List Nat) :
    s.appendWork w slots = { s with staging := s.staging.append (w.bundleAppend identifier slots) } := by
  unfold State.appendWork
  rw [h, ← Work.bundleEntries_bundleAppend]

/-- A command at its append ends, or waits, as `atAppend` says, whatever its activity was (R56). -/
theorem State.completeAppend_eq {s : State} (pfw : s.pfw = false) (w : Work) (slots : List Nat) :
    s.completeAppend w slots = s.atAppend w.through slots := by
  unfold State.completeAppend State.atAppend
  by_cases back : w.through = false ∧ s.window.options.writeBack ≠ 0
  · rw [if_pos back, if_neg (by simp [back.1, back.2]), State.endCommand_eq pfw]
  · rw [if_neg back, if_pos (by simpa [Bool.or_eq_true, or_iff_not_imp_left] using back)]
    cases s.commit.state with
    | halted r => exact State.endCommand_eq pfw _ _
    | _ => rfl

/-- The next identifier of the rotation named (R13). -/
def State.rotated (s : State) : State :=
  { s with window := { s.window with nextBundle := nextIdentifier s.window.nextBundle } }

/-- A bundle that has passed its checks takes its identifier and goes on to its reservation. -/
theorem State.bundleAccepted_eq (s : State) (members : List DescriptorMember) (through : Bool) :
    s.bundleAccepted members through =
      s.rotated.enterReserve ⟨.bundle s.window.nextBundle, members.map (·.member), through⟩ := rfl

/-- The checks by member read the store, which the word leaves as it was. -/
theorem State.firstProtected_checking (s : State) (n : Nat) (word : Word) (l : List DescriptorMember) :
    (s.checking n word).firstProtected 1 l = s.firstProtected 1 l := by
  rw [State.firstProtected_eq _ l 1 [], State.firstProtected_eq _ l 1 []]
  rfl

theorem State.firstOver_checking (s : State) (n : Nat) (word : Word) (used : Nat) (l : List DescriptorMember) :
    (s.checking n word).firstOver used 1 l = s.firstOver used 1 l :=
  ((s.checking n word).firstOver_eq used l 1 []).trans (s.firstOver_eq used l 1 []).symm

/-- With PFW# deasserted a check that fails ends the command in the same step. -/
theorem State.endCommand_checking {s : State} (pfw : s.pfw = false) (n : Nat) (word : Word) (code : ResultCode)
    (detail : Nat) : (s.checking n word).endCommand code detail =
      ({ s with window := { s.window with frame := s.window.frame.set (3 * n - 1) word } } : State).completedAs
        code detail := State.endCommand_eq (s := s.checking n word) pfw code detail

/-- Settles O29: each word taken by its own rule, and the last descriptor word by the first check that fails or, when
none does, by the reservation. -/
theorem dataWriteTakesAWord : Obligations.DataWriteTakesAWord := by
  intro word s on receiving
  refine ⟨fun more => ⟨fun w slots i activity => ?_, fun n through activity => ?_⟩,
    fun n through last pfw activity => ?_⟩
  · rw [exec_dataWrite on, State.dataWrite_of_payload receiving activity, State.takePayloadWord_of_two_le more]
    rfl
  · rw [exec_dataWrite on, State.dataWrite_of_descriptor receiving activity, State.takeDescriptorWord_of_two_le more]
  · intro filled members endsWith
    have checks := exec_dataWrite_lastDescriptor on receiving last activity word
    have ended (code : ResultCode) (detail : Nat)
        (h : (s.checking n word).bundleChecks n through = (s.checking n word).endCommand code detail) :
        endsWith code detail := by
      rw [h, State.endCommand_checking pfw] at checks
      exact checks
    have members_eq : (s.checking n word).descriptor n = members := rfl
    refine ⟨fun p invalid => ended _ _ (State.bundleChecks_invalid invalid), fun valid => ⟨fun readOnly => ?_,
      fun writable full => ?_, fun writable room => ⟨fun p guarded => ?_, fun unguarded => ?_⟩⟩⟩
    · exact ended _ _ (State.bundleChecks_readOnly valid readOnly)
    · exact ended _ _ (State.bundleChecks_full valid writable full)
    · rw [← s.firstProtected_checking n word] at guarded
      exact ended _ _ (State.bundleChecks_protected valid writable room guarded)
    · rw [← s.firstProtected_checking n word] at unguarded
      refine ⟨fun p beyond => ?_, fun fits => ?_⟩
      · rw [← s.firstOver_checking n word] at beyond
        exact ended _ _ (State.bundleChecks_full_index valid writable room unguarded beyond)
      · intro w named slotsFree slots reserved
        rw [← s.firstOver_checking n word] at fits
        have length : w.members.length = n := by rw [List.length_map, State.length_descriptor]
        have accepted : exec (.dataWrite word) s = .next ((s.checking n word).rotated.enterReserve w).finish := by
          rw [checks, State.bundleChecks_passed (s := s.checking n word) valid writable room unguarded fits,
            members_eq, State.bundleAccepted_eq]
          rfl
        refine ⟨fun few => ?_, fun enough => ⟨fun j d here nonempty before => ?_, fun empty => ?_⟩⟩
        · rw [accepted, State.enterReserve_waits (by exact pfw) (length.symm ▸ few)]
          rfl
        · have at_j : w.members[j]? = some d.member := by simp [w, here]
          have empty_before (i : Nat) (x : Member) (early : i < j) (at_i : w.members[i]? = some x) : x.length = 0 := by
            obtain ⟨e, at_e, rfl⟩ := Option.map_eq_some_iff.mp ((List.getElem?_map ..).symm.trans at_i)
            exact before i e early at_e
          rw [accepted, State.enterReserve_payload (length.symm ▸ enough) at_j nonempty empty_before, length]
          rfl
        · have all_empty : ∀ m ∈ w.members, m.length = 0 := by
            intro m hm
            obtain ⟨d, hd, rfl⟩ := List.mem_map.mp hm
            exact empty d hd
          rw [accepted, State.enterReserve_appends (length.symm ▸ enough) all_empty, length,
            State.appendWork_bundle _ rfl, State.completeAppend_eq (by exact pfw)]
          rfl

end Sys2Proof.Machine
end

section
/-! SUPPORT. The stored formats read back (R1, R4, R59, R125, R188): the fields of a record header and of each slot, the
findings over them, and a record after its program. -/

-- One theorem at a time: many short ones that wait at once take a thread each.
set_option Elab.async false

namespace Sys2Proof.Machine

/-! ## What no erased string holds -/

/-- A string with a zero byte is not blank. -/
theorem not_blank_of_zero_mem {l : List Byte} (h : 0#8 ∈ l) : l.all (· == erasedByte) = false := by
  rw [List.all_eq_false]
  exact ⟨0#8, h, by decide⟩

theorem zero_mem_leBytes_zero (n : Nat) : 0#8 ∈ leBytes (n + 1) 0 := by simp [leBytes]

/-! ## A record header (R4, R188) -/

theorem kindOfByte_byte (k : RecordKind) : kindOfByte k.byte = some k := by cases k <;> rfl

theorem RecordKind.byte_lt (k : RecordKind) : k.byte < 256 := by cases k <;> decide

/-- The fields of a record header, each as it stands modulo its width. -/
theorem field_recordHeader (r : Record) :
    field (recordHeader r) 0 1 = r.kind.byte ∧ field (recordHeader r) 1 1 = (if r.protect then 1 else 0) ∧
    field (recordHeader r) 2 2 = r.tag % 65536 ∧ field (recordHeader r) 4 4 = r.sequence % 4294967296 ∧
    field (recordHeader r) 8 2 = r.length % 65536 ∧ field (recordHeader r) 10 1 = r.bundle % 256 ∧
    field (recordHeader r) 11 1 = (r.position.getD (0, 0)).1 % 256 ∧
    field (recordHeader r) 12 1 = (r.position.getD (0, 0)).2 % 256 ∧ field (recordHeader r) 13 3 = 0 ∧
    field (recordHeader r) 16 4 = r.prior % 4294967296 ∧ field (recordHeader r) 20 10 = 0 ∧
    field (recordHeader r) 30 2 = (crc16 (headerFields r)).toNat := by
  have kind := Nat.mod_eq_of_lt r.kind.byte_lt
  have check := Nat.mod_eq_of_lt (crc16 (headerFields r)).isLt
  have protect : (if r.protect then 1 else 0) % 256 = if r.protect then 1 else 0 := by cases r.protect <;> rfl
  rw [recordHeader_fields]
  simp (disch := decide) only [field_skip, Nat.reduceSub, field_hit, field_last, Nat.reducePow, Nat.zero_mod,
    Nat.pow_one, kind, protect, true_and]
  exact check

theorem not_blank_recordHeader (r : Record) : (recordHeader r).all (· == erasedByte) = false := by
  apply not_blank_of_zero_mem
  rw [recordHeader_fields]
  simp only [List.mem_append, zero_mem_leBytes_zero, true_or, or_true]

/-- The fields of a storable record's header give the record, but for its payload. -/
theorem headerRecord_recordHeader {r : Record} (h : r.storable) :
    headerRecord (recordHeader r) r.kind = { r with payload := [] } := by
  obtain ⟨-, tag, -, sequence, -, length, data, marker, place⟩ := h
  obtain ⟨-, f1, f2, f4, f8, f10, f11, f12, -, f16, -⟩ := field_recordHeader r
  have prior : r.prior < 4294967296 := by
    by_cases k : r.kind = .data
    · simp [data k]
    · have := (marker k).2.2.2.2
      omega
  unfold headerRecord
  rw [f1, f2, f4, f8, f10, f11, f12, f16, Nat.mod_eq_of_lt (by omega : r.tag < 65536),
    Nat.mod_eq_of_lt (by omega : r.sequence < 4294967296), Nat.mod_eq_of_lt (by omega : r.length < 65536),
    Nat.mod_eq_of_lt prior]
  obtain ⟨kind, tag, sequence, length, protect, bundle, position, prior, payload⟩ := r
  have protected_bit : ((if protect then 1 else 0) % 2 == 1) = protect := by cases protect <;> rfl
  cases position with
  | none =>
    have alone : bundle = 0 := place
    simp [alone, protected_bit]
  | some at_place =>
    obtain ⟨i, n⟩ := at_place
    obtain ⟨low, high, -, count, -, member⟩ : 1 ≤ bundle ∧ bundle ≤ 255 ∧ 2 ≤ n ∧ n ≤ 8 ∧ 1 ≤ i ∧ i ≤ n := place
    simp only [Option.getD_some, Nat.mod_eq_of_lt (by omega : bundle < 256),
      Nat.mod_eq_of_lt (by omega : i < 256), Nat.mod_eq_of_lt (by omega : n < 256), protected_bit]
    rw [if_neg (by omega)]

/-- A storable record's fields meet the conditions of R4 that depend on its kind. -/
theorem Record.kindFieldsValid_of_storable {r : Record} (h : r.storable) : kindFieldsValid r = true := by
  obtain ⟨-, -, -, -, -, length, data, marker, -⟩ := h
  unfold kindFieldsValid
  cases kind : r.kind with
  | data => simp [length, data kind]
  | tombstone => simpa [and_assoc] using marker (by simp [kind])
  | loss => simpa [and_assoc] using marker (by simp [kind])

/-- A storable record's position fields agree with its bundle identifier (R4). -/
theorem Record.positionValid_of_storable {r : Record} (h : r.storable) :
    positionValid r.bundle ((r.position.getD (0, 0)).1 % 256) ((r.position.getD (0, 0)).2 % 256) = true := by
  obtain ⟨-, -, -, -, -, -, -, -, place⟩ := h
  cases position : r.position with
  | none =>
    rw [position] at place
    simp [positionValid, show r.bundle = 0 from place]
  | some at_place =>
    obtain ⟨i, n⟩ := at_place
    rw [position] at place
    obtain ⟨low, high, two, count, first, member⟩ :
      1 ≤ r.bundle ∧ r.bundle ≤ 255 ∧ 2 ≤ n ∧ n ≤ 8 ∧ 1 ≤ i ∧ i ≤ n := place
    simp [positionValid, Nat.mod_eq_of_lt (by omega : i < 256), Nat.mod_eq_of_lt (by omega : n < 256), low, two, count,
      first, member]

/-- A storable record's header finds the record, but for its payload. -/
theorem headerFinding_recordHeader {r : Record} (h : r.storable) :
    headerFinding (recordHeader r) = .valid { r with payload := [] } := by
  obtain ⟨f0, f1, -, -, -, -, f11, f12, f13, -, f20, f30⟩ := field_recordHeader r
  have attributes : (if r.protect then 1 else 0) < 2 := by split <;> decide
  have fields : kindFieldsValid { r with payload := [] } = true := by
    rw [← Record.kindFieldsValid_of_storable h]
    rfl
  have zeros : leValue (((recordHeader r).drop 20).take 10) = 0 := f20
  have place := Record.positionValid_of_storable h
  have given := headerRecord_recordHeader h
  obtain ⟨tag1, tag2, sequence1, sequence2, -⟩ := h
  unfold headerFinding
  rw [if_neg (by simp [not_blank_recordHeader]), f0, kindOfByte_byte]
  dsimp only
  rw [given, f30, recordHeader_take, f11, f12, f1, f13, zeros]
  simp only [beq_self_eq_true, place, attributes, tag1, tag2, sequence1, sequence2, decide_true, Bool.and_true, fields,
    if_true]

/-! ## A record on the medium (R121) -/

/-- What stands at a record's place after its program: its header, its payload, its payload check. -/
theorem Op.readBytes_recordProgram_parts {m : List Host.Cell} (wf : Memory.wf m = true) (segment page : Nat)
    (r : Record) :
    Memory.readBytes (Op.complete m (.recordProgram segment page r)) (mediumAddress segment page 0) 32 =
      recordHeader r ∧
    Memory.readBytes (Op.complete m (.recordProgram segment page r)) (mediumAddress segment page 0 + 32)
      r.payload.length = r.payload ∧
    Memory.readBytes (Op.complete m (.recordProgram segment page r))
      (mediumAddress segment page 0 + 32 + r.payload.length) 4 =
        leBytes 4 (crc32 (recordHeader r ++ r.payload)).toNat := by
  have whole := Op.readBytes_recordProgram wf segment page r
  have length : (recordBytes r).length = 32 + (r.payload.length + 4) := by
    rw [length_recordBytes]
    omega
  rw [length, Memory.readBytes_add, Memory.readBytes_add, recordBytes, recordBody] at whole
  obtain ⟨header, body⟩ := List.append_inj whole (by simp [Memory.length_readBytes])
  obtain ⟨payload, check⟩ := List.append_inj body (by simp [Memory.length_readBytes])
  exact ⟨header, payload, check⟩

/-- An attempt without noise reads the medium as it stands. -/
theorem readView_nil (m : List Host.Cell) (base : Nat) : readView m base [] = m := rfl

/-- The header position of a programmed record finds it. -/
theorem readRecordHeader_recordProgram {m : List Host.Cell} (wf : Memory.wf m = true) (segment page : Nat)
    {r : Record} (h : r.storable) :
    readRecordHeader (Op.complete m (.recordProgram segment page r)) segment page [] =
      .valid { r with payload := [] } := by
  obtain ⟨header, -, -⟩ := Op.readBytes_recordProgram_parts wf segment page r
  unfold readRecordHeader
  rw [readView_nil, header, headerFinding_recordHeader h]

/-- The pages of a record hold its header, its payload and its check (R3). -/
theorem le_pagesFor (n : Nat) : 36 + n ≤ pagesFor n * 256 := by
  unfold pagesFor
  omega

/-- A programmed record is read back whole. -/
theorem readRecord_recordProgram {m : List Host.Cell} (wf : Memory.wf m = true) (segment page : Nat)
    {r : Record} (h : r.storable) :
    readRecord (Op.complete m (.recordProgram segment page r)) segment page (pagesFor r.length) r.tag r.sequence [] =
      some r := by
  obtain ⟨header, payload, check⟩ := Op.readBytes_recordProgram_parts wf segment page r
  have length : r.length = r.payload.length := h.2.2.2.2.1
  have fits := le_pagesFor r.length
  have value : (crc32 (recordHeader r ++ r.payload)).toNat % 256 ^ 4 = (crc32 (recordHeader r ++ r.payload)).toNat :=
    Nat.mod_eq_of_lt (crc32 _).isLt
  unfold readRecord
  simp only [readView_nil, header, headerFinding_recordHeader h]
  rw [if_pos (by simpa using fits), length, payload, check, leValue_leBytes, if_pos value,
    ← length]

/-! ## The slots of a segment header (R59) -/

/-- A slot whose fields hold a zero byte finds the value that they give. -/
theorem slotFinding_slotBytes {α : Type} {segment : Nat} {c : SlotContent} {v : α}
    (zero : 0#8 ∈ slotFields segment c) : slotFinding (slotBytes segment c) (some v) = .valid v := by
  have check : field (slotBytes segment c) 14 2 = (crc16 (slotFields segment c)).toNat := by
    unfold field slotBytes
    rw [List.drop_append_of_le_length (by simp), List.drop_eq_nil_of_le (by simp), List.nil_append,
      List.take_of_length_le (by simp), leValue_leBytes]
    exact Nat.mod_eq_of_lt (crc16 _).isLt
  have written : (slotBytes segment c).all (· == erasedByte) = false :=
    not_blank_of_zero_mem (by simp [slotBytes, zero])
  unfold slotFinding
  rw [if_neg (by simp [written]), slotBytes_take, if_pos (by simp [check])]

theorem formattedFinding_slotBytes {segment count : Nat} (h : count ≤ 100000) :
    formattedFinding (slotBytes segment (.formatted count)) = .valid count := by
  have fields : slotBytes segment (.formatted count) = leBytes 4 Config.formatId ++ (leBytes 4 count ++ (leBytes 6 0 ++
      leBytes 2 (crc16 (slotFields segment (.formatted count))).toNat)) := by simp [slotBytes, slotFields]
  have identifier : field (slotBytes segment (.formatted count)) 0 4 = Config.formatId := by
    rw [fields, field_hit]
    rfl
  have value : field (slotBytes segment (.formatted count)) 4 4 = count := by
    rw [fields, field_skip _ _ _ _ _ (by decide), field_hit]
    exact Nat.mod_eq_of_lt (by omega)
  have zeros : field (slotBytes segment (.formatted count)) 8 6 = 0 := by
    simp (disch := decide) only [fields, field_skip, Nat.reduceSub, field_hit, Nat.zero_mod]
  unfold formattedFinding
  rw [identifier, value, zeros, if_pos (by simpa using h)]
  exact slotFinding_slotBytes (by simp [slotFields, zero_mem_leBytes_zero])

theorem openedFinding_slotBytes {segment sequence : Nat} (hs : segment < 128) (low : 1 ≤ sequence)
    (high : sequence ≤ 4294967294) :
    openedFinding (slotBytes segment (.opened sequence)) = .valid (sequence, segment) := by
  have fields : slotBytes segment (.opened sequence) = leBytes 4 sequence ++ (leBytes 1 segment ++ (leBytes 9 0 ++
      leBytes 2 (crc16 (slotFields segment (.opened sequence))).toNat)) := by simp [slotBytes, slotFields]
  have value : field (slotBytes segment (.opened sequence)) 0 4 = sequence := by
    rw [fields, field_hit]
    exact Nat.mod_eq_of_lt (by omega)
  have number : field (slotBytes segment (.opened sequence)) 4 1 = segment := by
    rw [fields, field_skip _ _ _ _ _ (by decide), field_hit]
    exact Nat.mod_eq_of_lt (by omega)
  have zeros : field (slotBytes segment (.opened sequence)) 5 9 = 0 := by
    simp (disch := decide) only [fields, field_skip, Nat.reduceSub, field_hit, Nat.zero_mod]
  unfold openedFinding
  rw [value, number, zeros, if_pos (by simp [low, high, hs])]
  exact slotFinding_slotBytes (by simp [slotFields, zero_mem_leBytes_zero])

theorem reasonOfByte_byte (r : RetireReason) : reasonOfByte r.byte = some r := by cases r <;> rfl

theorem retiredFinding_slotBytes (segment : Nat) (r : RetireReason) :
    retiredFinding (slotBytes segment (.retired r)) = .valid r := by
  have fields : slotBytes segment (.retired r) = leBytes 1 r.byte ++ (leBytes 13 0 ++
      leBytes 2 (crc16 (slotFields segment (.retired r))).toNat) := by simp [slotBytes, slotFields]
  have value : field (slotBytes segment (.retired r)) 0 1 = r.byte := by
    rw [fields, field_hit]
    cases r <;> rfl
  have zeros : field (slotBytes segment (.retired r)) 1 13 = 0 := by
    simp (disch := decide) only [fields, field_skip, Nat.reduceSub, field_hit, Nat.zero_mod]
  unfold retiredFinding
  rw [value, zeros, if_pos (by decide), reasonOfByte_byte]
  exact slotFinding_slotBytes (by simp [slotFields, zero_mem_leBytes_zero])

/-- Settles O55: a programmed record is read back whole and found, and each slot finds what was programmed. -/
theorem storedFormatsReadBack : Obligations.StoredFormatsReadBack :=
  ⟨fun _ segment page _ wf h =>
      ⟨readRecord_recordProgram wf segment page h, readRecordHeader_recordProgram wf segment page h⟩,
    fun segment _ _ hs =>
      ⟨formattedFinding_slotBytes, openedFinding_slotBytes hs, retiredFinding_slotBytes segment⟩⟩

end Sys2Proof.Machine
end

section
/-! SUPPORT. The begin step of the Commit Engine (R29, R80, R81, R92): what each kind of head makes of it, and the events
and consequences that take it. -/

-- One theorem at a time: many short ones that wait at once take a thread each.
set_option Elab.async false

namespace Sys2Proof.Machine

/-! ## The unit at the head (R80, R81) -/

/-- The in-commit flag set on the first `n` entries of the list (R42). -/
def State.flagged (s : State) (n : Nat) : State :=
  { s with staging := { s.staging with pwl := flagHead n s.staging.pwl } }

theorem State.beginUnit_of_readOnly {s : State} (readOnly : s.readOnly = true) :
    s.beginUnit = s.enterHalt .readOnly := if_pos readOnly

section
variable {s : State} {e : PwlEntry} {rest : List PwlEntry} (writable : s.readOnly = false)
  (pwl : s.staging.pwl = e :: rest)
include writable pwl

/-- A WRITE at the head takes a number for each entry of its unit. -/
theorem State.beginUnit_of_write {n : Nat} (kind : e.kind = .write) (unit : (unitEntries s.staging.pwl).length = n) :
    s.beginUnit = (s.flagged n).holdNumbers n 0 := by
  unfold State.beginUnit State.flagged
  rw [if_neg (by simp [writable]), unit]
  simp only [pwl, kind]

/-- A DELETE at the head of a tag with a LIVE or LOST entry takes one number, the entry's sequence being its prior. -/
theorem State.beginUnit_of_delete {x : IndexEntry} (kind : e.kind = .delete) (alone : e.position = none)
    (found : s.lookup e.tag = some x) (standing : (∃ n p d, x.kind = .live n p d) ∨ ∃ prior, x.kind = .lost prior) :
    s.beginUnit = (s.flagged 1).holdNumbers 1 x.sequence := by
  have unit : (unitEntries s.staging.pwl).length = 1 := by simp [pwl, unitEntries, alone]
  have found_flagged (g : Staging) : ({ s with staging := g } : State).lookup e.tag = some x := found
  unfold State.beginUnit State.flagged
  rw [if_neg (by simp [writable]), unit]
  simp only [pwl, kind, found_flagged]
  obtain ⟨n, p, d, live⟩ | ⟨prior, lost⟩ := standing
  · simp only [live]
  · simp only [lost]

/-- A DELETE at the head of a tag without an entry or with a TOMBSTONE is discarded (R29, R81). -/
theorem State.beginUnit_of_idle_delete (kind : e.kind = .delete) (alone : e.position = none)
    (gone : s.lookup e.tag = none ∨ ∃ x prior, s.lookup e.tag = some x ∧ x.kind = .tombstone prior) :
    s.beginUnit = (s.flagged 1).discardDelete e := by
  have unit : (unitEntries s.staging.pwl).length = 1 := by simp [pwl, unitEntries, alone]
  have same (g : Staging) : ({ s with staging := g } : State).lookup e.tag = s.lookup e.tag := rfl
  unfold State.beginUnit State.flagged
  rw [if_neg (by simp [writable]), unit]
  simp only [pwl, kind, same]
  obtain missing | ⟨x, prior, found, tombstone⟩ := gone
  · simp only [missing]
  · simp only [found, tombstone]

end

/-- Entries that leave by their slot leave the same list whether the head carries its flag or not. -/
theorem Staging.removeEntries_flagged_head (g : Staging) (e : PwlEntry) (rest : List PwlEntry) (slot : Nat)
    (pwl : g.pwl = e :: rest) (at_slot : e.slot = slot) :
    ({ g with pwl := flagHead 1 g.pwl } : Staging).removeEntries (fun x => x.slot == slot) =
      g.removeEntries fun x => x.slot == slot := by
  unfold Staging.removeEntries
  simp [pwl, flagHead, at_slot]

/-- A discarded DELETE leaves the list, its slot FREE; the idle timer starts when the list empties in IDLE. -/
theorem State.discardDelete_flagged {s : State} {e : PwlEntry} {rest : List PwlEntry}
    (pwl : s.staging.pwl = e :: rest) :
    (s.flagged 1).discardDelete e = { s with
      staging := s.staging.removeEntries fun x => x.slot == e.slot
      commit := ⟨.running, none, 0⟩
      idle := if (s.staging.removeEntries fun x => x.slot == e.slot).pwl = [] ∧ s.port.state = .idle then
          { s.idle with
            running := if s.window.options.idleDelay = 0 then none else some s.window.options.idleDelay }
        else s.idle } := by
  have nonempty : (flagHead 1 s.staging.pwl).isEmpty = false := by simp [pwl, flagHead]
  have left := Staging.removeEntries_flagged_head s.staging e rest e.slot pwl rfl
  unfold State.discardDelete State.removeCommitted State.flagged State.startIdle
  simp only [left, nonempty, Bool.not_false, Bool.and_true]
  by_cases empties : (s.staging.removeEntries fun x => x.slot == e.slot).pwl = [] ∧ s.port.state = .idle
  · rw [if_pos empties, if_pos (by simpa using empties)]
  · rw [if_neg empties, if_neg (by simpa using empties)]

/-! ## The events that begin a unit -/

theorem State.awake.blocksRun {s : State} (h : s.awake) : s.blocksRun = true := by
  simp [State.blocksRun, h.1, h.2]

theorem commitBegin_eq {s : State} (free : s.commit.state = .idle ∨ s.commit.state = .running)
    (unit : s.commit.unit = none) (erasing : s.erasing = false) (staged : s.staging.pwl ≠ []) :
    commitBegin s = some s.beginUnit := if_pos ⟨free, unit, erasing, by simp [staged]⟩

theorem commitNext_eq {s : State} (running : s.commit.state = .running) (unit : s.commit.unit = none)
    (staged : s.staging.pwl ≠ []) : commitNext s = some s.beginUnit := by
  unfold commitNext
  rw [if_pos ⟨running, unit⟩, if_neg (by simpa using staged)]

theorem commitNext_empty {s : State} (running : s.commit.state = .running) (unit : s.commit.unit = none)
    (empty : s.staging.pwl = []) : commitNext s = some { s with commit := ⟨.idle, none, 0⟩ } := by
  unfold commitNext
  rw [if_pos ⟨running, unit⟩, if_pos (by simp [empty])]

theorem exec_commitBegin {s t : State} (awake : s.awake) (h : commitBegin s = some t) :
    exec .commitBegin s = .next t.finish := by
  refine (State.run_of_on awake.1 State.commitBeginEvent).trans ?_
  rw [State.commitBeginEvent, if_pos awake.blocksRun, h]
  rfl

theorem exec_commitHaltEnd {s t : State} (awake : s.awake) (h : commitHaltEnd s = some t) :
    exec .commitHaltEnd s = .next t.finish := by
  refine (State.run_of_on awake.1 State.haltEndEvent).trans ?_
  rw [State.haltEndEvent, if_pos awake.blocksRun, h]
  rfl

theorem mem_consequences : commitStart ∈ consequences ∧ commitNext ∈ consequences := by simp [consequences]

/-- At the end of a step COMMIT_BEGIN is due exactly when the engine is IDLE with entries staged (log 5). -/
theorem State.finish_commitDue (s : State) :
    s.finish.commitDue = true ↔ s.finish.commit.state = .idle ∧ s.finish.staging.pwl ≠ [] := by
  simp [State.finish, State.noteCommitDue, State.ageRequests]

/-- An engine that is due to begin does so before a step has no consequence left. -/
theorem staged_empty_of_settled {s : State} (awake : s.awake) (erasing : s.erasing = false) (due : s.commitDue = true)
    (settled : consequence s = none) (idle : s.commit.state = .idle) (unit : s.commit.unit = none) :
    s.staging.pwl = [] := by
  by_contra staged
  rw [consequence, if_pos awake.blocksRun] at settled
  have still := firstChange_none consequences s settled commitStart mem_consequences.1
  rw [commitStart, if_pos due, commitBegin_eq (.inl idle) unit erasing staged] at still
  cases still

/-- Settles O47: COMMIT_BEGIN and the end of a NO_SPACE halt both begin the unit at the head, from an engine that holds
none, and each kind of head is begun by its own rule. -/
theorem commitBeginsTheHead : Obligations.CommitBeginsTheHead := by
  refine ⟨?_, fun s => commitNext_empty, State.finish_commitDue, fun s => staged_empty_of_settled⟩
  intro c s e rest failures awake erasing waits pwl begins becomes takes
  have staged : s.staging.pwl ≠ [] := by simp [pwl]
  obtain ⟨state, begun⟩ : ∃ state : CommitState,
      becomes ({ s with commit := ⟨state, none, failures⟩ } : State).beginUnit := by
    obtain ⟨rfl, free, unit, rfl⟩ | ⟨rfl, halted, drained, room, rfl⟩ := begins
    · have same : ({ s with commit := ⟨s.commit.state, none, s.commit.failures⟩ } : State) = s := by
        rw [← unit]
      have at_head := commitBegin_eq free unit erasing staged
      refine ⟨s.commit.state, ?_⟩
      rw [same]
      exact ⟨exec_commitBegin awake at_head, fun _ due => ⟨(if_pos due).trans at_head, mem_consequences.1⟩,
        fun _ running => ⟨commitNext_eq running unit staged, mem_consequences.2⟩⟩
    · exact ⟨.running, exec_commitHaltEnd awake (if_pos ⟨halted, drained, room⟩), nofun, nofun⟩
  generalize u_eq : ({ s with commit := ⟨state, none, failures⟩ } : State) = u at begun
  have takes_of (n prior : Nat) (h : u.beginUnit = (u.flagged n).holdNumbers n prior) : takes n prior := by
    subst u_eq
    constructor
    · intro given
      rw [h, State.holdNumbers_taken prior (by exact given)] at begun
      exact begun
    · intro refused
      rw [h, State.flagged, State.holdNumbers_refused prior n (by exact waits) (by exact refused)] at begun
      exact begun
  have pwl_u : u.staging.pwl = e :: rest := u_eq ▸ pwl
  refine ⟨fun readOnly => ?_, fun writable => ?_⟩
  · subst u_eq
    rw [State.beginUnit_of_readOnly (by exact readOnly), State.enterHalt_eq (by exact waits)] at begun
    exact begun
  · have writable_u : u.readOnly = false := u_eq ▸ writable
    have lookup_u (tag : Nat) : u.lookup tag = s.lookup tag := u_eq ▸ rfl
    refine ⟨fun kind alone => ?_, fun n kind first low high => ?_, fun kind alone => ⟨fun x found standing => ?_,
      fun gone => ?_⟩⟩
    · exact takes_of 1 0 (State.beginUnit_of_write writable_u pwl_u kind (by simp [pwl_u, unitEntries, alone]))
    · have unit : (unitEntries u.staging.pwl).length = n := by
        rw [pwl_u, unitEntries, first]
        simpa [pwl] using high
      exact takes_of n 0 (State.beginUnit_of_write writable_u pwl_u kind unit)
    · exact takes_of 1 x.sequence
        (State.beginUnit_of_delete writable_u pwl_u kind alone ((lookup_u _).trans found) standing)
    · rw [State.beginUnit_of_idle_delete writable_u pwl_u kind alone (by simpa [lookup_u] using gone),
        State.discardDelete_flagged pwl_u] at begun
      subst u_eq
      exact begun

end Sys2Proof.Machine
end

section
/-! SUPPORT. The Reclaimer's jobs (R97-R116): selection, the walk of a victim, the outcomes of copy reads and copy
programs, and the grants, each operation by one rule per case. -/

-- One theorem at a time: many short ones that wait at once take a thread each.
set_option Elab.async false

namespace Sys2Proof.Machine

/-! ## Selection (R99, R100) -/

theorem exec_reclaimSelection {s t : State} (awake : s.awake) (h : reclaimSelection s = some t) :
    exec .reclaimSelection s = .next t.finish := by
  refine (State.run_of_on awake.1 State.selectionEvent).trans ?_
  rw [State.selectionEvent, if_pos awake.blocksRun, h]
  rfl

/-- A selection that is due begins the job that the order of choice gives. -/
theorem reclaimSelection_eq {s : State} {kind : JobKind} (idle : s.reclaim.job = none) (may : s.maySelect = true)
    (due : s.reclaim.evaluated ≠ some s.quantities) (choice : s.choice = some kind) :
    reclaimSelection s = some (s.beginJob kind) := by
  unfold reclaimSelection
  rw [if_pos (by simp [State.selectionDue, idle, may, due]), choice]

/-! ## The walk of a victim (R104, R108, R113) -/

theorem State.nextLocated_some {s : State} {v c : Nat} {e : IndexEntry} (h : s.nextLocated v c = some e) :
    e ∈ s.index.entries ∧ e.segment = v ∧ c ≤ e.page ∧
      ∀ x ∈ s.index.entries, x.segment = v → c ≤ x.page → e.page ≤ x.page := by
  obtain ⟨located | none_before, lowest, -⟩ := (nextLocated_spec v c s.index.entries none).1 e h
  · exact ⟨located.1, located.2.1, located.2.2, lowest⟩
  · cases none_before

theorem State.nextLocated_none {s : State} {v c : Nat} (h : s.nextLocated v c = none) :
    ∀ x ∈ s.index.entries, x.segment = v → x.page < c := ((nextLocated_spec v c s.index.entries none).2 h).2

theorem jobSelect_segment {s : State} {j : Job} {v : Nat} (job : s.reclaim.job = some j) (state : j.state = .select)
    (stays : j.abandoning = false) (kind : j.kind = .segment v) : jobSelect s = some (s.walk j v) := by
  unfold jobSelect
  simp only [job, state, stays, kind, and_self, if_true]

/-- A tombstone whose drop condition holds is dropped. -/
theorem State.walk_drop {s : State} {j : Job} {v prior : Nat} {e : IndexEntry}
    (located : s.nextLocated v j.cursor = some e) (kind : e.kind = .tombstone prior)
    (drops : s.dropCondition v prior = true) : s.walk j v = s.dropTombstone j e := by
  unfold State.walk
  simp only [located, kind, drops, if_true]

/-- Any other located record is read. -/
theorem State.walk_read {s : State} {j : Job} {v : Nat} {e : IndexEntry}
    (located : s.nextLocated v j.cursor = some e)
    (stays : ∀ prior : Nat, e.kind = .tombstone prior → s.dropCondition v prior = false) :
    s.walk j v = s.requestFor { j with state := .copyRead, subject := some e } := by
  unfold State.walk
  cases kind : e.kind with
  | tombstone prior => simp [located, kind, stays prior kind]
  | live n p d => simp only [located, kind]
  | lost prior => simp only [located, kind]

theorem State.walk_ended {s : State} {j : Job} {v : Nat} (located : s.nextLocated v j.cursor = none) :
    s.walk j v = s.walkEnded j v := by
  unfold State.walk
  simp only [located]

section
variable {s : State} {j : Job} {v : Nat} {g : Segment} (found : s.segment? v = some g)
include found

theorem State.walkEnded_reclaiming (state : g.state ≠ .retiring) :
    s.walkEnded j v = s.setJob { j with state := .erase } := by
  unfold State.walkEnded
  simp only [found, if_neg state]

theorem State.walkEnded_marks {why : RetireReason} (state : g.state = .retiring) (reason : g.reason = some why)
    (unwritten : g.mark ≠ some .unmarked) :
    s.walkEnded j v = s.requestFor { j with state := .retireMark, reason := some why } := by
  have unmarked : s.isUnmarked v = false := by simp [State.isUnmarked, found, unwritten]
  have recorded : s.recordedReason v = why := by simp [State.recordedReason, found, reason]
  unfold State.walkEnded
  simp only [found, state, if_true, unmarked, recorded]
  rfl

theorem State.walkEnded_retires (state : g.state = .retiring) (written : g.mark = some .unmarked) :
    s.walkEnded j v = (s.completeRetirement v .program .unmarked).endJob := by
  have unmarked : s.isUnmarked v = true := by simp [State.isUnmarked, found, written]
  unfold State.walkEnded
  simp only [found, state, if_true, unmarked]

end

/-! ## The erase of a victim (R111) -/

/-- A job in ERASE lodges its request unless a read pin is held on its victim. -/
theorem jobRequest_erase {s : State} {j : Job} {v : Nat} (job : s.reclaim.job = some j) (kind : j.kind = .segment v)
    (state : j.state = .erase) (free : s.reclaimerInFlight = false)
    (absent : s.sequencer.requests.reclaimer = .absent) (stays : j.abandoning = false)
    (answered : j.deferred = false) :
    jobRequest s = if s.sequencer.pin = some v then none else some s.lodgeReclaimer := by
  have victim : s.victim? = some v := by simp [State.victim?, job, kind]
  unfold jobRequest
  simp only [job, free, absent, stays, state, answered, victim]
  by_cases pinned : s.sequencer.pin = some v <;> simp [pinned, Request.lodged]

theorem State.grantReclaimer_erase {s : State} {j : Job} {v : Nat} (job : s.reclaim.job = some j)
    (kind : j.kind = .segment v) (state : j.state = .erase) :
    s.grantReclaimer = if s.sequencer.pin = some v then s else s.issue .reclaimer (.segmentErase v) 1 := by
  have victim : s.victim? = some v := by simp [State.victim?, job, kind]
  unfold State.grantReclaimer
  simp only [job, state, victim]

/-! ## The end of a record (R104, R107, R115) -/

/-- The job past a record that it has finished: in SELECT, with its cursor after the record. -/
def Job.past (j : Job) (e : IndexEntry) : Job :=
  { j with
    state := .select, cursor := e.page + e.pages, subject := none, buffer := none, lossNumber := 0
    failures := 0, deferred := false }

theorem State.finishRecord_segment {s : State} {j : Job} {v : Nat} {e : IndexEntry} (kind : j.kind = .segment v)
    (subject : j.subject = some e) : s.finishRecord j = s.setJob (j.past e) := by
  unfold State.finishRecord
  simp only [kind, subject, Job.past]

theorem State.finishRecord_refresh {s : State} {j : Job} {tag : Nat} (kind : j.kind = .refresh tag) :
    s.finishRecord j = s.endRefresh := by
  unfold State.finishRecord
  simp only [kind]

/-- A refresh job that ends takes its tag from the list, and changes nothing else but the request of a WAITING engine. -/
theorem State.endRefresh_keeps (s : State) : ∃ q, s.endRefresh = { s with
      reclaim := { s.reclaim with job := none, refreshList := s.reclaim.refreshList.drop 1 }, sequencer := q } ∧
    (s.commit.state ≠ .waiting → q = s.sequencer) := by
  obtain ⟨q, ended, -, -, same⟩ := State.endJob_keeps
    ({ s with reclaim := { s.reclaim with refreshList := s.reclaim.refreshList.drop 1 } } : State)
  exact ⟨q, ended, same⟩

/-! ## The grant of a copy (R106, R116) -/

/-- The entry of a tag locates a place exactly when it is the tag's entry and names that place (R30). -/
theorem State.located_eq_some_iff {s : State} {tag segment page : Nat} {x : IndexEntry} :
    s.located tag segment page = some x ↔ s.lookup tag = some x ∧ x.segment = segment ∧ x.page = page := by
  unfold State.located
  cases found : s.lookup tag with
  | none => simp
  | some y =>
    simp only [Option.some.injEq]
    constructor
    · intro h
      split at h
      · next place =>
        cases h
        exact ⟨rfl, place⟩
      · cases h
    · rintro ⟨rfl, place⟩
      exact if_pos place

theorem State.located_eq_none {s : State} {tag segment page : Nat}
    (h : ∀ x : IndexEntry, s.lookup tag = some x → x.segment ≠ segment ∨ x.page ≠ page) :
    s.located tag segment page = none := by
  rw [Option.eq_none_iff_forall_ne_some]
  intro x located
  obtain ⟨found, here, first⟩ := State.located_eq_some_iff.mp located
  exact (h x found).elim (· here) (· first)

theorem State.grantReclaimer_copy {s : State} {j : Job} {b : CopyBuffer} (job : s.reclaim.job = some j)
    (state : j.state = .copyProgram) (buffer : j.buffer = some b) : s.grantReclaimer = s.grantCopy j b := by
  unfold State.grantReclaimer
  simp only [job, state, buffer]

theorem State.grantCopy_gone {s : State} {j : Job} {b : CopyBuffer}
    (gone : s.located b.record.tag b.segment b.page = none) : s.grantCopy j b = s.finishRecord j := by
  unfold State.grantCopy
  simp only [gone]

section
variable {s : State} {j : Job} {b : CopyBuffer} {x : IndexEntry}
  (located : s.located b.record.tag b.segment b.page = some x)
include located

theorem State.grantCopy_granted {segment page : Nat} {u : State}
    (answer : s.claimPages j.claim (pagesFor b.record.length) b.record.sequence = (.granted segment page, u)) :
    s.grantCopy j b = u.issue .reclaimer (.recordProgram segment page b.record) 1 := by
  unfold State.grantCopy
  simp only [located, answer]

theorem State.grantCopy_noRoom {u : State}
    (answer : s.claimPages j.claim (pagesFor b.record.length) b.record.sequence = (.noRoom, u)) :
    s.grantCopy j b = u.failJob j := by
  unfold State.grantCopy
  simp only [located, answer]

end

/-! ## The outcome of a copy read (R105, R109, R110, R115) -/

/-- A record found ends the read DONE, or RECOVERED when it is not the first attempt, and the job takes it. -/
theorem exec_recordRead_found {s : State} {f : InFlight} {segment page pages tag sequence : Nat} {noise : Patch}
    {r : Record} (awake : s.awake) (flight : s.sequencer.inFlight = some f) (who : f.requester = .reclaimer)
    (there : s.opExists f.op = true) (op : f.op = .recordRead segment page pages tag sequence)
    (found : readRecord s.medium segment page pages tag sequence noise = some r) :
    exec (.recordRead (.ready noise)) s =
      .next (((if f.attempts = 0 then s else s.countRecovered).releasePort).copyReadGood r).finish := by
  have counted : s.noteRecovered = s.countRecovered := by simp only [State.noteRecovered, awake.2]
  refine (State.runOp_of_exists awake.1 flight there fun t f => t.recordEvent f (.ready noise)).trans ?_
  by_cases first : f.attempts = 0
  · simp only [State.recordEvent, op, found, State.readAttempt, State.attemptGood, State.recordOutcome, who, first,
      if_true]
  · simp only [State.recordEvent, op, found, State.readAttempt, State.attemptGood, State.recordOutcome, who, counted,
      first, if_false]

/-- The state in which a job takes a copy read that ended UNREADABLE: the read is counted, its last attempt too when
it was not answered in time, and the port is free. -/
def State.unread (s : State) (answered : Bool) : State :=
  ((if answered then s else s.countTimeout).countUnreadable).releasePort

theorem State.unread_eq (s : State) (answered : Bool) : s.unread answered = { s with
    sequencer := { s.sequencer with inFlight := none, pin := none }
    health := { s.health with counters := { s.health.counters with
      unreadableReads := bump s.health.counters.unreadableReads
      mediumTimeouts := if answered then s.health.counters.mediumTimeouts
        else bump s.health.counters.mediumTimeouts } } } := by
  cases answered <;> rfl

/-- The last attempt of a read that was not good hands UNREADABLE to the job. -/
theorem State.attemptBad_last {s : State} {f : InFlight} {segment page pages tag sequence : Nat}
    (mounted : s.mount = none) (who : f.requester = .reclaimer) (op : f.op = .recordRead segment page pages tag sequence)
    (last : f.attempts + 1 = f.allowed) : s.attemptBad f = (s.countUnreadable.releasePort).copyReadBad := by
  have counted : s.noteUnreadable = s.countUnreadable := by simp only [State.noteUnreadable, mounted]
  unfold State.attemptBad
  simp only [last, lt_irrefl, if_false, State.readUnreadable, op, State.recordOutcome, who, counted]

/-- Each way in which the last attempt can fail is counted and handed to the job. -/
theorem exec_recordRead_unread {s : State} {f : InFlight} {segment page pages tag sequence : Nat} {noise : Patch}
    {c : Instr} (awake : s.awake) (flight : s.sequencer.inFlight = some f) (who : f.requester = .reclaimer)
    (there : s.opExists f.op = true) (op : f.op = .recordRead segment page pages tag sequence)
    (last : f.attempts + 1 = f.allowed)
    (bad : (c = .recordRead (.ready noise) ∧ readRecord s.medium segment page pages tag sequence noise = none) ∨
      c = .recordRead .timeout ∨ ∃ left : Remnant, c = .attemptTimeout left) :
    exec c s = .next (s.unread (decide (c = .recordRead (.ready noise)))).copyReadBad.finish := by
  have timeout : s.attemptTimeout f = (s.unread false).copyReadBad := by
    have counted : s.noteTimeout = s.countTimeout := by simp only [State.noteTimeout, awake.2]
    rw [State.attemptTimeout, counted, State.attemptBad_last (by simpa using awake.2) who op last]
    rfl
  obtain ⟨rfl, missing⟩ | rfl | ⟨left, rfl⟩ := bad
  · refine (State.runOp_of_exists awake.1 flight there fun t f => t.recordEvent f (.ready noise)).trans ?_
    simp only [State.recordEvent, op, missing, State.readAttempt]
    rw [State.attemptBad_last awake.2 who op last]
    simp [State.unread]
  · refine (State.runOp_of_exists awake.1 flight there fun t f => t.recordEvent f .timeout).trans ?_
    simp only [State.recordEvent, op]
    rw [timeout]
    simp
  · refine (State.runOp_of_exists awake.1 flight there fun t f => t.timeoutEvent f left).trans ?_
    simp only [State.timeoutEvent, op]
    rw [timeout]
    simp

section
variable {s : State} {j : Job} {e : IndexEntry} (job : s.reclaim.job = some j) (subject : j.subject = some e)
include job subject

theorem State.copyReadGood_eq (r : Record) : s.copyReadGood r =
    s.requestFor { j with state := .copyProgram, buffer := some ⟨r.copy, e.segment, e.page⟩ } := by
  unfold State.copyReadGood
  simp only [job, subject]

/-- A tombstone or loss marker is rewritten from its entry. -/
theorem State.copyReadBad_rewrites {prior : Nat} (kind : e.kind = .tombstone prior ∨ e.kind = .lost prior) :
    s.copyReadBad = s.requestFor { j with
      state := .copyProgram
      buffer := some (e.rewrite (if e.kind = .tombstone prior then .tombstone else .loss) prior) } := by
  unfold State.copyReadBad
  simp only [job, subject]
  obtain tombstone | lost := kind
  · simp only [tombstone, if_true]
  · simp only [lost, reduceCtorEq, if_false]

section
variable {n : Nat} {p d : Bool} (live : e.kind = .live n p d)
include live

/-- A LIVE record whose claim is refused is finished. -/
theorem State.copyReadBad_refused (claim : s.damagedClaim e.tag e.sequence e.segment e.page = none) :
    s.copyReadBad = s.finishRecord j := by
  unfold State.copyReadBad
  simp only [job, subject, live, claim]

/-- A LIVE record that stands is damaged, and a segment job writes a loss marker for it. -/
theorem State.copyReadBad_marks {t : State} {v : Nat} (kind : j.kind = .segment v)
    (claim : s.damagedClaim e.tag e.sequence e.segment e.page = some t) : s.copyReadBad = t.lossMarker j e := by
  unfold State.copyReadBad
  simp only [job, subject, live, claim, kind]

/-- A LIVE record that stands is damaged, and a refresh job ends. -/
theorem State.copyReadBad_ends {t : State} {tag : Nat} (kind : j.kind = .refresh tag)
    (claim : s.damagedClaim e.tag e.sequence e.segment e.page = some t) : s.copyReadBad = t.endRefresh := by
  unfold State.copyReadBad
  simp only [job, subject, live, claim, kind]

end

end

/-- A job with its number and the marker that it writes for a record lost (R109). -/
def Job.marking (j : Job) (e : IndexEntry) (number : Nat) : Job :=
  { j with
    state := .copyProgram, lossNumber := number
    buffer := some ⟨⟨.loss, e.tag, number, 0, false, 0, none, e.sequence, []⟩, e.segment, e.page⟩ }

/-- With a number left a loss marker is built and its program requested. -/
theorem State.lossMarker_eq {s : State} (j : Job) (e : IndexEntry) (given : s.index.nextSequence ≤ 4294967294) :
    s.lossMarker j e = ({ s with index := { s.index with nextSequence := s.index.nextSequence + 1 } }
      : State).requestFor (j.marking e s.index.nextSequence) := by
  unfold State.lossMarker
  rw [State.takeNumbers_given (by omega)]
  rfl

/-! ## The outcome of a copy program (R31, R33, R107, R109) -/

/-- The medium as the end of an operation left it, and the port free. -/
def State.freedBy (s : State) (op : Op) (o : MediumEnd) : State :=
  ({ s with medium := op.apply s.medium o } : State).releasePort

/-- A RECORD PROGRAM of the job has ended: the medium is as the end left it, the port is free, the job takes it. -/
theorem exec_recordProgram_job {s : State} {f : InFlight} {segment page : Nat} {r : Record} (awake : s.awake)
    (flight : s.sequencer.inFlight = some f) (who : f.requester = .reclaimer) (there : s.opExists f.op = true)
    (op : f.op = .recordProgram segment page r) (o : MediumEnd) :
    exec (.recordProgram o) s =
      .next ((s.freedBy f.op o).jobOpEnd f.op o).finish := by
  refine (State.runOp_of_exists awake.1 flight there fun t f => t.recordProgramEvent f o).trans ?_
  simp only [State.recordProgramEvent, op, State.programEnd, who, State.freedBy]

theorem exec_headerProgram_job {s : State} {f : InFlight} {segment : Nat} {slot : SlotContent} (awake : s.awake)
    (flight : s.sequencer.inFlight = some f) (who : f.requester = .reclaimer) (there : s.opExists f.op = true)
    (op : f.op = .headerProgram segment slot) (o : MediumEnd) :
    exec (.headerProgram o) s =
      .next ((s.freedBy f.op o).jobOpEnd f.op o).finish := by
  refine (State.runOp_of_exists awake.1 flight there fun t f => t.headerProgramEvent f o).trans ?_
  simp only [State.headerProgramEvent, op, State.programEnd, who, State.freedBy]

/-- The store after a copy or a marker programmed DONE: the claim's outcome, before the record is finished. -/
def State.copied (s : State) (j : Job) (b : CopyBuffer) (segment page : Nat) : State :=
  if j.lossNumber = 0 then s.reclaimMove b segment page else s.lossReplacement b segment page

theorem State.copyProgramDone_eq {s : State} {j : Job} {b : CopyBuffer} (job : s.reclaim.job = some j)
    (buffer : j.buffer = some b) (segment page : Nat) :
    s.copyProgramDone segment page = (s.copied j b segment page).finishRecord j := by
  unfold State.copyProgramDone
  simp only [job, buffer]
  rfl

/-- A copy programmed DONE: the claim is made, and the record is finished. -/
theorem exec_recordProgram_copied {s : State} {f : InFlight} {j : Job} {b : CopyBuffer} {segment page : Nat}
    {r : Record} (awake : s.awake) (flight : s.sequencer.inFlight = some f) (who : f.requester = .reclaimer)
    (there : s.opExists f.op = true) (op : f.op = .recordProgram segment page r) (job : s.reclaim.job = some j)
    (buffer : j.buffer = some b) :
    exec (.recordProgram .done) s =
      .next (((s.freedBy f.op .done).copied j b segment page).finishRecord j).finish := by
  have job_freed : (s.freedBy f.op .done).reclaim.job = some j := job
  rw [exec_recordProgram_job awake flight who there op .done, ← State.copyProgramDone_eq job_freed buffer]
  simp only [op, State.jobOpEnd, failureOf]

/-- What a claim of the Reclaimer changes: the entries, the segments and the counters, in the three ways that the
claim can go. -/
theorem State.copied_spec (s : State) (j : Job) (b : CopyBuffer) (segment page : Nat) :
    let k := pagesFor b.record.length
    let stands := fun x : IndexEntry => s.lookup b.record.tag = some x ∧ x.segment = b.segment ∧
      x.page = b.page ∧ (j.lossNumber ≠ 0 → x.kind.isLive = true ∧ x.sequence = b.record.prior)
    (j.lossNumber = 0 → ∀ x, stands x → s.copied j b segment page =
      ((s.updateSegment segment fun g => g.makeLive k).updateSegment b.segment fun g => g.makeDead k).putEntry
        ⟨x.tag, x.kind.repair, x.sequence, segment, page, x.pages⟩) ∧
    (j.lossNumber ≠ 0 → ∀ x, stands x → s.copied j b segment page =
      (((s.updateSegment segment fun g => g.makeLive 1).updateSegment b.segment fun g => g.makeDead x.pages).putEntry
        ⟨x.tag, .lost b.record.prior, b.record.sequence, segment, page, 1⟩).countLost) ∧
    ((∀ x, ¬ stands x) → s.copied j b segment page =
      s.updateSegment segment fun g => g.dropPending (if j.lossNumber = 0 then k else 1)) := by
  intro k stands
  have located {x : IndexEntry} (h : stands x) : s.located b.record.tag b.segment b.page = some x :=
    State.located_eq_some_iff.mpr ⟨h.1, h.2.1, h.2.2.1⟩
  refine ⟨fun copy x h => ?_, fun marker x h => ?_, fun none_stands => ?_⟩
  · rw [State.copied, if_pos copy, State.reclaimMove, located h]
  · rw [State.copied, if_neg marker, State.lossReplacement, located h]
    exact if_pos (by simpa using h.2.2.2 marker)
  · cases found : s.located b.record.tag b.segment b.page with
    | none =>
      by_cases copy : j.lossNumber = 0
      · rw [State.copied, if_pos copy, State.reclaimMove, found, if_pos copy]
      · rw [State.copied, if_neg copy, State.lossReplacement, found, if_neg copy]
    | some x =>
      obtain ⟨entry, here, first⟩ := State.located_eq_some_iff.mp found
      have marker : j.lossNumber ≠ 0 := fun copy =>
        none_stands x ⟨entry, here, first, fun marker => (marker copy).elim⟩
      have other : ¬ (x.kind.isLive = true ∧ x.sequence = b.record.prior) := fun lost =>
        none_stands x ⟨entry, here, first, fun _ => lost⟩
      rw [State.copied, if_neg marker, State.lossReplacement, found, if_neg marker]
      exact if_neg (by simpa using other)

/-! ## A copy program that fails (R107, R109, R115) -/

section
variable {s : State} {j : Job} (job : s.reclaim.job = some j) (segment k : Nat) (x : Failure)
include job

/-- Below the limit the program of a copy is requested again. -/
theorem State.copyFailure_copy (again : j.failures < 2) (copy : j.lossNumber = 0) :
    s.copyFailure segment k x =
      (s.reportProgramFailure segment k x).requestFor { j with failures := j.failures + 1 } := by
  unfold State.copyFailure
  simp only [job, Config.failureLimit, copy, if_true]
  rw [if_pos (by omega)]
  cases j.subject <;> rfl

/-- Below the limit a loss marker is built again with a new number. -/
theorem State.copyFailure_marker {e : IndexEntry} (again : j.failures < 2) (marker : j.lossNumber ≠ 0)
    (subject : j.subject = some e) :
    s.copyFailure segment k x =
      (s.reportProgramFailure segment k x).lossMarker { j with failures := j.failures + 1 } e := by
  unfold State.copyFailure
  simp only [job, Config.failureLimit, subject, marker, if_false]
  rw [if_pos (by omega)]

/-- The third failure ends the job. -/
theorem State.copyFailure_third (third : 2 ≤ j.failures) :
    s.copyFailure segment k x = (s.reportProgramFailure segment k x).failJob j := by
  unfold State.copyFailure
  simp only [job, Config.failureLimit]
  rw [if_neg (by omega)]

end

/-- A program of the job that did not end DONE, of a copy or of an OPENED slot, is handed to the job as a failure. -/
theorem exec_program_failed {s : State} {f : InFlight} {segment k : Nat} {c : Instr} {o : MediumEnd} {x : Failure}
    (awake : s.awake) (flight : s.sequencer.inFlight = some f) (who : f.requester = .reclaimer)
    (there : s.opExists f.op = true) (failed : failureOf o = some x)
    (program : (∃ (page : Nat) (r : Record), f.op = .recordProgram segment page r ∧ k = pagesFor r.length ∧
        c = .recordProgram o) ∨
      ∃ q : Nat, f.op = .headerProgram segment (.opened q) ∧ k = 0 ∧ c = .headerProgram o) :
    exec c s =
      .next ((s.freedBy f.op o).copyFailure segment k x).finish := by
  obtain ⟨page, r, op, rfl, rfl⟩ | ⟨q, op, rfl, rfl⟩ := program
  · rw [exec_recordProgram_job awake flight who there op o]
    simp only [op, State.jobOpEnd, failed]
  · rw [exec_headerProgram_job awake flight who there op o]
    simp only [op, State.jobOpEnd, State.jobHeaderEnd, failed]

theorem failureOf_isSome {o : MediumEnd} (h : o ≠ .done) : ∃ x, failureOf o = some x := by
  cases o with
  | done => exact absurd rfl h
  | failed left => exact ⟨_, rfl⟩
  | timeout left => exact ⟨_, rfl⟩

/-- A claim of the Reclaimer leaves the job, the list, the port and the staging buffer as they were. -/
theorem State.copied_frame (s : State) (j : Job) (b : CopyBuffer) (segment page : Nat) :
    (s.copied j b segment page).reclaim = s.reclaim ∧ (s.copied j b segment page).staging = s.staging ∧
      (s.copied j b segment page).port = s.port := by
  unfold State.copied
  split <;> simp

/-- Settles O48: each clause by the rule of its operation. -/
theorem reclaimJobsRunTheirCourse : Obligations.ReclaimJobsRunTheirCourse := by
  refine ⟨?_, ?_, ?_, ?_, ?_⟩
  · -- Selection (R99, R100).
    intro s awake idle mounted calm erasing due
    have may : s.maySelect = true := by simp [State.maySelect, mounted, calm, erasing]
    exact ⟨fun v choice => exec_reclaimSelection awake (reclaimSelection_eq idle may due choice),
      fun tag choice => exec_reclaimSelection awake (reclaimSelection_eq idle may due choice)⟩
  · -- The walk of a segment job in SELECT (R104, R108, R113).
    intro s j v job state stays kind
    rw [jobSelect_segment job state stays kind]
    refine ⟨fun e located => ?_, fun located => ⟨State.nextLocated_none located, fun g found => ?_⟩⟩
    · obtain ⟨listed, here, beyond, lowest⟩ := State.nextLocated_some located
      refine ⟨listed, here, beyond, lowest, fun prior tombstone clear => ?_, fun held => ?_⟩
      · rw [State.walk_drop located tombstone (s.dropCondition_true v prior clear)]
        rfl
      · rw [State.walk_read located fun prior tombstone => s.dropCondition_false v prior (held prior tombstone)]
        rfl
    · rw [State.walk_ended located]
      refine ⟨fun state => ?_, fun why state reason unwritten => ?_, fun state written => ?_⟩
      · rw [State.walkEnded_reclaiming found state]
        rfl
      · rw [State.walkEnded_marks found state reason unwritten]
        rfl
      · rw [State.walkEnded_retires found state written]
        obtain ⟨q, ended, flight, request, -⟩ :=
          State.endJob_keeps (s.completeRetirement v .program .unmarked)
        refine ⟨_, rfl, ?_, by simp, ?_, ?_⟩
        · rw [ended]
          simp
        · rw [ended]
          simpa using request
        · rw [ended]
          simp [State.completeRetirement, State.updateSegment, Segment.retire]
  · -- A victim in ERASE (R111).
    intro s j v job kind state asked
    refine ⟨fun free absent stays answered => ?_, State.grantReclaimer_erase job kind state⟩
    rw [jobRequest_erase job kind state free absent stays answered, State.lodgeReclaimer, absent]
    rfl
  · -- The grant of a copy (R106, R116).
    intro s j e b job state subject buffer k claim t
    have granted : t = s.grantCopy j b := State.grantReclaimer_copy job state buffer
    refine ⟨fun gone => ?_, fun x found here first => ?_⟩
    · rw [State.grantCopy_gone (State.located_eq_none gone)] at granted
      refine ⟨fun v kind => ?_, fun tag kind => ?_⟩
      · rw [granted, State.finishRecord_segment kind subject]
        rfl
      · rw [granted, State.finishRecord_refresh kind]
        obtain ⟨q, ended, -⟩ := s.endRefresh_keeps
        rw [ended]
        exact ⟨rfl, rfl, rfl⟩
    · have located := State.located_eq_some_iff.mpr ⟨found, here, first⟩
      refine ⟨fun segment page u answer => ?_, fun answer => ?_⟩
      · rw [granted, State.grantCopy_granted located answer]
        rfl
      · rw [granted, State.grantCopy_noRoom located answer]
        exact s.failJob_spec j job
  · -- The outcomes of the job's operation.
    intro s f j awake flight who there job free asks goesOn next
    refine ⟨?_, ?_, ?_⟩
    · -- A copy read (R105, R109, R110, R115).
      intro c e segment page pages tag sequence noise op subject counters counted bad unread
      refine ⟨fun r found => ?_, ?_⟩
      · rw [exec_recordRead_found awake flight who there op found]
        by_cases first : f.attempts = 0
        · simp only [first, if_true, counted]
          rw [State.copyReadGood_eq (by exact job) subject]
          rfl
        · simp only [first, if_false, counted]
          rw [State.copyReadGood_eq (by exact job) subject]
          rfl
      · rintro ⟨last, ways⟩
        have taken : exec c s = .next bad.copyReadBad.finish := by
          rw [exec_recordRead_unread awake flight who there op last ways, State.unread_eq]
          simp only [decide_eq_true_eq]
          rfl
        have job_bad : bad.reclaim.job = some j := job
        refine ⟨fun prior kind => ?_, ?_, ?_⟩
        · rw [taken, State.copyReadBad_rewrites job_bad subject kind]
          rfl
        · rintro ⟨n, p, d, live⟩ gone
          have claim : bad.damagedClaim e.tag e.sequence e.segment e.page = none := State.damagedClaim_refused gone
          rw [taken, State.copyReadBad_refused job_bad subject live claim]
          refine ⟨fun v kind => ?_, fun t kind running => ?_⟩
          · rw [State.finishRecord_segment kind subject]
            rfl
          · obtain ⟨q, ended, same⟩ := bad.endRefresh_keeps
            rw [State.finishRecord_refresh kind, ended, same running]
        · intro x n m p d p' d' live found stored seq here first damaged
          have claim : bad.damagedClaim e.tag e.sequence e.segment e.page = some damaged :=
            State.damagedClaim_taken found stored seq here first
          refine ⟨fun v kind given => ?_, fun t kind running => ?_⟩
          · rw [taken, State.copyReadBad_marks job_bad subject live kind claim,
              State.lossMarker_eq j e (by exact given)]
            rfl
          · obtain ⟨q, ended, same⟩ := damaged.endRefresh_keeps
            rw [taken, State.copyReadBad_ends job_bad subject live kind claim, ended, same running]
    · -- A copy programmed DONE (R31, R33, R107).
      intro segment page r b e o op done buffer subject k stands
      subst done
      have taken := exec_recordProgram_copied awake flight who there op job buffer
      obtain ⟨copy, marker, dead⟩ := (s.freedBy f.op .done).copied_spec j b segment page
      obtain ⟨reclaim, staging, port⟩ := (s.freedBy f.op .done).copied_frame j b segment page
      refine ⟨_, taken, fun zero x here => ?_, fun number x here => ?_, fun gone => ?_, fun v kind => ?_,
        fun tag kind => ?_, ?_, ?_⟩
      · rw [copy zero x here]
        simp only [State.finishRecord_frame]
        exact ⟨rfl, rfl, rfl⟩
      · rw [marker number x here]
        simp only [State.finishRecord_frame]
        exact ⟨rfl, rfl, rfl⟩
      · rw [dead gone]
        simp only [State.finishRecord_frame]
        exact ⟨rfl, rfl, rfl⟩
      · rw [State.finishRecord_segment kind subject, State.setJob, reclaim]
        rfl
      · obtain ⟨q, ended, -⟩ := ((s.freedBy f.op .done).copied j b segment page).endRefresh_keeps
        rw [State.finishRecord_refresh kind, ended, reclaim]
        rfl
      · simp only [State.finishRecord_frame, staging]
        rfl
      · simp only [State.finishRecord_frame, port]
        rfl
    · -- A program that failed (R107, R109, R115).
      intro segment k c o failed program counters failing counted again
      obtain ⟨x, failure⟩ := failureOf_isSome failed
      have taken := exec_program_failed awake flight who there failure program
      have job_freed : (s.freedBy f.op o).reclaim.job = some j := job
      have reported : (s.freedBy f.op o).reportProgramFailure segment k x = { s with
          medium := f.op.apply s.medium o, sequencer := free, space := { s.space with segments := failing }
          health := { s.health with counters := counted } } := by
        rw [State.reportProgramFailure_eq]
        cases o <;> cases failure <;> rfl
      refine ⟨fun few zero => ?_, fun e few number subject given => ?_, fun third => ?_⟩
      · rw [taken, State.copyFailure_copy job_freed segment k x few zero, reported]
        rfl
      · rw [taken, State.copyFailure_marker job_freed segment k x few number subject, reported,
          State.lossMarker_eq _ e (by exact given)]
        rfl
      · rw [State.copyFailure_third job_freed segment k x third, reported] at taken
        obtain ⟨index, flight_free, segment_job, refresh_job⟩ := State.failJob_spec ({ s with
          medium := f.op.apply s.medium o, sequencer := free, space := { s.space with segments := failing }
          health := { s.health with counters := counted } } : State) j job
        refine ⟨_, taken, index, flight_free, fun v kind => ?_, fun tag kind => ?_⟩
        · obtain ⟨health, reclaim, space⟩ := segment_job v kind
          exact ⟨congrArg Health.counters health, reclaim, congrArg Space.segments space⟩
        · obtain ⟨space, reclaim, dropped⟩ := refresh_job tag kind
          exact ⟨congrArg Space.segments space, reclaim, dropped⟩

end Sys2Proof.Machine
end

section
/-! SUPPORT. What every step keeps of the Key Index: its order (R16). -/

-- One theorem at a time: many short ones that wait at once take a thread each.
set_option Elab.async false

namespace Sys2Proof.Machine

/-! ## The entries and their order -/

/-- A state with the index entries of one whose index is in order. -/
theorem State.indexOrdered.of_same {s t : State} (h : s.indexOrdered)
    (e : t.index.entries = s.index.entries := by simp) : t.indexOrdered := by
  unfold State.indexOrdered
  rwa [e]

theorem State.indexOrdered.putEntry {s : State} (h : s.indexOrdered) (e : IndexEntry) :
    (s.putEntry e).indexOrdered := pairwise_insertEntry e s.index.entries h

theorem State.indexOrdered.removeEntry {s : State} (h : s.indexOrdered) (tag : Nat) :
    (s.removeEntry tag).indexOrdered := List.Pairwise.filter _ h

theorem State.indexOrdered.clearSegment {s : State} (h : s.indexOrdered) (n : Nat) :
    (s.clearSegment n).indexOrdered := List.Pairwise.filter _ h

theorem State.indexOrdered_emptyStore (s : State) : s.emptyStore.indexOrdered := List.Pairwise.nil

/-! ## Claims on the Key Index -/

theorem State.indexOrdered.damagedClaim {s t : State} {tag sequence segment page : Nat} (h : s.indexOrdered)
    (e : s.damagedClaim tag sequence segment page = some t) : t.indexOrdered := by
  unfold State.damagedClaim at e
  split at e
  · split at e
    · cases e
      exact h.putEntry _
    · cases e
  · cases e

theorem State.indexOrdered.installRecord {s : State} (h : s.indexOrdered) (r : Record) (segment page : Nat) :
    (s.installRecord r segment page).indexOrdered :=
  State.indexOrdered.putEntry (h.of_same) _

theorem State.indexOrdered.installAll {s : State} (h : s.indexOrdered) (segment page : Nat)
    (records : List Record) : (s.installAll segment page records).indexOrdered := by
  induction records generalizing s page with
  | nil => exact h
  | cons r rest ih => exact ih (h.installRecord r segment page) _

theorem State.indexOrdered.reclaimMove {s : State} (h : s.indexOrdered) (b : CopyBuffer) (segment page : Nat) :
    (s.reclaimMove b segment page).indexOrdered := by
  unfold State.reclaimMove
  dsimp only
  split
  · exact State.indexOrdered.putEntry (h.of_same) _
  · exact h.of_same

theorem State.indexOrdered.lossReplacement {s : State} (h : s.indexOrdered) (b : CopyBuffer) (segment page : Nat) :
    (s.lossReplacement b segment page).indexOrdered := by
  unfold State.lossReplacement
  split
  · next e _ =>
    split
    · have moved : ((s.updateSegment segment fun g => g.makeLive 1).updateSegment b.segment
          fun g => g.makeDead e.pages).indexOrdered := h.of_same
      have put := moved.putEntry { e with
        kind := .lost b.record.prior, sequence := b.record.sequence, segment := segment, page := page, pages := 1 }
      exact put.of_same
    · exact h.of_same
  · exact h.of_same

/-! ## The Commit Engine -/

theorem State.indexOrdered.commitInstall {s : State} (h : s.indexOrdered) (u : CommitUnit) (segment page : Nat) :
    (s.commitInstall u segment page).indexOrdered := by
  unfold State.commitInstall
  extract_lets entries records t
  have closed : t.indexOrdered := h.of_same (t := s.closeRange)
  split
  · exact closed.of_same
  · exact (closed.installAll segment page records).of_same

theorem State.indexOrdered.commitProgramEnd {s : State} (h : s.indexOrdered) (op : Op) (o : MediumEnd) :
    (s.commitProgramEnd op o).indexOrdered := by
  cases op with
  | recordProgram segment page r =>
    unfold State.commitProgramEnd
    dsimp only
    split
    · unfold State.commitProgramDone
      split
      · exact h
      · split
        · exact h.of_same
        · exact h.commitInstall _ segment _
    · exact h.of_same
  | headerProgram segment slot =>
    unfold State.commitProgramEnd
    dsimp only
    split
    · exact h.of_same
    · exact h.of_same
  | _ => exact h

/-! ## The Reclaimer -/

theorem State.indexOrdered.walk {s : State} (h : s.indexOrdered) (j : Job) (v : Nat) :
    (s.walk j v).indexOrdered := by
  unfold State.walk
  split
  · exact h.of_same
  · next e _ =>
    split
    · split
      · exact (h.removeEntry e.tag).of_same (t := State.setJob _ _)
      · exact h.of_same
    · exact h.of_same
    · exact h.of_same

theorem State.indexOrdered.jobSelect {s t : State} (h : s.indexOrdered) (e : jobSelect s = some t) :
    t.indexOrdered := by
  unfold Machine.jobSelect at e
  split at e
  · split at e
    · split at e
      · cases e
        exact h.walk _ _
      · cases e
        exact h.of_same
    · cases e
  · cases e

theorem State.indexOrdered.copyReadBad {s : State} (h : s.indexOrdered) : s.copyReadBad.indexOrdered := by
  unfold State.copyReadBad
  split
  · exact h
  · split
    · exact h
    · split
      · exact h.of_same
      · exact h.of_same
      · split
        · exact h.of_same
        · next claimed =>
          split
          · exact (h.damagedClaim claimed).of_same
          · exact (h.damagedClaim claimed).of_same

theorem State.indexOrdered.copyProgramDone {s : State} (h : s.indexOrdered) (segment page : Nat) :
    (s.copyProgramDone segment page).indexOrdered := by
  unfold State.copyProgramDone
  split
  · exact h
  · split
    · exact h
    · next b _ =>
      split
      · exact (h.reclaimMove b segment page).of_same
      · exact (h.lossReplacement b segment page).of_same

theorem State.indexOrdered.jobOpEnd {s : State} (h : s.indexOrdered) (op : Op) (o : MediumEnd) :
    (s.jobOpEnd op o).indexOrdered := by
  cases op with
  | recordProgram segment page r =>
    unfold State.jobOpEnd
    dsimp only
    split
    · exact h.copyProgramDone segment page
    · exact h.of_same
  | headerProgram segment slot => exact h.of_same (t := s.jobHeaderEnd segment slot o)
  | segmentErase segment => exact h.of_same (t := s.jobEraseEnd segment o)
  | _ => exact h

/-! ## ERASE STORE (R175, R176) -/

/-- ERASE STORE removes entries segment by segment, and at its completion all of them. -/
theorem State.indexOrdered.eraseFrom {s : State} (h : s.indexOrdered) (todo : List Nat) :
    (State.eraseFrom todo s).indexOrdered := by
  induction todo generalizing s with
  | nil => exact s.indexOrdered_emptyStore.of_same (t := s.emptyStore.endErasure)
  | cons n rest ih =>
    have cleared := h.clearSegment n
    unfold State.eraseFrom
    split
    · exact h.of_same
    · dsimp only
      split
      · split
        · exact ih (cleared.of_same)
        · exact cleared.of_same
      · exact cleared.of_same

theorem State.indexOrdered.eraseStoreEnd {s : State} (h : s.indexOrdered) (o : MediumEnd) :
    (s.eraseStoreEnd o).indexOrdered := by
  unfold State.eraseStoreEnd
  split
  · exact h
  · split
    · exact h
    · dsimp only
      split
      · exact h.of_same
      · exact State.indexOrdered.eraseFrom (h.of_same) _

theorem State.indexOrdered.eraseStoreStart {s t : State} (h : s.indexOrdered) (e : eraseStoreStart s = some t) :
    t.indexOrdered := by
  unfold Machine.eraseStoreStart at e
  split at e
  · split at e
    · cases e
      exact State.indexOrdered.eraseFrom (h.of_same) _
    · cases e
  · cases e

/-! ## The consequences of a step -/

theorem State.indexOrdered.consequence {s t : State} (e : consequence s = some t) (h : s.indexOrdered) :
    t.indexOrdered := by
  rcases consequence_cases e with e | e | e | e | e | e | e | e | e | e | e | e | e | e | e | e
  · exact h.of_same (by simp [healthRefresh_frame e])
  · exact h.of_same (by simp [spaceRefresh_frame e])
  · exact h.eraseStoreStart e
  · exact h.of_same (by simp [jobAbandon_frame e])
  · exact h.of_same (by simp [slotWaitEnd_frame e])
  · exact h.of_same (by simp [writeThroughComplete_frame e])
  · exact h.of_same (by simp [syncComplete_frame e])
  · exact h.of_same (by simp [commitHaltEnd_frame e])
  · exact h.of_same (by simp [commitNext_frame e])
  · exact h.of_same (by simp [commitStart_frame e])
  · exact h.of_same (by simp [drainEnd_frame e])
  · exact h.jobSelect e
  · exact h.of_same (by simp [reclaimSelection_frame e])
  · exact h.of_same (by simp [jobRequest_frame e])
  · exact h.of_same (by simp [backgroundRequest_frame e])
  · exact h.of_same (by simp [grant_frame e])

/-- The end of a step keeps the order. -/
theorem State.indexOrdered.finish {s : State} (h : s.indexOrdered) : s.finish.indexOrdered := by
  have settled := settle_induction (fun a b e => State.indexOrdered.consequence e) Config.settleRounds s h
  exact settled.of_same (t := s.finish) (by unfold State.finish; simp)

/-! ## Mount (R34, R144) -/

/-- The index that mount builds is in order: its entries are those of the winners, which ascend. -/
theorem State.indexOrdered_mountEnd (s : State) (m : MountWork) (opened : Option Nat) (torn : Nat) :
    (s.mountEnd m opened torn).indexOrdered := by
  have built : (s.mountEnd m opened torn).index = m.index := by
    unfold State.mountEnd
    simp
  have ascending : m.indexed.Pairwise fun a b => a.record.tag < b.record.tag :=
    m.winners_spec.1.sublist (List.take_sublist _ _)
  unfold State.indexOrdered
  rw [built]
  exact List.pairwise_map.mpr ascending

theorem State.indexOrdered.mountScanNext {s : State} (h : s.indexOrdered) (m : MountWork) (todo : List Nat) :
    (s.mountScanNext m todo).indexOrdered := by
  unfold State.mountScanNext
  split
  · unfold State.mountResolve
    split
    · split
      · exact h.of_same
      · exact s.indexOrdered_mountEnd m none 0
    · exact s.indexOrdered_mountEnd m none 0
  · exact h.of_same

theorem State.indexOrdered.mountHeadersNext {s : State} (h : s.indexOrdered) (m : MountWork) (todo : List Nat) :
    (s.mountHeadersNext m todo).indexOrdered := by
  unfold State.mountHeadersNext
  split
  · exact h.mountScanNext _ _
  · exact h.of_same

theorem State.indexOrdered.mountProbeEnd {s : State} (h : s.indexOrdered) (answer : ProbeAnswer) :
    (s.mountProbeEnd answer).indexOrdered := by
  unfold State.mountProbeEnd
  split
  · exact h
  · split
    · extract_lets found
      split
      · exact h.of_same
      · split
        · exact s.indexOrdered_mountEnd found none 0
        · exact h.mountHeadersNext found _
    all_goals exact h

theorem State.indexOrdered.mountHeaderEnd {s : State} (h : s.indexOrdered) (segment : Nat) (p : PageFindings) :
    (s.mountHeaderEnd segment p).indexOrdered := by
  unfold State.mountHeaderEnd
  split
  · exact h
  · dsimp only
    split
    · exact h.mountHeadersNext _ _
    all_goals exact h

theorem State.indexOrdered.mountScanEnd {s : State} (h : s.indexOrdered) (segment page : Nat)
    (finding : Finding Record) : (s.mountScanEnd segment page finding).indexOrdered := by
  unfold State.mountScanEnd
  split
  · exact h
  · split
    · split
      · exact h.mountScanNext _ _
      · exact h.mountScanNext _ _
      · dsimp only
        split
        · exact h.mountScanNext _ _
        · split
          · exact h.mountScanNext _ _
          · exact h.of_same
    all_goals exact h

theorem State.indexOrdered.mountBlankEnd {s : State} (h : s.indexOrdered) (segment : Nat) (blank : Bool) :
    (s.mountBlankEnd segment blank).indexOrdered := by
  unfold State.mountBlankEnd
  split
  · exact h
  · split
    · exact s.indexOrdered_mountEnd _ _ 0
    · exact s.indexOrdered_mountEnd _ _ 1

/-! ## Reads (R18, R124) -/

theorem State.indexOrdered.takeRead {s : State} (h : s.indexOrdered) (e : IndexEntry) (o : ReadOutcome) :
    (s.takeRead e o).indexOrdered := by
  unfold State.takeRead
  split
  · exact h.of_same
  · exact h.of_same
  · split
    · next claimed => exact (h.damagedClaim claimed).of_same
    · exact h.of_same

theorem State.indexOrdered.detachedEnd {s : State} (h : s.indexOrdered) (op : Op) (o : ReadOutcome) :
    (s.detachedEnd op o).indexOrdered := by
  unfold State.detachedEnd
  split
  · exact h
  · exact h
  · split
    · next segment page _ tag sequence =>
      cases claimed : s.damagedClaim tag sequence segment page with
      | none => exact h
      | some t => exact h.damagedClaim claimed
    all_goals exact h

theorem State.indexOrdered.recordOutcome {s : State} (h : s.indexOrdered) (f : InFlight) (o : ReadOutcome) :
    (s.recordOutcome f o).indexOrdered := by
  unfold State.recordOutcome
  split
  · next tag detached _ =>
    have offered : (s.offerAfter tag o).indexOrdered := h.of_same
    unfold State.fetchOutcome
    dsimp only
    split
    · exact offered.detachedEnd f.op o
    · split
      · exact offered.takeRead _ o
      · exact offered
  · cases o with
    | done r => exact h.of_same (t := s.copyReadGood r)
    | recovered r => exact h.of_same (t := s.copyReadGood r)
    | unreadable => exact h.copyReadBad
  all_goals exact h

theorem State.indexOrdered.readUnreadable {s : State} (h : s.indexOrdered) (f : InFlight) :
    (s.readUnreadable f).indexOrdered := by
  unfold State.readUnreadable
  extract_lets t
  have freed : t.indexOrdered := h.of_same (t := State.releasePort _)
  split
  · exact freed.mountHeaderEnd _ _
  · exact freed.mountScanEnd _ _ _
  · exact freed.recordOutcome f .unreadable
  · exact freed.mountBlankEnd _ false
  all_goals exact freed

theorem State.indexOrdered.attemptBad {s : State} (h : s.indexOrdered) (f : InFlight) :
    (s.attemptBad f).indexOrdered := by
  unfold State.attemptBad
  dsimp only
  split
  · exact h.of_same
  · exact h.readUnreadable _

theorem State.indexOrdered.attemptTimeout {s : State} (h : s.indexOrdered) (f : InFlight) :
    (s.attemptTimeout f).indexOrdered := State.indexOrdered.attemptBad (h.of_same) f

theorem State.indexOrdered.headerEvent {s : State} (h : s.indexOrdered) (f : InFlight) (a : ReadAttempt) :
    (s.headerEvent f a).indexOrdered := by
  have good : (s.attemptGood f).indexOrdered := h.of_same
  unfold State.headerEvent
  split
  · unfold State.pageAttempt
    split
    · exact h.attemptBad _
    · exact good.mountHeaderEnd _ _
  · unfold State.recordAttempt
    split
    · exact h.attemptBad _
    · exact good.mountScanEnd _ _ _
  · exact h.attemptTimeout f
  · exact h.attemptTimeout f
  · exact h

theorem State.indexOrdered.recordEvent {s : State} (h : s.indexOrdered) (f : InFlight) (a : ReadAttempt) :
    (s.recordEvent f a).indexOrdered := by
  have good : (s.attemptGood f).indexOrdered := h.of_same
  unfold State.recordEvent
  split
  · unfold State.readAttempt
    split
    · exact good.recordOutcome f _
    · exact h.attemptBad f
  · exact h.attemptTimeout f
  · exact h

theorem State.indexOrdered.blankEvent {s : State} (h : s.indexOrdered) (f : InFlight) (a : ReadAttempt) :
    (s.blankEvent f a).indexOrdered := by
  have freed : s.releasePort.indexOrdered := h.of_same
  unfold State.blankEvent
  split
  · exact freed.mountBlankEnd _ _
  · exact h.attemptTimeout f
  · exact h

theorem State.indexOrdered.probeEvent {s : State} (h : s.indexOrdered) (f : InFlight) (answer : ProbeAnswer) :
    (s.probeEvent f answer).indexOrdered := by
  have freed : s.releasePort.indexOrdered := h.of_same
  unfold State.probeEvent
  split
  · exact freed.mountProbeEnd answer
  · exact h

/-! ## Programs and erases -/

theorem State.indexOrdered.programEnd {s : State} (h : s.indexOrdered) (f : InFlight) (o : MediumEnd) :
    (s.programEnd f o).indexOrdered := by
  unfold State.programEnd
  extract_lets t
  have freed : t.indexOrdered := h.of_same (t := State.releasePort _)
  split
  · exact freed.commitProgramEnd f.op o
  · exact freed.jobOpEnd f.op o
  · exact freed.of_same
  · exact freed.eraseStoreEnd o
  · exact freed
  · exact freed

theorem State.indexOrdered.timeoutEvent {s : State} (h : s.indexOrdered) (f : InFlight) (left : Remnant) :
    (s.timeoutEvent f left).indexOrdered := by
  unfold State.timeoutEvent
  split
  · exact h.probeEvent f _
  · exact h.attemptTimeout f
  · exact h.attemptTimeout f
  · exact h.attemptTimeout f
  · exact h.attemptTimeout f
  · exact h.programEnd f _
  · exact h.programEnd f _
  · exact h.programEnd f _

theorem State.indexOrdered.recordProgramEvent {s : State} (h : s.indexOrdered) (f : InFlight) (o : MediumEnd) :
    (s.recordProgramEvent f o).indexOrdered := by
  unfold State.recordProgramEvent
  split
  · exact h.programEnd f o
  · exact h

theorem State.indexOrdered.headerProgramEvent {s : State} (h : s.indexOrdered) (f : InFlight) (o : MediumEnd) :
    (s.headerProgramEvent f o).indexOrdered := by
  unfold State.headerProgramEvent
  split
  · exact h.programEnd f o
  · exact h

theorem State.indexOrdered.eraseEvent {s : State} (h : s.indexOrdered) (f : InFlight) (o : MediumEnd) :
    (s.eraseEvent f o).indexOrdered := by
  unfold State.eraseEvent
  split
  · exact h.programEnd f o
  · exact h

/-! ## Resets and the step -/

theorem State.indexOrdered_reset : State.reset.indexOrdered := List.Pairwise.nil

/-- A COMMAND write leaves the index entries when the body it may run does. -/
@[simp] theorem State.accept_entries (s : State) (code : Word) (body : State → State)
    (keeps : ∀ t, (body t).index.entries = t.index.entries) :
    (s.accept code body).index.entries = s.index.entries := by
  unfold State.accept
  split
  · rw [keeps]
    simp
  · simp

theorem State.indexOrdered.run {s t : State} {effect : State → State} (h : s.indexOrdered)
    (keeps : (effect s).indexOrdered) (e : s.run effect = .next t) : t.indexOrdered := by
  obtain ⟨-, rfl⟩ | ⟨-, rfl⟩ := State.run_next e
  · exact keeps.finish
  · exact h

theorem State.indexOrdered.runOp {s t : State} {effect : State → InFlight → State} (h : s.indexOrdered)
    (keeps : ∀ f, (effect s f).indexOrdered) (e : s.runOp effect = .next t) : t.indexOrdered := by
  obtain ⟨f, -, -, -, rfl⟩ | ⟨-, -, rfl⟩ | ⟨-, rfl⟩ := State.runOp_next e
  · exact (keeps f).finish
  · exact h.finish
  · exact h

theorem State.indexOrdered.pfwAsserted {s t : State} (h : s.indexOrdered) (e : execPfwAsserted s = .next t) :
    t.indexOrdered := by
  unfold execPfwAsserted at e
  split at e
  · cases e
    exact h
  · refine h.run ?_ e
    split
    · exact h
    · exact h.of_same

theorem State.indexOrdered.pfwDeasserted {s t : State} (h : s.indexOrdered) (e : execPfwDeasserted s = .next t) :
    t.indexOrdered := by
  unfold execPfwDeasserted at e
  split at e
  · cases e
    exact h
  · refine h.run ?_ e
    split
    · exact h.of_same
    · exact h

/-- Every command keeps the order: a reset empties the index, the answers of the medium make its claims and build it,
and no other command's own effect changes its entries. -/
theorem State.indexOrdered.exec {s t : State} (c : Instr) (h : s.indexOrdered) (e : exec c s = .next t) :
    t.indexOrdered := by
  cases c with
  | hardReset cut =>
    cases e
    exact State.indexOrdered_reset
  | powerLoss cut =>
    cases e
    exact State.indexOrdered_reset
  | resetAsserted cut =>
    change execResetAsserted cut s = .next t at e
    unfold execResetAsserted at e
    split at e <;> cases e
    · exact h
    · exact State.indexOrdered_reset
  | pfwAsserted => exact h.pfwAsserted e
  | pfwDeasserted => exact h.pfwDeasserted e
  | attemptTimeout left => exact h.runOp (effect := fun t f => t.timeoutEvent f left) (fun f => h.timeoutEvent f _) e
  | bankProbe answer => exact h.runOp (effect := fun t f => t.probeEvent f answer) (fun f => h.probeEvent f _) e
  | headerRead attempt => exact h.runOp (effect := fun t f => t.headerEvent f attempt) (fun f => h.headerEvent f _) e
  | recordRead attempt => exact h.runOp (effect := fun t f => t.recordEvent f attempt) (fun f => h.recordEvent f _) e
  | blankCheck attempt => exact h.runOp (effect := fun t f => t.blankEvent f attempt) (fun f => h.blankEvent f _) e
  | recordProgram outcome =>
    exact h.runOp (effect := fun t f => t.recordProgramEvent f outcome) (fun f => h.recordProgramEvent f _) e
  | headerProgram outcome =>
    exact h.runOp (effect := fun t f => t.headerProgramEvent f outcome) (fun f => h.headerProgramEvent f _) e
  | segmentErase outcome => exact h.runOp (effect := fun t f => t.eraseEvent f outcome) (fun f => h.eraseEvent f _) e
  | store => exact h.run (effect := fun t => t.accept 0x10 State.storeBody) h.of_same e
  | storeBundle => exact h.run (effect := fun t => t.accept 0x11 State.bundleBody) h.of_same e
  | remove => exact h.run (effect := fun t => t.accept 0x12 State.removeBody) h.of_same e
  | fetch => exact h.run (effect := fun t => t.accept 0x20 State.fetchBody) h.of_same e
  | describe => exact h.run (effect := fun t => t.accept 0x21 State.describeBody) h.of_same e
  | enumerate => exact h.run (effect := fun t => t.accept 0x22 State.enumerateBody) h.of_same e
  | sync => exact h.run (effect := fun t => t.accept 0x30 State.syncBody) h.of_same e
  | setOption => exact h.run (effect := fun t => t.accept 0x40 State.setOptionBody) h.of_same e
  | readOption => exact h.run (effect := fun t => t.accept 0x41 State.readOptionBody) h.of_same e
  | healthReport => exact h.run (effect := fun t => t.accept 0x50 State.reportBody) h.of_same e
  | eraseStore => exact h.run (effect := fun t => t.accept 0x60 State.eraseBody) h.of_same e
  | badCommand code => exact h.run (effect := fun t => t.commandWrite code) h.of_same e
  | dataWrite word => exact h.run (effect := fun t => t.dataWrite word) h.of_same e
  | registerWrite address word => exact h.run (effect := fun t => t.registerWrite address word) h.of_same e
  | refusedWrite target => exact h.run (effect := fun t => t.namedWrite target) h.of_same e
  | acknowledge word => exact h.run (effect := fun t => t.acknowledge word) h.of_same e
  | intmaskWrite word => exact h.run (effect := fun t => t.writeMask word) h.of_same e
  | dataRead => exact h.run (effect := State.dataRead) h.of_same e
  | statusRead => exact h.run (effect := State.statusRead) h.of_same e
  | abort => exact h.run (effect := State.abort) h.of_same e
  | portReset => exact h.run (effect := State.portReset) h.of_same e
  | dataTimeout => exact h.run (effect := State.dataTimeout) h.of_same e
  | idleTimerExpiry => exact h.run (effect := State.idleExpiry) h.of_same e
  | commitBegin => exact h.run (effect := State.commitBeginEvent) h.of_same e
  | reclaimSelection => exact h.run (effect := State.selectionEvent) h.of_same e
  | slotWaitEnd => exact h.run (effect := State.slotWaitEvent) h.of_same e
  | writeThroughComplete => exact h.run (effect := State.writeThroughEvent) h.of_same e
  | syncComplete => exact h.run (effect := State.syncEvent) h.of_same e
  | drainEnd => exact h.run (effect := State.drainEvent) h.of_same e
  | commitHaltEnd => exact h.run (effect := State.haltEndEvent) h.of_same e

/-- Settles O58, from `State.indexOrdered.exec`: a step executes the command at the front of the queue. -/
theorem stepKeepsIndexOrder : Obligations.StepKeepsIndexOrder := by
  intro s t h e
  unfold step at e
  split at e
  · exact State.indexOrdered.exec _ (h.of_same) e
  · cases e
    exact h

/-- Settles O60, law by law. -/
theorem lawsHoldAtReset : Obligations.LawsHoldAtReset := by
  have port : State.reset.portLaw := by simp [State.portLaw, Port.coherent, State.reset]
  exact ⟨Memory.wf_nil, State.rangesHold_reset, State.indexOrdered_reset, port⟩

end Sys2Proof.Machine
end

section
/-! SUPPORT. The walk of ENUMERATE over the known tags, and the command that sends it (R36, R170). -/

-- One theorem at a time: many short ones that wait at once take a thread each.
set_option Elab.async false

namespace Sys2Proof.Machine

/-! ## The known tags (R36) -/

theorem mem_foldr_insertTag (x : Nat) (l start : List Nat) :
    x ∈ l.foldr insertTag start ↔ x ∈ l ∨ x ∈ start := by
  induction l with
  | nil => simp
  | cons t rest ih => simp only [List.foldr_cons, mem_insertTag, ih, List.mem_cons, or_assoc]

theorem pairwise_foldr_insertTag (l : List Nat) {start : List Nat} (h : start.Pairwise (· < ·)) :
    (l.foldr insertTag start).Pairwise (· < ·) := by
  induction l with
  | nil => exact h
  | cons t rest ih => exact pairwise_insertTag t _ ih

/-- The known tags are those of the PWL inserted, from the last on, among those of the index. -/
theorem State.knownTags_eq (s : State) :
    s.knownTags = (s.staging.pwl.map (·.tag)).reverse.foldr insertTag
      ((s.index.entries.map (·.tag)).foldr insertTag []) := by
  unfold State.knownTags
  rw [List.foldl_eq_foldr_reverse]

theorem State.mem_knownTags {s : State} {x : Nat} :
    x ∈ s.knownTags ↔ (∃ e ∈ s.staging.pwl, e.tag = x) ∨ ∃ e ∈ s.index.entries, e.tag = x := by
  rw [State.knownTags_eq, mem_foldr_insertTag, mem_foldr_insertTag]
  simp

theorem State.pairwise_knownTags (s : State) : s.knownTags.Pairwise (· < ·) := by
  rw [State.knownTags_eq]
  exact pairwise_foldr_insertTag _ (pairwise_foldr_insertTag _ List.Pairwise.nil)

/-- A visible tag is known: the PWL or the index has an entry for it (R9). -/
theorem State.mem_knownTags_of_isPresent {s : State} {x : Nat} (h : (s.visible x).isPresent = true) :
    x ∈ s.knownTags := by
  unfold State.visible at h
  rw [State.mem_knownTags]
  cases tail : s.tailEntry x with
  | some e =>
    have listed := List.mem_of_find?_eq_some tail
    have named := List.find?_some tail
    exact .inl ⟨e, List.mem_reverse.mp listed, by simpa using named⟩
  | none =>
    cases entry : s.lookup x with
    | some e =>
      have named := List.find?_some entry
      exact .inr ⟨e, List.mem_of_find?_eq_some entry, by simpa using named⟩
    | none => simp [tail, entry, visibleInIndex, Visible.isPresent] at h

/-! ## The listing -/

/-- A member of an ascending list beyond its first `m`: there are `m`, and all of them lie below it. -/
theorem lt_of_not_mem_take {l : List Nat} {m x : Nat} (h : l.Pairwise (· < ·)) (hx : x ∈ l)
    (out : x ∉ l.take m) : (l.take m).length = m ∧ ∀ y ∈ l.take m, y < x := by
  rw [← List.take_append_drop m l] at h hx
  have later : x ∈ l.drop m := (List.mem_append.mp hx).resolve_left out
  have more : m < l.length := by
    have := List.length_pos_of_mem later
    rw [List.length_drop] at this
    omega
  exact ⟨by rw [List.length_take]; omega, fun y hy => (List.pairwise_append.mp h).2.2 y hy x later⟩

/-- Settles O24: the listing takes the first `m` of an ascending list that holds every visible tag from `t`. -/
theorem listingIsTheLowestVisibleTags : Obligations.ListingIsTheLowestVisibleTags := by
  intro s t m
  unfold State.listing
  have ascending := s.pairwise_knownTags.filter fun x => decide (t ≤ x) && (s.visible x).isPresent
  refine ⟨ascending.sublist (List.take_sublist _ _), List.length_take_le _ _, fun x hx => ?_, fun x from_t present out => ?_⟩
  · simpa using (List.mem_filter.mp (List.mem_of_mem_take hx)).2
  · refine lt_of_not_mem_take ascending ?_ out
    exact List.mem_filter.mpr ⟨State.mem_knownTags_of_isPresent present, by simp [from_t, present]⟩

/-! ## The command (R170) -/

theorem exec_enumerate {s : State} (ready : s.ready) :
    exec .enumerate s = .next (s.take 0x22).enumerateBody.finish := by
  obtain ⟨⟨on, -⟩, idle, -⟩ := ready
  change (s.run fun t => t.accept 0x22 State.enumerateBody) = _
  rw [State.run_of_on on, State.accept_of_idle idle]

theorem validTag_eq_false_iff (tag : Nat) : validTag tag = false ↔ tag < 1 ∨ 65534 < tag := by
  simp only [validTag, Config.lastTag, Bool.and_eq_false_iff, decide_eq_false_iff_not]
  omega

/-- ENUMERATE, taken, refuses a start or a COUNT out of range, and else sends the listing. -/
theorem State.enumerateBody_take (s : State) (code : Word) :
    (s.take code).enumerateBody =
      if s.window.tag.toNat < 1 ∨ 65534 < s.window.tag.toNat ∨ s.window.count.toNat < 1 ∨
          64 < s.window.count.toNat then (s.take code).endCommand .badParameter 0
      else
        let tags := s.listing s.window.tag.toNat s.window.count.toNat
        ((s.take code).fillFrame (Machine.word tags.length :: tags.map Machine.word)).enterSending
          (1 + tags.length) := by
  change (if !validTag s.window.tag.toNat then _ else
    if s.window.count.toNat < 1 ∨ 64 < s.window.count.toNat then _ else _) = _
  simp only [Bool.not_eq_true', validTag_eq_false_iff]
  by_cases start : s.window.tag.toNat < 1 ∨ 65534 < s.window.tag.toNat
  · rw [if_pos start, if_pos (or_assoc.mp (.inl start))]
  · rw [if_neg start]
    simp only [← or_assoc, start, false_or]
    rfl

/-- Settles O23, from `State.enumerateBody_take`. -/
theorem enumerateSendsTheListing : Obligations.EnumerateSendsTheListing := by
  intro s ready
  dsimp only
  rw [exec_enumerate ready, State.enumerateBody_take]
  refine ⟨fun refused => ?_, fun ⟨start, last, count, most⟩ => ?_⟩
  · rw [if_pos refused, State.take_endCommand ready.2.2]
  · rw [if_neg (by omega)]
    simp only [State.fillFrame, List.length_cons, List.length_map]
    rfl

end Sys2Proof.Machine
end

section
/-! SUPPORT. What follows an event in its step: the causes only grow (R159), the reservations are counted (R21), and the
health conditions and the space state follow what they read (R75, R76, R183). -/

-- One theorem at a time: many short ones that wait at once take a thread each.
set_option Elab.async false

namespace Sys2Proof.Machine

/-! ## No cause is lost (R159) -/

/-- An operation that keeps the causes loses none. -/
theorem Causes.within_of_eq {a b : Causes} (e : b = a) : a.within b := e ▸ Causes.within_refl a

theorem State.completeAppend_within (s : State) (w : Work) (slots : List Nat) :
    s.causes.within (s.completeAppend w slots).causes := by
  unfold State.completeAppend
  split
  · split
    · exact State.endCommand_within _ _ _
    all_goals exact Causes.within_refl _
  · exact State.endCommand_within _ _ _

theorem State.reserveAndProceed_within (s : State) (w : Work) :
    s.causes.within (s.reserveAndProceed w).causes := by
  unfold State.reserveAndProceed State.proceed
  dsimp only
  split
  · simp [State.enterPayload, State.raiseData, Causes.within]
  · exact Causes.within_trans (Causes.within_of_eq (by simp)) (State.completeAppend_within _ _ _)

theorem State.eraseFrom_within (todo : List Nat) (s : State) : s.causes.within (State.eraseFrom todo s).causes := by
  induction todo generalizing s with
  | nil => exact Causes.within_trans (Causes.within_of_eq (by simp)) (State.endErasure_within _)
  | cons n rest ih =>
    unfold State.eraseFrom
    split
    · exact State.endErasure_within ({ s with background := ⟨s.pendingErases, none⟩ } : State)
    · dsimp only
      split
      · split
        · exact Causes.within_trans (Causes.within_of_eq (by simp)) (ih _)
        · exact Causes.within_of_eq (by simp)
      · exact Causes.within_of_eq (by simp)

theorem State.commitNoRoom_within (s : State) : s.causes.within s.commitNoRoom.causes := by
  unfold State.commitNoRoom
  split
  · split
    · exact State.enterHalt_within _ _
    · exact Causes.within_refl _
  · exact State.enterHalt_within ({ s with space := { s.space with state := .full } } : State) .noSpace

theorem State.grantCommit_within (s : State) : s.causes.within s.grantCommit.causes := by
  unfold State.grantCommit
  split
  · exact Causes.within_refl _
  · dsimp only
    split
    · exact Causes.within_of_eq (by simp)
    · split
      · next answered => exact Causes.within_of_eq (by simp [State.claimPages_frame' answered])
      · next answered => exact Causes.within_of_eq (by simp [State.claimPages_frame' answered])
      · next answered => exact Causes.within_of_eq (by simp [State.claimPages_frame' answered])
      · next answered =>
        exact Causes.within_trans (Causes.within_of_eq (by simp [State.claimPages_frame' answered]))
          (State.commitNoRoom_within _)

theorem State.grantTo_within (s : State) (a : Applicant) : s.causes.within (s.grantTo a).causes := by
  unfold State.grantTo
  extract_lets _ t
  cases a with
  | commit => exact t.grantCommit_within
  | read => exact Causes.within_of_eq (by simp [t])
  | background => exact Causes.within_of_eq (by simp [t])
  | reclaimer => exact Causes.within_of_eq (by simp [t])

theorem healthRefresh_eq (s : State) : healthRefresh s =
    if s.conditionsNow = s.health.conditions then none
    else some (if s.health.conditions.rises s.conditionsNow then
      { s with health := { s.health with conditions := s.conditionsNow }, causes := { s.causes with health := true } }
    else { s with health := { s.health with conditions := s.conditionsNow } }) := rfl

theorem healthRefresh_within {s t : State} (e : healthRefresh s = some t) : s.causes.within t.causes := by
  rw [healthRefresh_eq] at e
  split at e
  · cases e
  · cases e
    split
    · simp [Causes.within]
    · exact Causes.within_refl _

theorem drainEnd_within {s t : State} (e : drainEnd s = some t) : s.causes.within t.causes := by
  have raised (u : State) : u.causes.within u.raiseDrained.causes := by simp [Causes.within, State.raiseDrained]
  unfold Machine.drainEnd at e
  split at e
  · split at e
    · cases e
      exact raised _
    · split at e
      · cases e
        exact raised _
      · cases e
  · cases e

theorem commitBegin_within {s t : State} (e : commitBegin s = some t) : s.causes.within t.causes := by
  unfold Machine.commitBegin at e
  split at e
  · cases e
    exact State.beginUnit_within s
  · cases e

theorem consequence_within {s t : State} (e : consequence s = some t) : s.causes.within t.causes := by
  rcases consequence_cases e with e | e | e | e | e | e | e | e | e | e | e | e | e | e | e | e
  · exact healthRefresh_within e
  · exact Causes.within_of_eq (by simp [spaceRefresh_frame e])
  · unfold eraseStoreStart at e
    split at e
    · split at e
      · cases e
        exact Causes.within_trans (Causes.within_of_eq (by simp)) (State.eraseFrom_within _ _)
      · cases e
    · cases e
  · exact Causes.within_of_eq (by simp [jobAbandon_frame e])
  · unfold slotWaitEnd at e
    split at e
    · split at e
      · cases e
        exact State.reserveAndProceed_within _ _
      · cases e
    · cases e
  · unfold writeThroughComplete at e
    split at e
    · split at e
      · cases e
      · cases e
        exact State.endCommand_within _ _ _
    · cases e
  · unfold syncComplete at e
    split at e
    · split at e
      · cases e
        exact State.endCommand_within _ _ _
      · cases e
    · cases e
  · unfold commitHaltEnd at e
    split at e
    · cases e
      exact State.leaveHalt_within s
    · cases e
  · unfold commitNext at e
    split at e
    · cases e
      split
      · exact Causes.within_refl _
      · exact State.beginUnit_within s
    · cases e
  · unfold commitStart at e
    split at e
    · exact commitBegin_within e
    · cases e
  · exact drainEnd_within e
  · exact Causes.within_of_eq (by simp [jobSelect_frame e])
  · exact Causes.within_of_eq (by simp [reclaimSelection_frame e])
  · exact Causes.within_of_eq (by simp [jobRequest_frame e])
  · exact Causes.within_of_eq (by simp [backgroundRequest_frame e])
  · unfold grant at e
    split at e
    · obtain ⟨a, -, rfl⟩ := Option.map_eq_some_iff.mp e
      exact s.grantTo_within a
    · cases e

/-- No cause leaves the pending set at the end of a step. -/
theorem State.finish_within (s : State) : s.causes.within s.finish.causes := by
  have settled := settle_relation (R := fun a b => a.causes.within b.causes) (fun a => Causes.within_refl _)
    (fun a b c => Causes.within_trans) (fun a b e => consequence_within e) Config.settleRounds s
  unfold State.finish
  generalize settle Config.settleRounds s = t at settled
  exact settled

/-! ## Reservations (R21) -/

theorem Activity.mem_reservingTags {a : Activity} {tag : Nat} : tag ∈ a.reservingTags ↔
    (∃ w : Work, a = .slotWait w ∧ w.kind ≠ .remove ∧ ∃ m ∈ w.members, m.tag = tag) ∨
      ∃ (w : Work) (slots : List Nat) (i : Nat), a = .payload w slots i ∧ ∃ m ∈ w.members, m.tag = tag := by
  unfold Activity.reservingTags
  split
  · next w =>
    cases kind : w.kind <;> simp [kind]
  all_goals simp

theorem State.nodup_reservingTags (s : State) : s.reservingTags.Nodup :=
  ((pairwise_foldr_insertTag _ List.Pairwise.nil).filter _).imp fun h => ne_of_lt h

theorem State.mem_reservingTags {s : State} {tag : Nat} : tag ∈ s.reservingTags ↔
    s.lookup tag = none ∧ ((∃ e ∈ s.staging.pwl, e.kind = .write ∧ e.tag = tag) ∨
      tag ∈ s.port.activity.reservingTags) := by
  unfold State.reservingTags
  rw [List.mem_filter, mem_foldr_insertTag, List.mem_append]
  simp [and_comm, and_assoc]

/-- At the end of a step the reservation count is the number of tags that need a reservation. -/
theorem State.finish_reservations (s : State) : s.finish.index.reservations = s.finish.reservingTags.length := by
  unfold State.finish
  generalize settle Config.settleRounds s = t
  rfl

/-! ## The health conditions (R183) -/

/-- The highest erase count of the usable segments reaches a limit above 0 when that of one of them does (R74). -/
theorem State.le_maxErase_iff {s : State} {limit : Nat} (positive : 1 ≤ limit) :
    limit ≤ s.maxErase ↔ ∃ g ∈ s.space.segments, g.state ≠ .retired ∧ limit ≤ g.eraseCount := by
  have top : s.maxErase = highest (s.usable.map (·.eraseCount)) := by
    unfold State.maxErase highest
    rw [List.foldl_map]
  obtain ⟨bound, zero | reached⟩ := highest_spec (s.usable.map (·.eraseCount))
  all_goals
    rw [top]
    constructor
  · intro le
    omega
  · rintro ⟨g, mem, state, le⟩
    have := bound g.eraseCount (List.mem_map_of_mem (by simp [State.usable, mem, state]))
    omega
  · intro le
    obtain ⟨g, usable, count⟩ := List.mem_map.mp reached
    obtain ⟨mem, state⟩ := List.mem_filter.mp usable
    exact ⟨g, mem, by simpa using state, count ▸ le⟩
  · rintro ⟨g, mem, state, le⟩
    exact le_trans le (bound g.eraseCount (List.mem_map_of_mem (by simp [State.usable, mem, state])))

theorem EntryKind.isLost_iff {k : EntryKind} : k.isLost = true ↔ ∃ prior : Nat, k = .lost prior := by
  cases k <;> simp [EntryKind.isLost]

theorem State.conditionsNow_recordsLost {s : State} :
    s.conditionsNow.recordsLost = true ↔ ∃ e ∈ s.index.entries, ∃ prior : Nat, e.kind = .lost prior := by
  simp only [State.conditionsNow, List.any_eq_true, EntryKind.isLost_iff]

theorem State.conditionsNow_storeReadOnly {s : State} : s.conditionsNow.storeReadOnly = true ↔
    s.space.reasons.worn = true ∨ s.space.reasons.sequence = true ∨ s.space.reasons.degraded = true := by
  simp [State.conditionsNow, State.readOnly, Reasons.readOnly, or_assoc]

theorem Conditions.rises_iff {old now : Conditions} : old.rises now = true ↔
    (now.spareLow = true ∧ old.spareLow = false) ∨ (now.wearHigh = true ∧ old.wearHigh = false) ∨
      (now.spaceFull = true ∧ old.spaceFull = false) ∨ (now.storeReadOnly = true ∧ old.storeReadOnly = false) ∨
      (now.recordsLost = true ∧ old.recordsLost = false) := by
  simp [Conditions.rises, or_assoc]

/-! ## The space state (R75, R76, R103) -/

theorem State.eligible_iff {s : State} {g : Segment} : s.eligible g = true ↔
    (g.state = .filled ∧ 1 ≤ g.dead ∧ g.number ∉ s.reclaim.exclusion ∧ (s.space.freeList = [] → g.live = 0)) ∨
      (g.state = .reclaiming ∧ ∃ j : Job, s.reclaim.job = some j ∧ j.kind = .segment g.number) := by
  have victim : s.victim? = some g.number ↔ ∃ j : Job, s.reclaim.job = some j ∧ j.kind = .segment g.number := by
    unfold State.victim?
    cases s.reclaim.job with
    | none => simp
    | some j => cases kind : j.kind <;> simp [kind]
  have excluded (filled : g.state = .filled) : s.excluded g = false ↔
      g.number ∉ s.reclaim.exclusion ∧ (s.space.freeList = [] → g.live = 0) := by
    simp [State.excluded, State.freeCount, filled]
  unfold State.eligible
  simp only [Bool.or_eq_true, Bool.and_eq_true, beq_iff_eq, decide_eq_true_eq, Bool.not_eq_true', victim, and_assoc]
  exact or_congr_left (and_congr_right fun filled => and_congr_right fun _ => excluded filled)

theorem State.anyEligible_eq_false_iff {s : State} :
    s.anyEligible = false ↔ ∀ g ∈ s.space.segments, ¬ s.eligible g = true := by
  simp [State.anyEligible]

/-! ## The first consequences -/

/-- With the conditions as they read, the space state is re-evaluated first; otherwise they are. -/
theorem consequence_of_conditions {s : State} (awake : s.awake) :
    (s.health.conditions ≠ s.conditionsNow → consequence s = healthRefresh s) ∧
      (s.health.conditions = s.conditionsNow → ∀ t, spaceRefresh s = some t → consequence s = some t) := by
  have runs := awake.blocksRun
  refine ⟨fun differ => ?_, fun same t e => ?_⟩
  · have refreshed : ∃ t, healthRefresh s = some t := ⟨_, by rw [healthRefresh_eq, if_neg (Ne.symm differ)]⟩
    obtain ⟨t, e⟩ := refreshed
    simp [consequence, runs, consequences, firstChange, e]
  · have kept : healthRefresh s = none := by rw [healthRefresh_eq, if_pos same.symm]
    simp [consequence, runs, consequences, firstChange, kept, e]

theorem consequence_none {s : State} (awake : s.awake) (e : consequence s = none) :
    healthRefresh s = none ∧ spaceRefresh s = none := by
  rw [consequence, if_pos awake.blocksRun] at e
  have none_arises := firstChange_none _ s e
  exact ⟨none_arises _ (by simp [consequences]), none_arises _ (by simp [consequences])⟩

/-- FULL is kept while F is below 2 and no segment is eligible (R76, R103). -/
def State.staysFull (s : State) : Prop :=
  s.space.state = .full ∧ s.space.freeList.length < 2 ∧ s.anyEligible = false

/-- Otherwise it follows F (R75). -/
theorem spaceRefresh_moves {s : State} (leaves : ¬ s.staysFull) (moves : s.space.state ≠ s.spaceByFree) :
    spaceRefresh s = some { s with space := { s.space with state := s.spaceByFree } } := by
  unfold spaceRefresh
  exact (if_neg leaves).trans (if_neg moves)

/-- Settles O7: what the settled consequences keep, what the end of the step counts, and the first two consequences. -/
theorem consequencesFollowTheState : Obligations.ConsequencesFollowTheState := by
  intro s
  refine ⟨s.finish_within, ⟨s.finish_reservations, s.finish.nodup_reservingTags, fun tag => ?_⟩, ?_⟩
  · rw [State.mem_reservingTags, Activity.mem_reservingTags]
  · extract_lets now old eligible staysFull byFree rise
    have stays : s.staysFull ↔ staysFull := by
      simp only [State.staysFull, State.anyEligible_eq_false_iff, State.eligible_iff]
      rfl
    have risen : old.rises now = true ↔ rise := Conditions.rises_iff
    refine ⟨decide_eq_true_iff, fun limit => ?_,
      by simp [now, State.conditionsNow], State.conditionsNow_storeReadOnly, State.conditionsNow_recordsLost,
      fun awake => ?_⟩
    · exact decide_eq_true_iff.trans (State.le_maxErase_iff (by omega))
    · obtain ⟨refreshed, next⟩ := consequence_of_conditions awake
      refine ⟨fun differ up => ?_, fun differ level => ?_, fun same leaves moves => ?_, fun settled => ?_⟩
      · rw [refreshed differ, healthRefresh_eq, if_neg (Ne.symm differ), if_pos (risen.mpr up)]
      · rw [refreshed differ, healthRefresh_eq, if_neg (Ne.symm differ), if_neg (fun up => level (risen.mp up))]
      · exact next same _ (spaceRefresh_moves (fun full => leaves (stays.mp full)) moves)
      · obtain ⟨conditions, space⟩ := consequence_none awake settled
        refine ⟨?_, ?_⟩
        · by_contra differ
          rw [healthRefresh_eq, if_neg (Ne.symm differ)] at conditions
          cases conditions
        · by_contra moved
          obtain ⟨leaves, moves⟩ := not_or.mp moved
          rw [spaceRefresh_moves (fun full => leaves (stays.mp full)) moves] at space
          cases space

end Sys2Proof.Machine
end

section
/-! SUPPORT. The outcome of a RECORD READ handed to its requester, and what a FETCH makes of it (R18, R124, R155, R168). -/

-- One theorem at a time: many short ones that wait at once take a thread each.
set_option Elab.async false

namespace Sys2Proof.Machine

/-! ## The outcome handed to the requester (R124, R127) -/

/-- The outcome of a read whose attempt was good: DONE at the first attempt, RECOVERED at a later one. -/
def InFlight.outcome (f : InFlight) (r : Record) : ReadOutcome := if f.attempts = 0 then .done r else .recovered r

/-- The state in which the requester takes a record: the read is counted when it is not the first attempt, and the
port is free. -/
def State.answered (s : State) (f : InFlight) : State := (if f.attempts = 0 then s else s.countRecovered).releasePort

/-- How the last attempt of a read of these pages fails: a mismatch, or a timeout in either of two rows (log 8). -/
def lastAttemptFails (c : Instr) (s : State) (segment page pages tag sequence : Nat) (noise : Patch) : Prop :=
  (c = .recordRead (.ready noise) ∧ readRecord s.medium segment page pages tag sequence noise = none) ∨
    c = .recordRead .timeout ∨ ∃ left : Remnant, c = .attemptTimeout left

theorem State.readAttempt_found {s : State} (awake : s.awake) (f : InFlight) (r : Record) :
    s.readAttempt f (some r) = (s.answered f).recordOutcome f (f.outcome r) := by
  have counted : s.noteRecovered = s.countRecovered := by simp only [State.noteRecovered, awake.2]
  simp only [State.readAttempt, State.attemptGood, counted]
  rfl

section
variable {s : State} {f : InFlight} {segment page pages tag sequence : Nat} {noise : Patch}
  (awake : s.awake) (flight : s.sequencer.inFlight = some f) (there : s.opExists f.op = true)
  (op : f.op = .recordRead segment page pages tag sequence)
include awake op

theorem State.attemptBad_unreadable (last : f.attempts + 1 = f.allowed) :
    s.attemptBad f = (s.unread true).recordOutcome f .unreadable := by
  have counted : s.noteUnreadable = s.countUnreadable := by simp only [State.noteUnreadable, awake.2]
  obtain ⟨who, _, attempts, allowed, seen⟩ := f
  obtain rfl := op
  unfold State.attemptBad
  simp only [show attempts + 1 = allowed from last, lt_irrefl, if_false, State.readUnreadable, counted]
  rfl

theorem State.attemptTimeout_unreadable (last : f.attempts + 1 = f.allowed) :
    s.attemptTimeout f = (s.unread false).recordOutcome f .unreadable := by
  have counted : s.noteTimeout = s.countTimeout := by simp only [State.noteTimeout, awake.2]
  have still : s.countTimeout.awake := by simpa [State.awake] using awake
  rw [State.attemptTimeout, counted, State.attemptBad_unreadable still op last]
  rfl

include flight there

/-- A record found goes to the requester of the read. -/
theorem exec_recordRead_answered {r : Record}
    (found : readRecord s.medium segment page pages tag sequence noise = some r) :
    exec (.recordRead (.ready noise)) s = .next ((s.answered f).recordOutcome f (f.outcome r)).finish := by
  refine (State.runOp_of_exists awake.1 flight there fun t f => t.recordEvent f (.ready noise)).trans ?_
  simp only [State.recordEvent, op, found]
  rw [State.readAttempt_found awake]

/-- Each way in which the last attempt can fail is counted, and UNREADABLE goes to the requester of the read. -/
theorem exec_recordRead_unreadable {c : Instr} (last : f.attempts + 1 = f.allowed)
    (fails : lastAttemptFails c s segment page pages tag sequence noise) :
    exec c s = .next ((s.unread (decide (c = .recordRead (.ready noise)))).recordOutcome f
      .unreadable).finish := by
  obtain ⟨rfl, missing⟩ | rfl | ⟨left, rfl⟩ := fails
  · refine (State.runOp_of_exists awake.1 flight there fun t f => t.recordEvent f (.ready noise)).trans ?_
    simp only [State.recordEvent, op, missing, State.readAttempt]
    rw [State.attemptBad_unreadable awake op last]
    simp
  · refine (State.runOp_of_exists awake.1 flight there fun t f => t.recordEvent f .timeout).trans ?_
    simp only [State.recordEvent, op]
    rw [State.attemptTimeout_unreadable awake op last]
    simp
  · refine (State.runOp_of_exists awake.1 flight there fun t f => t.timeoutEvent f left).trans ?_
    simp only [State.timeoutEvent, op]
    rw [State.attemptTimeout_unreadable awake op last]
    simp

end

/-! ## What a FETCH makes of it (R18, R114, R155, R168) -/

section
variable {s : State} {f : InFlight} {tag : Nat}

theorem State.recordOutcome_fetch {e : IndexEntry} (who : f.requester = .fetch tag false)
    (fetching : s.port.activity = .fetch e) (o : ReadOutcome) :
    s.recordOutcome f o = (s.offerAfter tag o).takeRead e o := by
  simp [State.recordOutcome, who, State.fetchOutcome, fetching]

theorem State.recordOutcome_detached (who : f.requester = .fetch tag true) (o : ReadOutcome) :
    s.recordOutcome f o = (s.offerAfter tag o).detachedEnd f.op o := by
  simp [State.recordOutcome, who, State.fetchOutcome]

end

/-- The state in which a FETCH takes a record: its read is counted, and a RECOVERED one has made its offer to the
Refresh List (R114, R127). -/
def State.offered (s : State) (f : InFlight) (tag : Nat) : State :=
  let listed := s.reclaim.refreshList
  let offers := f.attempts ≠ 0 ∧ s.window.options.refresh = 1
  let dropped := tag ∈ listed ∨ 8 ≤ listed.length
  let counted := if f.attempts = 0 then s.health.counters else { s.health.counters with
    recoveredReads := bump s.health.counters.recoveredReads }
  { s with
    sequencer := { s.sequencer with inFlight := none, pin := none }
    health := { s.health with counters := if offers ∧ dropped then
      { counted with refreshDrops := bump counted.refreshDrops } else counted }
    reclaim := { s.reclaim with refreshList := if offers ∧ ¬ dropped then listed ++ [tag] else listed } }

theorem State.offerRefresh_of_dropped {s : State} {tag : Nat}
    (dropped : tag ∈ s.reclaim.refreshList ∨ 8 ≤ s.reclaim.refreshList.length) :
    s.offerRefresh tag = s.countRefreshDrop := by
  unfold State.offerRefresh
  exact if_pos (by simpa using dropped)

theorem State.offerRefresh_of_room {s : State} {tag : Nat}
    (room : ¬ (tag ∈ s.reclaim.refreshList ∨ 8 ≤ s.reclaim.refreshList.length)) :
    s.offerRefresh tag =
      { s with reclaim := { s.reclaim with refreshList := s.reclaim.refreshList ++ [tag] } } := by
  unfold State.offerRefresh
  exact if_neg (by simpa using room)

theorem State.offerAfter_answered (s : State) (f : InFlight) (tag : Nat) (r : Record) :
    (s.answered f).offerAfter tag (f.outcome r) = s.offered f tag := by
  unfold State.answered InFlight.outcome State.offered
  by_cases first : f.attempts = 0
  · simp [first, State.offerAfter, State.releasePort]
  · by_cases refresh : s.window.options.refresh = 1
    · have offering (t : State) (o : t.window.options.refresh = 1) : t.offerAfter tag (.recovered r) =
          t.offerRefresh tag := if_pos o
      by_cases dropped : tag ∈ s.reclaim.refreshList ∨ 8 ≤ s.reclaim.refreshList.length
      · simp only [first, refresh, dropped, if_false, if_true, ne_eq, not_false_eq_true, not_true, and_self, and_false]
        rw [offering _ (by simpa using refresh), State.offerRefresh_of_dropped (by simpa using dropped)]
        rfl
      · simp only [first, refresh, dropped, if_false, if_true, ne_eq, not_false_eq_true, and_self, and_false]
        rw [offering _ (by simpa using refresh), State.offerRefresh_of_room (by simpa using dropped)]
        rfl
    · have quiet (t : State) (o : t.window.options.refresh ≠ 1) : t.offerAfter tag (.recovered r) = t := if_neg o
      simp only [first, refresh, if_false, and_false, false_and]
      exact quiet _ (by simpa using refresh)

/-- A payload delivered goes to SENDING, or, when its length is 0, the FETCH completes (R154, R168). -/
theorem State.deliver_of_pos {s : State} {n : Nat} (long : 0 < n) (payload : List Byte) (sequence : Nat) :
    s.deliver payload n sequence =
      (((s.fillFrame (packWords payload)).loadLength n).loadSequence sequence).enterSending (wordsFor n) :=
  if_neg (by omega)

theorem State.deliver_eq {s : State} (pfw : s.pfw = false) (payload : List Byte) (n sequence : Nat) :
    s.deliver payload n sequence =
      let loaded := ((s.fillFrame (packWords payload)).loadLength n).loadSequence sequence
      if n = 0 then loaded.completedAs .none 0 else loaded.enterSending (wordsFor n) := by
  extract_lets loaded
  rw [← State.endCommand_eq (s := loaded) (by simpa [loaded] using pfw) .none 0]
  rfl

/-- A damaged claim that is taken ends the FETCH with UNREADABLE (R18, R168). -/
theorem State.takeRead_taken {s t : State} {e : IndexEntry} (pfw : s.pfw = false)
    (claimed : s.damagedClaim e.tag e.sequence e.segment e.page = some t) :
    s.takeRead e .unreadable = t.completedAs .unreadable 0 := by
  simp only [State.takeRead, claimed]
  exact State.endCommand_eq (by simpa [State.damagedClaim_frame claimed] using pfw) _ _

theorem State.takeRead_refused {s : State} {e : IndexEntry}
    (refused : s.damagedClaim e.tag e.sequence e.segment e.page = none) :
    s.takeRead e .unreadable = s.fetchLookup e.tag := by
  simp only [State.takeRead, refused]

/-- Settles O43: the outcome goes to the FETCH, or to the read it has left; each then acts on it. -/
theorem fetchTakesItsRead : Obligations.FetchTakesItsRead := by
  intro c noise s f tag detached segment page pages t q awake flight who op there
    free listed offers dropped counted good bad loads sends fails locates
  have good_eq : good = s.offered f tag := rfl
  have bad_eq : s.unread (decide (c = .recordRead (.ready noise))) = bad := by
    simp only [State.unread_eq, decide_eq_true_eq]
    rfl
  have found (r : Record) (read : readRecord s.medium segment page pages t q noise = some r) :=
    exec_recordRead_answered awake flight there op read
  have failed (h : fails) : exec c s = .next (bad.recordOutcome f .unreadable).finish :=
    bad_eq ▸ exec_recordRead_unreadable awake flight there op h.1 h.2
  refine ⟨fun e attached fetching => ⟨fun r read => ?_, fun h pfw => ?_⟩,
    fun gone => ⟨fun r read => ?_, fun h => ?_⟩⟩
  · subst attached
    have still : (s.answered f).port.activity = .fetch e := by
      unfold State.answered
      split <;> exact fetching
    rw [found r read, State.recordOutcome_fetch who still, State.offerAfter_answered, ← good_eq]
    have taken : good.takeRead e (f.outcome r) = good.deliver r.payload e.length e.sequence := by
      unfold InFlight.outcome
      split <;> rfl
    rw [taken]
    refine ⟨fun long => ?_, fun empty pfw => ?_⟩
    · rw [State.deliver_of_pos long]
      rfl
    · rw [State.deliver_eq (s := good) pfw, empty]
      rfl
  · subst attached
    rw [failed h, State.recordOutcome_fetch (s := bad) who fetching]
    have quiet : bad.pfw = false := pfw
    refine ⟨fun x n p d entry kind same_sequence same_segment same_page => ?_, fun elsewhere => ?_⟩
    · have claimed := State.damagedClaim_taken (s := bad) entry kind same_sequence same_segment same_page
      exact congrArg (fun u => Host.Outcome.next u.finish) (State.takeRead_taken quiet claimed)
    · have refused : bad.damagedClaim e.tag e.sequence e.segment e.page = none := State.damagedClaim_refused elsewhere
      have taken : (bad.offerAfter tag .unreadable).takeRead e .unreadable = bad.fetchLookup e.tag :=
        State.takeRead_refused refused
      have sees : bad.visible e.tag = s.visible e.tag := rfl
      rw [taken]
      unfold State.fetchLookup
      rw [sees]
      cases s.visible e.tag with
      | absent => exact congrArg (fun u => Host.Outcome.next u.finish) (State.endCommand_eq quiet _ _)
      | lost x =>
        exact congrArg (fun u => Host.Outcome.next u.finish)
          (State.endCommand_eq (s := loads bad 0 x.sequence []) quiet _ _)
      | stored x => rfl
      | damaged x => rfl
      | staged x => exact congrArg (fun u => Host.Outcome.next u.finish) (State.deliver_eq quiet _ x.length 0)
  · subst gone
    rw [found r read, State.recordOutcome_detached who, State.offerAfter_answered, ← good_eq]
    unfold InFlight.outcome
    split <;> rfl
  · subst gone
    rw [failed h, State.recordOutcome_detached who, op]
    refine ⟨fun x n p d entry kind same_sequence same_segment same_page => ?_, fun elsewhere => ?_⟩
    · have claimed := State.damagedClaim_taken (s := bad) entry kind same_sequence same_segment same_page
      exact congrArg (fun u => Host.Outcome.next (u.getD bad).finish) claimed
    · have refused : bad.damagedClaim t q segment page = none := State.damagedClaim_refused elsewhere
      exact congrArg (fun u => Host.Outcome.next (u.getD bad).finish) refused

end Sys2Proof.Machine
end

section
/-! SUPPORT. The outcome of the Commit Engine's program: the install of a unit (R26-R28, R84, R87), and the retry or the
halt after a failure (R73, R88-R91). -/

-- One theorem at a time: many short ones that wait at once take a thread each.
set_option Elab.async false

namespace Sys2Proof.Machine

/-! ## The outcome handed to the engine -/

section
variable {s : State} {f : InFlight} {segment page : Nat} {r : Record}
  (awake : s.awake) (flight : s.sequencer.inFlight = some f) (who : f.requester = .commit)
  (there : s.opExists f.op = true) (op : f.op = .recordProgram segment page r)
include awake flight who there op

/-- A RECORD PROGRAM of the engine has ended: the medium is as the end left it, the port is free, the engine takes it. -/
theorem exec_recordProgram_commit (o : MediumEnd) :
    exec (.recordProgram o) s = .next ((s.freedBy f.op o).commitProgramEnd f.op o).finish := by
  refine (State.runOp_of_exists awake.1 flight there fun t f => t.recordProgramEvent f o).trans ?_
  simp only [State.recordProgramEvent, op, State.programEnd, who, State.freedBy]

theorem exec_recordProgram_commit_done :
    exec (.recordProgram .done) s = .next ((s.freedBy f.op .done).commitProgramDone segment page).finish := by
  rw [exec_recordProgram_commit awake flight who there op .done]
  simp only [op, State.commitProgramEnd, failureOf]

theorem exec_recordProgram_commit_failed {o : MediumEnd} {x : Failure} (failed : failureOf o = some x) :
    exec (.recordProgram o) s =
      .next ((s.freedBy f.op o).commitFailure segment (pagesFor r.length) x).finish := by
  rw [exec_recordProgram_commit awake flight who there op o]
  simp only [op, State.commitProgramEnd, failed]

end

/-! ## A unit programmed DONE (R84, R86, R87) -/

section
variable {s : State} {u : CommitUnit} (unit : s.commit.unit = some u) (segment page : Nat)
include unit

theorem State.commitProgramDone_member (more : u.member + 1 < (unitEntries s.staging.pwl).length) :
    s.commitProgramDone segment page =
      ({ s with commit := { s.commit with unit := some { u with member := u.member + 1 } } }
        : State).lodgeCommit := by
  unfold State.commitProgramDone
  simp only [unit, more, if_true]

theorem State.commitProgramDone_last (last : (unitEntries s.staging.pwl).length ≤ u.member + 1) :
    s.commitProgramDone segment page =
      s.commitInstall u segment (match s.space.range with
        | some r => r.page
        | none => page) := by
  unfold State.commitProgramDone
  simp only [unit]
  exact if_neg (by omega)

end

/-- A member of the unit is stale when its tag's entry has a higher sequence than the one it was given (R27). -/
theorem State.any_stale_iff {s : State} {u : CommitUnit} {entries : List PwlEntry} :
    (s.unitRecords u 0 entries).any (fun r => s.stale r.tag r.sequence) = true ↔
      ∃ (k : Nat) (e : PwlEntry) (x : IndexEntry),
        entries[k]? = some e ∧ s.lookup e.tag = some x ∧ u.first + k < x.sequence := by
  have stale_iff (tag sequence : Nat) : s.stale tag sequence = true ↔
      ∃ x, s.lookup tag = some x ∧ sequence < x.sequence := by
    unfold State.stale
    cases s.lookup tag <;> simp
  simp only [List.any_eq_true, List.mem_iff_getElem?, State.getElem?_unitRecords, Option.map_eq_some_iff, stale_iff,
    Nat.zero_add]
  constructor
  · rintro ⟨r, ⟨k, e, at_k, rfl⟩, x, entry, higher⟩
    rw [State.unitRecord_tag] at entry
    rw [State.unitRecord_sequence] at higher
    exact ⟨k, e, x, at_k, entry, higher⟩
  · rintro ⟨k, e, x, at_k, entry, higher⟩
    exact ⟨_, ⟨k, e, at_k, rfl⟩, x, by rwa [State.unitRecord_tag], by rwa [State.unitRecord_sequence]⟩

/-- The pages of the record that an entry's unit writes for it: a DELETE's tombstone has no payload (R3, R82). -/
def PwlEntry.pages (e : PwlEntry) : Nat := pagesFor (match e.kind with | .write => e.length | .delete => 0)

theorem State.unitRecord_pages (s : State) (u : CommitUnit) (e : PwlEntry) (i : Nat) :
    pagesFor (s.unitRecord u e i).length = e.pages := by
  unfold State.unitRecord PwlEntry.pages
  cases e.kind <;> rfl

theorem State.unitRecords_pages (s : State) (u : CommitUnit) (entries : List PwlEntry) (i : Nat) :
    (s.unitRecords u i entries).map (fun r => pagesFor r.length) = entries.map PwlEntry.pages := by
  induction entries generalizing i with
  | nil => rfl
  | cons e rest ih => simp only [State.unitRecords, List.map_cons, State.unitRecord_pages, ih]

section
variable {s : State} {u : CommitUnit}

/-- The unit installed, no member being stale (R26, R28). -/
theorem State.commitInstall_installs (segment page : Nat)
    (fresh : ¬ (s.unitRecords u 0 (unitEntries s.staging.pwl)).any (fun r => s.stale r.tag r.sequence) = true) :
    s.commitInstall u segment page =
      (s.closeRange.installAll segment page (s.unitRecords u 0 (unitEntries s.staging.pwl))).finishUnit
        (unitEntries s.staging.pwl) := if_neg fresh

/-- The unit refused as stale (R27). -/
theorem State.commitInstall_refuses (segment page : Nat)
    (stale : (s.unitRecords u 0 (unitEntries s.staging.pwl)).any (fun r => s.stale r.tag r.sequence) = true) :
    s.commitInstall u segment page =
      s.closeRange.refuseInstall segment (unitPages (unitEntries s.staging.pwl)) := if_pos stale

end

theorem State.finishUnit_staging (s : State) (entries : List PwlEntry) :
    (s.finishUnit entries).staging = s.staging.removeEntries (fun x => entries.any fun e => e.slot == x.slot) := by
  unfold State.finishUnit State.removeCommitted
  dsimp only
  split <;> rfl

/-! ## A failure of the unit (R73, R88-R91) -/

/-- The state in which the engine acts on a failure of its program: the segment reported, the failure counted, the
range closed. -/
def State.unitFailed (s : State) (segment k : Nat) (x : Failure) : State :=
  (s.reportProgramFailure segment (match s.space.range with
    | some r => r.pages
    | none => k) x).closeRange

theorem State.unitFailed_eq (s : State) (segment k : Nat) (x : Failure) : s.unitFailed segment k x = { s with
    space := { s.space with
      range := none
      segments := s.space.segments.map fun g => if g.number = segment then
        { g with
          state := .retiring, reason := some .program, mark := some .none
          pending := g.pending - (match s.space.range with
            | some r => r.pages
            | none => k)
          dead := g.dead + (128 - g.writePointer), writePointer := 128 }
        else g }
    health := { s.health with counters := match x with
      | .timeout => { s.health.counters with mediumTimeouts := bump s.health.counters.mediumTimeouts }
      | .failed => { s.health.counters with programFailures := bump s.health.counters.programFailures } } } := by
  rw [State.unitFailed, State.reportProgramFailure_eq]
  rfl

theorem State.unitFailed_keeps (s : State) (segment k : Nat) (x : Failure) :
    (s.unitFailed segment k x).port = s.port ∧ (s.unitFailed segment k x).pfw = s.pfw ∧
      (s.unitFailed segment k x).staging = s.staging := by
  rw [State.unitFailed_eq]
  exact ⟨rfl, rfl, rfl⟩

theorem State.commitFailure_eq (s : State) (segment k : Nat) (x : Failure) : s.commitFailure segment k x =
    if s.erasing then { s.unitFailed segment k x with commit := ⟨.running, none, 0⟩ }
    else if s.commit.failures < 2 then
      { s.unitFailed segment k x with commit := ⟨.running, none, s.commit.failures + 1⟩ }
    else (s.unitFailed segment k x).enterHalt .medium := by
  have limit : s.commit.failures + 1 < Config.failureLimit ↔ s.commit.failures < 2 := by
    simp only [Config.failureLimit]
    omega
  unfold State.commitFailure
  simp only [limit]
  rfl

/-! ## The halt (R45, R91) -/

theorem State.endWaits_deferred (s : State) (code : ResultCode) :
    (s.endWaits code).causes.deferred = s.causes.deferred := by
  unfold State.endWaits
  split <;> simp

/-- An engine that enters HALTED holds no unit and no request, and DEFERRED is raised. -/
theorem State.enterHalt_halts (s : State) (reason : HaltReason) :
    (s.enterHalt reason).commit = ⟨.halted reason, none, 0⟩ ∧ (s.enterHalt reason).causes.deferred = true ∧
      (s.enterHalt reason).sequencer.requests.commit = .absent := by
  unfold State.enterHalt
  rw [State.endWaits_deferred]
  simp [State.raiseDeferred, State.withdrawCommit]

theorem State.enterHalt_staging {s : State} (quiet : s.port.activity.waits = false) (reason : HaltReason) :
    (s.enterHalt reason).staging = s.staging.release := by
  unfold State.enterHalt
  rw [State.endWaits_of_not_waits (by simpa using quiet)]
  rfl

/-- A released head that a later entry of its tag supersedes leaves the list (R45). -/
theorem Staging.release_superseded {g : Staging} {e : PwlEntry} {rest : List PwlEntry}
    (list : clearFlags g.pwl = e :: rest) (superseded : e.bundle = 0 ∧ ∃ x ∈ rest, x.tag = e.tag ∧ x.bundle = 0) :
    g.release = ({ g with pwl := clearFlags g.pwl } : Staging).removeEntries fun x => x.slot == e.slot := by
  unfold Staging.release
  simp only [list]
  exact if_pos (by simpa [headSuperseded] using superseded)

theorem Staging.release_kept {g : Staging} {e : PwlEntry} {rest : List PwlEntry}
    (list : clearFlags g.pwl = e :: rest) (kept : e.bundle ≠ 0 ∨ ∀ x ∈ rest, x.tag = e.tag → x.bundle ≠ 0) :
    g.release = { g with pwl := clearFlags g.pwl } := by
  unfold Staging.release
  simp only [list]
  refine if_neg ?_
  simp only [headSuperseded, Bool.and_eq_true, beq_iff_eq, List.any_eq_true, not_and, not_exists]
  rintro standalone x mem tag alone
  exact kept.elim (fun h => h standalone) fun h => h x mem tag alone

/-- A wait of the command in progress ends with the halt's code, PFW# being deasserted. -/
theorem State.enterHalt_wait {s : State} (pfw : s.pfw = false) (reason : HaltReason)
    (wait : s.port.activity = .syncWait ∨ (∃ w, s.port.activity = .slotWait w) ∨ ∃ l, s.port.activity = .throughWait l) :
    (s.enterHalt reason).port = ⟨.idle, .none, 0, reason.code, 0, none⟩ ∧ (s.enterHalt reason).causes.done = true := by
  have ended (t : State) (same : t.port = s.port) : t.endWaits reason.code = t.endCommand reason.code 0 := by
    unfold State.endWaits
    rw [same]
    obtain wait | ⟨w, wait⟩ | ⟨l, wait⟩ := wait <;> rw [wait]
  unfold State.enterHalt
  extract_lets t
  rw [ended t.withdrawCommit.raiseDeferred rfl]
  obtain ⟨-, -, -, -, -, -, -, -, -, done, -, port⟩ :=
    State.endCommand_keeps t.withdrawCommit.raiseDeferred reason.code 0
  refine ⟨port.trans ?_, done⟩
  rw [if_neg (by simp [t, pfw])]

/-- The halt or the retry after a failure leaves the store and the counters as the report left them. -/
theorem State.commitFailure_store (s : State) (segment k : Nat) (x : Failure) :
    (s.commitFailure segment k x).space = (s.unitFailed segment k x).space ∧
      (s.commitFailure segment k x).health = (s.unitFailed segment k x).health := by
  rw [State.commitFailure_eq]
  split
  · exact ⟨rfl, rfl⟩
  · split
    · exact ⟨rfl, rfl⟩
    · simp

/-! ## The install of a unit (R26, R28, R62) -/

/-- The pages of a record installed turn live, and those of the entry that it replaces dead (R62). -/
theorem State.installRecord_segments (s : State) (r : Record) (segment page : Nat) :
    (s.installRecord r segment page).space.segments = s.space.segments.map fun g =>
      let h := match s.lookup r.tag with
        | some x => if g.number = x.segment then g.makeDead x.pages else g
        | none => g
      if g.number = segment then h.makeLive (pagesFor r.length) else h := by
  unfold State.installRecord State.supersede
  cases s.lookup r.tag with
  | none => rfl
  | some x =>
    have moved : ((s.updateSegment x.segment fun g => g.makeDead x.pages).updateSegment segment
        fun g => g.makeLive (pagesFor r.length)).space.segments = _ := List.map_map ..
    refine moved.trans (List.map_congr_left fun g _ => ?_)
    have number : (if g.number = x.segment then g.makeDead x.pages else g).number = g.number := by
      split <;> rfl
    simp only [Function.comp, number]

section
variable {s : State} {u : CommitUnit} (segment first : Nat)

/-- What a unit's install makes of the lookups (R26, R28): each tag has the entry of its last record, and a tag of no
record keeps what it had. -/
theorem State.commitInstall_lookup
    (fresh : ¬ (s.unitRecords u 0 (unitEntries s.staging.pwl)).any (fun r => s.stale r.tag r.sequence) = true) :
    (∀ (k : Nat) (e : PwlEntry), (unitEntries s.staging.pwl)[k]? = some e →
      (∀ (a : Nat) (x : PwlEntry), k < a → (unitEntries s.staging.pwl)[a]? = some x → x.tag ≠ e.tag) →
      (s.commitInstall u segment first).lookup e.tag = some (entryOf (s.unitRecord u e k) segment
        (first + (((unitEntries s.staging.pwl).take k).map PwlEntry.pages).sum))) ∧
    (∀ tag : Nat, (∀ e ∈ unitEntries s.staging.pwl, e.tag ≠ tag) →
      (s.commitInstall u segment first).lookup tag = s.lookup tag) := by
  rw [State.commitInstall_installs segment first fresh]
  generalize unitEntries s.staging.pwl = entries
  obtain ⟨others, last⟩ := State.lookup_installAll segment (s.unitRecords u 0 entries) s.closeRange first
  have finished (tag : Nat) : ((s.closeRange.installAll segment first (s.unitRecords u 0 entries)).finishUnit
      entries).lookup tag = (s.closeRange.installAll segment first (s.unitRecords u 0 entries)).lookup tag := by
    simp [State.lookup]
  refine ⟨fun k e at_k final => ?_, fun tag named => ?_⟩
  · have installed := last k (s.unitRecord u e k) (by simp [State.getElem?_unitRecords, at_k]) fun a r later at_a => by
      rw [State.getElem?_unitRecords, Option.map_eq_some_iff] at at_a
      obtain ⟨x, at_x, rfl⟩ := at_a
      simpa [State.unitRecord_tag] using final a x later at_x
    rw [finished, ← State.unitRecord_tag s u e k, installed, List.map_take, State.unitRecords_pages, List.map_take]
  · rw [finished, others tag fun r mem => ?_]
    · rfl
    · have tags := List.mem_map_of_mem (f := (·.tag)) mem
      rw [State.unitRecords_tags] at tags
      obtain ⟨e, listed, same⟩ := List.mem_map.mp tags
      exact same ▸ named e listed

/-- A standalone unit installed replaces its tag's entry (R26, R62). -/
theorem State.commitInstall_one {e : PwlEntry} (one : unitEntries s.staging.pwl = [e])
    (fresh : ¬ (s.unitRecords u 0 (unitEntries s.staging.pwl)).any (fun r => s.stale r.tag r.sequence) = true) :
    (s.commitInstall u segment first).index.entries =
        insertEntry (entryOf (s.unitRecord u e 0) segment first) s.index.entries ∧
      (s.commitInstall u segment first).space.segments = s.space.segments.map fun g =>
        let h := match s.lookup e.tag with
          | some x => if g.number = x.segment then g.makeDead x.pages else g
          | none => g
        if g.number = segment then h.makeLive e.pages else h := by
  have installed : (s.commitInstall u segment first) =
      (s.closeRange.installRecord (s.unitRecord u e 0) segment first).finishUnit [e] := by
    rw [State.commitInstall_installs segment first fresh, one]
    rfl
  have kept : (s.closeRange.supersede (s.unitRecord u e 0).tag).index = s.index := by simp
  rw [installed, (State.finishUnit_frame _ _).2.2.2.2.2.2.2.1, (State.finishUnit_frame _ _).2.2.2.2.2.2.2.2.1,
    State.installRecord_segments, State.unitRecord_pages, State.unitRecord_tag]
  exact ⟨congrArg (fun i : KeyIndex => insertEntry _ i.entries) kept, rfl⟩

/-- A bundle of distinct tags without entries turns its pages live, and changes no other segment (R62). -/
theorem State.commitInstall_new (distinct : ((unitEntries s.staging.pwl).map (·.tag)).Nodup)
    (new : ∀ e ∈ unitEntries s.staging.pwl, s.lookup e.tag = none)
    (fresh : ¬ (s.unitRecords u 0 (unitEntries s.staging.pwl)).any (fun r => s.stale r.tag r.sequence) = true) :
    (s.commitInstall u segment first).space.segments = s.space.segments.map fun g =>
      if g.number = segment then g.makeLive ((unitEntries s.staging.pwl).map PwlEntry.pages).sum else g := by
  rw [State.commitInstall_installs segment first fresh, (State.finishUnit_frame _ _).2.2.2.2.2.2.2.2.1]
  generalize unitEntries s.staging.pwl = entries at distinct new
  rw [State.installAll_segments, State.unitRecords_pages]
  · rfl
  · rwa [State.unitRecords_tags]
  · intro r mem
    have tags := List.mem_map_of_mem (f := (·.tag)) mem
    rw [State.unitRecords_tags] at tags
    obtain ⟨e, listed, same⟩ := List.mem_map.mp tags
    exact same ▸ new e listed

/-- What a unit's install changes beside the index and the segments. -/
theorem State.commitInstall_keeps
    (fresh : ¬ (s.unitRecords u 0 (unitEntries s.staging.pwl)).any (fun r => s.stale r.tag r.sequence) = true) :
    (s.commitInstall u segment first).staging = s.staging.removeEntries
        (fun x => (unitEntries s.staging.pwl).any fun e => e.slot == x.slot) ∧
      (s.commitInstall u segment first).space.range = none ∧
      (s.commitInstall u segment first).commit = ⟨.running, none, 0⟩ := by
  rw [State.commitInstall_installs segment first fresh, State.finishUnit_staging]
  exact ⟨by simp, by simp [State.closeRange], rfl⟩

end

/-- Settles O45: each outcome by its rule. -/
theorem commitProgramIsInstalledOrRetried : Obligations.CommitProgramIsInstalledOrRetried := by
  intro s f u segment page r awake flight who op there unit entries first size located stale
  let freed (o : MediumEnd) := s.freedBy f.op o
  have done := exec_recordProgram_commit_done awake flight who there op
  have stale_iff : ((freed .done).unitRecords u 0 entries).any (fun r => (freed .done).stale r.tag r.sequence) = true ↔
      stale := State.any_stale_iff
  have entry (e : PwlEntry) (k : Nat) : entryOf ((freed .done).unitRecord u e k) segment
      (first + ((entries.take k).map PwlEntry.pages).sum) = located e k :=
    State.entryOf_unitRecord _ u e k segment _
  refine ⟨fun more => ⟨_, done, ?_⟩, fun last fresh => ⟨_, done, ?_⟩, fun last old => ⟨_, done, ?_⟩,
    fun left o ended => ?_⟩
  · rw [State.commitProgramDone_member (s := freed .done) unit segment page more]
    exact ⟨rfl, rfl, rfl, rfl, rfl, rfl⟩
  · rw [State.commitProgramDone_last (s := freed .done) unit segment page last]
    have fresh' := fun old => fresh (stale_iff.mp old)
    obtain ⟨own, others⟩ := State.commitInstall_lookup segment first fresh'
    obtain ⟨staging, range, commit⟩ := State.commitInstall_keeps segment first fresh'
    obtain ⟨-, -, -, -, port, -, -, numbers, -, -, -, -, -, -, reclaim, sequencer, -, -, -, -, health, -, -⟩ :=
      State.commitInstall_frame (freed .done) u segment first
    refine ⟨fun k e at_k final => (own k e at_k final).trans (congrArg some (entry e k)), others, fun e one => ?_,
      fun distinct new => State.commitInstall_new segment first (s := freed .done) distinct new fresh',
      numbers, staging, range, commit, congrArg (·.inFlight) sequencer, port, health, reclaim⟩
    obtain ⟨index, segments⟩ := State.commitInstall_one segment first (s := freed .done) one fresh'
    exact ⟨index.trans (congrArg (insertEntry · s.index.entries) (entry e 0)), segments⟩
  · rw [State.commitProgramDone_last (s := freed .done) unit segment page last,
      State.commitInstall_refuses segment _ (stale_iff.mpr old)]
    exact ⟨rfl, rfl, rfl, rfl, rfl, rfl⟩
  · obtain ⟨x, failed⟩ : ∃ x, failureOf o = some x := failureOf_isSome (by rintro rfl; simp at ended)
    refine ⟨_, exec_recordProgram_commit_failed awake flight who there op failed, ?_⟩
    obtain ⟨space, health⟩ := State.commitFailure_store (freed o) segment (pagesFor r.length) x
    obtain ⟨-, -, -, -, index, -, -, -, -, -, reclaim, inFlight, -⟩ :=
      State.commitFailure_frame (freed o) segment (pagesFor r.length) x
    rw [State.unitFailed_eq] at space health
    refine ⟨space, ?_, ?_, index, inFlight, reclaim, fun erasing => ?_, fun no retried => ?_, fun no third => ?_⟩
    · rintro rfl
      cases failed
      exact congrArg (·.counters) health
    · rintro rfl
      cases failed
      exact congrArg (·.counters) health
    · rw [State.commitFailure_eq, if_pos (show (freed o).erasing = true from erasing), State.unitFailed_eq]
      exact ⟨rfl, rfl, rfl, rfl⟩
    · have awaited : ¬ (freed o).erasing = true := Bool.not_eq_true _ ▸ no
      rw [State.commitFailure_eq, if_neg awaited, if_pos (show (freed o).commit.failures < 2 from retried),
        State.unitFailed_eq]
      exact ⟨rfl, rfl, rfl⟩
    · have awaited : ¬ (freed o).erasing = true := Bool.not_eq_true _ ▸ no
      rw [State.commitFailure_eq, if_neg awaited, if_neg (show ¬ (freed o).commit.failures < 2 from not_lt.mpr third)]
      obtain ⟨port, pfw, staging⟩ := State.unitFailed_keeps (freed o) segment (pagesFor r.length) x
      obtain ⟨commit, deferred, requests⟩ :=
        State.enterHalt_halts ((freed o).unitFailed segment (pagesFor r.length) x) .medium
      refine ⟨commit, deferred, requests, fun quiet => ?_, fun off wait => ?_⟩
      · rw [show s.port = _ from port.symm] at quiet
        refine ⟨(State.enterHalt_port quiet .medium).trans port, fun e rest list => ?_⟩
        have released := (State.enterHalt_staging quiet .medium).trans (congrArg Staging.release staging)
        exact ⟨fun superseded => released.trans (Staging.release_superseded list superseded),
          fun kept => released.trans (Staging.release_kept list kept)⟩
      · exact State.enterHalt_wait (pfw.trans off) .medium (by rw [port]; exact wait)

end Sys2Proof.Machine
end

section
/-! SUPPORT. The end of mount at the BLANK CHECK of the OPEN choice (R126, R143): the segments by their header slots
(R138, R139), the index by its winners (R142, R144), and what R145 and R147 set. -/

-- One theorem at a time: many short ones that wait at once take a thread each.
set_option Elab.async false

namespace Sys2Proof.Machine

/-! ## The classes of the header slots (R138) -/

section
variable {h : HeaderInfo}

theorem HeaderInfo.classify_retired {why : RetireReason} (r : h.retired = .valid why) :
    h.classify = .retired why := by
  simp only [HeaderInfo.classify, r]

theorem HeaderInfo.classify_unmarked (r : h.retired = .corrupt) (o : ∀ q : Nat, h.opened ≠ .valid q) :
    h.classify = .retired .program := by
  simp only [HeaderInfo.classify, r]
  cases opened : h.opened with
  | blank => rfl
  | corrupt => rfl
  | valid q => exact absurd opened (o q)

theorem HeaderInfo.classify_worn (r : h.retired = .blank) (f : h.formatted = .valid 100000) :
    h.classify = .retired .worn := by
  simp [HeaderInfo.classify, HeaderInfo.classifyUnretired, r, f]

theorem HeaderInfo.classify_unformatted (r : h.retired = .blank) (f : ∀ count : Nat, h.formatted ≠ .valid count) :
    h.classify = .erasePending := by
  simp only [HeaderInfo.classify, HeaderInfo.classifyUnretired, r]
  cases formatted : h.formatted with
  | blank => rfl
  | corrupt => rfl
  | valid count => exact absurd formatted (f count)

section
variable {count : Nat} (r : h.retired = .blank) (f : h.formatted = .valid count) (below : count ≠ 100000)
include r f below

theorem HeaderInfo.classify_erased (o : h.opened = .blank) : h.classify = .erased := by
  simp [HeaderInfo.classify, HeaderInfo.classifyUnretired, r, f, o, below]

theorem HeaderInfo.classify_damaged (o : h.opened = .corrupt) : h.classify = .erasePending := by
  simp [HeaderInfo.classify, HeaderInfo.classifyUnretired, r, f, o, below]

end

theorem HeaderInfo.classify_candidate {q : Nat} (o : h.opened = .valid q)
    (row : h.retired = .corrupt ∨
      (h.retired = .blank ∧ ∃ count : Nat, h.formatted = .valid count ∧ count ≠ 100000)) :
    ∃ retire : Bool, h.classify = .candidate q retire := by
  rcases row with r | ⟨r, count, f, below⟩
  · exact ⟨true, by simp [HeaderInfo.classify, r, o]⟩
  · exact ⟨false, by simp [HeaderInfo.classify, HeaderInfo.classifyUnretired, r, f, o, below]⟩

end

/-! ## The segments (R138, R139, R143, R144) -/

section
variable {m : MountWork} {opened : Option Nat} {h : HeaderInfo}

theorem MountWork.segment_erasePending (c : h.classify = .erasePending) :
    m.segment opened h = emptySegment h.segment (m.eraseCount h) .erasePending := by
  simp only [MountWork.segment, c]

theorem MountWork.segment_erased (c : h.classify = .erased) :
    m.segment opened h = emptySegment h.segment (m.eraseCount h) .erased := by
  simp only [MountWork.segment, c]

theorem MountWork.segment_retired {why : RetireReason} (c : h.classify = .retired why) :
    m.segment opened h = { emptySegment h.segment (m.eraseCount h) .retired with
      openSequence := h.opened.value?.getD 0, reason := some why, mark := some .marked } := by
  simp only [MountWork.segment, c]

theorem MountWork.segment_candidate {q : Nat} {retire : Bool} {d : Candidate} (c : h.classify = .candidate q retire)
    (found : m.candidates.find? (fun c => c.segment == h.segment) = some d) :
    m.segment opened h = m.candidateSegment h opened d := by
  simp only [MountWork.segment, c, found]

/-- Whatever its class, a segment has its own number and the erase count of R138 and R139. -/
theorem MountWork.segment_number_count (m : MountWork) (opened : Option Nat) (h : HeaderInfo) :
    (m.segment opened h).number = h.segment ∧ (m.segment opened h).eraseCount = m.eraseCount h := by
  cases c : h.classify with
  | retired why => rw [MountWork.segment_retired c]; exact ⟨rfl, rfl⟩
  | erasePending => rw [MountWork.segment_erasePending c]; exact ⟨rfl, rfl⟩
  | erased => rw [MountWork.segment_erased c]; exact ⟨rfl, rfl⟩
  | candidate q retire =>
    simp only [MountWork.segment, c]
    split <;> exact ⟨rfl, rfl⟩

theorem MountWork.eraseCount_valid {count : Nat} (f : h.formatted = .valid count) : m.eraseCount h = count := by
  simp only [MountWork.eraseCount, f]

theorem MountWork.eraseCount_lost (f : ∀ count : Nat, h.formatted ≠ .valid count) :
    m.eraseCount h = min m.highestErase 99999 := by
  unfold MountWork.eraseCount
  cases formatted : h.formatted with
  | blank => rfl
  | corrupt => rfl
  | valid count => exact absurd formatted (f count)

end

/-- The highest of the values that a slot gives over the headers, 0 when none gives one (R135). -/
theorem highest_value_spec (f : HeaderInfo → Finding Nat) (l : List HeaderInfo) :
    (∀ h ∈ l, ∀ v : Nat, f h = .valid v → v ≤ highest (l.filterMap fun h => (f h).value?)) ∧
      (highest (l.filterMap fun h => (f h).value?) = 0 ∨
        ∃ h ∈ l, f h = .valid (highest (l.filterMap fun h => (f h).value?))) := by
  obtain ⟨bound, attained⟩ := highest_spec (l.filterMap fun h => (f h).value?)
  refine ⟨fun h mem v valid => bound v ?_, attained.imp_right fun mem => ?_⟩
  · exact (mem_filterMap_value f l v).mpr ⟨h, mem, valid⟩
  · exact (mem_filterMap_value f l _).mp mem

/-! ## The index (R142, R144) -/

section
variable {m : MountWork}

theorem MountWork.mem_index {e : IndexEntry} :
    e ∈ m.index.entries ↔ ∃ x ∈ m.indexed, entryOf x.record x.segment x.page = e := List.mem_map

theorem MountWork.length_index : m.index.entries.length = min 1024 m.winners.length := by
  simp [MountWork.index, MountWork.indexed, Config.indexCapacity]

/-- The live pages of a segment are those of its index entries. -/
theorem MountWork.liveIn_eq (m : MountWork) (segment : Nat) :
    m.liveIn segment = ((m.index.entries.filter fun e => e.segment == segment).map (·.pages)).sum := by
  unfold MountWork.liveIn MountWork.index
  rw [List.filter_map, List.map_map]
  rfl

theorem MountWork.holdsWinner_iff {segment : Nat} :
    m.holdsWinner segment = true ↔ ∃ e ∈ m.index.entries, e.segment = segment := by
  simp [MountWork.holdsWinner, MountWork.index, entryOf]

theorem MountWork.index_ascending : m.index.entries.Pairwise fun a b => a.tag < b.tag :=
  List.pairwise_map.mpr (m.winners_spec.1.sublist (List.take_sublist _ _))

/-- Each entry is that of a standing record, at least as high in rank as any other of its tag (R142). -/
theorem MountWork.index_ranked {e : IndexEntry} (mem : e ∈ m.index.entries) :
    ∃ x : Found, (x ∈ m.found ∧ x.discarded = false) ∧ e = entryOf x.record x.segment x.page ∧
      ∀ y : Found, y ∈ m.found ∧ y.discarded = false → y.record.tag = e.tag → m.atLeast x y := by
  obtain ⟨x, indexed, rfl⟩ := MountWork.mem_index.mp mem
  obtain ⟨stands, best⟩ := m.winners_spec.2.1 x (List.mem_of_mem_take indexed)
  exact ⟨x, stands, rfl, fun y ⟨found, kept⟩ tag => best y found kept tag⟩

theorem MountWork.winners_eq : m.indexed ++ m.winners.drop 1024 = m.winners := List.take_append_drop _ _

/-- A winner left out of the index lies beyond every entry (R144). -/
theorem MountWork.index_below {w : Found} (beyond : w ∈ m.winners.drop 1024) :
    ∀ e ∈ m.index.entries, e.tag < w.record.tag := by
  intro e listed
  obtain ⟨x, indexed, rfl⟩ := MountWork.mem_index.mp listed
  have ascending := m.winners_spec.1
  rw [← MountWork.winners_eq] at ascending
  exact (List.pairwise_append.mp ascending).2.2 x indexed w beyond

theorem MountWork.winner_indexed_or_beyond {w : Found} (mem : w ∈ m.winners) :
    w ∈ m.indexed ∨ (m.index.entries.length = 1024 ∧ ∀ e ∈ m.index.entries, e.tag < w.record.tag) := by
  rw [← MountWork.winners_eq] at mem
  refine (List.mem_append.mp mem).imp_right fun beyond => ⟨?_, MountWork.index_below beyond⟩
  have more := List.length_pos_of_mem beyond
  rw [List.length_drop] at more
  rw [MountWork.length_index]
  omega

/-- A standing record's tag is indexed, or lies beyond the 1024 that are (R144). -/
theorem MountWork.index_covers {x : Found} (found : x ∈ m.found) (kept : x.discarded = false) :
    (∃ e ∈ m.index.entries, e.tag = x.record.tag) ∨
      (m.index.entries.length = 1024 ∧ ∀ e ∈ m.index.entries, e.tag < x.record.tag) := by
  obtain ⟨w, mem, tag⟩ := m.winners_spec.2.2 x found kept
  rw [← tag]
  exact (MountWork.winner_indexed_or_beyond mem).imp_left fun indexed =>
    ⟨_, MountWork.mem_index.mpr ⟨w, indexed, rfl⟩, rfl⟩

/-- Tags are left out exactly when a standing record's tag has no entry (R144). -/
theorem MountWork.leftOut_pos_iff : 0 < m.leftOut ↔
    ∃ x : Found, (x ∈ m.found ∧ x.discarded = false) ∧ ∀ e ∈ m.index.entries, e.tag ≠ x.record.tag := by
  have beyond : 0 < m.leftOut ↔ 1024 < m.winners.length := Nat.sub_pos_iff_lt
  rw [beyond]
  constructor
  · intro more
    obtain ⟨w, left⟩ := List.exists_mem_of_length_pos
      (show 0 < (m.winners.drop 1024).length by rw [List.length_drop]; omega)
    obtain ⟨stands, -⟩ := m.winners_spec.2.1 w (List.mem_of_mem_drop left)
    exact ⟨w, stands, fun e listed => (MountWork.index_below left e listed).ne⟩
  · rintro ⟨x, ⟨found, kept⟩, absent⟩
    obtain ⟨w, mem, tag⟩ := m.winners_spec.2.2 x found kept
    by_contra few
    have all : m.indexed = m.winners := List.take_of_length_le (Nat.le_of_not_lt few)
    exact absent _ (MountWork.mem_index.mpr ⟨w, all ▸ mem, rfl⟩) tag

end

/-! ## The end of mount (R145-R147) -/

/-- The working state with the last attempt's timeout counted, which makes the read UNREADABLE (R127). -/
def MountWork.afterTimeout (m : MountWork) (timedOut : Bool) : MountWork :=
  { m with
    unreadable := if timedOut = true then bump m.unreadable else m.unreadable
    timeouts := if timedOut = true then bump m.timeouts else m.timeouts }

theorem MountWork.afterTimeout_segment (m : MountWork) (timedOut : Bool) :
    (m.afterTimeout timedOut).segment = m.segment := (m.counts_apart m.recovered _ _).1

section
variable (s : State) (m : MountWork) (opened : Option Nat) (torn : Nat)

theorem State.leaveMounting_state : s.leaveMounting.port.state = if s.pfw = true then .draining else .idle := by
  unfold State.leaveMounting
  split
  · rfl
  · rw [State.enterIdle_eq]

/-- What the end of mount sets in the store (R144, R145). -/
theorem State.mountEnd_store :
    (s.mountEnd m opened torn).space.segments = m.headers.map (m.segment opened) ∧
      (s.mountEnd m opened torn).space.present = m.present ∧
      (s.mountEnd m opened torn).space.openCounter = m.highestOpen + 1 ∧
      (s.mountEnd m opened torn).space.freeList = (m.space opened).freeList ∧
      (s.mountEnd m opened torn).space.reasons =
        m.reasons ((m.headers.map (m.segment opened)).countP fun g => g.state != .retired) ∧
      (s.mountEnd m opened torn).index = m.index := by
  unfold State.mountEnd
  simp [MountWork.space, State.usableCount, State.usable, List.countP_eq_length_filter]

/-- What the end of mount sets beside the store (R145-R147). -/
theorem State.mountEnd_report :
    (s.mountEnd m opened torn).mount = none ∧
      (s.mountEnd m opened torn).mountReport.torn = torn ∧
      (s.mountEnd m opened torn).mountReport.recovered = m.recovered ∧
      (s.mountEnd m opened torn).mountReport.unreadable = m.unreadable ∧
      (s.mountEnd m opened torn).mountReport.timeouts = m.timeouts ∧
      (s.mountEnd m opened torn).mountReport.truncated = m.truncated ∧
      (s.mountEnd m opened torn).mountReport.discarded = m.discarded ∧
      (s.mountEnd m opened torn).background = ⟨(s.mountEnd m opened torn).pendingErases, none⟩ ∧
      (s.mountEnd m opened torn).causes.mounted = true ∧
      (s.mountEnd m opened torn).medium = s.medium ∧
      (s.mountEnd m opened torn).port.state = if s.pfw = true then .draining else .idle := by
  unfold State.mountEnd
  simp [State.mountReportOf, State.pendingErases, State.leaveMounting_state, State.raiseMounted]

theorem MountWork.reasons_worn (usable : Nat) : (m.reasons usable).worn = true ↔ usable < 4 := decide_eq_true_iff

theorem MountWork.reasons_sequence (usable : Nat) :
    (m.reasons usable).sequence = true ↔ 4294967294 ≤ m.highestSequence := by
  simp [MountWork.reasons, Config.lastSequence, Nat.lt_add_one_iff]

theorem MountWork.reasons_degraded (usable : Nat) : (m.reasons usable).degraded = true ↔
    ∃ x : Found, (x ∈ m.found ∧ x.discarded = false) ∧ ∀ e ∈ m.index.entries, e.tag ≠ x.record.tag := by
  rw [← MountWork.leftOut_pos_iff]
  simp only [MountWork.reasons, decide_eq_true_eq]

theorem MountWork.mem_freeList {k : Nat} : k ∈ (m.space opened).freeList ↔
    ∃ g ∈ m.headers.map (m.segment opened), g.number = k ∧ g.state = .erased := by
  unfold MountWork.space
  rw [mem_foldl_insertFree]
  simp [and_comm, and_assoc]

end

/-! ## The BLANK CHECK that ends mount (R126, R143) -/

section
variable {s : State} {m : MountWork} {f : InFlight} {n page : Nat}
  (awake : s.power = .on) (mounting : s.mount = some m) (flight : s.sequencer.inFlight = some f)
  (op : f.op = .blankCheck n page) (there : s.opExists f.op = true)
include mounting

theorem State.blankAttempt_ends (blank : Bool) :
    s.blankAttempt n blank =
      s.releasePort.mountEnd m (if blank = true then some n else none) (if blank = true then 0 else 1) := by
  have still : s.releasePort.mount = some m := mounting
  unfold State.blankAttempt State.mountBlankEnd
  rw [still]
  cases blank <;> rfl

include op

/-- The last attempt's timeout makes the read UNREADABLE and ends mount with the OPEN choice torn. -/
theorem State.attemptTimeout_ends (last : f.attempts + 1 = f.allowed) :
    ∃ t : State, s.attemptTimeout f = t.mountEnd (m.afterTimeout true) none 1 ∧ t.pfw = s.pfw ∧
      t.medium = s.medium := by
  unfold State.attemptTimeout State.attemptBad State.noteTimeout
  simp only [last, lt_irrefl, if_false, mounting, State.readUnreadable, op, State.noteUnreadable, State.mountBlankEnd]
  exact ⟨_, rfl, rfl, rfl⟩

include awake flight there

/-- Either end of the BLANK CHECK is the end of mount. -/
theorem exec_blankCheck_ends {c : Instr} {noise : Patch} {blank timedOut : Bool}
    (ends : (c = .blankCheck (.ready noise) ∧ blank = readBlank s.medium n page noise ∧ timedOut = false) ∨
      ((c = .blankCheck .timeout ∨ ∃ left : Remnant, c = .attemptTimeout left) ∧ f.attempts + 1 = f.allowed ∧
        blank = false ∧ timedOut = true)) :
    ∃ t : State, exec c s = .next (t.mountEnd (m.afterTimeout timedOut) (if blank = true then some n else none)
      (if blank = true then 0 else 1)).finish ∧ t.pfw = s.pfw ∧ t.medium = s.medium := by
  rcases ends with ⟨rfl, rfl, rfl⟩ | ⟨end_, last, rfl, rfl⟩
  · refine ⟨s.releasePort, ?_, rfl, rfl⟩
    refine (State.runOp_of_exists awake flight there fun t f => t.blankEvent f (.ready noise)).trans ?_
    simp only [State.blankEvent, op, State.blankAttempt_ends mounting]
    rfl
  · obtain ⟨t, ended, pfw, medium⟩ := State.attemptTimeout_ends mounting op last
    refine ⟨t, ?_, pfw, medium⟩
    rcases end_ with rfl | ⟨left, rfl⟩
    · refine (State.runOp_of_exists awake flight there fun t f => t.blankEvent f .timeout).trans ?_
      simp only [State.blankEvent, op, ended]
      rfl
    · refine (State.runOp_of_exists awake flight there fun t f => t.timeoutEvent f left).trans ?_
      simp only [State.timeoutEvent, op, ended]
      rfl

end

/-- Settles O41: each part of what mount leaves, by its rule. -/
theorem mountResolvesTheStore : Obligations.MountResolvesTheStore := by
  intro c noise s m f n page blank timedOut awake mounting flight op there ends opened stands rank
  obtain ⟨t, ended, pfw, medium⟩ := exec_blankCheck_ends awake mounting flight op there ends
  obtain ⟨segments, present, counter, free, reasons, index⟩ := State.mountEnd_store t (m.afterTimeout timedOut) opened
    (if blank = true then 0 else 1)
  obtain ⟨mount, torn, recovered, unreadable, timeouts, truncated, discarded, background, mounted,
      still, port⟩ :=
    State.mountEnd_report t (m.afterTimeout timedOut) opened (if blank = true then 0 else 1)
  rw [← m.afterTimeout_segment timedOut]
  refine ⟨_, ended, mount, segments, present, torn, recovered, unreadable, timeouts, truncated, discarded, background,
    mounted, still.trans medium, port.trans (by rw [pfw]), ⟨m.highestOpen, counter, highest_value_spec (·.opened) m.headers⟩,
    fun h mem => ?_, ?_⟩
  · obtain ⟨number, count⟩ := (m.afterTimeout timedOut).segment_number_count opened h
    intro g bare retired
    have plain : bare = emptySegment h.segment ((m.afterTimeout timedOut).eraseCount h) .erasePending := by
      rw [← count]
      rfl
    obtain ⟨bound, attained⟩ := highest_value_spec (·.formatted) m.headers
    have retires {why : RetireReason} (c : h.classify = .retired why) : g = retired why := by
      refine (MountWork.segment_retired c).trans ?_
      simp only [retired, plain]
      cases h.opened <;> rfl
    refine ⟨fun count' f => count.trans (MountWork.eraseCount_valid f), fun f => ⟨number, _, bound, attained, ?_,
      count.trans (MountWork.eraseCount_lost f)⟩, fun why r => ?_, fun r o => ?_, fun r f => ?_, fun r f => ?_,
      fun count' r f below => ⟨fun o => ?_, fun o => ?_⟩, fun d q found o row => ?_⟩
    · by_cases r : h.retired = .blank
      · exact .inr (congrArg Segment.state (MountWork.segment_erasePending (HeaderInfo.classify_unformatted r f)))
      · exact .inl r
    · exact retires (HeaderInfo.classify_retired r)
    · exact retires (HeaderInfo.classify_unmarked r o)
    · exact retires (HeaderInfo.classify_worn r f)
    · exact (MountWork.segment_erasePending (HeaderInfo.classify_unformatted r f)).trans plain.symm
    · rw [plain]
      exact MountWork.segment_erased (HeaderInfo.classify_erased r f below o)
    · exact (MountWork.segment_erasePending (HeaderInfo.classify_damaged r f below o)).trans plain.symm
    · obtain ⟨retire, c⟩ := HeaderInfo.classify_candidate o row
      intro live
      refine (MountWork.segment_candidate (m := m.afterTimeout timedOut) c found).trans ?_
      simp only [live, plain]
      rw [index]
      simp only [MountWork.candidateSegment, MountWork.liveIn_eq, MountWork.holdsWinner_iff]
      rfl
  · rw [segments, free, reasons, index]
    refine ⟨MountWork.index_ascending, ?_, rfl, rfl, fun e listed => ?_, fun x ⟨kept, stands⟩ =>
      MountWork.index_covers kept stands, (m.afterTimeout timedOut).reasons_degraded _,
      (m.afterTimeout timedOut).reasons_worn _, (m.afterTimeout timedOut).reasons_sequence _,
      fun k => MountWork.mem_freeList ..⟩
    · rw [MountWork.length_index]
      exact Nat.min_le_left ..
    · obtain ⟨x, standing, entry, best⟩ := MountWork.index_ranked listed
      refine ⟨x, standing, entry, fun y other tag => ?_⟩
      have wins : y.record.sequence < x.record.sequence ∨ (x.record.sequence = y.record.sequence ∧
        (rank y.segment < rank x.segment ∨ (rank x.segment = rank y.segment ∧
          (x.segment < y.segment ∨ (x.segment = y.segment ∧ y.page ≤ x.page))))) := best y other tag
      omega

end Sys2Proof.Machine
end

section
/-! SUPPORT. The state right after a hard reset (R55, R98, R134, R135, R163, R180, R182). -/

namespace Sys2Proof.Machine

theorem State.reset_slots_free : ∀ x ∈ State.reset.staging.slots, x.state = .free :=
  fun _ listed => congrArg Slot.state (List.eq_of_mem_replicate listed)

/-- Settles O8: every field is the one that `State.reset` writes down, and the slots are 16 copies of a FREE one. -/
theorem resetState : Obligations.ResetState := by
  unfold Obligations.ResetState
  exact ⟨rfl, rfl, rfl, rfl, rfl, List.length_replicate, State.reset_slots_free, rfl, rfl, rfl, rfl, rfl, rfl, rfl, rfl⟩

end Sys2Proof.Machine
end

section
/-! SUPPORT. The commands that append (R39-R57, R164, R167): a STORE or REMOVE that has passed its checks, the last word
of a payload, and the ends of the waits. -/

-- One theorem at a time: many short ones that wait at once take a thread each.
set_option Elab.async false

namespace Sys2Proof.Machine

/-! ## A command taken (R152, R153) -/

/-- A command that the port takes runs its body in the step in which it is taken. -/
theorem State.ready.run_accept {s : State} (ready : s.ready) (code : Word) (body : State → State) :
    (s.run fun t => t.accept code body) = .next (body (s.take code)).finish := by
  obtain ⟨⟨on, -⟩, idle, -⟩ := ready
  rw [State.run_of_on on, State.accept_of_idle idle]

/-- A STORE that passes its checks goes on to its reservation (R164). -/
theorem exec_store_passed {s : State} (ready : s.ready) (passed : s.storeVerdict = .none) :
    exec .store s = .next ((s.take 0x10).enterReserve s.storeWork).finish := by
  have taken : (s.take 0x10).storeVerdict = .none := passed
  refine (ready.run_accept 0x10 State.storeBody).trans ?_
  rw [State.storeBody_eq, if_pos taken]
  rfl

/-- A REMOVE that passes its checks goes on to its reservation (R167). -/
theorem exec_remove_passed {s : State} (ready : s.ready) (passed : s.removeVerdict = .none) :
    exec .remove s = .next ((s.take 0x12).enterReserve s.removeWork).finish := by
  have taken : (s.take 0x12).removeVerdict = .none := passed
  refine (ready.run_accept 0x12 State.removeBody).trans ?_
  rw [State.removeBody_eq, if_pos taken]
  rfl

/-- Settles O15: the one member of a STORE is the first with a payload, and its slot is the lowest FREE one. -/
theorem storeReceivesPayload : Obligations.StoreReceivesPayload := by
  intro s slot others ready passed free long
  have free_taken : freeSlots (s.take 0x10).staging.slots = slot :: others := free
  rw [exec_store_passed ready passed, State.enterReserve_payload (j := 0) (by simp [free, State.storeWork]) rfl long
    (fun i _ early => absurd early i.not_lt_zero), free_taken]
  rfl

/-! ## The appends (R43-R46) -/

section
variable {w : Work} {m : Member} {slot : Nat} (members : w.members = [m])
include members

/-- A STORE appends its WRITE, the tag's standalone entry that is not in commit leaving the list (R43, R45). -/
theorem State.appendWork_store (s : State) (kind : w.kind = .store) :
    s.appendWork w [slot] = { s with
      staging := (s.staging.removeEntries fun x => x.tag == m.tag && x.bundle == 0 && !x.inCommit).append
        [⟨.write, m.tag, m.length, m.protect, 0, none, slot, false⟩] } := by
  simp only [State.appendWork, kind, members]
  rfl

/-- A REMOVE appends its DELETE, the tag's standalone entry that is not in commit leaving the list (R44, R45). -/
theorem State.appendWork_remove (s : State) (kind : w.kind = .remove) :
    s.appendWork w [slot] = { s with
      staging := (s.staging.removeEntries fun x => x.tag == m.tag && x.bundle == 0 && !x.inCommit).append
        [⟨.delete, m.tag, 0, false, 0, none, slot, false⟩] } := by
  simp only [State.appendWork, kind, members]
  rfl

end

/-- With a slot FREE a command of one member without a payload appends in the step of its reservation (R43, R44). -/
theorem State.enterReserve_one {s : State} {w : Work} {m : Member} {slot : Nat} {others : List Nat}
    (pfw : s.pfw = false) (free : freeSlots s.staging.slots = slot :: others) (members : w.members = [m])
    (empty : m.length = 0) :
    s.enterReserve w = ((s.reserveSlots [slot]).appendWork w [slot]).atAppend w.through [slot] := by
  have lowest : (freeSlots s.staging.slots).take w.members.length = [slot] := by simp [free, members]
  have quiet : ((s.reserveSlots [slot]).appendWork w [slot]).pfw = false := by simpa using pfw
  rw [State.enterReserve_appends (by simp [free, members]) (by simpa [members] using empty), lowest,
    State.completeAppend_eq quiet]

/-- Settles O16: each reserves the lowest FREE slot and appends in the same step. -/
theorem emptyPayloadAppendsAtOnce : Obligations.EmptyPayloadAppendsAtOnce := by
  intro s slot others ready free appended through
  refine ⟨fun passed empty => ?_, fun passed => ?_⟩
  · have no_payload : s.window.length.toNat = 0 := by simp [empty]
    rw [exec_store_passed ready passed, State.enterReserve_one (s := s.take 0x10) (w := s.storeWork) ready.2.2 free rfl
      no_payload, State.appendWork_store rfl _ rfl, no_payload]
    rfl
  · rw [exec_remove_passed ready passed, State.enterReserve_one (s := s.take 0x12) (w := s.removeWork) ready.2.2 free
      rfl rfl, State.appendWork_remove rfl _ rfl]
    rfl

/-! ## The slot wait (R50, R51) -/

/-- Settles O17: with no slot FREE the one member of a STORE or REMOVE finds too few. -/
theorem noFreeSlotWaitsOrEnds : Obligations.NoFreeSlotWaitsOrEnds := by
  intro s ready none_free wait
  have waits (code : Word) (w : Work) (one : w.members.length = 1) :
      (s.take code).enterReserve w = wait code w := by
    have few : (freeSlots (s.take code).staging.slots).length < w.members.length := by
      rw [one, show freeSlots (s.take code).staging.slots = [] from none_free]
      exact Nat.one_pos
    rw [State.enterReserve_waits (s := s.take code) ready.2.2 few]
    cases state : s.commit.state <;> simp only [wait, State.take, state] <;> rfl
  refine ⟨fun passed => ?_, fun passed => ?_⟩
  · rw [exec_store_passed ready passed, waits 0x10 s.storeWork rfl]
    rfl
  · rw [exec_remove_passed ready passed, waits 0x12 s.removeWork rfl]
    rfl

/-! ## The last word of a payload (R154, R166) -/

/-- The state after the last word of a member's payload, before the command goes on: the member's slot is full. -/
def State.filledSlot (s : State) (w : Work) (slots : List Nat) (i : Nat) (word : Word) : State :=
  { s with
    staging := { s.staging with slots :=
      (s.staging.slots.modify (slots.getD i 0) fun x =>
        x.writeWord (w.lengthOf i) (wordsFor (w.lengthOf i) - 1) word) }
    port := { s.port with residue := 0, dataTimer := some s.window.options.dataTimeout } }

/-- After the last word of a member's payload the command goes on from the next member. -/
theorem exec_dataWrite_lastPayload {s : State} {w : Work} {slots : List Nat} {i : Nat} (on : s.power = .on)
    (receiving : s.port.state = .receiving) (last : s.port.residue = 1)
    (activity : s.port.activity = .payload w slots i) (word : Word) :
    exec (.dataWrite word) s = .next ((s.filledSlot w slots i word).proceed w slots (i + 1)).finish := by
  rw [exec_dataWrite on, State.dataWrite_of_payload receiving activity]
  unfold State.takePayloadWord
  rw [last, if_pos le_rfl]
  rfl

/-- A command goes on with the next member that has a payload. -/
theorem State.proceed_payload (s : State) {w : Work} {i j : Nat} {m : Member} (slots : List Nat)
    (member : w.members[j]? = some m) (long : 0 < m.length) (later : i ≤ j)
    (between : ∀ (a : Nat) (x : Member), i ≤ a → a < j → w.members[a]? = some x → x.length = 0) :
    s.proceed w slots i = { s with
      port := { s.port with
        state := .receiving, activity := .payload w slots j, residue := (m.length + 1) / 2
        dataTimer := some s.window.options.dataTimeout }
      causes := { s.causes with data := true } } := by
  have length : w.lengthOf j = m.length := by simp only [Work.lengthOf, member]
  unfold State.proceed
  rw [nextPayload_some member long later between]
  simp only [State.enterPayload, length]
  rfl

/-- A command with no payload left appends. -/
theorem State.proceed_appends (s : State) {w : Work} {i : Nat} (slots : List Nat)
    (empty : ∀ (a : Nat) (x : Member), i ≤ a → w.members[a]? = some x → x.length = 0) :
    s.proceed w slots i = (s.appendWork w slots).completeAppend w slots := by
  unfold State.proceed
  rw [nextPayload_none empty]

/-- Settles O30: the slot is full, and the command goes on with the next payload or its append. -/
theorem lastPayloadWordAppends : Obligations.LastPayloadWordAppends := by
  intro word s w slots i awake pfw receiving last activity n k filled
  rw [exec_dataWrite_lastPayload awake.1 receiving last activity word]
  refine ⟨fun j m later member long between => ?_, fun empty => ?_⟩
  · rw [State.proceed_payload _ slots member long later between]
    simp only [receiving]
    rfl
  · rw [State.proceed_appends _ slots empty]
    refine ⟨fun m slot kind members one => ?_, fun identifier kind => ?_⟩
    · subst one
      rw [State.appendWork_store members _ kind, State.completeAppend_eq (by exact pfw)]
      rfl
    · rw [State.appendWork_bundle _ kind, State.completeAppend_eq (by exact pfw)]
      rfl

/-! ## The ends of the waits (R50, R56, R172) -/

section
variable {s : State} (awake : s.awake)
include awake

/-- SLOT_WAIT_END with slots enough makes the reservation (R50). -/
theorem exec_slotWaitEnd_enough {w : Work} (waiting : s.port.activity = .slotWait w)
    (enough : w.members.length ≤ (freeSlots s.staging.slots).length) :
    exec .slotWaitEnd s = .next (s.enterReserve w).finish := by
  have reserves : slotWaitEnd s = some (s.enterReserve w) := by
    unfold slotWaitEnd State.enterReserve Work.slotsNeeded
    simp only [waiting, if_pos enough]
  refine (State.run_of_on awake.1 State.slotWaitEvent).trans ?_
  rw [State.slotWaitEvent, if_pos awake.blocksRun, reserves]
  rfl

/-- SLOT_WAIT_END with too few slots changes nothing. -/
theorem exec_slotWaitEnd_few {w : Work} (waiting : s.port.activity = .slotWait w)
    (few : (freeSlots s.staging.slots).length < w.members.length) : exec .slotWaitEnd s = .next s.finish := by
  have goes_on : slotWaitEnd s = none := by
    unfold slotWaitEnd Work.slotsNeeded
    simp only [waiting, if_neg (Nat.not_le.mpr few)]
  refine (State.run_of_on awake.1 State.slotWaitEvent).trans ?_
  rw [State.slotWaitEvent, if_pos awake.blocksRun, goes_on]
  rfl

/-- WRITE_THROUGH_COMPLETE with no awaited entry left ends the command with NONE (R56). -/
theorem exec_writeThroughComplete {slots : List Nat} (pfw : s.pfw = false)
    (waiting : s.port.activity = .throughWait slots) (gone : ∀ e ∈ s.staging.pwl, e.slot ∉ slots) :
    exec .writeThroughComplete s = .next (s.completedAs .none 0).finish := by
  have completes : writeThroughComplete s = some (s.endCommand .none 0) := by
    unfold writeThroughComplete
    simp only [waiting]
    exact if_neg (by simpa using gone)
  refine (State.run_of_on awake.1 State.writeThroughEvent).trans ?_
  rw [State.writeThroughEvent, if_pos awake.blocksRun, completes, ← State.endCommand_eq pfw]
  rfl

/-- SYNC_COMPLETE with the list empty ends SYNC with NONE (R172). -/
theorem exec_syncComplete (pfw : s.pfw = false) (waiting : s.port.activity = .syncWait) (empty : s.staging.pwl = []) :
    exec .syncComplete s = .next (s.completedAs .none 0).finish := by
  have completes : syncComplete s = some (s.endCommand .none 0) := by
    unfold syncComplete
    simp only [waiting, empty, List.isEmpty_nil, if_true]
  refine (State.run_of_on awake.1 State.syncEvent).trans ?_
  rw [State.syncEvent, if_pos awake.blocksRun, completes, ← State.endCommand_eq pfw]
  rfl

end

/-- Settles O50: a slot wait ends as a reservation does, and the other two waits with NONE. -/
theorem waitsEnd : Obligations.WaitsEnd := by
  intro s awake
  refine ⟨fun w waiting => ?_, fun slots pfw waiting gone => exec_writeThroughComplete awake pfw waiting gone,
    exec_syncComplete awake⟩
  intro n free slots reserved
  refine ⟨exec_slotWaitEnd_few awake waiting, fun enough => ?_⟩
  rw [exec_slotWaitEnd_enough awake waiting enough]
  refine ⟨fun j m member long before => ?_, fun pfw empty => ?_⟩
  · rw [State.enterReserve_payload enough member long before]
  · rw [State.enterReserve_appends enough empty, State.completeAppend_eq (by simpa using pfw)]
    refine ⟨fun m slot kind members one => ?_, fun identifier kind => ?_⟩
    · have no_payload : m.length = 0 := empty m (by simp [members])
      have lowest : (freeSlots s.staging.slots).take w.members.length = [slot] := one
      have reserved_eq : reserved = s.reserveSlots [slot] := by simp only [reserved, one, State.reserveSlots]
      intro e
      rw [lowest, one, reserved_eq]
      rcases kind with store | remove
      · have e_eq : e = ⟨.write, m.tag, m.length, m.protect, 0, none, slot, false⟩ := by simp [e, store, no_payload]
        rw [State.appendWork_store members _ store, e_eq]
      · have e_eq : e = ⟨.delete, m.tag, 0, false, 0, none, slot, false⟩ := by simp [e, remove]
        rw [State.appendWork_remove members _ remove, e_eq]
    · rw [State.appendWork_bundle _ kind]
      rfl

end Sys2Proof.Machine
end

section
/-! SUPPORT. FETCH taken: its check and its lookup (R48, R154, R168). -/

-- One theorem at a time: many short ones that wait at once take a thread each.
set_option Elab.async false

namespace Sys2Proof.Machine

/-- FETCH of an invalid tag is refused, and of a valid one looks the tag up (R168). -/
theorem exec_fetch {s : State} (ready : s.ready) :
    exec .fetch s = .next (if s.window.tag.toNat < 1 ∨ 65534 < s.window.tag.toNat then s.endedAs 0x20 .badParameter 0
      else (s.take 0x20).fetchLookup s.window.tag.toNat).finish := by
  refine (ready.run_accept 0x20 State.fetchBody).trans ?_
  rw [← State.take_endCommand ready.2.2, State.fetchBody]
  simp only [Bool.not_eq_true', validTag_eq_false_iff]
  rfl

section
variable {s : State} {tag : Nat}

theorem State.fetchLookup_absent (seen : s.visible tag = .absent) : s.fetchLookup tag = s.endCommand .notFound 0 := by
  simp only [State.fetchLookup, seen]

theorem State.fetchLookup_lost {e : IndexEntry} (seen : s.visible tag = .lost e) :
    s.fetchLookup tag = ((s.loadLength 0).loadSequence e.sequence).endCommand .lost 0 := by
  simp only [State.fetchLookup, seen]

theorem State.fetchLookup_staged {e : PwlEntry} (seen : s.visible tag = .staged e) :
    s.fetchLookup tag = s.deliver ((s.slotBytes e.slot).take e.length) e.length 0 := by
  simp only [State.fetchLookup, seen]

theorem State.fetchLookup_read {e : IndexEntry} (seen : s.visible tag = .stored e ∨ s.visible tag = .damaged e) :
    s.fetchLookup tag = s.requestRead e := by
  rcases seen with seen | seen <;> simp only [State.fetchLookup, seen]

end

/-- Settles O21: the lookup by each of the five visible states. -/
theorem fetchActsOnTheVisibleState : Obligations.FetchActsOnTheVisibleState := by
  intro s ready tag
  have pfw : (s.take 0x20).pfw = false := ready.2.2
  rw [exec_fetch ready]
  refine ⟨fun invalid => by rw [if_pos invalid], fun valid => ?_⟩
  rw [if_neg (by omega)]
  refine ⟨fun seen => ?_, fun e seen => ?_, fun e seen empty => ?_, fun e seen long => ?_, fun e seen => ?_⟩
  · rw [State.fetchLookup_absent (s := s.take 0x20) seen, State.take_endCommand ready.2.2]
  · rw [State.fetchLookup_lost (s := s.take 0x20) seen, State.endCommand_eq (by exact pfw)]
    rfl
  · rw [State.fetchLookup_staged (s := s.take 0x20) seen, State.deliver_eq pfw, empty, List.take_zero]
    rfl
  · rw [State.fetchLookup_staged (s := s.take 0x20) seen, State.deliver_of_pos long]
    rfl
  · rw [State.fetchLookup_read (s := s.take 0x20) seen]
    rfl

end Sys2Proof.Machine
end

section
/-! SUPPORT. ERASE STORE (R174-R176): its acceptance, its start, the segments it takes in turn, the outcomes of its
operations, and its ends. -/

-- One theorem at a time: many short ones that wait at once take a thread each.
set_option Elab.async false

namespace Sys2Proof.Machine

/-! ## Acceptance (R98, R116, R174) -/

/-- ERASE STORE over staged entries needs DISCARD; otherwise it is executing, and the Reclaimer yields. -/
theorem exec_eraseStore {s : State} (ready : s.ready) :
    exec .eraseStore s = .next (if s.staging.pwl ≠ [] ∧ s.window.option.getLsbD 3 = false then
        s.endedAs 0x60 .pendingWrites 0
      else ((s.take 0x60).setErasure ⟨s.window.option.getLsbD 3, true, [], none, none,
        false⟩).yieldToErase).finish := by
  refine (ready.run_accept 0x60 State.eraseBody).trans ?_
  rw [← State.take_endCommand ready.2.2, State.eraseBody]
  simp only [Bool.and_eq_true, Bool.not_eq_true', List.isEmpty_eq_false_iff]
  rfl

/-! ## The ends of the command (R176) -/

/-- The RESULT with which ERASE STORE ends when no port reset is recorded. -/
def EraseProgress.result (p : EraseProgress) : ResultCode :=
  match p.firstEnd with
  | none => .none
  | some .abort => .aborted
  | some .powerFail => .powerFail

/-- ERASE STORE has ended: with its RESULT and DONE, or, with a port reset recorded, without either. -/
def EraseProgress.endedIn (p : EraseProgress) (s v : State) : Prop :=
  v.port.state = (if s.pfw = true then .draining else .idle) ∧ v.port.activity = .none ∧
    (p.portReset = true → v.port.result = s.port.result ∧ v.causes = s.causes) ∧
    (p.portReset = false → v.causes.done = true ∧ v.port.detail = 0 ∧ v.port.result = p.result)

theorem EraseProgress.endedIn_leaveCommand {p : EraseProgress} (reset : p.portReset = true) (s : State) :
    p.endedIn s s.leaveCommand := by
  obtain ⟨-, -, -, -, -, -, -, -, -, causes, port⟩ := s.leaveCommand_keeps
  unfold EraseProgress.endedIn
  rw [port]
  exact ⟨rfl, rfl, fun _ => ⟨rfl, causes⟩, fun clear => absurd reset (by simp [clear])⟩

theorem EraseProgress.endedIn_endCommand {p : EraseProgress} (clear : p.portReset = false) (s : State) :
    p.endedIn s (s.endCommand p.result 0) := by
  obtain ⟨-, -, -, -, -, -, -, -, -, done, -, port⟩ := s.endCommand_keeps p.result 0
  unfold EraseProgress.endedIn
  rw [port]
  exact ⟨rfl, rfl, fun reset => absurd reset (by simp [clear]), fun _ => ⟨done, rfl, rfl⟩⟩

section
variable {s : State} {p : EraseProgress} (activity : s.port.activity = .eraseStore p)
include activity

theorem State.erasure_of_activity : s.erasure = some p := by
  simp only [State.erasure, activity]

theorem State.endErasure_ends : p.endedIn s s.endErasure := by
  unfold State.endErasure
  simp only [State.erasure_of_activity activity]
  cases reset : p.portReset with
  | true => exact EraseProgress.endedIn_leaveCommand reset s
  | false =>
    have ended := EraseProgress.endedIn_endCommand reset s
    rw [if_neg Bool.false_ne_true]
    unfold EraseProgress.result at ended
    rcases first : p.firstEnd with _ | _ | _ <;> simpa only [first, RecordedEnd.code] using ended

/-- ERASE STORE that stops early leaves the store as it is, and the background erase begins again. -/
theorem State.stopErasure_spec :
    s.stopErasure.space = s.space ∧ s.stopErasure.index = s.index ∧
      s.stopErasure.background = ⟨s.pendingErases, none⟩ ∧ s.stopErasure.sequencer = s.sequencer ∧
      p.endedIn s s.stopErasure := by
  unfold State.stopErasure
  refine ⟨?_, ?_, ?_, ?_, State.endErasure_ends (s := { s with background := ⟨s.pendingErases, none⟩ }) activity⟩ <;>
    simp only [State.endErasure_frame]

end

/-- A RETIRED segment with mark UNMARKED is in the store, which a later mount may scan. -/
def State.holdsUnmarked (s : State) : Prop := ∃ g ∈ s.space.segments, g.state = .retired ∧ g.mark = some .unmarked

theorem State.keepsUnmarked_iff {s : State} : s.keepsUnmarked = true ↔ s.holdsUnmarked := by
  simp [State.keepsUnmarked, State.holdsUnmarked]

/-- Completion empties the index and removes DEGRADED; with an UNMARKED segment left the counter and SEQUENCE stand. -/
theorem State.emptyStore_kept {s : State} (kept : s.holdsUnmarked) :
    s.emptyStore = { s with
      index := ⟨[], s.index.nextSequence, 0⟩
      space := { s.space with reasons := { s.space.reasons with degraded := false } } } := by
  simp [State.emptyStore, State.keepsUnmarked_iff.mpr kept]

/-- Completion with no UNMARKED segment left makes the counter 1 and removes SEQUENCE too. -/
theorem State.emptyStore_cleared {s : State} (cleared : ¬ s.holdsUnmarked) :
    s.emptyStore = { s with
      index := ⟨[], 1, 0⟩
      space := { s.space with reasons := { s.space.reasons with degraded := false, sequence := false } } } := by
  have none_kept : s.keepsUnmarked = false := by
    rw [← Bool.not_eq_true, State.keepsUnmarked_iff]
    exact cleared
  simp [State.emptyStore, none_kept]

/-! ## The segments taken (R175) -/

/-- A segment as ERASE STORE takes it: its live pages are dead, and an OPEN one is FILLED (log 18). -/
theorem Segment.clear_eq (g : Segment) :
    g.clear = if g.state = .open then
        { g with
          state := .filled, live := 0, dead := g.dead + g.live + (128 - g.writePointer), writePointer := 128 }
      else { g with live := 0, dead := g.dead + g.live } := by
  simp only [Segment.clear, Segment.makeDead, Segment.close, Config.segmentPages, Nat.sub_self]

theorem State.number_of_segment? {s : State} {n : Nat} {g : Segment} (found : s.segment? n = some g) :
    g.number = n := by
  simpa using List.find?_some found

theorem Segment.number_clear (g : Segment) : g.clear.number = g.number := by
  obtain ⟨-, -, number, -⟩ := g.clear_spec
  exact number

theorem State.segment?_clearSegment {s : State} {m : Nat} {g : Segment} (found : s.segment? m = some g) :
    (s.clearSegment m).segment? m = some g.clear := by
  refine (find?_updateSegment s.space.segments m m Segment.clear Segment.number_clear).trans ?_
  rw [show s.space.segments.find? (fun x => x.number == m) = some g from found, Option.map_some,
    if_pos (State.number_of_segment? found)]

/-- ERASE STORE with segment `m` cleared and in hand at a stage, its operation in flight, and `rest` still to take. -/
def State.inHand (s : State) (p : EraseProgress) (m : Nat) (rest : List Nat) (stage : EraseStage) (op : Op) : State :=
  { s.clearSegment m with
    port := { s.port with activity := .eraseStore { p with hand := some (m, stage), todo := rest } }
    sequencer := { s.sequencer with inFlight := some ⟨.eraseStore, op, 0, 1, none⟩ } }

/-- A segment retired at once: its RETIRED slot was found written, and WORN follows from the usable count (R73, R77). -/
theorem State.completeRetirement_eq (s : State) (n : Nat) (why : RetireReason) (mark : RetireMark) :
    s.completeRetirement n why mark =
      let retired := s.space.segments.map fun x => if x.number = n then x.retire why mark else x
      { s with space := { s.space with
        segments := retired
        reasons := { s.space.reasons with
          worn := s.space.reasons.worn || decide ((retired.countP fun x => x.state != .retired) < 4) } } } :=
  State.checkWorn_eq _

section
variable {s : State} {p : EraseProgress} {m : Nat} (rest : List Nat) (activity : s.port.activity = .eraseStore p)
include activity

theorem State.eraseFrom_stopped (stopped : p.portReset = true ∨ p.firstEnd ≠ none) :
    State.eraseFrom (m :: rest) s = s.stopErasure := by
  have recorded : s.endRecorded = true := by
    simpa [State.endRecorded, State.erasure_of_activity activity, Option.isSome_iff_ne_none] using stopped
  rw [State.eraseFrom, if_pos recorded]

variable {g : Segment} (clear : p.portReset = false) (going : p.firstEnd = none) (found : s.segment? m = some g)
include clear going found

theorem State.eraseFrom_going :
    State.eraseFrom (m :: rest) s =
      if g.state = .retiring then
        if g.mark = some .unmarked then
          State.eraseFrom rest ((s.clearSegment m).completeRetirement m .program .unmarked)
        else s.inHand p m rest (.retire (g.reason.getD .program))
          (.headerProgram m (.retired (g.reason.getD .program)))
      else s.inHand p m rest .erase (.segmentErase m) := by
  obtain ⟨-, -, -, retiring, reason, mark⟩ := g.clear_spec
  have unrecorded : s.endRecorded = false := by
    simp [State.endRecorded, State.erasure_of_activity activity, clear, going]
  have at_m := State.segment?_clearSegment found
  have staged (stage : EraseStage) : (((s.clearSegment m).setTodo rest).eraseStage m stage) =
      s.inHand p m rest stage (((s.clearSegment m).setTodo rest).eraseOp m stage) := by
    have still : (s.clearSegment m).erasure = some p := State.erasure_of_activity activity
    unfold State.setTodo State.eraseStage
    simp only [still]
    rfl
  rw [State.eraseFrom, unrecorded, if_neg Bool.false_ne_true]
  simp only [State.isRetiring, State.isUnmarked, State.recordedReason, at_m, beq_iff_eq, retiring, reason, mark, staged]
  rfl

/-- A segment that is not RETIRING is erased. -/
theorem State.eraseFrom_erases (state : g.state ≠ .retiring) :
    State.eraseFrom (m :: rest) s = s.inHand p m rest .erase (.segmentErase m) := by
  rw [State.eraseFrom_going rest activity clear going found, if_neg state]

/-- A RETIRING segment has its RETIRED slot programmed. -/
theorem State.eraseFrom_marks (state : g.state = .retiring) (unwritten : g.mark ≠ some .unmarked) :
    State.eraseFrom (m :: rest) s = s.inHand p m rest (.retire (g.reason.getD .program))
      (.headerProgram m (.retired (g.reason.getD .program))) := by
  rw [State.eraseFrom_going rest activity clear going found, if_pos state, if_neg unwritten]

/-- A RETIRING segment whose RETIRED slot is written is RETIRED at once, and the next one is taken. -/
theorem State.eraseFrom_retires (state : g.state = .retiring) (written : g.mark = some .unmarked) :
    State.eraseFrom (m :: rest) s =
      State.eraseFrom rest ((s.clearSegment m).completeRetirement m .program .unmarked) := by
  rw [State.eraseFrom_going rest activity clear going found, if_pos state, if_pos written]

end

/-! ## The outcomes of its operations (R66, R73, R175) -/

section
variable {s : State} {f : InFlight} {n : Nat} (awake : s.awake) (flight : s.sequencer.inFlight = some f)
  (who : f.requester = .eraseStore) (there : s.opExists f.op = true) (o : MediumEnd)
include awake flight who there

theorem exec_segmentErase_erasure (op : f.op = .segmentErase n) :
    exec (.segmentErase o) s = .next ((s.freedBy f.op o).eraseStoreEnd o).finish := by
  refine (State.runOp_of_exists awake.1 flight there fun t f => t.eraseEvent f o).trans ?_
  simp only [State.eraseEvent, op, State.programEnd, who, State.freedBy]

theorem exec_headerProgram_erasure {slot : SlotContent} (op : f.op = .headerProgram n slot) :
    exec (.headerProgram o) s = .next ((s.freedBy f.op o).eraseStoreEnd o).finish := by
  refine (State.runOp_of_exists awake.1 flight there fun t f => t.headerProgramEvent f o).trans ?_
  simp only [State.headerProgramEvent, op, State.programEnd, who, State.freedBy]

end

section
variable {s u : State} {p : EraseProgress} {n : Nat} {stage : EraseStage} {o : MediumEnd}
  (activity : s.port.activity = .eraseStore p) (hand : p.hand = some (n, stage))
include activity hand

/-- The segment in hand goes on to its next stage. -/
theorem State.eraseStoreEnd_stage {next : EraseStage} (ended : s.eraserEnd n stage o = (.stage next, u))
    (port : u.port = s.port) :
    s.eraseStoreEnd o = { u with
      port := { s.port with activity := .eraseStore { p with hand := some (n, next) } }
      sequencer := { u.sequencer with inFlight := some ⟨.eraseStore, u.eraseOp n next, 0, 1, none⟩ } } := by
  have still : u.erasure = some p := State.erasure_of_activity (by rw [port, activity])
  unfold State.eraseStoreEnd
  simp only [State.erasure_of_activity activity, hand, ended]
  simp only [State.eraseStage, still, ← port]
  rfl

/-- The segment in hand is done, and the segments not yet taken follow. -/
theorem State.eraseStoreEnd_finished (ended : s.eraserEnd n stage o = (.finished, u)) :
    s.eraseStoreEnd o = State.eraseFrom p.todo (u.setErasure { p with hand := none }) := by
  unfold State.eraseStoreEnd
  simp only [State.erasure_of_activity activity, hand, ended]

end

theorem State.formatEnd_done {s : State} {n : Nat} (below : s.eraseCountOf n < 100000) :
    s.formatEnd n .done = (.finished, s.formatSegment n) := by
  have fresh : s.isWorn n = false := by simpa [State.isWorn, Config.eraseLimit] using below
  rw [State.formatEnd, fresh, if_neg Bool.false_ne_true]

/-- A segment formatted is ERASED with its counts reset and stands in the free list; the exclusion set is emptied, and a
WAITING engine requests the port again (R66, R90, R103). -/
theorem State.formatSegment_eq (s : State) (n : Nat) : ∃ l q, n ∈ l ∧ q.inFlight = s.sequencer.inFlight ∧
    s.formatSegment n = { s with
      space := { s.space with
        segments := (s.space.segments.map fun g => if g.number = n then g.format else g), freeList := l }
      reclaim := { s.reclaim with exclusion := [] }
      sequencer := q } := by
  unfold State.formatSegment State.setFreeList
  obtain ⟨q, woken, port⟩ := State.wakeWaiting_keeps
    ({ s.updateSegment n Segment.format with
      space := { (s.updateSegment n Segment.format).space with
        freeList := insertFree (s.updateSegment n Segment.format).eraseCountOf n s.space.freeList }
      reclaim := { s.reclaim with exclusion := [] } } : State)
  exact ⟨_, q, (insertFree_spec _ _ _).2.1, port, woken⟩

/-- The outcome of a RETIRED slot program retires its segment, MARKED when it ended DONE; only a failure counts. -/
theorem State.retiredProgramEnd_eq (s : State) (n : Nat) (why : RetireReason) (o : MediumEnd) : ∃ h r,
    s.retiredProgramEnd n why o = { s with
      space := { s.space with
        segments := (s.space.segments.map fun g => if g.number = n then
          g.retire why (if o = .done then .marked else .unmarked) else g)
        reasons := r }
      health := h } := by
  unfold State.retiredProgramEnd
  cases o with
  | done => exact ⟨_, _, State.completeRetirement_eq s n why .marked⟩
  | failed left => exact ⟨_, _, State.completeRetirement_eq (s.countProgramEnd .failed) n why .unmarked⟩
  | timeout left => exact ⟨_, _, State.completeRetirement_eq (s.countProgramEnd .timeout) n why .unmarked⟩

/-- ERASE STORE with the segment in hand formatted; the free list, the arbiter and the medium are as given. -/
def State.withFormatted (s : State) (p : EraseProgress) (n : Nat) (free : List Nat) (q : Sequencer)
    (medium : List Host.Cell) : State :=
  { s with
    port := { s.port with activity := .eraseStore { p with hand := none } }
    space := { s.space with
      segments := (s.space.segments.map fun g => if g.number = n then g.format else g), freeList := free }
    reclaim := { s.reclaim with exclusion := [] }
    sequencer := q, medium := medium }

/-- ERASE STORE with the segment in hand RETIRED; the store mode, the health and the medium are as given. -/
def State.withRetired (s : State) (p : EraseProgress) (n : Nat) (why : RetireReason) (mark : RetireMark)
    (reasons : Reasons) (health : Health) (medium : List Host.Cell) : State :=
  { s with
    port := { s.port with activity := .eraseStore { p with hand := none } }
    space := { s.space with
      segments := (s.space.segments.map fun g => if g.number = n then g.retire why mark else g), reasons := reasons }
    sequencer := { s.sequencer with inFlight := none, pin := none }
    health := health, medium := medium }

section
variable {s : State} {f : InFlight} {p : EraseProgress} {n : Nat} {slot : SlotContent} (awake : s.awake)
  (flight : s.sequencer.inFlight = some f) (who : f.requester = .eraseStore) (there : s.opExists f.op = true)
  (activity : s.port.activity = .eraseStore p) (op : f.op = .headerProgram n slot)
include awake flight who there activity op

/-- FORMATTED programmed DONE below the wear limit: the segment is ERASED and free, and the next one follows. -/
theorem exec_headerProgram_formatted (hand : p.hand = some (n, .format)) (below : s.eraseCountOf n < 100000) :
    ∃ free q medium, n ∈ free ∧ q.inFlight = none ∧ exec (.headerProgram .done) s =
      .next (State.eraseFrom p.todo (s.withFormatted p n free q medium)).finish := by
  obtain ⟨free, q, mem, port, formatted⟩ := State.formatSegment_eq (s.freedBy f.op .done) n
  have ended : (s.freedBy f.op .done).eraserEnd n .format .done = (.finished, (s.freedBy f.op .done).formatSegment n) :=
    State.formatEnd_done below
  refine ⟨free, q, f.op.apply s.medium .done, mem, port, ?_⟩
  rw [exec_headerProgram_erasure awake flight who there .done op,
    State.eraseStoreEnd_finished (s := s.freedBy f.op .done) activity hand ended, formatted]
  rfl

/-- RETIRED programmed, whatever its end: the segment is RETIRED, and the next one follows. -/
theorem exec_headerProgram_retired {why : RetireReason} (o : MediumEnd) (hand : p.hand = some (n, .retire why)) :
    ∃ reasons health medium, exec (.headerProgram o) s = .next (State.eraseFrom p.todo
      (s.withRetired p n why (if o = .done then .marked else .unmarked) reasons health medium)).finish := by
  obtain ⟨health, reasons, retired⟩ := State.retiredProgramEnd_eq (s.freedBy f.op o) n why o
  have ended : (s.freedBy f.op o).eraserEnd n (.retire why) o =
      (.finished, (s.freedBy f.op o).retiredProgramEnd n why o) := rfl
  refine ⟨reasons, health, f.op.apply s.medium o, ?_⟩
  rw [exec_headerProgram_erasure awake flight who there o op,
    State.eraseStoreEnd_finished (s := s.freedBy f.op o) activity hand ended, retired]
  rfl

end

/-! ## The start (R54, R71, R116, R174) -/

theorem State.withdrawBackground_keeps (s : State) : ∃ q, s.withdrawBackground = { s with sequencer := q } ∧
    q.inFlight = s.sequencer.inFlight ∧ q.requests = { s.sequencer.requests with background := .absent } := by
  unfold State.withdrawBackground
  cases lodged : s.sequencer.requests.background with
  | absent => exact ⟨s.sequencer, rfl, rfl, by rw [← lodged]⟩
  | fresh => exact ⟨_, rfl, rfl, rfl⟩
  | standing => exact ⟨_, rfl, rfl, rfl⟩

/-- A segment as an open bundle range abandoned leaves it: its pages stay dead, and the segment is FILLED (R54, R71). -/
def Segment.leaveRange (range : Option BundleRange) (g : Segment) : Segment :=
  match range with
  | some r => if g.number = r.segment then
      { g with
        state := .filled, pending := g.pending - r.pages
        dead := g.dead + (128 - g.writePointer), writePointer := 128 }
    else g
  | none => g

theorem State.abandonRange_eq (s : State) : s.abandonRange =
    { s with space := { s.space with
      segments := s.space.segments.map (Segment.leaveRange s.space.range), range := none } } := by
  unfold State.abandonRange
  rcases range : s.space.range with _ | r
  · rw [show s.space.segments.map (Segment.leaveRange none) = s.space.segments from List.map_id _]
    simp only [← range]
  · rfl

/-- The discard empties the list with its slots, the engine is IDLE without a request, and the range is abandoned. -/
theorem State.discardStaged_eq (s : State) : s.discardStaged = { s with
    space := { s.space with segments := s.space.segments.map (Segment.leaveRange s.space.range), range := none }
    staging := ⟨s.staging.slots.map fun x => if x.state = .pending then { x with state := .free } else x, []⟩
    commit := ⟨.idle, none, 0⟩
    sequencer := { s.sequencer with requests := { s.sequencer.requests with commit := .absent } } } := by
  unfold State.discardStaged
  rw [State.abandonRange_eq]
  rfl

/-- A segment as the abandonment of a reclaim job leaves it (R72, R116). -/
def Segment.leaveJob (job : Option Job) (g : Segment) : Segment :=
  match job with
  | some j => if j.kind = .segment g.number ∧ g.state = .reclaiming then
      (if 100000 ≤ g.eraseCount then { g with state := .retiring, reason := some .worn, mark := some .none }
      else { g with state := .filled })
    else g
  | none => g

theorem Segment.leaveJob_refresh {j : Job} {tag : Nat} (kind : j.kind = .refresh tag) :
    Segment.leaveJob (some j) = id := by
  funext g
  simp [Segment.leaveJob, kind]

theorem Segment.leaveJob_segment {j : Job} {v : Nat} (kind : j.kind = .segment v) :
    Segment.leaveJob (some j) = fun g => if g.number = v then g.abandonVictim else g := by
  funext g
  simp only [Segment.leaveJob, kind, JobKind.segment.injEq, Segment.abandonVictim, Config.eraseLimit, eq_comm (a := v)]
  split <;> simp_all

/-- A job abandoned: its victim leaves RECLAIMING, its request is withdrawn, and a WAITING engine requests again. -/
theorem State.abandonJob_eq (s : State) : ∃ q, q.inFlight = s.sequencer.inFlight ∧
    (s.reclaim.job ≠ none → q.requests.reclaimer = .absent) ∧
    (s.commit.state ≠ .waiting → q.requests.commit = s.sequencer.requests.commit) ∧
    s.abandonJob false = { s with
      space := { s.space with segments := s.space.segments.map (Segment.leaveJob s.reclaim.job) }
      reclaim := { s.reclaim with job := none }
      sequencer := q } := by
  unfold State.abandonJob
  rcases job : s.reclaim.job with _ | j
  · refine ⟨s.sequencer, rfl, fun listed => absurd rfl listed, fun _ => rfl, ?_⟩
    rw [show s.space.segments.map (Segment.leaveJob none) = s.space.segments from List.map_id _]
    simp only [← job]
  · rcases kind : j.kind with v | tag
    · obtain ⟨q, withdrawn, port, requests⟩ := (s.updateSegment v Segment.abandonVictim).withdrawReclaimer_keeps
      obtain ⟨r, ended, port', absent, quiet⟩ := ({ s.updateSegment v Segment.abandonVictim with
        sequencer := q } : State).endJob_keeps
      refine ⟨r, port'.trans port, fun _ => absent.trans (by rw [requests]), fun awake => ?_, ?_⟩
      · rw [quiet awake, requests]
        rfl
      · simp only [kind, Segment.leaveJob_segment kind, withdrawn]
        exact ended
    · obtain ⟨q, withdrawn, port, requests⟩ := s.withdrawReclaimer_keeps
      obtain ⟨r, ended, port', absent, quiet⟩ := ({ s with sequencer := q } : State).endJob_keeps
      refine ⟨r, port'.trans port, fun _ => absent.trans (by rw [requests]), fun awake => ?_, ?_⟩
      · rw [quiet awake, requests]
      · simp only [kind, Segment.leaveJob_refresh kind, List.map_id, withdrawn]
        exact ended

/-- What the start leaves for ERASE STORE: the list as the discard leaves it, no job, empty lists, and no background
erase. -/
theorem State.clearWork_eq (s : State) (discard : Bool) : ∃ q,
    let t := if discard = true then s.discardStaged else s
    q.inFlight = t.sequencer.inFlight ∧ q.requests.background = .absent ∧
    (t.reclaim.job ≠ none → q.requests.reclaimer = .absent) ∧
    (t.commit.state ≠ .waiting → q.requests.commit = t.sequencer.requests.commit) ∧
    s.clearWork discard = { t with
      space := { t.space with segments := t.space.segments.map (Segment.leaveJob t.reclaim.job) }
      reclaim := ⟨none, [], [], none⟩
      background := ⟨[], none⟩
      sequencer := q } := by
  let t := if discard = true then s.discardStaged else s
  obtain ⟨q, port, reclaimer, commit, abandoned⟩ := t.abandonJob_eq
  obtain ⟨r, withdrawn, port', requests⟩ :=
    ({ (t.abandonJob false).emptyReclaimLists with background := ⟨[], none⟩ } : State).withdrawBackground_keeps
  rw [abandoned] at withdrawn port' requests
  refine ⟨r, port'.trans port, by rw [requests], fun job => ?_, fun awake => ?_, ?_⟩
  · rw [requests]
    exact reclaimer job
  · rw [requests]
    exact commit awake
  · unfold State.clearWork
    rw [← show t = if discard = true then s.discardStaged else s from rfl, abandoned]
    exact withdrawn

/-- What the start leaves in each part of the state (R54, R71, R98, R116, R149). -/
theorem State.clearWork_spec (s : State) (discard : Bool) : let t := s.clearWork discard
    t.space.segments = (s.space.segments.map fun g => if discard = true then g.leaveRange s.space.range else g).map
      (Segment.leaveJob s.reclaim.job) ∧
    t.reclaim = ⟨none, [], [], none⟩ ∧ t.background = ⟨[], none⟩ ∧ t.sequencer.requests.background = .absent ∧
    (s.reclaim.job ≠ none → t.sequencer.requests.reclaimer = .absent) ∧
    (discard = true →
      t.staging = ⟨s.staging.slots.map fun x => if x.state = .pending then { x with state := .free } else x, []⟩ ∧
      t.commit = ⟨.idle, none, 0⟩ ∧ t.sequencer.requests.commit = .absent ∧ t.space.range = none) ∧
    (discard = false → t.staging = s.staging ∧ t.commit = s.commit ∧ t.space.range = s.space.range) := by
  obtain ⟨q, -, background, reclaimer, commit, cleared⟩ := s.clearWork_eq discard
  intro t
  cases discard with
  | true =>
    rw [if_pos rfl, State.discardStaged_eq] at cleared reclaimer commit
    rw [show t = _ from cleared]
    exact ⟨rfl, rfl, rfl, background, reclaimer, fun _ => ⟨rfl, rfl, commit (by simp), rfl⟩,
      fun keep => (by cases keep)⟩
  | false =>
    rw [if_neg Bool.false_ne_true] at cleared reclaimer
    rw [show t = _ from cleared]
    refine ⟨?_, rfl, rfl, background, reclaimer, fun drop => (by cases drop), fun _ => ⟨rfl, rfl, rfl⟩⟩
    simp only [Bool.false_eq_true, if_false, List.map_id']

/-- ERASE STORE waits while an operation is in flight, and takes the medium once none is (R132, R174). -/
theorem eraseStoreStart_eq {s : State} {p : EraseProgress} (activity : s.port.activity = .eraseStore p)
    (taking : p.taking = true) :
    (s.sequencer.inFlight ≠ none → eraseStoreStart s = none) ∧
    (s.sequencer.inFlight = none → eraseStoreStart s = some (State.eraseFrom (s.clearWork p.discard).workList
      ((s.clearWork p.discard).setErasure { p with taking := false }))) := by
  unfold eraseStoreStart
  simp only [State.erasure_of_activity activity, taking, Bool.true_and, State.portFree]
  exact ⟨fun busy => if_neg (by simpa using busy), fun free => if_pos (by simpa using free)⟩

theorem State.reservations_of_empty {s : State} {p : EraseProgress} (activity : s.port.activity = .eraseStore p)
    (empty : s.staging.pwl = []) : s.refreshReservations.index.reservations = 0 := by
  simp [State.refreshReservations, State.reservingTags, activity, empty, Activity.reservingTags]

/-! ## Completion (R176) -/

/-- Completion empties the index and removes DEGRADED, the segments staying as they are, and the command ends. -/
theorem State.eraseFrom_completes {s : State} {p : EraseProgress} (activity : s.port.activity = .eraseStore p) :
    let v := State.eraseFrom [] s
    v.index.entries = [] ∧ v.index.reservations = 0 ∧ v.space.segments = s.space.segments ∧ v.sequencer = s.sequencer ∧
      (s.holdsUnmarked → v.index.nextSequence = s.index.nextSequence ∧
        v.space.reasons = { s.space.reasons with degraded := false }) ∧
      (¬ s.holdsUnmarked → v.index.nextSequence = 1 ∧
        v.space.reasons = { s.space.reasons with degraded := false, sequence := false }) ∧
      p.endedIn s v := by
  have frame : (State.eraseFrom [] s).index = s.emptyStore.index ∧ (State.eraseFrom [] s).space = s.emptyStore.space ∧
      (State.eraseFrom [] s).sequencer = s.emptyStore.sequencer := by simp [State.eraseFrom]
  obtain ⟨index, space, sequencer⟩ := frame
  intro v
  rw [index, space, sequencer]
  refine ⟨rfl, rfl, rfl, rfl, fun kept => ?_, fun cleared => ?_, State.endErasure_ends (s := s.emptyStore) activity⟩
  · rw [State.emptyStore_kept kept]
    exact ⟨rfl, rfl⟩
  · rw [State.emptyStore_cleared cleared]
    exact ⟨rfl, rfl⟩

/-- The segment in hand holds no live page and is not OPEN (R175). -/
theorem State.inHand_cleared (s : State) (p : EraseProgress) (m : Nat) (rest : List Nat) (stage : EraseStage)
    (op : Op) : ∀ x ∈ (s.inHand p m rest stage op).space.segments, x.number = m → x.live = 0 ∧ x.state ≠ .open := by
  intro x mem at_m
  obtain ⟨g, -, rfl⟩ := List.mem_map.mp mem
  split
  · obtain ⟨live, state, -⟩ := g.clear_spec
    exact ⟨live, state⟩
  · next other => simp [other] at at_m

/-- A segment other than the one just formatted is as it was. -/
theorem State.segment?_withFormatted {s : State} {m n : Nat} {g : Segment} (found : s.segment? m = some g)
    (other : m ≠ n) (p : EraseProgress) (free : List Nat) (q : Sequencer) (medium : List Host.Cell) :
    (s.withFormatted p n free q medium).segment? m = some g := by
  refine (find?_updateSegment s.space.segments m n Segment.format fun _ => rfl).trans ?_
  rw [show s.space.segments.find? (fun x => x.number == m) = some g from found, Option.map_some,
    if_neg (by rw [State.number_of_segment? found]; exact other)]

/-- A segment retired at once is RETIRED and UNMARKED in the state that follows. -/
theorem State.retired_completeRetirement (s : State) (n : Nat) :
    ∀ x ∈ (s.completeRetirement n .program .unmarked).space.segments, x.number = n →
      x.state = .retired ∧ x.mark = some .unmarked := by
  rw [State.completeRetirement_eq]
  intro x mem at_n
  obtain ⟨g, -, rfl⟩ := List.mem_map.mp mem
  split
  · exact ⟨rfl, rfl⟩
  · next other => simp [other] at at_n

theorem State.number_completeRetirement {s : State} {n : Nat} {g : Segment} (mem : g ∈ s.space.segments)
    (at_n : g.number = n) : ∃ x ∈ (s.completeRetirement n .program .unmarked).space.segments, x.number = n := by
  rw [State.completeRetirement_eq]
  exact ⟨_, List.mem_map.mpr ⟨g, mem, rfl⟩, by rw [if_pos at_n]; exact at_n⟩

/-- The last segment retired at once: it remains UNMARKED, so that completion leaves the counter as it is. -/
theorem State.eraseFrom_last_retires {s : State} {p : EraseProgress} {m : Nat} {g : Segment}
    (activity : s.port.activity = .eraseStore p) (clear : p.portReset = false) (going : p.firstEnd = none)
    (found : s.segment? m = some g) (state : g.state = .retiring) (written : g.mark = some .unmarked) :
    let v := State.eraseFrom [m] s
    (∀ x ∈ v.space.segments, x.number = m → x.state = .retired ∧ x.mark = some .unmarked) ∧ v.index.entries = [] ∧
      v.index.nextSequence = s.index.nextSequence ∧ v.sequencer = s.sequencer ∧ p.endedIn s v := by
  let t := (s.clearSegment m).completeRetirement m .program .unmarked
  have t_eq : t = _ := (s.clearSegment m).completeRetirement_eq m .program .unmarked
  have cleared : g.clear ∈ (s.clearSegment m).space.segments :=
    List.mem_of_find?_eq_some (State.segment?_clearSegment found)
  obtain ⟨x, mem, at_m⟩ := State.number_completeRetirement cleared
    (g.number_clear.trans (State.number_of_segment? found))
  have kept : t.holdsUnmarked := ⟨x, mem, State.retired_completeRetirement _ m x mem at_m⟩
  have t_activity : t.port.activity = .eraseStore p := by rw [t_eq]; exact activity
  obtain ⟨entries, -, segments, sequencer, next, -, ended⟩ := State.eraseFrom_completes t_activity
  intro v
  rw [show v = State.eraseFrom [] t from State.eraseFrom_retires [] activity clear going found state written]
  refine ⟨?_, entries, ?_, ?_, ?_⟩
  · rw [segments]
    exact State.retired_completeRetirement _ m
  · rw [(next kept).1, t_eq]
    rfl
  · rw [sequencer, t_eq]
    rfl
  · rw [t_eq] at ended ⊢
    exact ended

/-! ## What follows the last operation on a segment (R66, R73, R175, R176) -/

section
variable {s : State} {f : InFlight} {p : EraseProgress} {n : Nat} {slot : SlotContent} (awake : s.awake)
  (flight : s.sequencer.inFlight = some f) (who : f.requester = .eraseStore) (there : s.opExists f.op = true)
  (activity : s.port.activity = .eraseStore p) (op : f.op = .headerProgram n slot)
include awake flight who there activity op

/-- The last segment formatted, the command completes. -/
theorem exec_formatted_last (hand : p.hand = some (n, .format)) (below : s.eraseCountOf n < 100000)
    (last : p.todo = []) :
    ∃ u v : State, exec (.headerProgram .done) s = .next v.finish ∧
      u.space.segments = (s.space.segments.map fun g => if g.number = n then g.format else g) ∧
      v.space.segments = u.space.segments ∧ n ∈ v.space.freeList ∧ v.index.entries = [] ∧ v.index.reservations = 0 ∧
      (u.holdsUnmarked → v.index.nextSequence = s.index.nextSequence ∧
        v.space.reasons = { s.space.reasons with degraded := false }) ∧
      (¬ u.holdsUnmarked → v.index.nextSequence = 1 ∧
        v.space.reasons = { s.space.reasons with degraded := false, sequence := false }) ∧
      v.space.openCounter = s.space.openCounter ∧ v.health = s.health ∧ v.mountReport = s.mountReport ∧
      v.window = s.window ∧ v.sequencer.inFlight = none ∧ p.endedIn s v := by
  obtain ⟨free, q, medium, mem, port, runs⟩ :=
    exec_headerProgram_formatted awake flight who there activity op hand below
  let u := s.withFormatted p n free q medium
  obtain ⟨entries, reservations, segments, sequencer, kept, cleared, ended⟩ :=
    State.eraseFrom_completes (s := u) (p := { p with hand := none }) rfl
  obtain ⟨listed, counter, health, report, window⟩ : (State.eraseFrom [] u).space.freeList = u.space.freeList ∧
    (State.eraseFrom [] u).space.openCounter = u.space.openCounter ∧ (State.eraseFrom [] u).health = u.health ∧
    (State.eraseFrom [] u).mountReport = u.mountReport ∧ (State.eraseFrom [] u).window = u.window := by simp
  rw [last] at runs
  exact ⟨u, _, runs, rfl, segments, listed ▸ mem, entries, reservations, kept, cleared, counter, health, report, window,
    sequencer ▸ port, ended⟩

/-- A segment formatted with an end recorded, the command stops. -/
theorem exec_formatted_stopped {m : Nat} {rest : List Nat} (hand : p.hand = some (n, .format))
    (below : s.eraseCountOf n < 100000) (todo : p.todo = m :: rest) (stopped : p.portReset = true ∨ p.firstEnd ≠ none) :
    ∃ v : State, exec (.headerProgram .done) s = .next v.finish ∧
      v.space.segments = (s.space.segments.map fun g => if g.number = n then g.format else g) ∧ n ∈ v.space.freeList ∧
      v.index = s.index ∧ v.space.reasons = s.space.reasons ∧ v.background = ⟨v.pendingErases, none⟩ ∧
      v.sequencer.inFlight = none ∧ p.endedIn s v := by
  obtain ⟨free, q, medium, mem, port, runs⟩ :=
    exec_headerProgram_formatted awake flight who there activity op hand below
  let u := s.withFormatted p n free q medium
  obtain ⟨space, index, background, sequencer, ended⟩ :=
    State.stopErasure_spec (s := u) (p := { p with hand := none }) rfl
  rw [todo, State.eraseFrom_stopped (s := u) (p := { p with hand := none }) rest rfl stopped] at runs
  refine ⟨_, runs, by rw [space]; rfl, by rw [space]; exact mem, index, by rw [space]; rfl, ?_,
    by rw [sequencer]; exact port, ended⟩
  rw [background]
  simp only [State.pendingErases, space]

/-- A segment formatted with segments left, the next of them is in hand. -/
theorem exec_formatted_next {m : Nat} {rest : List Nat} {g : Segment} (hand : p.hand = some (n, .format))
    (below : s.eraseCountOf n < 100000) (todo : p.todo = m :: rest) (clear : p.portReset = false)
    (going : p.firstEnd = none) (other : m ≠ n) (found : s.segment? m = some g)
    (unwritten : g.state = .retiring → g.mark ≠ some .unmarked) :
    ∃ (stage : EraseStage) (op : Op) (v : State), exec (.headerProgram .done) s = .next v.finish ∧
      n ∈ v.space.freeList ∧ v.index = { s.index with entries := s.index.entries.filter fun e => e.segment != m } ∧
      (∀ x ∈ v.space.segments, x.number = m → x.live = 0 ∧ x.state ≠ .open) ∧
      v.port.activity = .eraseStore { p with hand := some (m, stage), todo := rest } ∧
      v.sequencer.inFlight = some ⟨.eraseStore, op, 0, 1, none⟩ ∧
      (g.state ≠ .retiring → stage = .erase ∧ op = .segmentErase m) ∧
      (∀ why : RetireReason, g.state = .retiring → g.reason = some why →
        stage = .retire why ∧ op = .headerProgram m (.retired why)) := by
  obtain ⟨free, q, medium, mem, port, runs⟩ :=
    exec_headerProgram_formatted awake flight who there activity op hand below
  have found_u := State.segment?_withFormatted found other p free q medium
  rw [todo] at runs
  by_cases state : g.state = .retiring
  · rw [State.eraseFrom_marks (p := { p with hand := none }) rest rfl clear going found_u state
      (unwritten state)] at runs
    exact ⟨_, _, _, runs, mem, rfl, State.inHand_cleared _ _ _ _ _ _, rfl, rfl, fun quiet => absurd state quiet,
      fun why _ reason => by rw [reason]; exact ⟨rfl, rfl⟩⟩
  · rw [State.eraseFrom_erases (p := { p with hand := none }) rest rfl clear going found_u state] at runs
    exact ⟨_, _, _, runs, mem, rfl, State.inHand_cleared _ _ _ _ _ _, rfl, rfl, fun _ => ⟨rfl, rfl⟩,
      fun why retiring => absurd retiring state⟩

/-- A segment formatted and the last one retired at once, the command completes and the counter stands. -/
theorem exec_formatted_last_retires {m : Nat} {g : Segment} (hand : p.hand = some (n, .format))
    (below : s.eraseCountOf n < 100000) (todo : p.todo = [m]) (clear : p.portReset = false) (going : p.firstEnd = none)
    (other : m ≠ n) (found : s.segment? m = some g) (state : g.state = .retiring) (written : g.mark = some .unmarked) :
    ∃ v : State, exec (.headerProgram .done) s = .next v.finish ∧ n ∈ v.space.freeList ∧
      (∀ x ∈ v.space.segments, x.number = m → x.state = .retired ∧ x.mark = some .unmarked) ∧
      v.index.entries = [] ∧ v.index.nextSequence = s.index.nextSequence ∧ v.sequencer.inFlight = none ∧
      p.endedIn s v := by
  obtain ⟨free, q, medium, mem, port, runs⟩ :=
    exec_headerProgram_formatted awake flight who there activity op hand below
  let u := s.withFormatted p n free q medium
  have found_u := State.segment?_withFormatted found other p free q medium
  have listed : (State.eraseFrom [m] u).space.freeList = u.space.freeList := by simp
  obtain ⟨retired, entries, next, sequencer, ended⟩ :=
    State.eraseFrom_last_retires (p := { p with hand := none }) rfl clear going found_u state written
  rw [todo] at runs
  exact ⟨_, runs, listed ▸ mem, retired, entries, next, by rw [sequencer]; exact port, ended⟩

/-- A segment RETIRED with an end recorded, the command stops. -/
theorem exec_retired_stopped {why : RetireReason} {m : Nat} {rest : List Nat} (o : MediumEnd)
    (hand : p.hand = some (n, .retire why)) (todo : p.todo = m :: rest)
    (stopped : p.portReset = true ∨ p.firstEnd ≠ none) :
    ∃ v : State, exec (.headerProgram o) s = .next v.finish ∧
      v.space.segments = (s.space.segments.map fun g => if g.number = n then
        g.retire why (if o = .done then .marked else .unmarked) else g) ∧
      v.index = s.index ∧ v.space.freeList = s.space.freeList ∧ v.sequencer.inFlight = none ∧ p.endedIn s v := by
  obtain ⟨reasons, health, medium, runs⟩ := exec_headerProgram_retired awake flight who there activity op o hand
  let u := s.withRetired p n why (if o = .done then .marked else .unmarked) reasons health medium
  obtain ⟨space, index, -, sequencer, ended⟩ := State.stopErasure_spec (s := u) (p := { p with hand := none }) rfl
  rw [todo, State.eraseFrom_stopped (s := u) (p := { p with hand := none }) rest rfl stopped] at runs
  exact ⟨_, runs, by rw [space]; rfl, index, by rw [space]; rfl, by rw [sequencer]; rfl, ended⟩

end

/-! ## ERASE STORE -/

/-- Settles O28: acceptance, the abandonment of the job, the outcomes of the operations, the start, and the segments in
turn, each from the lemma of its own rule. -/
theorem eraseStoreBeginsAndEnds : Obligations.EraseStoreBeginsAndEnds := by
  refine ⟨fun s ready => ?_, fun s j erasing job abandoning => ?_, ?_, fun s p activity taking => ?_,
    fun s p activity => ?_⟩
  · rw [exec_eraseStore ready]
    refine ⟨fun staged plain => by rw [if_pos ⟨staged, plain⟩], fun goes_on => ?_⟩
    rw [if_neg (by rcases goes_on with empty | discard <;> simp [*]), State.yieldToErase_eq]
    rfl
  · refine ⟨by simp [consequences], fun busy => ?_, fun free => jobAbandon_erasing job abandoning free erasing⟩
    simp only [jobAbandon, job, busy, Bool.not_true, Bool.and_false]
    rfl
  · intro s f p n awake flight who there activity flying formatted ends
    have ends_of {v : State} (free : v.sequencer.inFlight = none) (ended : p.endedIn s v) : ends v := by
      obtain ⟨state, quiet, reset, done⟩ := ended
      exact ⟨state, quiet, free, reset, done⟩
    refine ⟨fun hand op => ⟨?_, fun left => ?_⟩, fun slot hand op below => ⟨fun last => ?_, fun m rest todo =>
      ⟨fun stopped => ?_, fun clear going other g found unwritten => ?_,
        fun clear going other only g found state written => ?_⟩⟩,
      fun why slot m rest o hand op todo stopped => ?_⟩
    · have ended := State.eraseStoreEnd_stage (s := s.freedBy f.op .done) (o := .done) activity hand rfl rfl
      have runs := exec_segmentErase_erasure awake flight who there .done op
      rw [ended] at runs
      exact ⟨_, runs, rfl, rfl, rfl, rfl, rfl⟩
    · have ended := State.eraseStoreEnd_stage (s := s.freedBy f.op (.failed left)) (o := .failed left) activity hand
        rfl rfl
      have runs := exec_segmentErase_erasure awake flight who there (.failed left) op
      rw [ended] at runs
      exact ⟨_, runs, rfl, rfl, rfl, rfl, rfl⟩
    · obtain ⟨u, v, runs, left, segments, listed, entries, reservations, kept, cleared, counter, health, report, window,
        free, ended⟩ := exec_formatted_last awake flight who there activity op hand below last
      have unmarked_iff : u.holdsUnmarked ↔ ∃ g ∈ formatted, g.state = .retired ∧ g.mark = some .unmarked := by
        rw [State.holdsUnmarked, left]
        rfl
      rw [unmarked_iff] at kept cleared
      exact ⟨v, runs, segments.trans left, listed, entries, reservations, kept,
        fun gone => cleared fun ⟨g, at_g, state, mark⟩ => gone g at_g state mark, counter, health, report, window,
        ends_of free ended⟩
    · obtain ⟨v, runs, segments, listed, index, reasons, background, free, ended⟩ :=
        exec_formatted_stopped awake flight who there activity op hand below todo stopped
      rw [State.pendingErases, segments] at background
      exact ⟨v, runs, segments, listed, index, reasons, ends_of free ended, background⟩
    · obtain ⟨stage, next, v, runs, listed, index, cleared, inHand, inFlight, erases, marks⟩ :=
        exec_formatted_next awake flight who there activity op hand below todo clear going other found unwritten
      refine ⟨v, runs, listed, index, cleared, fun state => ?_, fun why state reason => ?_⟩
      · obtain ⟨rfl, rfl⟩ := erases state
        exact ⟨inHand, inFlight⟩
      · obtain ⟨rfl, rfl⟩ := marks why state reason
        exact ⟨inHand, inFlight⟩
    · subst only
      obtain ⟨v, runs, listed, retired, entries, next, free, ended⟩ :=
        exec_formatted_last_retires awake flight who there activity op hand below todo clear going other found state
          written
      exact ⟨v, runs, listed, retired, entries, next, ends_of free ended⟩
    · obtain ⟨v, runs, segments, index, listed, free, ended⟩ :=
        exec_retired_stopped awake flight who there activity op o hand todo stopped
      exact ⟨v, runs, segments, index, listed, ends_of free ended⟩
  · obtain ⟨waits, starts⟩ := eraseStoreStart_eq activity taking
    refine ⟨waits, fun free => ?_⟩
    intro closed segments
    obtain ⟨left, reclaim, background, request, reclaimer, discards, keeps⟩ := s.clearWork_spec p.discard
    let t := s.clearWork p.discard
    have closed_eq :
        (s.space.segments.map fun g => if p.discard = true then g.leaveRange s.space.range else g) = closed :=
      List.map_congr_left fun g _ => by
        cases p.discard <;> rcases s.space.range with _ | r <;> simp [Segment.leaveRange]
    have segments_eq : t.space.segments = segments := by
      rw [show t.space.segments = _ from left, closed_eq]
      rfl
    obtain ⟨perm, ordered⟩ := foldr_insertOlder
      (t.space.segments.filter fun g => g.state != .erased && g.state != .retired)
    refine ⟨_, t.setErasure { p with taking := false }, starts free, by simp [consequences],
      segments_eq ▸ perm, ordered, segments_eq, ?_⟩
    obtain ⟨port, flight, index, health, medium, window, causes⟩ : t.port = s.port ∧
      t.sequencer.inFlight = s.sequencer.inFlight ∧ t.index = s.index ∧ t.health = s.health ∧ t.medium = s.medium ∧
      t.window = s.window ∧ t.causes = s.causes := by simp [t]
    refine ⟨congrArg (fun q : Port => { q with activity := .eraseStore { p with taking := false } }) port, reclaim,
      background, request, reclaimer, flight.trans free, index, health, medium, window, causes, fun drop => ?_, keeps⟩
    obtain ⟨staging, commit, withdrawn, range⟩ := discards drop
    exact ⟨staging, commit, withdrawn, range, State.reservations_of_empty (s := t.setErasure { p with taking := false })
      rfl (congrArg Staging.pwl staging)⟩
  · intro ends
    refine ⟨?_, fun m rest => ⟨fun stopped => ?_, fun g clear going found => ?_⟩⟩
    · obtain ⟨entries, reservations, segments, -, kept, cleared, ended⟩ := State.eraseFrom_completes activity
      intro v unmarked
      have reasons : v.space.reasons.degraded = false ∧ v.space.reasons.worn = s.space.reasons.worn := by
        by_cases h : unmarked
        · rw [(kept h).2]
          exact ⟨rfl, rfl⟩
        · rw [(cleared h).2]
          exact ⟨rfl, rfl⟩
      refine ⟨entries, reservations, segments, reasons.1, reasons.2, fun h => ?_, fun h => ?_, ended⟩
      · exact ⟨(kept h).1, by rw [(kept h).2]⟩
      · exact ⟨(cleared h).1, by rw [(cleared h).2]⟩
    · obtain ⟨space, index, background, -, ended⟩ := State.stopErasure_spec activity
      rw [State.eraseFrom_stopped rest activity stopped]
      exact ⟨space, index, background, ended⟩
    · intro taken index goesOn
      have in_hand (stage : EraseStage) (op : Op) : s.inHand p m rest stage op = goesOn stage op := by
        simp only [State.inHand, State.clearSegment, State.updateSegment, Segment.clear_eq]
        rfl
      refine ⟨fun state => ?_, fun why state unwritten reason => ?_, fun why state written _ => ?_⟩
      · rw [State.eraseFrom_erases rest activity clear going found state, in_hand]
      · rw [State.eraseFrom_marks rest activity clear going found state unwritten, reason, in_hand]
        rfl
      · rw [State.eraseFrom_retires rest activity clear going found state written, State.completeRetirement_eq]
        simp only [State.clearSegment, State.updateSegment, Segment.clear_eq]
        rfl

end Sys2Proof.Machine
end

section
/-! SUPPORT. Every command completes, and an answer for an address that does not exist faults (R58, R119). -/

-- One theorem at a time: many short ones that wait at once take a thread each.
set_option Elab.async false

namespace Sys2Proof.Machine

/-! ## What a step answers -/

/-- An answer of the medium to an operation on an address that does not exist is the fault. -/
theorem State.runOp_of_missing {s : State} {f : InFlight} (on : s.power = .on) (flight : s.sequencer.inFlight = some f)
    (missing : s.opExists f.op = false) (effect : State → InFlight → State) :
    s.runOp effect = .fault .noSuchAddress := by
  unfold State.runOp
  rw [flight]
  exact if_pos ⟨on, missing⟩

/-- Settles O3: each of the eight answers is handed to the operation in flight, if its address exists. -/
theorem answerForMissingAddressFaults : Obligations.AnswerForMissingAddressFaults := by
  intro c s f on flight missing answer
  have faults := State.runOp_of_missing on flight missing
  rcases answer with ⟨left, rfl⟩ | ⟨a, rfl⟩ | ⟨a, rfl⟩ | ⟨a, rfl⟩ | ⟨a, rfl⟩ | ⟨o, rfl⟩ | ⟨o, rfl⟩ | ⟨o, rfl⟩
  · exact faults fun t f => t.timeoutEvent f left
  · exact faults fun t f => t.probeEvent f a
  · exact faults fun t f => t.headerEvent f a
  · exact faults fun t f => t.recordEvent f a
  · exact faults fun t f => t.blankEvent f a
  · exact faults fun t f => t.recordProgramEvent f o
  · exact faults fun t f => t.headerProgramEvent f o
  · exact faults fun t f => t.eraseEvent f o

section
variable {s : State}

/-- An event of the running part completes, and the consequences leave the queue, as the event's own effect does. -/
theorem State.run_keepsQueue (effect : State → State) (keeps : (effect s).pending = s.pending := by simp) :
    ∃ t : State, s.run effect = .next t ∧ t.pending = s.pending := by
  by_cases on : s.power = .on
  · exact ⟨_, State.run_of_on on effect, (State.finish_frame _).1.trans keeps⟩
  · exact ⟨s, if_neg on, rfl⟩

/-- A COMMAND write leaves the queue when the body it may run does. -/
theorem State.accept_keepsQueue (code : Word) (body : State → State)
    (keeps : ∀ t : State, (body t).pending = t.pending := by simp) :
    ∃ t : State, (s.run fun t => t.accept code body) = .next t ∧ t.pending = s.pending := by
  refine State.run_keepsQueue (fun t => t.accept code body) ?_
  unfold State.accept
  split
  · rw [keeps]
    simp
  · simp

/-- An answer of the medium completes when the operation in flight names an address that exists. -/
theorem State.runOp_keepsQueue (there : ∀ f : InFlight, s.sequencer.inFlight = some f → s.opExists f.op = true)
    (effect : State → InFlight → State) (keeps : ∀ f, (effect s f).pending = s.pending := by simp) :
    ∃ t : State, s.runOp effect = .next t ∧ t.pending = s.pending := by
  unfold State.runOp
  split
  · exact State.run_keepsQueue id rfl
  · next f flight =>
    rw [if_neg (by simp [there f flight])]
    exact State.run_keepsQueue (fun t => effect t f) (keeps f)

theorem execPfwAsserted_keepsQueue : ∃ t : State, execPfwAsserted s = .next t ∧ t.pending = s.pending := by
  unfold execPfwAsserted
  split
  · exact ⟨_, rfl, rfl⟩
  · refine State.run_keepsQueue (fun t => if t.pfw then t else t.pfwAssert) ?_
    split <;> simp

theorem execPfwDeasserted_keepsQueue : ∃ t : State, execPfwDeasserted s = .next t ∧ t.pending = s.pending := by
  unfold execPfwDeasserted
  split
  · exact ⟨_, rfl, rfl⟩
  · refine State.run_keepsQueue (fun t => if t.pfw then t.pfwRelease else t) ?_
    split <;> simp

theorem execResetAsserted_keepsQueue (cut : Remnant) :
    ∃ t : State, execResetAsserted cut s = .next t ∧ t.pending = s.pending := by
  unfold execResetAsserted
  split
  · exact ⟨s, rfl, rfl⟩
  · exact ⟨_, rfl, rfl⟩

end

/-- Settles O2: an answer of the medium finds its address, every other event of the running part completes whatever the
state, and a reset keeps the queue. -/
theorem everyCommandCompletes : Obligations.EveryCommandCompletes := by
  intro c s there
  cases c with
  | hardReset cut => exact ⟨_, rfl, rfl⟩
  | powerLoss cut => exact ⟨_, rfl, rfl⟩
  | resetAsserted cut => exact execResetAsserted_keepsQueue cut
  | pfwAsserted => exact execPfwAsserted_keepsQueue
  | pfwDeasserted => exact execPfwDeasserted_keepsQueue
  | attemptTimeout left => exact State.runOp_keepsQueue there fun t f => t.timeoutEvent f left
  | bankProbe answer => exact State.runOp_keepsQueue there fun t f => t.probeEvent f answer
  | headerRead attempt => exact State.runOp_keepsQueue there fun t f => t.headerEvent f attempt
  | recordRead attempt => exact State.runOp_keepsQueue there fun t f => t.recordEvent f attempt
  | blankCheck attempt => exact State.runOp_keepsQueue there fun t f => t.blankEvent f attempt
  | recordProgram outcome => exact State.runOp_keepsQueue there fun t f => t.recordProgramEvent f outcome
  | headerProgram outcome => exact State.runOp_keepsQueue there fun t f => t.headerProgramEvent f outcome
  | segmentErase outcome => exact State.runOp_keepsQueue there fun t f => t.eraseEvent f outcome
  | store => exact State.accept_keepsQueue 0x10 State.storeBody
  | storeBundle => exact State.accept_keepsQueue 0x11 State.bundleBody
  | remove => exact State.accept_keepsQueue 0x12 State.removeBody
  | fetch => exact State.accept_keepsQueue 0x20 State.fetchBody
  | describe => exact State.accept_keepsQueue 0x21 State.describeBody
  | enumerate => exact State.accept_keepsQueue 0x22 State.enumerateBody
  | sync => exact State.accept_keepsQueue 0x30 State.syncBody
  | setOption => exact State.accept_keepsQueue 0x40 State.setOptionBody
  | readOption => exact State.accept_keepsQueue 0x41 State.readOptionBody
  | healthReport => exact State.accept_keepsQueue 0x50 State.reportBody
  | eraseStore => exact State.accept_keepsQueue 0x60 State.eraseBody
  | badCommand code => exact State.run_keepsQueue fun t => t.commandWrite code
  | dataWrite word => exact State.run_keepsQueue fun t => t.dataWrite word
  | registerWrite address word => exact State.run_keepsQueue fun t => t.registerWrite address word
  | refusedWrite target => exact State.run_keepsQueue fun t => t.namedWrite target
  | acknowledge word => exact State.run_keepsQueue fun t => t.acknowledge word
  | intmaskWrite word => exact State.run_keepsQueue fun t => t.writeMask word
  | dataRead => exact State.run_keepsQueue State.dataRead
  | statusRead => exact State.run_keepsQueue State.statusRead
  | abort => exact State.run_keepsQueue State.abort
  | portReset => exact State.run_keepsQueue State.portReset
  | dataTimeout => exact State.run_keepsQueue State.dataTimeout
  | idleTimerExpiry => exact State.run_keepsQueue State.idleExpiry
  | commitBegin => exact State.run_keepsQueue State.commitBeginEvent
  | reclaimSelection => exact State.run_keepsQueue State.selectionEvent
  | slotWaitEnd => exact State.run_keepsQueue State.slotWaitEvent
  | writeThroughComplete => exact State.run_keepsQueue State.writeThroughEvent
  | syncComplete => exact State.run_keepsQueue State.syncEvent
  | drainEnd => exact State.run_keepsQueue State.drainEvent
  | commitHaltEnd => exact State.run_keepsQueue State.haltEndEvent

end Sys2Proof.Machine
end

section
/-! SUPPORT. HEALTH REPORT (R154, R171, R184, R187): the forty words, the erase counts of the usable segments, and the
frame while the report is sent. -/

-- One theorem at a time: many short ones that wait at once take a thread each.
set_option Elab.async false

namespace Sys2Proof.Machine

/-! ## The forty words (R187) -/

theorem State.length_report (s : State) : s.report.length = 40 := rfl

/-- The last word makes the sum of all words 0. -/
theorem State.sum_report (s : State) : s.report.foldl (· + ·) 0 = 0 := by
  unfold State.report reportCheck
  rw [List.foldl_append, List.foldl_cons, List.foldl_nil, zero_sub, add_neg_cancel]

theorem State.report_take (s : State) : s.report.take 39 = s.reportStore ++ s.reportStates := rfl

theorem State.usableCount_eq (s : State) :
    s.usableCount = s.space.segments.countP fun g => g.state != .retired := List.countP_eq_length_filter.symm

/-- The commit state with its halt reason, as R187 numbers them. -/
theorem CommitState.twoBytes_eq (c : CommitState) : twoBytes c.number c.reasonNumber =
    (match c with
      | .idle => 0x0000 | .running => 0x0001 | .waiting => 0x0002
      | .halted .noSpace => 0x0103 | .halted .medium => 0x0203 | .halted .readOnly => 0x0303) := by
  rcases c with _ | _ | _ | _ | _ | _ <;> rfl

/-- A HEALTH REPORT taken puts the words as the state stands in the frame, and sends them. -/
theorem exec_healthReport {s : State} (ready : s.ready) : exec .healthReport s = .next
    ({ ({ s with window := { s.window with frame := s.report ++ s.window.frame.drop 40 } }
        : State).goesOn 0x50 .sending (.sending 40) 40 (some s.window.options.dataTimeout) with
      causes := { s.causes with data := true } } : State).finish :=
  ready.run_accept 0x50 State.reportBody

/-! ## The erase counts (R74, R184) -/

theorem foldl_max_eraseCount_spec (l : List Segment) (k : Nat) :
    let m := l.foldl (fun m g => max m g.eraseCount) k
    k ≤ m ∧ (∀ g ∈ l, g.eraseCount ≤ m) ∧ (m = k ∨ ∃ g ∈ l, g.eraseCount = m) := by
  induction l generalizing k with
  | nil => simp
  | cons x l ih =>
    obtain ⟨base, bound, attained⟩ := ih (max k x.eraseCount)
    simp only [List.foldl_cons, List.forall_mem_cons, List.exists_mem_cons_iff]
    refine ⟨by omega, ⟨by omega, bound⟩, ?_⟩
    rcases attained with at_base | attained
    · omega
    · exact .inr (.inr attained)

theorem foldl_min_eraseCount_spec (l : List Segment) (k : Nat) :
    let m := l.foldl (fun m g => min m g.eraseCount) k
    m ≤ k ∧ (∀ g ∈ l, m ≤ g.eraseCount) ∧ (m = k ∨ ∃ g ∈ l, g.eraseCount = m) := by
  induction l generalizing k with
  | nil => simp
  | cons x l ih =>
    obtain ⟨base, bound, attained⟩ := ih (min k x.eraseCount)
    simp only [List.foldl_cons, List.forall_mem_cons, List.exists_mem_cons_iff]
    refine ⟨by omega, ⟨by omega, bound⟩, ?_⟩
    rcases attained with at_base | attained
    · omega
    · exact .inr (.inr attained)

theorem State.mem_usable {s : State} {g : Segment} :
    g ∈ s.usable ↔ g ∈ s.space.segments ∧ g.state ≠ .retired := by
  simp [State.usable]

/-- The greatest erase count bounds those of the usable segments and is one of them, if there is one. -/
theorem State.maxErase_spec (s : State) :
    (∀ g ∈ s.usable, g.eraseCount ≤ s.maxErase) ∧ (s.usable ≠ [] → ∃ g ∈ s.usable, g.eraseCount = s.maxErase) := by
  obtain ⟨-, bound, attained⟩ := foldl_max_eraseCount_spec s.usable 0
  refine ⟨bound, fun some_usable => attained.elim (fun zero => ?_) id⟩
  obtain ⟨g, mem⟩ := List.exists_mem_of_ne_nil _ some_usable
  have below := bound g mem
  exact ⟨g, mem, by unfold State.maxErase; omega⟩

/-- The least erase count bounds those of the usable segments and is one of them, if there is one. -/
theorem State.minErase_spec (s : State) :
    (∀ g ∈ s.usable, s.minErase ≤ g.eraseCount) ∧ (s.usable ≠ [] → ∃ g ∈ s.usable, g.eraseCount = s.minErase) := by
  unfold State.minErase
  cases s.usable with
  | nil => simp
  | cons x l =>
    obtain ⟨base, bound, attained⟩ := foldl_min_eraseCount_spec l x.eraseCount
    refine ⟨List.forall_mem_cons.mpr ⟨base, bound⟩, fun _ => ?_⟩
    rw [List.exists_mem_cons_iff]
    exact attained.imp Eq.symm id

/-- The erase counts of the report: bounds that usable segments attain, or 0 when there is none. -/
theorem State.erase_bounds (s : State) :
    (∀ g ∈ s.space.segments, g.state ≠ .retired → s.minErase ≤ g.eraseCount ∧ g.eraseCount ≤ s.maxErase) ∧
    ((∃ g ∈ s.space.segments, g.state ≠ .retired ∧ g.eraseCount = s.minErase) ∧
        (∃ g ∈ s.space.segments, g.state ≠ .retired ∧ g.eraseCount = s.maxErase) ∨
      (∀ g ∈ s.space.segments, g.state = .retired) ∧ s.minErase = 0 ∧ s.maxErase = 0) := by
  obtain ⟨least, least_attained⟩ := s.minErase_spec
  obtain ⟨greatest, greatest_attained⟩ := s.maxErase_spec
  refine ⟨fun g mem usable => ?_, ?_⟩
  · have listed := State.mem_usable.mpr ⟨mem, usable⟩
    exact ⟨least g listed, greatest g listed⟩
  · by_cases empty : s.usable = []
    · refine .inr ⟨fun g mem => ?_, by simp [State.minErase, empty], by simp [State.maxErase, empty]⟩
      by_contra usable
      have listed := State.mem_usable.mpr ⟨mem, usable⟩
      simp [empty] at listed
    · simp only [State.mem_usable, and_assoc] at least_attained greatest_attained
      exact .inl ⟨least_attained empty, greatest_attained empty⟩

/-! ## The last word read (R154) -/

theorem exec_dataRead_last {s : State} {n : Nat} (on : s.power = .on) (pfw : s.pfw = false)
    (sending : s.port.state = .sending) (activity : s.port.activity = .sending (n + 1)) (last : s.port.residue = 1) :
    exec .dataRead s = .next (({ s with window := { s.window with
      busOut := some (s.window.frame.getD n 0) } } : State).completedAs .none 0).finish := by
  refine (State.run_of_on on State.dataRead).trans ?_
  have word : s.dataWord = s.window.frame.getD n 0 := by
    simp [State.dataWord, activity, sending, State.frameWord, last]
  unfold State.dataRead
  rw [if_pos sending, if_pos last.le, word, State.endCommand_eq (by exact pfw)]
  rfl

/-! ## The read frame while a reply is sent (R155) -/

section
variable {s : State}

section
variable (quiet : s.port.activity.isFetch = false) (f : InFlight)
include quiet

/-- The outcome of a read fills no frame when no FETCH is the command in progress. -/
theorem State.recordOutcome_window (o : ReadOutcome) : (s.recordOutcome f o).window = s.window := by
  unfold State.recordOutcome
  split
  · unfold State.fetchOutcome
    dsimp only
    split
    · simp
    · split
      · next e fetching =>
        rw [State.offerAfter_frame _ _ _ |>.2.2.2.2.1] at fetching
        simp [fetching, Activity.isFetch] at quiet
      · simp
  · split <;> simp
  all_goals rfl

theorem State.readUnreadable_window : (s.readUnreadable f).window = s.window := by
  unfold State.readUnreadable
  dsimp only
  split
  · simp
  · simp
  · rw [State.recordOutcome_window (by simpa using quiet)]
    simp
  · simp
  all_goals simp

theorem State.attemptBad_window : (s.attemptBad f).window = s.window := by
  unfold State.attemptBad
  dsimp only
  split
  · rfl
  · exact State.readUnreadable_window quiet _

theorem State.attemptTimeout_window : (s.attemptTimeout f).window = s.window := by
  unfold State.attemptTimeout
  rw [State.attemptBad_window (by simpa using quiet)]
  simp

theorem State.headerEvent_window (attempt : ReadAttempt) : (s.headerEvent f attempt).window = s.window := by
  unfold State.headerEvent
  split
  · unfold State.pageAttempt
    split
    · exact State.attemptBad_window quiet _
    · simp
  · unfold State.recordAttempt
    split
    · exact State.attemptBad_window quiet _
    · simp
  · exact State.attemptTimeout_window quiet f
  · exact State.attemptTimeout_window quiet f
  · rfl

theorem State.recordEvent_window (attempt : ReadAttempt) : (s.recordEvent f attempt).window = s.window := by
  unfold State.recordEvent
  split
  · unfold State.readAttempt
    split
    · rw [State.recordOutcome_window (by simpa using quiet)]
      simp
    · exact State.attemptBad_window quiet f
  · exact State.attemptTimeout_window quiet f
  · rfl

theorem State.blankEvent_window (attempt : ReadAttempt) : (s.blankEvent f attempt).window = s.window := by
  unfold State.blankEvent
  split
  · simp
  · exact State.attemptTimeout_window quiet f
  · rfl

theorem State.timeoutEvent_window (left : Remnant) : (s.timeoutEvent f left).window = s.window := by
  unfold State.timeoutEvent
  split
  · simp
  · exact State.attemptTimeout_window quiet f
  · exact State.attemptTimeout_window quiet f
  · exact State.attemptTimeout_window quiet f
  · exact State.attemptTimeout_window quiet f
  all_goals simp

end

section
variable (sending : s.port.state = .sending)
include sending

theorem State.accept_of_sending (code : Word) (body : State → State) : s.accept code body = s.refuse :=
  if_neg (by simp [sending])

theorem State.dataWrite_of_sending (word : Word) : s.dataWrite word = s.refuse := if_neg (by simp [sending])

/-- A write of any register leaves the frame of a reply that is sent: DATA, COMMAND and the parameters are refused. -/
theorem State.registerWrite_frame_of_sending (address : BitVec 4) (word : Word) :
    (s.registerWrite address word).window.frame = s.window.frame := by
  have parameter (n : Nat) : s.parameterWrite n word = s.refuse := if_neg (by simp [sending])
  unfold State.registerWrite State.commandWrite
  simp only [parameter, State.dataWrite_of_sending sending, State.accept_of_sending sending]
  split <;> simp

theorem State.namedWrite_of_sending (target : RefusedTarget) : s.namedWrite target = s.refuse := by
  cases target with
  | command code => exact State.accept_of_sending sending code _
  | data word => exact State.dataWrite_of_sending sending word

end

section
variable {t : State}

/-- An event of the running part leaves the frame when its own effect does. -/
theorem State.run_window_frame {effect : State → State} (answer : s.run effect = .next t)
    (keeps : (effect s).window.frame = s.window.frame := by simp) : t.window.frame = s.window.frame := by
  obtain ⟨-, rfl⟩ | ⟨-, rfl⟩ := State.run_next answer
  · rw [(State.finish_frame _).2.2.2.1, keeps]
  · rfl

theorem State.runOp_window_frame {effect : State → InFlight → State} (answer : s.runOp effect = .next t)
    (keeps : ∀ f, (effect s f).window = s.window := by simp) : t.window.frame = s.window.frame := by
  obtain ⟨f, -, -, -, rfl⟩ | ⟨-, -, rfl⟩ | ⟨-, rfl⟩ := State.runOp_next answer
  · rw [(State.finish_frame _).2.2.2.1, keeps]
  · rw [(State.finish_frame _).2.2.2.1]
  · rfl

theorem State.accept_window_frame (sending : s.port.state = .sending) (code : Word) (body : State → State)
    (answer : (s.run fun t => t.accept code body) = .next t) : t.window.frame = s.window.frame := by
  refine State.run_window_frame (effect := fun t => t.accept code body) answer ?_
  rw [State.accept_of_sending sending]
  simp

theorem execPfwAsserted_window_frame (answer : execPfwAsserted s = .next t) :
    t.window.frame = s.window.frame := by
  unfold execPfwAsserted at answer
  split at answer
  · cases answer
    rfl
  · refine State.run_window_frame answer ?_
    split <;> simp

theorem execPfwDeasserted_window_frame (answer : execPfwDeasserted s = .next t) :
    t.window.frame = s.window.frame := by
  unfold execPfwDeasserted at answer
  split at answer
  · cases answer
    rfl
  · refine State.run_window_frame answer ?_
    split <;> simp

/-- While a reply is sent only a reset changes the frame. -/
theorem exec_window_frame_of_sending (c : Instr) {n : Nat} (sending : s.port.state = .sending)
    (activity : s.port.activity = .sending n) (power_on : ∀ cut, c ≠ .hardReset cut)
    (low : ∀ cut, c ≠ .resetAsserted cut) (loss : ∀ cut, c ≠ .powerLoss cut) (answer : exec c s = .next t) :
    t.window.frame = s.window.frame := by
  have quiet : s.port.activity.isFetch = false := by rw [activity]; rfl
  cases c with
  | hardReset cut => exact absurd rfl (power_on cut)
  | resetAsserted cut => exact absurd rfl (low cut)
  | powerLoss cut => exact absurd rfl (loss cut)
  | pfwAsserted => exact execPfwAsserted_window_frame answer
  | pfwDeasserted => exact execPfwDeasserted_window_frame answer
  | attemptTimeout left =>
    exact State.runOp_window_frame (effect := fun t f => t.timeoutEvent f left) answer
      fun f => State.timeoutEvent_window quiet f left
  | headerRead attempt =>
    exact State.runOp_window_frame (effect := fun t f => t.headerEvent f attempt) answer
      fun f => State.headerEvent_window quiet f attempt
  | recordRead attempt =>
    exact State.runOp_window_frame (effect := fun t f => t.recordEvent f attempt) answer
      fun f => State.recordEvent_window quiet f attempt
  | blankCheck attempt =>
    exact State.runOp_window_frame (effect := fun t f => t.blankEvent f attempt) answer
      fun f => State.blankEvent_window quiet f attempt
  | bankProbe answered => exact State.runOp_window_frame (effect := fun t f => t.probeEvent f answered) answer
  | recordProgram o => exact State.runOp_window_frame (effect := fun t f => t.recordProgramEvent f o) answer
  | headerProgram o => exact State.runOp_window_frame (effect := fun t f => t.headerProgramEvent f o) answer
  | segmentErase o => exact State.runOp_window_frame (effect := fun t f => t.eraseEvent f o) answer
  | store => exact State.accept_window_frame sending 0x10 State.storeBody answer
  | storeBundle => exact State.accept_window_frame sending 0x11 State.bundleBody answer
  | remove => exact State.accept_window_frame sending 0x12 State.removeBody answer
  | fetch => exact State.accept_window_frame sending 0x20 State.fetchBody answer
  | describe => exact State.accept_window_frame sending 0x21 State.describeBody answer
  | enumerate => exact State.accept_window_frame sending 0x22 State.enumerateBody answer
  | sync => exact State.accept_window_frame sending 0x30 State.syncBody answer
  | setOption => exact State.accept_window_frame sending 0x40 State.setOptionBody answer
  | readOption => exact State.accept_window_frame sending 0x41 State.readOptionBody answer
  | healthReport => exact State.accept_window_frame sending 0x50 State.reportBody answer
  | eraseStore => exact State.accept_window_frame sending 0x60 State.eraseBody answer
  | badCommand code => exact State.accept_window_frame sending code (State.commandBody code) answer
  | dataWrite word =>
    exact State.run_window_frame (effect := fun t => t.dataWrite word) answer
      (by simp [State.dataWrite_of_sending sending])
  | registerWrite address word =>
    exact State.run_window_frame (effect := fun t => t.registerWrite address word) answer
      (State.registerWrite_frame_of_sending sending address word)
  | refusedWrite target =>
    exact State.run_window_frame (effect := fun t => t.namedWrite target) answer
      (by simp [State.namedWrite_of_sending sending])
  | acknowledge word => exact State.run_window_frame (effect := fun t => t.acknowledge word) answer
  | intmaskWrite word => exact State.run_window_frame (effect := fun t => t.writeMask word) answer
  | dataRead => exact State.run_window_frame (effect := State.dataRead) answer
  | statusRead => exact State.run_window_frame (effect := State.statusRead) answer
  | abort => exact State.run_window_frame (effect := State.abort) answer
  | portReset => exact State.run_window_frame (effect := State.portReset) answer
  | dataTimeout => exact State.run_window_frame (effect := State.dataTimeout) answer
  | idleTimerExpiry => exact State.run_window_frame (effect := State.idleExpiry) answer
  | commitBegin => exact State.run_window_frame (effect := State.commitBeginEvent) answer
  | reclaimSelection => exact State.run_window_frame (effect := State.selectionEvent) answer
  | slotWaitEnd => exact State.run_window_frame (effect := State.slotWaitEvent) answer
  | writeThroughComplete => exact State.run_window_frame (effect := State.writeThroughEvent) answer
  | syncComplete => exact State.run_window_frame (effect := State.syncEvent) answer
  | drainEnd => exact State.run_window_frame (effect := State.drainEvent) answer
  | commitHaltEnd => exact State.run_window_frame (effect := State.haltEndEvent) answer

end

end

/-- Settles O25: the words sent, what they hold, the last of them read, and the frame meanwhile. -/
theorem healthReportSendsFortyWords : Obligations.HealthReportSendsFortyWords := by
  refine ⟨fun s ready => ⟨s.length_report, s.sum_report, exec_healthReport ready⟩, fun s => ?_,
    fun s awake pfw sending activity last =>
      exec_dataRead_last (n := 39) awake.1 pfw sending activity last,
    fun c s t sending activity => exec_window_frame_of_sending c sending activity⟩
  intro n pair flag inState c h r m
  refine ⟨?_, s.erase_bounds⟩
  rw [State.report_take, State.reportStore, State.reportStates, CommitState.twoBytes_eq, State.usableCount_eq]
  rfl

end Sys2Proof.Machine
end

section
/-! SUPPORT. The probes of mount (R123, R137), and the empty store that mount leaves when no bank is present (R146). -/

-- One theorem at a time: many short ones that wait at once take a thread each.
set_option Elab.async false

namespace Sys2Proof.Machine

/-- The present set after the answer of a bank (R123, R137). -/
def MountWork.probed (m : MountWork) (bank : Nat) (answer : ProbeAnswer) : MountWork :=
  { m with present := if answer = .present then m.present ++ [bank] else m.present }

section
variable {s : State} {m : MountWork} {bank : Nat} (answer : ProbeAnswer) (mounting : s.mount = some m)
  (phase : m.phase = .probe bank)
include mounting phase

theorem State.mountProbeEnd_eq : s.mountProbeEnd answer =
    if bank < 3 then
      s.mountIssue { m.probed bank answer with phase := .probe (bank + 1) } (.bankProbe (bank + 1)) 1
    else if (m.probed bank answer).present = [] then s.mountEnd (m.probed bank answer) none 0
    else s.mountHeadersNext (m.probed bank answer) (presentSegments (m.probed bank answer).present) := by
  unfold State.mountProbeEnd MountWork.probed
  simp only [mounting, phase]

end

/-- The probe in flight has ended: the port is free, and mount takes the answer. -/
theorem exec_bankProbe {s : State} {f : InFlight} {bank : Nat} (answer : ProbeAnswer) (on : s.power = .on)
    (flight : s.sequencer.inFlight = some f) (op : f.op = .bankProbe bank) (select : bank < 4) :
    exec (.bankProbe answer) s = .next (s.releasePort.mountProbeEnd answer).finish := by
  have there : s.opExists f.op = true := by
    rw [op]
    exact decide_eq_true select
  refine (State.runOp_of_exists on flight there fun t f => t.probeEvent f answer).trans ?_
  simp only [State.probeEvent, op]

/-- The segments of the banks present begin with the first of the lowest bank (R58). -/
theorem presentSegments_cons (b : Nat) (rest : List Nat) : ∃ more, presentSegments (b :: rest) = 32 * b :: more :=
  ⟨_, rfl⟩

section
variable {m : MountWork} (bare : m.headers = [] ∧ m.found = [])
include bare

theorem MountWork.winners_of_bare : m.winners = [] := by 
  unfold MountWork.winners
  rw [bare.2]
  rfl

/-- With nothing found mount builds an empty index, its numbers beginning at 1 (R5, R144). -/
theorem MountWork.index_of_bare (fresh : m.highestSequence = 0) : m.index = ⟨[], 1, 0⟩ := by
  simp [MountWork.index, MountWork.indexed, MountWork.winners_of_bare bare, fresh]

theorem MountWork.space_of_bare (absent : m.present = []) :
    m.space none = ⟨[], [], [], 1, none, .normal, ⟨false, false, false⟩⟩ := by
  unfold MountWork.space MountWork.highestOpen
  rw [bare.1, absent]
  rfl

/-- A store with no usable segment and no number assigned is READ_ONLY for WORN alone (R77). -/
theorem MountWork.reasons_of_bare (fresh : m.highestSequence = 0) : m.reasons 0 = ⟨true, false, false⟩ := by
  unfold MountWork.reasons MountWork.leftOut
  rw [MountWork.winners_of_bare bare, fresh]
  rfl

/-- With no segment found the store is empty, LOW_SPACE, and READ_ONLY with reason WORN (R75, R77, R146). -/
theorem State.mountEnd_space_of_bare (s : State) (fresh : m.highestSequence = 0) (absent : m.present = []) :
    (s.mountEnd m none 0).space = ⟨[], [], [], 1, none, .lowSpace, ⟨true, false, false⟩⟩ := by
  unfold State.mountEnd
  rw [MountWork.space_of_bare bare absent]
  extract_lets a b c
  have low : a.spaceByFree = .lowSpace := if_pos (Nat.zero_le _)
  have worn : m.reasons a.usableCount = ⟨true, false, false⟩ := MountWork.reasons_of_bare bare fresh
  have built : c.space = { a.space with state := a.spaceByFree, reasons := m.reasons a.usableCount } := rfl
  rw [low, worn] at built
  simpa using built

end

theorem State.mountEnd_inFlight (s : State) (m : MountWork) (opened : Option Nat) (torn : Nat) :
    (s.mountEnd m opened torn).sequencer.inFlight = none := by
  unfold State.mountEnd
  simp

/-- Settles O39: the next select, the first header read, or the end of mount. -/
theorem bankProbeBuildsThePresentSet : Obligations.BankProbeBuildsThePresentSet := by
  intro answer s m f bank on mounting flight op phase present
  have ended (select : bank < 4) := exec_bankProbe answer on flight op select
  have taken := State.mountProbeEnd_eq (s := s.releasePort) answer mounting phase
  refine ⟨fun more => ?_, fun b rest last found => ?_, fun last none_found headers candidates found fresh => ?_⟩
  · rw [ended (by omega), taken, if_pos more]
    rfl
  · have found' : (m.probed bank answer).present = b :: rest := found
    obtain ⟨others, segments⟩ := presentSegments_cons b rest
    rw [ended (by omega), taken, if_neg (by omega), if_neg (by simp [found']), found', segments, found, segments]
    rw [show m.probed bank answer = { m with present := b :: rest } by rw [← found']; rfl]
    rfl
  · have absent : (m.probed bank answer).present = [] := none_found
    have bare : (m.probed bank answer).headers = [] ∧ (m.probed bank answer).found = [] := ⟨headers, found⟩
    obtain ⟨-, -, -, -, -, index⟩ := s.releasePort.mountEnd_store (m.probed bank answer) none 0
    obtain ⟨mount, -, -, -, -, -, -, -, mounted, -, port⟩ := s.releasePort.mountEnd_report (m.probed bank answer) none 0
    rw [if_neg (by omega), if_pos absent] at taken
    exact ⟨_, (ended (by omega)).trans (by rw [taken]), mount, index.trans (MountWork.index_of_bare bare fresh),
      State.mountEnd_space_of_bare bare _ fresh absent, State.mountEnd_inFlight .., mounted, port⟩

end Sys2Proof.Machine
end

section
/-! SUPPORT. The outcomes of those who erase segments (R62-R66, R73, R77, R112, R113, R148): the background erase and
the Reclaimer's job on a victim. -/

-- One theorem at a time: many short ones that wait at once take a thread each.
set_option Elab.async false

namespace Sys2Proof.Machine

/-! ## The outcome handed to the eraser -/

section
variable {s : State} {f : InFlight} {n : Nat} (awake : s.awake) (flight : s.sequencer.inFlight = some f)
  (there : s.opExists f.op = true) (o : MediumEnd)
include awake flight there

section
variable (who : f.requester = .background)
include who

theorem exec_segmentErase_background (op : f.op = .segmentErase n) :
    exec (.segmentErase o) s = .next ((s.freedBy f.op o).backgroundEnd o).finish := by
  refine (State.runOp_of_exists awake.1 flight there fun t f => t.eraseEvent f o).trans ?_
  simp only [State.eraseEvent, op, State.programEnd, who, State.freedBy]

theorem exec_headerProgram_background {slot : SlotContent} (op : f.op = .headerProgram n slot) :
    exec (.headerProgram o) s = .next ((s.freedBy f.op o).backgroundEnd o).finish := by
  refine (State.runOp_of_exists awake.1 flight there fun t f => t.headerProgramEvent f o).trans ?_
  simp only [State.headerProgramEvent, op, State.programEnd, who, State.freedBy]

end

section
variable (who : f.requester = .reclaimer)
include who

theorem exec_segmentErase_job (op : f.op = .segmentErase n) :
    exec (.segmentErase o) s = .next ((s.freedBy f.op o).jobEraseEnd n o).finish := by
  refine (State.runOp_of_exists awake.1 flight there fun t f => t.eraseEvent f o).trans ?_
  simp only [State.eraseEvent, op, State.programEnd, who, State.freedBy, State.jobOpEnd]

theorem exec_headerProgram_job_format {count : Nat} (op : f.op = .headerProgram n (.formatted count)) :
    exec (.headerProgram o) s = .next ((s.freedBy f.op o).jobFormatEnd n o).finish := by
  rw [exec_headerProgram_job awake flight who there op o]
  simp only [op, State.jobOpEnd, State.jobHeaderEnd]

theorem exec_headerProgram_job_retire {why : RetireReason} (op : f.op = .headerProgram n (.retired why)) :
    exec (.headerProgram o) s = .next ((s.freedBy f.op o).jobRetireEnd n why o).finish := by
  rw [exec_headerProgram_job awake flight who there op o]
  simp only [op, State.jobOpEnd, State.jobHeaderEnd]

end

end

section
variable {s u : State} {n : Nat} {stage : EraseStage} {o : MediumEnd}

/-- The background erase's segment goes on to its next stage. -/
theorem State.backgroundEnd_stage (hand : s.background.hand = some (n, stage)) {next : EraseStage}
    (ended : s.eraserEnd n stage o = (.stage next, u)) : s.backgroundEnd o = u.setHand (some (n, next)) := by
  unfold State.backgroundEnd
  simp only [hand, ended]

/-- The background erase has done with its segment. -/
theorem State.backgroundEnd_finished (hand : s.background.hand = some (n, stage))
    (ended : s.eraserEnd n stage o = (.finished, u)) : s.backgroundEnd o = u.setHand none := by
  unfold State.backgroundEnd
  simp only [hand, ended]

section
variable {j : Job} (job : s.reclaim.job = some j)
include job

theorem State.jobEraseEnd_eq {next : EraseNext} (ended : s.eraseEnd n o = (next, u)) :
    s.jobEraseEnd n o = u.jobNext j next := by
  unfold State.jobEraseEnd
  simp only [job, ended]

theorem State.jobFormatEnd_eq {next : EraseNext} (ended : s.formatEnd n o = (next, u)) :
    s.jobFormatEnd n o = u.jobNext j next := by
  unfold State.jobFormatEnd
  simp only [job, ended]

end

end

/-! ## The outcome of FORMATTED (R63, R66, R112) -/

section
variable {s : State} {n : Nat}

/-- Below the wear limit a FORMATTED program that fails is counted and leads to the RETIRED slot. -/
theorem State.formatEnd_failed (below : s.eraseCountOf n < 100000) {o : MediumEnd} {x : Failure}
    (failed : failureOf o = some x) :
    s.formatEnd n o = (.stage (.retire .program), s.countProgramEnd x) := by
  have fresh : s.isWorn n = false := by simpa [State.isWorn, Config.eraseLimit] using below
  unfold State.formatEnd
  rw [fresh, if_neg Bool.false_ne_true]
  cases o <;> cases failed <;> rfl

/-- At the wear limit retirement follows, and the low sequence is 0 after DONE. -/
theorem State.formatEnd_worn (worn : 100000 ≤ s.eraseCountOf n) (o : MediumEnd) :
    s.formatEnd n o = (.stage (.retire .worn),
      if o = .done then s.updateSegment n fun g => { g with lowSequence := 0 } else s) := by
  have limit : s.isWorn n = true := by simpa [State.isWorn, Config.eraseLimit] using worn
  unfold State.formatEnd
  rw [if_pos limit]
  cases o <;> rfl

/-- An erase that fails is counted and leads to the RETIRED slot. -/
theorem State.eraseEnd_failed (s : State) (n : Nat) {o : MediumEnd} {x : Failure} (failed : failureOf o = some x) :
    s.eraseEnd n o = (.stage (.retire .erase), s.countEraseEnd x) := by
  cases o <;> cases failed <;> rfl

end

/-- The free list with a segment formatted in its place (R65, R66). -/
def State.freeWith (s : State) (n : Nat) : List Nat :=
  insertFree (s.updateSegment n Segment.format).eraseCountOf n s.space.freeList

theorem State.freeWith_spec (s : State) (n : Nat) : n ∈ s.freeWith n ∧ (∀ x ∈ s.space.freeList, x ∈ s.freeWith n) ∧
    (s.freeWith n).length = s.space.freeList.length + 1 := by
  obtain ⟨length, mem, others⟩ := insertFree_spec (s.updateSegment n Segment.format).eraseCountOf n s.space.freeList
  exact ⟨mem, others, length⟩

/-- The state in which a segment is formatted, before a WAITING engine is woken (R66, R103). -/
def State.formatted (s : State) (n : Nat) : State :=
  { s with
    space := { s.space with
      segments := (s.space.segments.map fun g => if g.number = n then g.format else g), freeList := s.freeWith n }
    reclaim := { s.reclaim with exclusion := [] } }

theorem State.formatSegment_eq_wake (s : State) (n : Nat) : s.formatSegment n = (s.formatted n).wakeWaiting := rfl

/-! ## A WAITING engine (R90) -/

theorem State.wakeWaiting_commit {s : State} (waiting : s.commit.state = .waiting) :
    s.wakeWaiting.sequencer.requests.commit = s.sequencer.requests.commit.lodge := by
  unfold State.wakeWaiting
  rw [if_pos waiting]
  rfl

theorem Request.lodge_lodge (r : Request) : r.lodge.lodge = r.lodge := by cases r <;> rfl

/-- A job that ends with its victim formatted wakes the WAITING engine, once by the free list and once by its end. -/
theorem State.endJob_formatSegment (s : State) (n : Nat) : ∃ q,
    (s.formatSegment n).endJob =
      { s.formatted n with reclaim := ⟨none, s.reclaim.refreshList, [], s.reclaim.evaluated⟩, sequencer := q } ∧
    (s.commit.state = .waiting → q.requests.commit = s.sequencer.requests.commit.lodge) := by
  obtain ⟨q, woken, -⟩ := State.wakeWaiting_keeps (s.formatted n)
  let done : State :=
    { s.formatted n with reclaim := ⟨none, s.reclaim.refreshList, [], s.reclaim.evaluated⟩, sequencer := q }
  obtain ⟨r, ended, -⟩ := State.wakeWaiting_keeps done
  have joined : (s.formatSegment n).endJob = done.wakeWaiting := by
    rw [State.formatSegment_eq_wake, woken]
    rfl
  refine ⟨r, joined.trans ended, fun waiting => ?_⟩
  have first := State.wakeWaiting_commit (s := s.formatted n) waiting
  have second := State.wakeWaiting_commit (s := done) waiting
  rw [woken] at first
  rw [ended] at second
  exact second.trans ((congrArg Request.lodge first).trans (Request.lodge_lodge _))

/-! ## The outcome of RETIRED (R73, R77, R113) -/

/-- The counters after the end of a program: a failure or a timeout is counted (R182). -/
def Counters.afterProgram (c : Counters) : MediumEnd → Counters
  | .done => c
  | .failed _ => { c with programFailures := bump c.programFailures }
  | .timeout _ => { c with mediumTimeouts := bump c.mediumTimeouts }

/-- A RETIRED slot program, whatever its end, retires its segment; the store mode and the counters follow. -/
theorem State.retiredProgramEnd_spec (s : State) (n : Nat) (why : RetireReason) (o : MediumEnd) :
    s.retiredProgramEnd n why o =
      let retired := s.space.segments.map fun g => if g.number = n then
        g.retire why (if o = .done then .marked else .unmarked) else g
      { s with
        space := { s.space with
          segments := retired
          reasons := { s.space.reasons with
            worn := s.space.reasons.worn || decide ((retired.countP fun g => g.state != .retired) < 4) } }
        health := { s.health with counters := s.health.counters.afterProgram o } } := by
  cases o with
  | done => exact State.completeRetirement_eq s n why .marked
  | failed left => exact State.completeRetirement_eq (s.countProgramEnd .failed) n why .unmarked
  | timeout left => exact State.completeRetirement_eq (s.countProgramEnd .timeout) n why .unmarked

/-! ## The erasers -/

/-- Settles O46: each eraser's outcomes by the rules of the erase, of FORMATTED and of RETIRED. -/
theorem erasersTakeTheirOutcomes : Obligations.ErasersTakeTheirOutcomes := by
  intro s f n awake flight there raised formatted counts counters
  let freed (o : MediumEnd) := s.freedBy f.op o
  refine ⟨fun who => ⟨fun hand op => ⟨?_, fun left => ?_⟩, fun slot hand op below => ?_⟩, ?_⟩
  · -- The background erase: an erase that ends DONE.
    refine ⟨_, exec_segmentErase_background awake flight there .done who op, ?_⟩
    rw [State.backgroundEnd_stage (s := freed .done) hand rfl]
    exact ⟨rfl, rfl, rfl, rfl, rfl⟩
  · refine ⟨_, exec_segmentErase_background awake flight there (.failed left) who op, ?_⟩
    rw [State.backgroundEnd_stage (s := freed (.failed left)) hand rfl]
    exact ⟨rfl, rfl, rfl, rfl, rfl⟩
  · -- The background erase: FORMATTED that ends DONE.
    refine ⟨_, exec_headerProgram_background awake flight there .done who op, ?_⟩
    obtain ⟨q, woken, -⟩ := State.wakeWaiting_keeps ((freed .done).formatted n)
    obtain ⟨mem, others, length⟩ := (freed .done).freeWith_spec n
    have ended : (freed .done).eraserEnd n .format .done = (.finished, (freed .done).formatSegment n) :=
      State.formatEnd_done (s := freed .done) below
    rw [State.backgroundEnd_finished (s := freed .done) hand ended, State.formatSegment_eq_wake, woken]
    exact ⟨rfl, rfl, mem, others, length, rfl, rfl, rfl⟩
  · intro j who job kind asks goesOn marks
    refine ⟨fun op => ⟨?_, fun o bad => ?_⟩, fun count op => ⟨fun below => ⟨?_, fun o bad => ?_⟩, fun worn o => ?_⟩,
      fun why o op => ?_⟩
    · -- The Reclaimer's job: the erase of its victim.
      rw [exec_segmentErase_job awake flight there .done who op, State.jobEraseEnd_eq (s := freed .done) job rfl]
      rfl
    · obtain ⟨x, failed⟩ := failureOf_isSome bad
      rw [exec_segmentErase_job awake flight there o who op,
        State.jobEraseEnd_eq (s := freed o) job (State.eraseEnd_failed _ n failed)]
      cases o <;> cases failed <;> rfl
    · -- The Reclaimer's job: FORMATTED of its victim, below the wear limit and at it.
      refine ⟨_, exec_headerProgram_job_format awake flight there .done who op, ?_⟩
      obtain ⟨q, ended, waking⟩ := (freed .done).endJob_formatSegment n
      obtain ⟨mem, others, length⟩ := (freed .done).freeWith_spec n
      rw [State.jobFormatEnd_eq (s := freed .done) job (State.formatEnd_done (s := freed .done) below), State.jobNext,
        ended]
      exact ⟨rfl, mem, others, length, rfl, rfl, rfl, waking, rfl, rfl, rfl⟩
    · obtain ⟨x, failed⟩ := failureOf_isSome bad
      rw [exec_headerProgram_job_format awake flight there o who op,
        State.jobFormatEnd_eq (s := freed o) job (State.formatEnd_failed (s := freed o) below failed)]
      cases o <;> cases failed <;> rfl
    · rw [exec_headerProgram_job_format awake flight there o who op,
        State.jobFormatEnd_eq (s := freed o) job (State.formatEnd_worn (s := freed o) worn o)]
      cases o <;> rfl
    · -- The Reclaimer's job: RETIRED of its victim.
      refine ⟨_, exec_headerProgram_job_retire awake flight there o who op, ?_⟩
      obtain ⟨q, ended, -⟩ := ((freed o).retiredProgramEnd n why o).endJob_keeps
      rw [State.jobRetireEnd, ended, State.retiredProgramEnd_spec]
      refine ⟨rfl, rfl, rfl, ?_, rfl, rfl, rfl⟩
      cases o <;> rfl

end Sys2Proof.Machine
end

section
/-! SUPPORT. The answer to a page claim (R67-R71), and what the Commit Engine's grant makes of it (R76, R82, R83, R86,
R88, R90, R91). -/

-- One theorem at a time: many short ones that wait at once take a thread each.
set_option Elab.async false

namespace Sys2Proof.Machine

/-! ## The answer to a claim (R67-R71) -/

section
variable {s : State} {claim : Claim} {k low : Nat}

theorem State.mayOpen_iff (s : State) (claim : Claim) : s.mayOpen claim = true ↔ (match claim with
    | .commitData => 2 ≤ s.space.freeList.length ∨ (s.port.state = .draining ∧ 1 ≤ s.space.freeList.length)
    | .commitTombstone => 1 ≤ s.space.freeList.length
    | .copy => 1 ≤ s.space.freeList.length
    | .lossMarker => 2 ≤ s.space.freeList.length) := by
  cases claim with
  | commitData =>
    by_cases draining : s.port.state = .draining
    · simp only [State.mayOpen, State.freeCount, draining, if_true, true_and]
      refine decide_eq_true_iff.trans ?_
      omega
    · simp only [State.mayOpen, State.freeCount, draining, if_false, false_and, or_false]
      exact decide_eq_true_iff
  | commitTombstone => exact decide_eq_true_iff
  | copy => exact decide_eq_true_iff
  | lossMarker => exact decide_eq_true_iff

/-- The Reclaimer's claim waits for the bundle range to close. -/
theorem State.claimPages_deferred (reclaimer : claim.byReclaimer = true) (open_range : s.space.range ≠ none) :
    s.claimPages claim k low = (.deferred, s) := by
  have ranged : s.space.range.isSome = true := Option.isSome_iff_ne_none.mpr open_range
  unfold State.claimPages
  rw [reclaimer, ranged]
  rfl

/-- Pages that fit are taken from the write pointer of the OPEN segment. -/
theorem State.claimInOpen_fits {g : Segment} (opened : s.openSegment = some g) (fits : g.writePointer + k ≤ 128) :
    s.claimInOpen k low =
      some (g.number, g.writePointer, s.updateSegment g.number fun x => x.grantPages k low) := by
  unfold State.claimInOpen
  simp only [opened]
  exact if_pos (by omega)

/-- With no OPEN segment, or one without the room, no page is taken from it. -/
theorem State.claimInOpen_full (_ : 1 ≤ k)
    (full : ∀ g : Segment, s.openSegment = some g → 128 < g.writePointer + k) : s.claimInOpen k low = none := by
  unfold State.claimInOpen
  split
  · next g opened =>
    have beyond := full g opened
    exact if_neg (by omega)
  · rfl

section
variable (answered : claim.byReclaimer = false ∨ s.space.range = none)
include answered

/-- A claim that is not deferred is answered by the OPEN segment, or else by the head of the free list. -/
theorem State.claimPages_answered : s.claimPages claim k low =
    match s.claimInOpen k low with
    | some (segment, page, t) => (.granted segment page, t)
    | none =>
      match s.space.freeList with
      | h :: rest =>
        if s.mayOpen claim then (.opening h s.space.openCounter, s.closeOpen.openHead h rest) else (.noRoom, s)
      | [] => (.noRoom, s) := by
  have at_once : (claim.byReclaimer && s.space.range.isSome) = false := by
    rcases answered with other | closed
    · rw [other, Bool.false_and]
    · rw [closed, Option.isSome_none, Bool.and_false]
  unfold State.claimPages
  rw [at_once, if_neg Bool.false_ne_true] <;> rfl

theorem State.claimPages_granted {g : Segment} (opened : s.openSegment = some g) (fits : g.writePointer + k ≤ 128) :
    s.claimPages claim k low =
      (.granted g.number g.writePointer, s.updateSegment g.number fun x => x.grantPages k low) := by
  rw [State.claimPages_answered answered, State.claimInOpen_fits opened fits]

variable (full : s.claimInOpen k low = none)
include full

theorem State.claimPages_noRoom (shut : s.space.freeList = [] ∨ s.mayOpen claim = false) :
    s.claimPages claim k low = (.noRoom, s) := by
  rw [State.claimPages_answered answered, full]
  split
  · next segment page t taken => cases taken
  · split
    · next h rest free =>
      have held : s.mayOpen claim = false := shut.resolve_left (by simp [free])
      rw [held, if_neg Bool.false_ne_true]
    · rfl

theorem State.claimPages_opening {h : Nat} {rest : List Nat} (free : s.space.freeList = h :: rest)
    (may : s.mayOpen claim = true) :
    s.claimPages claim k low = (.opening h s.space.openCounter, s.closeOpen.openHead h rest) := by
  rw [State.claimPages_answered answered, full]
  simp only [free, may, if_true]

end

end

/-! ## The head of the free list opened (R63, R65, R68, R69) -/

/-- The OPEN segment closed: FILLED, with its unwritten pages dead (R69). -/
def Segment.closedFrom (opened : Option Segment) (x : Segment) : Segment :=
  match opened with
  | some g => if x.number = g.number then x.close .filled else x
  | none => x

theorem Segment.number_closedFrom (opened : Option Segment) (x : Segment) :
    (x.closedFrom opened).number = x.number := by
  unfold Segment.closedFrom Segment.close
  split
  · split <;> rfl
  · rfl

theorem State.closeOpen_eq (s : State) : s.closeOpen =
    { s with space := { s.space with segments := s.space.segments.map (Segment.closedFrom s.openSegment) } } := by
  unfold State.closeOpen
  rcases opened : s.openSegment with _ | g
  · rw [show s.space.segments.map (Segment.closedFrom none) = s.space.segments from List.map_id _]
  · rfl

/-- The head opened after the OPEN segment is closed: it leaves the free list, the open counter rises, the exclusion
set is emptied, and a WAITING engine requests the port again. -/
theorem State.openHead_closeOpen (s : State) (h : Nat) (rest : List Nat) : ∃ q,
    s.closeOpen.openHead h rest = { s with
      space := { s.space with
        freeList := rest
        openCounter := s.space.openCounter + 1
        segments := s.space.segments.map fun x =>
          if x.number = h then (x.closedFrom s.openSegment).openWith s.space.openCounter
          else x.closedFrom s.openSegment }
      reclaim := { s.reclaim with exclusion := [] }
      sequencer := q } := by
  have segments : (s.closeOpen.updateSegment h fun x => x.openWith s.closeOpen.space.openCounter).space.segments =
      s.space.segments.map fun x =>
        if x.number = h then (x.closedFrom s.openSegment).openWith s.space.openCounter
        else x.closedFrom s.openSegment := by
    rw [State.closeOpen_eq]
    refine (List.map_map ..).trans (List.map_congr_left fun x _ => ?_)
    simp only [Function.comp, Segment.number_closedFrom]
  unfold State.openHead State.setFreeList
  obtain ⟨q, woken, -⟩ := State.wakeWaiting_keeps
    ({ s.closeOpen.updateSegment h fun x => x.openWith s.closeOpen.space.openCounter with
      space := { (s.closeOpen.updateSegment h fun x => x.openWith s.closeOpen.space.openCounter).space with
        freeList := rest }
      reclaim := { s.closeOpen.reclaim with exclusion := [] } } : State)
  refine ⟨q, ?_⟩
  rw [← segments]
  refine (congrArg (fun t : State =>
    { t with space := { t.space with openCounter := s.closeOpen.space.openCounter + 1 } }) woken).trans ?_
  rw [State.closeOpen_eq]
  rfl

/-! ## The grant of COMMIT (R82, R83, R86, R90) -/

/-- The state in which COMMIT is granted: its request has left the arbiter, and the fairness count follows (R131). -/
def State.commitGranted (s : State) : State :=
  { s with
    sequencer := { s.sequencer with
      requests := { s.sequencer.requests with commit := .absent }, fairness := s.fairnessAfter .commit }
    choices := s.choices + 1 }

/-- The Commit Engine RUNNING, as it makes its page claim (R83, R90). -/
def State.claiming (s : State) : State := { s with commit := { s.commit with state := .running } }

theorem grant_commit {s : State} (free : s.sequencer.inFlight = none) (chosen : s.chosen = some .commit) :
    grant s = some s.commitGranted.grantCommit := by
  unfold grant
  rw [if_pos (by simp [State.portFree, free]), chosen]
  rfl

section
variable {s : State} {u : CommitUnit} (unit : s.commit.unit = some u)
include unit

/-- With the bundle range open no claim is made, and the next member is programmed. -/
theorem State.grantCommit_ranged {r : BundleRange} (range : s.space.range = some r) :
    s.grantCommit = s.programMember u (unitEntries s.staging.pwl) r.segment r.page := by
  unfold State.grantCommit
  simp only [unit, range]

section
variable (closed : s.space.range = none) {v : State}
include closed

theorem State.grantCommit_claims : s.grantCommit =
    match s.claiming.claimPages (unitClaim (unitEntries s.staging.pwl)) (unitPages (unitEntries s.staging.pwl))
      u.first with
    | (.granted segment page, t) =>
      ({ t with space := { t.space with
        range := if isBundle (unitEntries s.staging.pwl) then
          some ⟨segment, page, unitPages (unitEntries s.staging.pwl)⟩ else none } } : State).programMember u
            (unitEntries s.staging.pwl) segment page
    | (.opening segment sequence, t) => t.issue .commit (.headerProgram segment (.opened sequence)) 1
    | (.deferred, t) => t
    | (.noRoom, t) => t.commitNoRoom := by
  unfold State.grantCommit State.claiming
  simp only [unit, closed] <;> rfl

/-- Granted pages carry the member at once; of a bundle they become the range. -/
theorem State.grantCommit_granted {segment page : Nat} (answer : s.claiming.claimPages
    (unitClaim (unitEntries s.staging.pwl)) (unitPages (unitEntries s.staging.pwl)) u.first =
      (.granted segment page, v)) :
    s.grantCommit = ({ v with space := { v.space with
      range := if isBundle (unitEntries s.staging.pwl) then
        some ⟨segment, page, unitPages (unitEntries s.staging.pwl)⟩ else none } } : State).programMember u
          (unitEntries s.staging.pwl) segment page := by
  rw [State.grantCommit_claims unit closed, answer]

theorem State.grantCommit_opening {segment sequence : Nat} (answer : s.claiming.claimPages
    (unitClaim (unitEntries s.staging.pwl)) (unitPages (unitEntries s.staging.pwl)) u.first =
      (.opening segment sequence, v)) :
    s.grantCommit = v.issue .commit (.headerProgram segment (.opened sequence)) 1 := by
  rw [State.grantCommit_claims unit closed, answer]

theorem State.grantCommit_noRoom (answer : s.claiming.claimPages
    (unitClaim (unitEntries s.staging.pwl)) (unitPages (unitEntries s.staging.pwl)) u.first = (.noRoom, v)) :
    s.grantCommit = v.commitNoRoom := by
  rw [State.grantCommit_claims unit closed, answer]

end

end

/-- The record of an entry does not depend on more of the state than the staging buffer. -/
theorem State.unitRecord_of_staging {s v : State} (same : v.staging = s.staging) (u : CommitUnit) (e : PwlEntry)
    (i : Nat) : v.unitRecord u e i = s.unitRecord u e i := by
  unfold State.unitRecord State.slotBytes
  rw [same]

/-- The unit at the head begins with the head. -/
theorem unitEntries_head {head : PwlEntry} {rest : List PwlEntry}
    (counted : ∀ i n : Nat, head.position = some (i, n) → 1 ≤ n) :
    ∃ more, unitEntries (head :: rest) = head :: more := by
  rcases position : head.position with _ | ⟨i, n⟩
  · exact ⟨[], by simp only [unitEntries, position]⟩
  · obtain ⟨m, rfl⟩ := Nat.exists_eq_add_of_le' (counted i n position)
    exact ⟨rest.take m, by simp only [unitEntries, position, List.take_succ_cons]⟩

/-- The member programmed, its record read from any state with the same staging buffer. -/
theorem State.programMember_of_staging {s v : State} {u : CommitUnit} {entries : List PwlEntry} {e : PwlEntry}
    (member : entries[u.member]? = some e) (same : v.staging = s.staging) (segment page : Nat) :
    v.programMember u entries segment page =
      v.issue .commit (.recordProgram segment (page + ((entries.take u.member).map fun e => pagesFor e.length).sum)
        (s.unitRecord u e u.member)) 1 := by
  rw [← State.unitRecord_of_staging same]
  unfold State.programMember
  simp only [member]
  rfl

/-! ## No room (R76, R83, R90) -/

/-- Some segment is eligible for space reclamation: a FILLED one with dead pages that is not passed over, or the
victim of the job (R76). -/
theorem State.anyEligible_iff {s : State} : s.anyEligible = true ↔
    ∃ g ∈ s.space.segments, (g.state = .filled ∧ 1 ≤ g.dead ∧ s.excluded g = false) ∨
      (g.state = .reclaiming ∧ ∃ j : Job, s.reclaim.job = some j ∧ j.kind = .segment g.number) := by
  have victim_iff (n : Nat) : s.victim? = some n ↔ ∃ j : Job, s.reclaim.job = some j ∧ j.kind = .segment n := by
    unfold State.victim?
    cases s.reclaim.job with
    | none => simp
    | some j => cases kind : j.kind <;> simp [kind]
  simp [State.anyEligible, State.eligible, victim_iff, and_assoc]

section
variable {s : State} (waits : s.port.activity.waits = true → s.pfw = false)

include waits in
theorem State.commitNoRoom_draining (eligible : s.anyEligible = true) (draining : s.port.state = .draining) :
    s.commitNoRoom = s.haltedAs .noSpace := by
  unfold State.commitNoRoom
  rw [if_pos eligible, if_pos draining, State.enterHalt_eq waits]

theorem State.commitNoRoom_waits (eligible : s.anyEligible = true) (running : s.port.state ≠ .draining) :
    s.commitNoRoom = { s with commit := { s.commit with state := .waiting } } := by
  unfold State.commitNoRoom
  rw [if_pos eligible, if_neg running]

include waits in
theorem State.commitNoRoom_full (none_eligible : ¬ s.anyEligible = true) :
    s.commitNoRoom = ({ s with space := { s.space with state := .full } } : State).haltedAs .noSpace := by
  unfold State.commitNoRoom
  rw [if_neg none_eligible, State.enterHalt_eq (by exact waits)]

end

/-! ## The OPENED slot programmed (R88-R91) -/

/-- A failed unit that holds no pages, with no bundle range open: only the segment it wrote to retires (R88, R91). -/
theorem State.unitFailed_of_closed {s : State} (closed : s.space.range = none) (segment : Nat) (x : Failure) :
    s.unitFailed segment 0 x = { s with
      space := { s.space with
        segments := s.space.segments.map fun g => if g.number = segment then
          { g with
            state := .retiring, reason := some .program, mark := some .none
            dead := g.dead + (128 - g.writePointer), writePointer := 128 }
          else g }
      health := { s.health with counters := match x with
        | .timeout => { s.health.counters with mediumTimeouts := bump s.health.counters.mediumTimeouts }
        | .failed => { s.health.counters with programFailures := bump s.health.counters.programFailures } } } := by
  rw [State.unitFailed_eq]
  simp only [closed]
  rfl

section
variable {s : State} {f : InFlight} {segment : Nat} {slot : SlotContent} (awake : s.awake)
  (flight : s.sequencer.inFlight = some f) (who : f.requester = .commit) (there : s.opExists f.op = true)
  (op : f.op = .headerProgram segment slot)
include awake flight who there op

/-- A HEADER PROGRAM of the engine has ended: the medium is as the end left it, the port is free, and the engine
takes it. -/
theorem exec_headerProgram_commit (o : MediumEnd) :
    exec (.headerProgram o) s = .next ((s.freedBy f.op o).commitProgramEnd f.op o).finish := by
  refine (State.runOp_of_exists awake.1 flight there fun t f => t.headerProgramEvent f o).trans ?_
  simp only [State.headerProgramEvent, op, State.programEnd, who, State.freedBy]

theorem exec_headerProgram_commit_done :
    exec (.headerProgram .done) s = .next (s.freedBy f.op .done).lodgeCommit.finish := by
  rw [exec_headerProgram_commit awake flight who there op .done]
  simp only [op, State.commitProgramEnd, failureOf]

theorem exec_headerProgram_commit_failed {o : MediumEnd} {x : Failure} (failed : failureOf o = some x) :
    exec (.headerProgram o) s = .next ((s.freedBy f.op o).commitFailure segment 0 x).finish := by
  rw [exec_headerProgram_commit awake flight who there op o]
  simp only [op, State.commitProgramEnd, failed]

end

/-! ## The claim, the grant and the end of the OPENED slot's program -/

/-- Settles O54: the claim's answers, the grant that takes them, and the end of the OPENED slot's program. -/
theorem pageClaimIsAnswered : Obligations.PageClaimIsAnswered := by
  refine ⟨?_, ?_, ?_⟩
  · -- The claim (R67-R71).
    intro s claim k low pages
    refine ⟨s.mayOpen_iff claim, State.claimPages_deferred, fun answered =>
      ⟨fun g opened fits => State.claimPages_granted answered opened fits, fun full => ?_⟩⟩
    have no_pages := State.claimInOpen_full (low := low) pages full
    refine ⟨State.claimPages_noRoom answered no_pages, fun h rest free may => ?_⟩
    obtain ⟨q, opening⟩ := s.openHead_closeOpen h rest
    rw [State.claimPages_opening answered no_pages free may]
    refine ⟨rfl, ?_, ?_, ?_⟩
    · rw [opening]
      cases s.openSegment <;> rfl
    · rw [opening]
    · rw [opening]
  · -- The grant of COMMIT (R76, R82, R83, R86, R90).
    intro s u head rest free chosen unit list counted waits members size k claim record granted t carries
    obtain ⟨more, begins⟩ := unitEntries_head (rest := rest) counted
    have whole : unitEntries s.staging.pwl = members := by
      rw [list]
      simp only [members, list]
      rfl
    have bundle : isBundle members = (head.bundle != 0) := by rw [← whole, list, begins]; rfl
    have claims : unitClaim members = claim := by rw [← whole, list, begins]; rfl
    have granting : grant s = some granted.grantCommit := grant_commit free chosen
    have entries : unitEntries granted.staging.pwl = members := whole
    have recorded (e : PwlEntry) (i : Nat) : s.unitRecord u e i = record e i := by
      cases kind : e.kind <;> simp only [State.unitRecord, record, kind]
    have asks : granted.claiming.claimPages (unitClaim (unitEntries granted.staging.pwl))
        (unitPages (unitEntries granted.staging.pwl)) u.first = t.claimPages claim k u.first := by
      rw [entries, claims]
      rfl
    refine ⟨by simp [consequences], fun e member => ⟨fun r range => ?_, fun segment page v closed answer => ?_⟩,
      fun segment q v closed answer => ?_, fun closed answer => ?_⟩
    · rw [granting, State.grantCommit_ranged (s := granted) unit range, entries,
        State.programMember_of_staging (s := s) (v := granted) member rfl, recorded]
      rfl
    · have staging : v.staging = s.staging := (State.claimPages_frame' answer).2.2.2.2.2.2.2.1
      rw [granting, State.grantCommit_granted (s := granted) unit closed (asks.trans answer), entries, bundle,
        State.programMember_of_staging (s := s) member, recorded]
      · rcases Nat.eq_zero_or_pos head.bundle with alone | shared
        · simp only [alone]
          rfl
        · simp only [bne_iff_ne.mpr shared.ne', if_neg shared.ne', if_true]
          rfl
      · exact staging
    · rw [granting, State.grantCommit_opening (s := granted) unit closed (asks.trans answer)]
      rfl
    · rw [granting, State.grantCommit_noRoom (s := granted) unit closed (asks.trans answer)]
      have eligible_iff := State.anyEligible_iff (s := t)
      refine ⟨fun eligible draining => ?_, fun eligible running => ?_, fun none_eligible => ?_⟩
      · exact congrArg some (State.commitNoRoom_draining (s := t) waits (eligible_iff.mpr eligible) draining)
      · exact congrArg some (State.commitNoRoom_waits (s := t) (eligible_iff.mpr eligible) running)
      · exact congrArg some (State.commitNoRoom_full (s := t) waits fun any => none_eligible (eligible_iff.mp any))
  · -- The OPENED slot's program (R88-R91).
    intro s f segment q o awake flight who op there ended
    refine ⟨fun done => ?_, fun bad closed => ?_⟩
    · subst done
      exact exec_headerProgram_commit_done awake flight who there op
    · intro failed
      obtain ⟨x, failure⟩ := failureOf_isSome bad
      have reported : (s.freedBy f.op o).unitFailed segment 0 x = failed := by
        rw [State.unitFailed_of_closed (s := s.freedBy f.op o) closed]
        cases o <;> cases failure <;> rfl
      have taken := exec_headerProgram_commit_failed awake flight who there op failure
      rw [State.commitFailure_eq, reported] at taken
      refine ⟨fun erasing => ?_, fun awaited few => ?_, fun awaited third waits => ?_⟩
      · rw [taken, if_pos (by exact erasing)]
      · rw [taken, if_neg (by exact Bool.eq_false_iff.mp awaited), if_pos (by exact few)]
        rfl
      · rw [taken, if_neg (by exact Bool.eq_false_iff.mp awaited), if_neg (by exact not_lt.mpr third),
          State.enterHalt_eq (by exact waits)]

end Sys2Proof.Machine
end

section
/-! SUPPORT. SYNC taken (R93, R172): what it does on the list and the engine it finds, and the MEDIUM halt it leaves. -/

-- One theorem at a time: many short ones that wait at once take a thread each.
set_option Elab.async false

namespace Sys2Proof.Machine

/-- SYNC taken and waiting for the list (R172). -/
def State.syncing (s : State) : State := s.goesOn 0x30 .executing .syncWait 0 none

theorem State.syncing_endCommand {s : State} (pfw : s.pfw = false) (r : ResultCode) (d : Nat) :
    s.syncing.endCommand r d = s.endedAs 0x30 r d := by
  rw [State.endCommand_eq (by exact pfw)]
  rfl

/-- SYNC acts on the state it finds, a MEDIUM halt being left first. -/
theorem exec_sync {s : State} (ready : s.ready) :
    exec .sync s = .next
      (if s.commit.state = .halted .medium then s.syncing.leaveHalt else s.syncing).syncOn.finish :=
  ready.run_accept 0x30 State.syncBody

section
variable {s : State} (waiting : s.port.activity = .syncWait)
include waiting

theorem State.syncOn_empty (empty : s.staging.pwl = []) : s.syncOn = s.endCommand .none 0 := by
  simp only [State.syncOn, waiting, empty, List.isEmpty_nil, if_true]

theorem State.syncOn_halted {r : HaltReason} (staged : s.staging.pwl ≠ []) (halted : s.commit.state = .halted r) :
    s.syncOn = s.endCommand r.code 0 := by
  simp only [State.syncOn, waiting, halted]
  exact if_neg (by simpa using staged)

theorem State.syncOn_waits (staged : s.staging.pwl ≠ [])
    (going : s.commit.state = .idle ∨ s.commit.state = .running ∨ s.commit.state = .waiting) : s.syncOn = s := by
  simp only [State.syncOn, waiting]
  rw [if_neg (by simpa using staged)]
  rcases going with h | h | h <;> simp only [h]

end

/-- SYNC with entries staged and a halt other than MEDIUM ends with the halt's code. -/
theorem exec_sync_halted {s : State} {r : HaltReason} {code : ResultCode} (ready : s.ready)
    (staged : s.staging.pwl ≠ []) (halted : s.commit.state = .halted r) (other : r ≠ .medium)
    (named : r.code = code) : exec .sync s = .next (s.endedAs 0x30 code 0).finish := by
  rw [exec_sync ready, if_neg (by simp [halted, other]), State.syncOn_halted (s := s.syncing) rfl staged halted,
    State.syncing_endCommand ready.2.2, named]

/-- A halt left with a standalone WRITE at the head of a WRITABLE store: the WRITE takes the next number, and the engine
requests the port with its failure count at 0 (R80, R93). -/
theorem State.leaveHalt_of_write {s : State} {e : PwlEntry} {rest : List PwlEntry} (writable : s.readOnly = false)
    (pwl : s.staging.pwl = e :: rest) (kind : e.kind = .write) (alone : e.position = none)
    (left : s.index.nextSequence ≤ 4294967294) :
    s.leaveHalt = { s with
      staging := { s.staging with pwl := { e with inCommit := true } :: rest }
      index := { s.index with nextSequence := s.index.nextSequence + 1 }
      commit := ⟨.running, some ⟨s.index.nextSequence, 0, 0⟩, 0⟩
      sequencer := { s.sequencer with requests := { s.sequencer.requests with
        commit := s.sequencer.requests.commit.lodge } } } := by
  have flagged : flagHead 1 s.staging.pwl = { e with inCommit := true } :: rest := by simp [pwl, flagHead]
  rw [State.leaveHalt, State.beginUnit_of_write (n := 1) (by exact writable) (by exact pwl) kind
    (by simp [pwl, unitEntries, alone]), State.holdNumbers_taken 0 (by exact left), State.flagged]
  simp only [flagged]

/-- Settles O26: SYNC by the list and the engine it finds. -/
theorem syncWaitsForTheList : Obligations.SyncWaitsForTheList := by
  intro s ready
  refine ⟨fun empty other => ?_, fun staged halted => exec_sync_halted ready staged halted (by decide) rfl,
    fun staged halted => exec_sync_halted ready staged halted (by decide) rfl, fun staged going => ?_,
    fun e rest pwl kind alone halted writable left => ?_⟩
  · rw [exec_sync ready, if_neg other, State.syncOn_empty (s := s.syncing) rfl empty,
      State.syncing_endCommand ready.2.2]
  · have other : s.commit.state ≠ .halted .medium := by rcases going with h | h | h <;> simp [h]
    rw [exec_sync ready, if_neg other, State.syncOn_waits (s := s.syncing) rfl staged going]
    rfl
  · rw [exec_sync ready, if_pos halted,
      State.leaveHalt_of_write (s := s.syncing) writable pwl kind alone left, State.syncOn_waits rfl
        (List.cons_ne_nil _ _) (.inr (.inl rfl))]
    rfl

end Sys2Proof.Machine
end

section
/-! SUPPORT. What the blocks' own steps and the ends of programs and erases leave of the port's side of the part (R80,
R100, R148, R152, R180): with no wait of a command in progress, the port too. -/

-- One theorem at a time: many short ones that wait at once take a thread each.
set_option Elab.async false

namespace Sys2Proof.Machine

/-- From the first state to the second the window, the PFW# input, the supply, mount and its report stand, and the port
does where no wait of a command is in progress. -/
def State.hostSideStands (s t : State) : Prop :=
  t.window = s.window ∧ t.pfw = s.pfw ∧ t.power = s.power ∧ t.mount = s.mount ∧
    t.mountReport = s.mountReport ∧ (s.port.activity.waits = false → t.port = s.port)

/-- The frame of an operation gives all but the port. -/
theorem State.hostSideStands.of_port {s t : State} (port : s.port.activity.waits = false → t.port = s.port)
    (frame : t.window = s.window ∧ t.pfw = s.pfw ∧ t.power = s.power ∧ t.mount = s.mount ∧
      t.mountReport = s.mountReport := by simp) : s.hostSideStands t := by
  obtain ⟨window, pfw, power, mount, report⟩ := frame
  exact ⟨window, pfw, power, mount, report, port⟩

theorem State.hostSideStands.refl (s : State) : s.hostSideStands s := ⟨rfl, rfl, rfl, rfl, rfl, fun _ => rfl⟩

/-- The end of a step, too, leaves what its event left. -/
theorem State.hostSideStands.finish {s t : State} (h : s.hostSideStands t) : s.hostSideStands t.finish := by
  obtain ⟨window, pfw, power, mount, report, port⟩ := h
  refine ⟨by simpa, by simpa, by simpa, by simpa, by simpa, fun quiet => ?_⟩
  have same : t.port = s.port := port quiet
  rw [State.finish_port (by rw [same]; exact quiet), same]

section
variable {s t : State}

theorem State.run_hostSideStands {effect : State → State} (answer : s.run effect = .next t)
    (stands : s.hostSideStands (effect s)) : s.hostSideStands t := by
  obtain ⟨-, rfl⟩ | ⟨-, rfl⟩ := State.run_next answer
  · exact stands.finish
  · exact State.hostSideStands.refl _

theorem State.runOp_hostSideStands {effect : State → InFlight → State} (answer : s.runOp effect = .next t)
    (stands : ∀ f, s.hostSideStands (effect s f)) : s.hostSideStands t := by
  obtain ⟨f, -, -, -, rfl⟩ | ⟨-, -, rfl⟩ | ⟨-, rfl⟩ := State.runOp_next answer
  · exact (stands f).finish
  · exact (State.hostSideStands.refl _).finish
  · exact State.hostSideStands.refl _

end

/-! ## The blocks' own steps (R80, R92, R100, R180) -/

/-- A block's step as an event keeps the port when the step, where it has work to do, does. -/
theorem State.ownStep_port {s : State} (work : State → Option State)
    (keeps : ∀ t, work s = some t → t.port = s.port) :
    (if s.blocksRun then (work s).getD s else s).port = s.port := by
  split
  · cases found : work s with
    | none => rfl
    | some t => exact keeps t found
  · rfl

theorem commitBegin_port {s t : State} (begun : commitBegin s = some t) (quiet : s.port.activity.waits = false) :
    t.port = s.port := by
  unfold commitBegin at begun
  split at begun
  · cases begun
    exact State.beginUnit_port quiet
  · cases begun

theorem commitHaltEnd_port {s t : State} (ended : commitHaltEnd s = some t)
    (quiet : s.port.activity.waits = false) : t.port = s.port := by
  unfold commitHaltEnd at ended
  split at ended
  · cases ended
    exact State.leaveHalt_port quiet
  · cases ended

section
variable {s : State} (quiet : s.port.activity.waits = false)
include quiet

theorem slotWaitEnd_of_not_waits : slotWaitEnd s = none := by
  unfold slotWaitEnd
  split
  · next w waiting => simp [waiting, Activity.waits] at quiet
  · rfl

theorem writeThroughComplete_of_not_waits : writeThroughComplete s = none := by
  unfold writeThroughComplete
  split
  · next slots waiting => simp [waiting, Activity.waits] at quiet
  · rfl

theorem syncComplete_of_not_waits : syncComplete s = none := by
  unfold syncComplete
  split
  · next waiting => simp [waiting, Activity.waits] at quiet
  · rfl

theorem State.commitBeginEvent_port : s.commitBeginEvent.port = s.port :=
  State.ownStep_port commitBegin fun _ begun => commitBegin_port begun quiet

theorem State.haltEndEvent_port : s.haltEndEvent.port = s.port :=
  State.ownStep_port commitHaltEnd fun _ ended => commitHaltEnd_port ended quiet

theorem State.slotWaitEvent_port : s.slotWaitEvent.port = s.port :=
  State.ownStep_port slotWaitEnd (by simp [slotWaitEnd_of_not_waits quiet])

theorem State.writeThroughEvent_port : s.writeThroughEvent.port = s.port :=
  State.ownStep_port writeThroughComplete (by simp [writeThroughComplete_of_not_waits quiet])

theorem State.syncEvent_port : s.syncEvent.port = s.port :=
  State.ownStep_port syncComplete (by simp [syncComplete_of_not_waits quiet])

/-! ## The ends of programs and erases (R88, R148) -/

/-- A failure of the unit ends a command by its halt alone, and only one that waits. -/
theorem State.commitFailure_port (segment k : Nat) (x : Failure) :
    (s.commitFailure segment k x).port = s.port := by
  obtain ⟨port, -, -⟩ := s.unitFailed_keeps segment k x
  rw [State.commitFailure_eq]
  split
  · exact port
  · split
    · exact port
    · rw [State.enterHalt_port (by rw [port]; exact quiet), port]

theorem State.commitProgramEnd_port (op : Op) (o : MediumEnd) : (s.commitProgramEnd op o).port = s.port := by
  unfold State.commitProgramEnd
  split
  · split
    · simp
    · exact State.commitFailure_port quiet _ _ _
  · split
    · simp
    · exact State.commitFailure_port quiet _ _ _
  all_goals rfl

/-- ERASE STORE takes an outcome only while it is the command in progress, and then it waits. -/
theorem State.eraseStoreEnd_of_not_waits (o : MediumEnd) : s.eraseStoreEnd o = s := by
  have no_erasure : s.erasure = none := by
    unfold State.erasure
    split
    · next p erasing => simp [erasing, Activity.waits] at quiet
    · rfl
  simp only [State.eraseStoreEnd, no_erasure]

theorem State.programEnd_port (f : InFlight) (o : MediumEnd) : (s.programEnd f o).port = s.port := by
  unfold State.programEnd
  dsimp only
  split
  · rw [State.commitProgramEnd_port (by simpa using quiet)]
    simp
  · simp
  · simp
  · rw [State.eraseStoreEnd_of_not_waits (by simpa using quiet)]
    simp
  · simp
  · simp

theorem State.recordProgramEvent_port (f : InFlight) (o : MediumEnd) : (s.recordProgramEvent f o).port = s.port := by
  unfold State.recordProgramEvent
  split
  · exact State.programEnd_port quiet f o
  · rfl

theorem State.headerProgramEvent_port (f : InFlight) (o : MediumEnd) : (s.headerProgramEvent f o).port = s.port := by
  unfold State.headerProgramEvent
  split
  · exact State.programEnd_port quiet f o
  · rfl

theorem State.eraseEvent_port (f : InFlight) (o : MediumEnd) : (s.eraseEvent f o).port = s.port := by
  unfold State.eraseEvent
  split
  · exact State.programEnd_port quiet f o
  · rfl

end

/-! ## The frame -/

/-- Settles O6: each event leaves the port's side of the part, and so does the end of its step. -/
theorem backgroundFrame : Obligations.BackgroundFrame := by
  intro c s t events answer
  obtain own | ⟨o, rfl⟩ | ⟨o, rfl⟩ | ⟨o, rfl⟩ := events
  · simp only [List.mem_cons, List.not_mem_nil, or_false] at own
    obtain rfl | rfl | rfl | rfl | rfl | rfl | rfl := own
    · exact State.run_hostSideStands answer (.of_port State.commitBeginEvent_port)
    · exact State.run_hostSideStands answer (.of_port fun _ => by simp)
    · exact State.run_hostSideStands answer (.of_port State.slotWaitEvent_port)
    · exact State.run_hostSideStands answer (.of_port State.writeThroughEvent_port)
    · exact State.run_hostSideStands answer (.of_port State.syncEvent_port)
    · exact State.run_hostSideStands answer (.of_port fun _ => by simp)
    · exact State.run_hostSideStands answer (.of_port State.haltEndEvent_port)
  · exact State.runOp_hostSideStands answer fun f => .of_port fun quiet => State.recordProgramEvent_port quiet f o
  · exact State.runOp_hostSideStands answer fun f => .of_port fun quiet => State.headerProgramEvent_port quiet f o
  · exact State.runOp_hostSideStands answer fun f => .of_port fun quiet => State.eraseEvent_port quiet f o

end Sys2Proof.Machine
end

section
/-! SUPPORT. The order in which the Reclaimer chooses its work (R100, R101): what picking the best of a list gives, and
each of the first three lines of the order. -/

-- One theorem at a time: many short ones that wait at once take a thread each.
set_option Elab.async false

namespace Sys2Proof.Machine

/-! ## Picking the best segment of a list -/

section
variable {better : Segment → Segment → Bool}

theorem pickBy_eq_none_iff {l : List Segment} : pickBy better l = none ↔ l = [] := by
  cases l with
  | nil => simp [pickBy]
  | cons g rest =>
    simp only [pickBy, reduceCtorEq, iff_false]
    split
    · split <;> simp
    · simp

/-- One round of the picking: the segment at the head, or the pick of the others where it beats the head. -/
theorem pickBy_cons_eq_some {g v : Segment} {rest : List Segment} (h : pickBy better (g :: rest) = some v) :
    (v = g ∧ rest = []) ∨
      ∃ w, pickBy better rest = some w ∧ ((v = w ∧ better w g = true) ∨ (v = g ∧ better w g = false)) := by
  unfold pickBy at h
  cases others : pickBy better rest with
  | none =>
    simp only [others, Option.some.injEq] at h
    exact .inl ⟨h.symm, pickBy_eq_none_iff.mp others⟩
  | some w =>
    simp only [others] at h
    refine .inr ⟨w, rfl, ?_⟩
    split at h
    · next beats => exact .inl ⟨(Option.some.inj h).symm, beats⟩
    · next fails => exact .inr ⟨(Option.some.inj h).symm, Bool.eq_false_iff.mpr fails⟩

theorem mem_of_pickBy_eq_some {l : List Segment} {v : Segment} (h : pickBy better l = some v) : v ∈ l := by
  induction l generalizing v with
  | nil => cases h
  | cons g rest ih =>
    obtain ⟨rfl, -⟩ | ⟨w, picked, ⟨rfl, -⟩ | ⟨rfl, -⟩⟩ := pickBy_cons_eq_some h
    · exact List.mem_cons_self
    · exact List.mem_cons_of_mem _ (ih picked)
    · exact List.mem_cons_self

/-- Where the rule decides for a transitive order, what is picked stands before every segment of the list in it. -/
theorem pickBy_le {le : Segment → Segment → Prop} (trans : ∀ {a b c}, le a b → le b c → le a c)
    (won : ∀ {a b}, better a b = true → le a b) (lost : ∀ {a b}, better a b = false → le b a)
    {l : List Segment} {v : Segment} (h : pickBy better l = some v) : ∀ g ∈ l, le v g := by
  have refl (a : Segment) : le a a := by
    cases self : better a a with
    | true => exact won self
    | false => exact lost self
  induction l generalizing v with
  | nil => simp
  | cons a rest ih =>
    intro g mem
    obtain ⟨rfl, rfl⟩ | ⟨w, picked, ⟨rfl, beats⟩ | ⟨rfl, fails⟩⟩ := pickBy_cons_eq_some h
    · obtain rfl := List.mem_singleton.mp mem
      exact refl g
    · obtain rfl | later := List.mem_cons.mp mem
      · exact won beats
      · exact ih picked g later
    · obtain rfl | later := List.mem_cons.mp mem
      · exact refl g
      · exact trans (lost fails) (ih picked g later)

/-- From a list that is not empty a segment is picked, and it stands before each in the order of the rule. -/
theorem exists_pickBy {le : Segment → Segment → Prop} (trans : ∀ {a b c}, le a b → le b c → le a c)
    (won : ∀ {a b}, better a b = true → le a b) (lost : ∀ {a b}, better a b = false → le b a)
    {l : List Segment} {g : Segment} (mem : g ∈ l) : ∃ v ∈ l, pickBy better l = some v ∧ le v g := by
  obtain ⟨v, picked⟩ : ∃ v, pickBy better l = some v :=
    Option.ne_none_iff_exists'.mp (mt pickBy_eq_none_iff.mp (List.ne_nil_of_mem mem))
  exact ⟨v, mem_of_pickBy_eq_some picked, picked, pickBy_le (le := le) trans won lost picked g mem⟩

end

theorem exists_pickBy_lowerNumber {l : List Segment} {g : Segment} (mem : g ∈ l) :
    ∃ v ∈ l, pickBy lowerNumber l = some v ∧ v.number ≤ g.number :=
  exists_pickBy (le := fun a b => a.number ≤ b.number) Nat.le_trans
    (fun won => Nat.le_of_lt (of_decide_eq_true won))
    (fun lost => Nat.le_of_not_lt (of_decide_eq_false lost)) mem

theorem dead_le_of_moreDead {a b : Segment} (h : moreDead a b = true) : b.dead ≤ a.dead := by
  simp only [moreDead, Bool.or_eq_true, Bool.and_eq_true, decide_eq_true_eq] at h
  omega

theorem dead_le_of_not_moreDead {a b : Segment} (h : moreDead a b = false) : a.dead ≤ b.dead := by
  simp only [moreDead, Bool.or_eq_false_iff, decide_eq_false_iff_not] at h
  obtain ⟨notMore, -⟩ := h
  exact Nat.le_of_not_lt notMore

theorem exists_pickBy_moreDead {l : List Segment} {g : Segment} (mem : g ∈ l) :
    ∃ v ∈ l, pickBy moreDead l = some v ∧ g.dead ≤ v.dead :=
  exists_pickBy (le := fun a b => b.dead ≤ a.dead) (fun first second => Nat.le_trans second first)
    dead_le_of_moreDead dead_le_of_not_moreDead mem

/-! ## The lines of the order -/

section
variable {s : State}

theorem State.exists_chooseRetiring {g : Segment} (mem : g ∈ s.space.segments) (state : g.state = .retiring)
    (free : s.excluded g = false) :
    ∃ v ∈ s.space.segments, v.state = .retiring ∧ s.excluded v = false ∧
      s.chooseRetiring = some (.segment v.number) ∧ v.number ≤ g.number := by
  obtain ⟨v, candidate, picked, lowest⟩ := exists_pickBy_lowerNumber
    (l := s.space.segments.filter fun g => g.state == .retiring && !s.excluded g) (g := g) (by simp [mem, state, free])
  simp only [List.mem_filter, Bool.and_eq_true, beq_iff_eq, Bool.not_eq_true'] at candidate
  obtain ⟨present, retiring, allowed⟩ := candidate
  exact ⟨v, present, retiring, allowed, by simp [State.chooseRetiring, picked], lowest⟩

theorem State.chooseRetiring_eq_none (h : ∀ g ∈ s.space.segments, g.state = .retiring → s.excluded g = true) :
    s.chooseRetiring = none := by
  simpa [State.chooseRetiring, pickBy_eq_none_iff] using h

theorem State.exists_filledWith_moreDead {n : Nat} {g : Segment} (mem : g ∈ s.space.segments)
    (state : g.state = .filled) (dead : n ≤ g.dead) (free : s.excluded g = false) :
    ∃ v ∈ s.space.segments, v.state = .filled ∧ s.excluded v = false ∧
      s.filledWith n moreDead = some v ∧ g.dead ≤ v.dead := by
  obtain ⟨v, candidate, picked, most⟩ := exists_pickBy_moreDead
    (l := s.space.segments.filter fun g => g.state == .filled && decide (n ≤ g.dead) && !s.excluded g) (g := g)
    (by simp [mem, state, dead, free])
  simp only [List.mem_filter, Bool.and_eq_true, beq_iff_eq, Bool.not_eq_true'] at candidate
  obtain ⟨present, ⟨filled, -⟩, allowed⟩ := candidate
  exact ⟨v, present, filled, allowed, picked, most⟩

theorem State.chooseSpace_of_filledWith {v : Segment} (need : s.space.state ≠ .normal ∨ s.commit.state = .waiting)
    (found : s.filledWith 1 moreDead = some v) : s.chooseSpace = some (.segment v.number) := by
  simp [State.chooseSpace, need, found]

/-! ## The first line that yields one -/

theorem State.choice_of_retiring {k : JobKind} (h : s.chooseRetiring = some k) : s.choice = some k := by
  simp [State.choice, h]

theorem State.choice_of_refresh {k : JobKind} (retiring : s.chooseRetiring = none) (h : s.chooseRefresh = some k) :
    s.choice = some k := by
  simp [State.choice, retiring, h]

theorem State.choice_of_space {k : JobKind} (retiring : s.chooseRetiring = none) (refresh : s.chooseRefresh = none)
    (h : s.chooseSpace = some k) : s.choice = some k := by
  simp [State.choice, retiring, refresh, h]

end

/-! ## The order of choice -/

/-- Settles O49: each line yields what the statement says, and comes to its turn when those before it yield none. -/
theorem reclaimChoiceOrder : Obligations.ReclaimChoiceOrder := by
  intro s
  refine ⟨fun g mem state free => ?_, fun excluded => ?_⟩
  · obtain ⟨v, present, retiring, allowed, chosen, lowest⟩ := State.exists_chooseRetiring mem state free
    exact ⟨v, present, retiring, allowed, State.choice_of_retiring chosen, lowest⟩
  have noRetiring : s.chooseRetiring = none := State.chooseRetiring_eq_none excluded
  refine ⟨fun tag rest list => ?_, fun list need g mem state dead free => ?_⟩
  · exact State.choice_of_refresh noRetiring (by simp [State.chooseRefresh, list])
  · obtain ⟨v, present, filled, allowed, found, most⟩ := State.exists_filledWith_moreDead mem state dead free
    have noRefresh : s.chooseRefresh = none := by simp [State.chooseRefresh, list]
    have chosen : s.chooseSpace = some (.segment v.number) := State.chooseSpace_of_filledWith need found
    exact ⟨v, present, filled, allowed, State.choice_of_space noRetiring noRefresh chosen, most⟩

end Sys2Proof.Machine
end

section
/-! SUPPORT. The bytes of the medium: what a command can do to them (R121, R122, R136), what an end DONE makes of
them (R119, R188), and what a hard reset keeps (R135). -/

-- One theorem at a time: many short ones that wait at once take a thread each.
set_option Elab.async false

namespace Sys2Proof.Machine

/-! ## The commands that can change the medium -/

/-- The answers of the medium to a program or an erase, and the resets that cut one (R120, R121, R136). -/
inductive WritesMedium : Instr → Prop where
  | hardReset (cut : Remnant) : WritesMedium (.hardReset cut)
  | resetAsserted (cut : Remnant) : WritesMedium (.resetAsserted cut)
  | powerLoss (cut : Remnant) : WritesMedium (.powerLoss cut)
  | attemptTimeout (left : Remnant) : WritesMedium (.attemptTimeout left)
  | recordProgram (outcome : MediumEnd) : WritesMedium (.recordProgram outcome)
  | headerProgram (outcome : MediumEnd) : WritesMedium (.headerProgram outcome)
  | segmentErase (outcome : MediumEnd) : WritesMedium (.segmentErase outcome)

/-- The medium in `t` is that in `s`, or as some end of the operation leaves it. -/
def State.endedBy (s : State) (f : InFlight) (t : State) : Prop :=
  t.medium = s.medium ∨ ∃ o, t.medium = f.op.apply s.medium o

/-- The medium in `t` is that in `s`, or as some end of the operation in flight leaves it. -/
def State.mediumEnds (s t : State) : Prop :=
  t.medium = s.medium ∨ ∃ f o, s.sequencer.inFlight = some f ∧ t.medium = f.op.apply s.medium o

section
variable {s t : State}

/-- What is cut in flight is left as a failed end leaves it (R121, R136). -/
theorem State.mediumEnds_of_cut {cut : Remnant} (h : t.medium = s.cutMedium cut) : s.mediumEnds t := by
  unfold State.cutMedium at h
  split at h
  · next f flight => exact .inr ⟨f, .failed cut, flight, h⟩
  · exact .inl h

/-- An event of the running part changes the medium as its own effect does. -/
theorem State.run_medium {effect : State → State} (e : s.run effect = .next t)
    (keeps : (effect s).medium = s.medium := by simp) : t.medium = s.medium := by
  obtain ⟨-, rfl⟩ | ⟨-, rfl⟩ := State.run_next e
  · simpa using keeps
  · rfl

/-- A COMMAND write leaves the medium when the body it may run does. -/
theorem State.accept_medium {code : Word} {body : State → State} (e : (s.run fun t => t.accept code body) = .next t)
    (keeps : ∀ t : State, (body t).medium = t.medium := by simp) : t.medium = s.medium := by
  refine State.run_medium e ?_
  unfold State.accept
  split
  · rw [keeps]
    simp
  · simp

theorem State.runOp_medium {effect : State → InFlight → State} (e : s.runOp effect = .next t)
    (keeps : ∀ f, (effect s f).medium = s.medium := by simp) : t.medium = s.medium := by
  obtain ⟨f, -, -, -, rfl⟩ | ⟨-, -, rfl⟩ | ⟨-, rfl⟩ := State.runOp_next e
  · simpa using keeps f
  · simp
  · rfl

/-- An answer of the medium changes it as what the answer makes of the operation in flight does. -/
theorem State.runOp_mediumEnds {effect : State → InFlight → State} (e : s.runOp effect = .next t)
    (ends : ∀ f, s.endedBy f (effect s f)) : s.mediumEnds t := by
  obtain ⟨f, flight, -, -, rfl⟩ | ⟨-, -, rfl⟩ | ⟨-, rfl⟩ := State.runOp_next e
  · exact (ends f).imp (by simpa using ·) fun ⟨o, ended⟩ => ⟨f, o, flight, by simpa using ended⟩
  · exact .inl (by simp)
  · exact .inl rfl

theorem execPfwAsserted_medium (e : execPfwAsserted s = .next t) : t.medium = s.medium := by
  unfold execPfwAsserted at e
  split at e
  · cases e
    rfl
  · refine State.run_medium e ?_
    split <;> simp

theorem execPfwDeasserted_medium (e : execPfwDeasserted s = .next t) : t.medium = s.medium := by
  unfold execPfwDeasserted at e
  split at e
  · cases e
    rfl
  · refine State.run_medium e ?_
    split <;> simp

theorem execResetAsserted_mediumEnds {cut : Remnant} (e : execResetAsserted cut s = .next t) : s.mediumEnds t := by
  unfold execResetAsserted at e
  split at e <;> cases e
  · exact .inl rfl
  · exact State.mediumEnds_of_cut rfl

end

/-! ## The ends of programs and erases (R119-R122) -/

section
variable (s : State) (f : InFlight) (o : MediumEnd)

theorem State.programEnd_endedBy : s.endedBy f (s.programEnd f o) := .inr ⟨o, s.programEnd_medium f o⟩

theorem State.recordProgramEvent_endedBy : s.endedBy f (s.recordProgramEvent f o) := by
  unfold State.recordProgramEvent
  split
  · exact s.programEnd_endedBy f o
  · exact .inl rfl

theorem State.headerProgramEvent_endedBy : s.endedBy f (s.headerProgramEvent f o) := by
  unfold State.headerProgramEvent
  split
  · exact s.programEnd_endedBy f o
  · exact .inl rfl

theorem State.eraseEvent_endedBy : s.endedBy f (s.eraseEvent f o) := by
  unfold State.eraseEvent
  split
  · exact s.programEnd_endedBy f o
  · exact .inl rfl

/-- A timeout leaves the medium for a probe or a read, and ends a program or an erase (R120). -/
theorem State.timeoutEvent_endedBy (left : Remnant) : s.endedBy f (s.timeoutEvent f left) := by
  unfold State.timeoutEvent
  cases f.op with
  | recordProgram segment page r => exact s.programEnd_endedBy f (.timeout left)
  | headerProgram segment slot => exact s.programEnd_endedBy f (.timeout left)
  | segmentErase segment => exact s.programEnd_endedBy f (.timeout left)
  | bankProbe bank => exact .inl (by simp)
  | headerReadPage segment => exact .inl (by simp)
  | headerReadRecord segment page => exact .inl (by simp)
  | recordRead segment page pages tag sequence => exact .inl (by simp)
  | blankCheck segment page => exact .inl (by simp)

end

/-- What a command can do to the medium: nothing, or, by a command that can change it, an end of the operation in
flight. -/
theorem exec_medium {s t : State} (c : Instr) (e : exec c s = .next t) :
    t.medium = s.medium ∨ (WritesMedium c ∧ s.mediumEnds t) := by
  cases c with
  | hardReset cut =>
    cases e
    exact .inr ⟨.hardReset cut, State.mediumEnds_of_cut rfl⟩
  | powerLoss cut =>
    cases e
    exact .inr ⟨.powerLoss cut, State.mediumEnds_of_cut rfl⟩
  | resetAsserted cut => exact .inr ⟨.resetAsserted cut, execResetAsserted_mediumEnds e⟩
  | attemptTimeout left =>
    exact .inr ⟨.attemptTimeout left, State.runOp_mediumEnds (effect := fun t f => t.timeoutEvent f left) e
      fun f => s.timeoutEvent_endedBy f left⟩
  | recordProgram outcome =>
    exact .inr ⟨.recordProgram outcome, State.runOp_mediumEnds (effect := fun t f => t.recordProgramEvent f outcome) e
      fun f => s.recordProgramEvent_endedBy f outcome⟩
  | headerProgram outcome =>
    exact .inr ⟨.headerProgram outcome, State.runOp_mediumEnds (effect := fun t f => t.headerProgramEvent f outcome) e
      fun f => s.headerProgramEvent_endedBy f outcome⟩
  | segmentErase outcome =>
    exact .inr ⟨.segmentErase outcome, State.runOp_mediumEnds (effect := fun t f => t.eraseEvent f outcome) e
      fun f => s.eraseEvent_endedBy f outcome⟩
  | bankProbe answer => exact .inl (State.runOp_medium (effect := fun t f => t.probeEvent f answer) e)
  | headerRead attempt => exact .inl (State.runOp_medium (effect := fun t f => t.headerEvent f attempt) e)
  | recordRead attempt => exact .inl (State.runOp_medium (effect := fun t f => t.recordEvent f attempt) e)
  | blankCheck attempt => exact .inl (State.runOp_medium (effect := fun t f => t.blankEvent f attempt) e)
  | pfwAsserted => exact .inl (execPfwAsserted_medium e)
  | pfwDeasserted => exact .inl (execPfwDeasserted_medium e)
  | store => exact .inl (State.accept_medium (code := 0x10) (body := State.storeBody) e)
  | storeBundle => exact .inl (State.accept_medium (code := 0x11) (body := State.bundleBody) e)
  | remove => exact .inl (State.accept_medium (code := 0x12) (body := State.removeBody) e)
  | fetch => exact .inl (State.accept_medium (code := 0x20) (body := State.fetchBody) e)
  | describe => exact .inl (State.accept_medium (code := 0x21) (body := State.describeBody) e)
  | enumerate => exact .inl (State.accept_medium (code := 0x22) (body := State.enumerateBody) e)
  | sync => exact .inl (State.accept_medium (code := 0x30) (body := State.syncBody) e)
  | setOption => exact .inl (State.accept_medium (code := 0x40) (body := State.setOptionBody) e)
  | readOption => exact .inl (State.accept_medium (code := 0x41) (body := State.readOptionBody) e)
  | healthReport => exact .inl (State.accept_medium (code := 0x50) (body := State.reportBody) e)
  | eraseStore => exact .inl (State.accept_medium (code := 0x60) (body := State.eraseBody) e)
  | badCommand code => exact .inl (State.run_medium (effect := fun t => t.commandWrite code) e)
  | dataWrite word => exact .inl (State.run_medium (effect := fun t => t.dataWrite word) e)
  | registerWrite address word => exact .inl (State.run_medium (effect := fun t => t.registerWrite address word) e)
  | refusedWrite target => exact .inl (State.run_medium (effect := fun t => t.namedWrite target) e)
  | acknowledge word => exact .inl (State.run_medium (effect := fun t => t.acknowledge word) e)
  | intmaskWrite word => exact .inl (State.run_medium (effect := fun t => t.writeMask word) e)
  | dataRead => exact .inl (State.run_medium (effect := State.dataRead) e)
  | statusRead => exact .inl (State.run_medium (effect := State.statusRead) e)
  | abort => exact .inl (State.run_medium (effect := State.abort) e)
  | portReset => exact .inl (State.run_medium (effect := State.portReset) e)
  | dataTimeout => exact .inl (State.run_medium (effect := State.dataTimeout) e)
  | idleTimerExpiry => exact .inl (State.run_medium (effect := State.idleExpiry) e)
  | commitBegin => exact .inl (State.run_medium (effect := State.commitBeginEvent) e)
  | reclaimSelection => exact .inl (State.run_medium (effect := State.selectionEvent) e)
  | slotWaitEnd => exact .inl (State.run_medium (effect := State.slotWaitEvent) e)
  | writeThroughComplete => exact .inl (State.run_medium (effect := State.writeThroughEvent) e)
  | syncComplete => exact .inl (State.run_medium (effect := State.syncEvent) e)
  | drainEnd => exact .inl (State.run_medium (effect := State.drainEvent) e)
  | commitHaltEnd => exact .inl (State.run_medium (effect := State.haltEndEvent) e)

theorem exec_mediumEnds {s t : State} {c : Instr} (e : exec c s = .next t) : s.mediumEnds t :=
  (exec_medium c e).elim .inl And.right

/-! ## The canonical form and the bytes outside the operation in flight -/

theorem State.mediumEnds.canonical {s t : State} (ends : s.mediumEnds t) (h : s.mediumCanonical) :
    t.mediumCanonical := by
  unfold State.mediumCanonical at h ⊢
  obtain still | ⟨f, o, -, ended⟩ := ends
  · exact still ▸ h
  · exact ended ▸ Op.wf_apply h f.op o

/-- Settles O56: a step executes the command at the front of the queue, and every end of the operation in flight keeps
the canonical form. -/
theorem stepKeepsMediumCanonical : Obligations.StepKeepsMediumCanonical := by
  intro s t h e
  unfold step at e
  split at e
  · next c rest _ =>
    have canonical : ({ s with pending := rest } : State).mediumCanonical := h
    exact (exec_mediumEnds e).canonical canonical
  · cases e
    exact h

/-- Settles O4: what a command does to the medium is an end of the operation in flight, which stays within the bytes
that the operation writes. -/
theorem mediumFrame : Obligations.MediumFrame := by
  intro c s t e
  refine ⟨fun idle => ?_, fun f flight a outside => ?_, fun reset asserted loss timeout record header erase => ?_⟩
  · obtain still | ⟨f, o, flight, -⟩ := exec_mediumEnds e
    · exact still
    · simp [idle] at flight
  · obtain still | ⟨g, o, other, ended⟩ := exec_mediumEnds e
    · rw [still]
    · obtain rfl : g = f := by simpa [flight] using other.symm
      rw [ended]
      exact Op.read_apply_outside s.medium g.op o outside
  · obtain still | ⟨writes, -⟩ := exec_medium c e
    · exact still
    · cases writes with
      | hardReset cut => exact absurd rfl (reset cut)
      | resetAsserted cut => exact absurd rfl (asserted cut)
      | powerLoss cut => exact absurd rfl (loss cut)
      | attemptTimeout left => exact absurd rfl (timeout left)
      | recordProgram o => exact absurd rfl (record o)
      | headerProgram o => exact absurd rfl (header o)
      | segmentErase o => exact absurd rfl (erase o)

/-! ## What the ends make of the medium (R119-R122, R188) -/

section
variable {s : State} {f : InFlight} (on : s.power = .on) (flight : s.sequencer.inFlight = some f)
  (there : s.opExists f.op = true)
include on flight there

/-- An answer that ends the program or erase in flight completes, the medium as the end leaves it. -/
theorem State.runOp_programEnd {effect : State → InFlight → State} {o : MediumEnd}
    (ends : effect s f = s.programEnd f o) :
    ∃ t : State, s.runOp effect = .next t ∧ t.medium = f.op.apply s.medium o := by
  refine ⟨_, State.runOp_of_exists on flight there effect, ?_⟩
  rw [ends, ← s.programEnd_medium f o]
  simp

theorem exec_recordProgram_medium {segment page : Nat} {r : Record} (op : f.op = .recordProgram segment page r)
    (o : MediumEnd) : ∃ t : State, exec (.recordProgram o) s = .next t ∧ t.medium = f.op.apply s.medium o :=
  State.runOp_programEnd on flight there (effect := fun t f => t.recordProgramEvent f o)
    (by simp only [State.recordProgramEvent, op])

theorem exec_headerProgram_medium {segment : Nat} {slot : SlotContent} (op : f.op = .headerProgram segment slot)
    (o : MediumEnd) : ∃ t : State, exec (.headerProgram o) s = .next t ∧ t.medium = f.op.apply s.medium o :=
  State.runOp_programEnd on flight there (effect := fun t f => t.headerProgramEvent f o)
    (by simp only [State.headerProgramEvent, op])

theorem exec_segmentErase_medium {segment : Nat} (op : f.op = .segmentErase segment) (o : MediumEnd) :
    ∃ t : State, exec (.segmentErase o) s = .next t ∧ t.medium = f.op.apply s.medium o :=
  State.runOp_programEnd on flight there (effect := fun t f => t.eraseEvent f o)
    (by simp only [State.eraseEvent, op])

/-- The timeout of a program or an erase leaves what is an operand of the command (log 9). -/
theorem exec_attemptTimeout_medium (left : Remnant)
    (writes : s.timeoutEvent f left = s.programEnd f (.timeout left)) :
    ∃ t : State, exec (.attemptTimeout left) s = .next t ∧ t.medium = f.op.leave s.medium left :=
  State.runOp_programEnd on flight there (effect := fun t f => t.timeoutEvent f left) writes

end

/-- A slot programmed reads as programmed (R59, R188). -/
theorem Op.readBytes_headerProgram {m : List Host.Cell} (hw : Memory.wf m = true) (segment : Nat) (slot : SlotContent) :
    Memory.readBytes (Op.complete m (.headerProgram segment slot)) (mediumAddress segment 0 slot.place) 16 =
      slotBytes segment slot := by
  have read := Memory.readBytes_writeBytes hw (mediumAddress segment 0 slot.place) (slotBytes segment slot)
  rwa [length_slotBytes] at read

/-- Settles O44: each end leaves the medium as `Op.apply` says, and what DONE programs or erases reads back. -/
theorem programsAndErasesChangeTheMedium : Obligations.ProgramsAndErasesChangeTheMedium := by
  intro s f on flight there
  have timeout := exec_attemptTimeout_medium on flight there
  refine ⟨fun segment page r op => ?_, fun segment slot op => ?_, fun segment op => ?_⟩
  · have ended := exec_recordProgram_medium on flight there op
    refine ⟨ended, fun left => timeout left (by simp only [State.timeoutEvent, op]), fun canonical => ?_⟩
    obtain ⟨t, completes, medium⟩ := ended .done
    refine ⟨t, completes, ?_⟩
    rw [medium, op]
    exact Op.readBytes_recordProgram canonical segment page r
  · have ended := exec_headerProgram_medium on flight there op
    refine ⟨ended, fun left => timeout left (by simp only [State.timeoutEvent, op]), fun canonical => ?_⟩
    obtain ⟨t, completes, medium⟩ := ended .done
    refine ⟨t, completes, ?_⟩
    rw [medium, op]
    exact Op.readBytes_headerProgram canonical segment slot
  · have ended := exec_segmentErase_medium on flight there op
    refine ⟨ended, fun left => timeout left (by simp only [State.timeoutEvent, op]), ?_⟩
    obtain ⟨t, completes, medium⟩ := ended .done
    refine ⟨t, completes, fun a low high => ?_⟩
    rw [medium, op]
    exact Memory.read_erase_inside s.medium _ _ low high

/-! ## A hard reset (R121, R135) -/

/-- Settles O9: the chip state is that of reset, and the medium is what the cut leaves. -/
theorem hardResetDiscardsChipState : Obligations.HardResetDiscardsChipState := by
  intro cut s
  have cuts : exec (.hardReset cut) s = .next { s.chipReset with medium := s.cutMedium cut } := rfl
  rw [cuts]
  cases flight : s.sequencer.inFlight with
  | none => simp only [State.chipReset, State.cutMedium, flight]
  | some f => simp only [State.chipReset, State.cutMedium, flight]

end Sys2Proof.Machine
end

section
/-! SUPPORT. The fairness count (R131): which RECLAIM requests take part in a grant, and whom the grant then prefers. -/

-- One theorem at a time: many short ones that wait at once take a thread each.
set_option Elab.async false

namespace Sys2Proof.Machine

section
variable {s : State} {a : Applicant}

theorem State.mem_lodgedApplicants : a ∈ s.lodgedApplicants ↔
    a ∈ s.grantOrder.applicants ∧ (s.sequencer.requests.of a).lodged = true := by
  simp [State.lodgedApplicants]

theorem State.takesPart_of_standing (standing : s.sequencer.requests.of a = .standing) : s.takesPart a = true := by
  unfold State.takesPart
  rw [standing]

/-- A request that stands from an earlier step takes part in every grant whose order admits it (R129). -/
theorem State.mem_participants_of_standing (admitted : a ∈ s.grantOrder.applicants)
    (standing : s.sequencer.requests.of a = .standing) : a ∈ s.participants := by
  have lodged : a ∈ s.lodgedApplicants := State.mem_lodgedApplicants.mpr ⟨admitted, by rw [standing]; rfl⟩
  unfold State.participants
  split
  · next none_lodged => simp [none_lodged] at lodged
  · next single => exact single ▸ lodged
  · next several =>
    have taking := List.mem_filter.mpr ⟨several ▸ lodged, State.takesPart_of_standing standing⟩
    split
    · next none_taking => simp [none_taking] at taking
    · exact taking

/-- With the count at 8 a grant under NORMAL in which a RECLAIM request takes part does not go to COMMIT (R131). -/
theorem State.chosen_ne_commit (order : s.grantOrder = .normal) (full : s.sequencer.fairness = 8)
    (part : a ∈ s.participants) (reclaim : a.isReclaim = true) : s.chosen ≠ some .commit := by
  have applies : s.participants.any Applicant.isReclaim = true := List.any_eq_true.mpr ⟨a, part, reclaim⟩
  have preferred : s.preferred s.participants = s.participants.filter fun a => a != .commit :=
    if_pos ⟨order, full.ge, applies⟩
  intro chosen
  unfold State.chosen at chosen
  rw [preferred] at chosen
  simpa using List.mem_of_mem_head? chosen

theorem State.fairnessAfter_commit_of_none (alone : s.reclaimApplies = false) : s.fairnessAfter .commit = 0 := by
  simp [State.fairnessAfter, alone]

theorem State.fairnessAfter_commit_of_normal (order : s.grantOrder = .normal) (applies : s.reclaimApplies = true) :
    s.fairnessAfter .commit = min (s.sequencer.fairness + 1) 8 := by
  simp [State.fairnessAfter, applies, order, Config.fairnessLimit]

end

/-- Settles O52: the count by who is granted, and the RECLAIM request that keeps a grant from COMMIT. -/
theorem fairnessCount : Obligations.FairnessCount := by
  intro s limit
  refine ⟨rfl, rfl, rfl, State.fairnessAfter_commit_of_none, State.fairnessAfter_commit_of_normal,
    State.fairnessAfter_le limit, fun order full standing => ?_⟩
  obtain reclaimer | background := standing
  · refine State.chosen_ne_commit order full (State.mem_participants_of_standing (a := .reclaimer) ?_ reclaimer) rfl
    simp [order, GrantOrder.applicants]
  · refine State.chosen_ne_commit order full (State.mem_participants_of_standing (a := .background) ?_ background) rfl
    simp [order, GrantOrder.applicants]

end Sys2Proof.Machine
end

section
/-! SUPPORT. A read attempt, handed to the read in flight, and the next one after an attempt that was not good (R120,
R124, R125). -/

-- One theorem at a time: many short ones that wait at once take a thread each.
set_option Elab.async false

namespace Sys2Proof.Machine

/-! ## An attempt is handed to the read in flight -/

section
variable {s : State} {f : InFlight} (on : s.power = .on) (flight : s.sequencer.inFlight = some f)
  (there : s.opExists f.op = true)
include on flight there

theorem exec_attemptTimeout (left : Remnant) :
    exec (.attemptTimeout left) s = .next (s.timeoutEvent f left).finish :=
  State.runOp_of_exists on flight there fun t f => t.timeoutEvent f left

theorem exec_headerRead (attempt : ReadAttempt) :
    exec (.headerRead attempt) s = .next (s.headerEvent f attempt).finish :=
  State.runOp_of_exists on flight there fun t f => t.headerEvent f attempt

theorem exec_recordRead (attempt : ReadAttempt) :
    exec (.recordRead attempt) s = .next (s.recordEvent f attempt).finish :=
  State.runOp_of_exists on flight there fun t f => t.recordEvent f attempt

theorem exec_blankCheck (attempt : ReadAttempt) :
    exec (.blankCheck attempt) s = .next (s.blankEvent f attempt).finish :=
  State.runOp_of_exists on flight there fun t f => t.blankEvent f attempt

end

/-! ## What an attempt does, by its read (R120, R124, R125, R126) -/

section
variable {s : State} {f : InFlight} {n page : Nat}

theorem State.headerEvent_page (op : f.op = .headerReadPage n) (noise : Patch) :
    s.headerEvent f (.ready noise) = s.pageAttempt f n (readPageHeader s.medium n noise) := by
  simp only [State.headerEvent, op]

theorem State.headerEvent_record (op : f.op = .headerReadRecord n page) (noise : Patch) :
    s.headerEvent f (.ready noise) = s.recordAttempt f n page (readRecordHeader s.medium n page noise) := by
  simp only [State.headerEvent, op]

/-- A HEADER READ's timeout ends its attempt, in its own row and in ATTEMPT_TIMEOUT's (log 8). -/
theorem State.headerEvent_timeout (op : (∃ n, f.op = .headerReadPage n) ∨ ∃ n p, f.op = .headerReadRecord n p) :
    s.headerEvent f .timeout = s.attemptTimeout f ∧ ∀ left, s.timeoutEvent f left = s.attemptTimeout f := by
  unfold State.headerEvent State.timeoutEvent
  obtain ⟨n, op⟩ | ⟨n, p, op⟩ := op
  · simp only [op, implies_true, and_self]
  · simp only [op, implies_true, and_self]

theorem State.recordEvent_timeout {segment page pages tag sequence : Nat}
    (op : f.op = .recordRead segment page pages tag sequence) :
    s.recordEvent f .timeout = s.attemptTimeout f ∧ ∀ left, s.timeoutEvent f left = s.attemptTimeout f := by
  simp only [State.recordEvent, State.timeoutEvent, op, implies_true, and_self]

theorem State.blankEvent_timeout (op : f.op = .blankCheck n page) :
    s.blankEvent f .timeout = s.attemptTimeout f ∧ ∀ left, s.timeoutEvent f left = s.attemptTimeout f := by
  simp only [State.blankEvent, State.timeoutEvent, op, implies_true, and_self]

theorem Findings.anyCorrupt_page {p : PageFindings} : (Findings.page p).anyCorrupt = true ↔
    p.formatted = .corrupt ∨ p.opened = .corrupt ∨ p.retired = .corrupt := by
  have corrupt {α : Type} (x : Finding α) : x.isCorrupt = true ↔ x = .corrupt := by
    cases x <;> simp [Finding.isCorrupt]
  simp only [Findings.anyCorrupt, Bool.or_eq_true, corrupt, or_assoc]

theorem State.pageAttempt_corrupt {p : PageFindings} (bad : (Findings.page p).anyCorrupt = true) :
    s.pageAttempt f n p = s.attemptBad { f with seen := some (.page p) } := if_pos bad

theorem State.recordAttempt_corrupt :
    s.recordAttempt f n page .corrupt = s.attemptBad { f with seen := some (.record .corrupt) } := rfl

end

/-! ## The next attempt -/

/-- The read goes on to its next attempt, with these findings kept (R124, R125). -/
def State.retried (s : State) (f : InFlight) (seen : Option Findings) : State :=
  { s with sequencer := { s.sequencer with
      inFlight := some { f with attempts := f.attempts + 1, seen := seen } } }

theorem State.attemptBad_retries {s : State} {f : InFlight} (more : f.attempts + 1 < f.allowed)
    (seen : Option Findings) : s.attemptBad { f with seen := seen } = s.retried f seen := if_pos more

/-- Settles O42: each end of an attempt that was not good is `attemptBad`, which goes on while attempts remain. -/
theorem readAttemptsAreRetried : Obligations.ReadAttemptsAreRetried := by
  intro s f on flight there more again timedOut
  have timeout : s.attemptTimeout f = timedOut := by
    refine (State.attemptBad_retries more f.seen).trans ?_
    unfold State.retried State.noteTimeout
    cases mounting : s.mount with
    | none => simp only [State.countTimeout, timedOut, again, mounting]
    | some m => simp only [timedOut, again, mounting]
  have timeouts {read : Host.Outcome State Fault Refusal} {event : State} (answer : read = .next event.finish)
      (same : event = s.attemptTimeout f ∧ ∀ left, s.timeoutEvent f left = s.attemptTimeout f) :
      read = .next timedOut.finish ∧ ∀ left, exec (.attemptTimeout left) s = .next timedOut.finish := by
    refine ⟨by rw [answer, same.1, timeout], fun left => ?_⟩
    rw [exec_attemptTimeout on flight there, same.2, timeout]
  refine ⟨fun segment page pages tag sequence op => ?_, fun op => ?_, fun n noise op => ?_,
    fun n page noise op bad => ?_, fun ⟨n, page, op⟩ => ?_⟩
  · obtain ⟨own, other⟩ := timeouts (exec_recordRead on flight there .timeout) (State.recordEvent_timeout op)
    refine ⟨own, other, fun noise missing => ?_⟩
    rw [exec_recordRead on flight there]
    simp only [State.recordEvent, op, missing, State.readAttempt]
    rw [State.attemptBad_retries more f.seen]
    rfl
  · exact timeouts (exec_headerRead on flight there .timeout) (State.headerEvent_timeout op)
  · intro p bad
    rw [exec_headerRead on flight there, State.headerEvent_page op,
      State.pageAttempt_corrupt (Findings.anyCorrupt_page.mpr bad), State.attemptBad_retries more]
    rfl
  · rw [exec_headerRead on flight there, State.headerEvent_record op, bad, State.recordAttempt_corrupt,
      State.attemptBad_retries more]
    rfl
  · exact timeouts (exec_blankCheck on flight there .timeout) (State.blankEvent_timeout op)

end Sys2Proof.Machine
end

section
/-! SUPPORT. The header reads of mount (R125, R127, R137, R138, R140, R141, R143): how a read ends, what mount takes
from page 0 of a segment and from a record header position, and what follows the last of them. -/

-- One theorem at a time: many short ones that wait at once take a thread each.
set_option Elab.async false

namespace Sys2Proof.Machine

/-! ## The end of a header read (R124, R125, R127) -/

/-- A good attempt, which mount counts as RECOVERED after the first (R127). -/
def goodRead (c : Instr) (noise : Patch) (f : InFlight) (m w : MountWork) : Prop :=
  c = .headerRead (.ready noise) ∧ w = if f.attempts = 0 then m else { m with recovered := bump m.recovered }

/-- A last attempt that was a mismatch: the read is UNREADABLE (R124, R125). -/
def mismatchedRead (c : Instr) (noise : Patch) (f : InFlight) (m w : MountWork) : Prop :=
  c = .headerRead (.ready noise) ∧ f.attempts + 1 = f.allowed ∧ w = { m with unreadable := bump m.unreadable }

/-- A last attempt that timed out, in either of two rows (log 8): it is counted, and the read is UNREADABLE. -/
def timedOutRead (c : Instr) (f : InFlight) (m w : MountWork) : Prop :=
  (c = .headerRead .timeout ∨ ∃ left : Remnant, c = .attemptTimeout left) ∧ f.attempts + 1 = f.allowed ∧
    w = { m with unreadable := bump m.unreadable, timeouts := bump m.timeouts }

/-- The header read in flight ends, and mount counts what there is to count of it. -/
def readEnds (c : Instr) (noise : Patch) (f : InFlight) (m w : MountWork) : Prop :=
  goodRead c noise f m w ∨ mismatchedRead c noise f m w ∨ timedOutRead c f m w

/-- The counts of a read leave the phase and the findings. -/
theorem readEnds.keeps {c : Instr} {noise : Patch} {f : InFlight} {m w : MountWork} (h : readEnds c noise f m w) :
    w.phase = m.phase ∧ w.headers = m.headers := by
  obtain ⟨-, rfl⟩ | ⟨-, -, rfl⟩ | ⟨-, -, rfl⟩ := h
  · split <;> exact ⟨rfl, rfl⟩
  · exact ⟨rfl, rfl⟩
  · exact ⟨rfl, rfl⟩

/-- Mount's working state changed, and the port free. -/
def State.mountFreed (s : State) (w : MountWork) : State := ({ s with mount := some w } : State).releasePort

/-- A header read whose last attempt timed out. -/
theorem exec_timedOut {s : State} {f : InFlight} {c : Instr} {m w : MountWork} (on : s.power = .on)
    (flight : s.sequencer.inFlight = some f) (there : s.opExists f.op = true)
    (op : (∃ n, f.op = .headerReadPage n) ∨ ∃ n p, f.op = .headerReadRecord n p) (timed : timedOutRead c f m w) :
    exec c s = .next (s.attemptTimeout f).finish := by
  obtain ⟨own, other⟩ := State.headerEvent_timeout (s := s) op
  obtain ⟨rfl | ⟨left, rfl⟩, -, -⟩ := timed
  · rw [exec_headerRead on flight there, own]
  · rw [exec_attemptTimeout on flight there, other]

section
variable {s : State} {m w : MountWork} {f : InFlight} (mounting : s.mount = some m)
include mounting

theorem State.attemptGood_mounting :
    s.attemptGood f = s.mountFreed (if f.attempts = 0 then m else { m with recovered := bump m.recovered }) := by
  unfold State.attemptGood State.noteRecovered State.mountFreed
  rw [mounting]
  split
  · rw [← mounting]
  · rfl

section
variable (last : f.attempts + 1 = f.allowed)
include last

theorem State.attemptBad_page {n : Nat} (op : f.op = .headerReadPage n) (seen : Option Findings) :
    s.attemptBad { f with seen := seen } =
      (s.mountFreed { m with unreadable := bump m.unreadable }).mountHeaderEnd n (pageReport seen) := by
  unfold State.attemptBad
  simp only [last, lt_irrefl, if_false, State.readUnreadable, op, State.noteUnreadable, mounting]
  rfl

theorem State.attemptBad_record {n page : Nat} (op : f.op = .headerReadRecord n page) (seen : Option Findings) :
    s.attemptBad { f with seen := seen } =
      (s.mountFreed { m with unreadable := bump m.unreadable }).mountScanEnd n page (recordReport seen) := by
  unfold State.attemptBad
  simp only [last, lt_irrefl, if_false, State.readUnreadable, op, State.noteUnreadable, mounting]
  rfl

theorem State.attemptTimeout_page {n : Nat} (op : f.op = .headerReadPage n) :
    s.attemptTimeout f = (s.mountFreed { m with
      unreadable := bump m.unreadable, timeouts := bump m.timeouts }).mountHeaderEnd n (pageReport f.seen) := by
  have counted : s.noteTimeout = { s with mount := some { m with timeouts := bump m.timeouts } } := by
    simp only [State.noteTimeout, mounting]
  rw [State.attemptTimeout, counted]
  exact State.attemptBad_page (m := { m with timeouts := bump m.timeouts }) rfl last op f.seen

theorem State.attemptTimeout_record {n page : Nat} (op : f.op = .headerReadRecord n page) :
    s.attemptTimeout f = (s.mountFreed { m with
      unreadable := bump m.unreadable, timeouts := bump m.timeouts }).mountScanEnd n page (recordReport f.seen) := by
  have counted : s.noteTimeout = { s with mount := some { m with timeouts := bump m.timeouts } } := by
    simp only [State.noteTimeout, mounting]
  rw [State.attemptTimeout, counted]
  exact State.attemptBad_record (m := { m with timeouts := bump m.timeouts }) rfl last op f.seen

end

variable {c : Instr} {noise : Patch} {n : Nat} (on : s.power = .on) (flight : s.sequencer.inFlight = some f)
  (there : s.opExists f.op = true)
include on flight there

/-- The findings of a page 0 that mount takes (R125). -/
theorem exec_pageRead {p : PageFindings} (op : f.op = .headerReadPage n)
    (ends : (goodRead c noise f m w ∧ p = readPageHeader s.medium n noise ∧ (Findings.page p).anyCorrupt = false) ∨
      (mismatchedRead c noise f m w ∧ p = readPageHeader s.medium n noise ∧ (Findings.page p).anyCorrupt = true) ∨
      (timedOutRead c f m w ∧ (f.seen = some (.page p) ∨ (f.seen = none ∧ p = ⟨.corrupt, .corrupt, .corrupt⟩)))) :
    readEnds c noise f m w ∧ exec c s = .next ((s.mountFreed w).mountHeaderEnd n p).finish := by
  obtain ⟨read, rfl, clean⟩ | ⟨read, rfl, corrupt⟩ | ⟨read, seen⟩ := ends
  · refine ⟨.inl read, ?_⟩
    obtain ⟨rfl, rfl⟩ := read
    rw [exec_headerRead on flight there, State.headerEvent_page op, ← State.attemptGood_mounting mounting]
    unfold State.pageAttempt
    rw [if_neg (by simp [clean])]
  · refine ⟨.inr (.inl read), ?_⟩
    obtain ⟨rfl, last, rfl⟩ := read
    rw [exec_headerRead on flight there, State.headerEvent_page op, State.pageAttempt_corrupt corrupt,
      State.attemptBad_page mounting last op]
    rfl
  · refine ⟨.inr (.inr read), ?_⟩
    have report : pageReport f.seen = p := by
      obtain seen | ⟨seen, rfl⟩ := seen <;> rw [seen] <;> rfl
    rw [exec_timedOut on flight there (.inl ⟨n, op⟩) read]
    obtain ⟨-, last, rfl⟩ := read
    rw [State.attemptTimeout_page mounting last op, report]

/-- The finding of a record header position that mount takes (R125). -/
theorem exec_recordHeaderRead {page : Nat} {found : Finding Record} (op : f.op = .headerReadRecord n page)
    (ends : (goodRead c noise f m w ∧ found = readRecordHeader s.medium n page noise ∧ found ≠ .corrupt) ∨
      (mismatchedRead c noise f m w ∧ found = readRecordHeader s.medium n page noise ∧ found = .corrupt) ∨
      (timedOutRead c f m w ∧ (f.seen = some (.record .corrupt) ∨ f.seen = none) ∧ found = .corrupt)) :
    readEnds c noise f m w ∧ exec c s = .next ((s.mountFreed w).mountScanEnd n page found).finish := by
  obtain ⟨read, header, clean⟩ | ⟨read, header, rfl⟩ | ⟨read, seen, rfl⟩ := ends
  · refine ⟨.inl read, ?_⟩
    obtain ⟨rfl, rfl⟩ := read
    rw [exec_headerRead on flight there, State.headerEvent_record op, ← header,
      ← State.attemptGood_mounting mounting]
    cases found with
    | blank => rfl
    | valid r => rfl
    | corrupt => exact absurd rfl clean
  · refine ⟨.inr (.inl read), ?_⟩
    obtain ⟨rfl, last, rfl⟩ := read
    rw [exec_headerRead on flight there, State.headerEvent_record op, ← header, State.recordAttempt_corrupt,
      State.attemptBad_record mounting last op]
    rfl
  · refine ⟨.inr (.inr read), ?_⟩
    have report : recordReport f.seen = .corrupt := by
      obtain seen | seen := seen <;> rw [seen] <;> rfl
    rw [exec_timedOut on flight there (.inr ⟨n, page, op⟩) read]
    obtain ⟨-, last, rfl⟩ := read
    rw [State.attemptTimeout_record mounting last op, report]

end

/-! ## The read that follows, or the end of mount (R137, R140, R143) -/

/-- Mount goes on with this working state to this read, with the attempts that READ_RETRIES gives. -/
def State.mountReads (s : State) (u : MountWork) (op : Op) : State :=
  { s with
    mount := some u
    sequencer := { s.sequencer with
      inFlight := some ⟨.mount, op, 0, 1 + s.window.options.readRetries, none⟩, pin := none } }

section
variable {s : State} {w t : MountWork}

theorem State.mountHeadersNext_cons (n : Nat) (rest : List Nat) : (s.mountFreed w).mountHeadersNext t (n :: rest) =
    s.mountReads { t with phase := .headers (n :: rest) } (.headerReadPage n) := rfl

theorem State.mountScanNext_cons (n : Nat) (rest : List Nat) : (s.mountFreed w).mountScanNext t (n :: rest) =
    s.mountReads { t with phase := .scan (n :: rest) 1 } (.headerReadRecord n 1) := rfl

theorem MountWork.openChoice_eq {a : Candidate} (mem : a ∈ t.candidates) (kept : a.retire = false)
    (best : ∀ d ∈ t.candidates, d.retire = false → d = a ∨ d.openSequence < a.openSequence ∨
      (d.openSequence = a.openSequence ∧ a.segment < d.segment)) : t.openChoice = some a := by
  refine bestForOpen_eq a _ (by simp [mem, kept]) fun d choice => ?_
  simp only [List.mem_filter, Bool.not_eq_true'] at choice
  exact best d choice.1 choice.2

theorem MountWork.openChoice_eq_none (retired : ∀ a ∈ t.candidates, a.retire = true) : t.openChoice = none := by
  have empty : (t.candidates.filter fun c => !c.retire) = [] := by simpa using retired
  unfold MountWork.openChoice
  rw [empty]
  rfl

theorem State.mountResolve_of_none (choice : t.openChoice = none) : s.mountResolve t = s.mountEnd t none 0 := by
  simp only [State.mountResolve, choice]

theorem State.mountResolve_of_blank {a : Candidate} (choice : t.openChoice = some a) (blank : a.scanEnd = some .blank) :
    (s.mountFreed w).mountResolve t =
      s.mountReads { t with phase := .resolve a.segment } (.blankCheck a.segment a.writePointer) := by
  unfold State.mountResolve
  rw [choice]
  exact if_pos blank

theorem State.mountResolve_of_unblank {a : Candidate} (choice : t.openChoice = some a)
    (unblank : a.scanEnd ≠ some .blank) : s.mountResolve t = s.mountEnd t none 0 := by
  unfold State.mountResolve
  rw [choice]
  exact if_neg unblank

/-- Mount's end with no segment OPEN and none torn (R143, R144, R147). -/
theorem State.mountEnd_closed (s : State) (t : MountWork) :
    let u := s.mountEnd t none 0
    u.mount = none ∧ u.index = t.index ∧ u.space.segments = t.headers.map (t.segment none) ∧
      u.mountReport.recovered = t.recovered ∧ u.mountReport.unreadable = t.unreadable ∧
      u.mountReport.timeouts = t.timeouts ∧ u.mountReport.truncated = t.truncated ∧
      u.mountReport.discarded = t.discarded ∧ u.mountReport.torn = 0 := by
  obtain ⟨segments, -, -, -, -, index⟩ := s.mountEnd_store t none 0
  obtain ⟨mount, torn, recovered, unreadable, timeouts, truncated, discarded, -⟩ := s.mountEnd_report t none 0
  exact ⟨mount, index, segments, recovered, unreadable, timeouts, truncated, discarded, torn⟩

end

/-! ## What mount takes from a read (R137, R140) -/

section
variable {s : State} {w : MountWork} {n : Nat} {rest : List Nat}

/-- The findings of a page 0 kept for its segment, an OPENED slot that names another counting as corrupt (R137). -/
def MountWork.withHeader (w : MountWork) (n : Nat) (p : PageFindings) : MountWork :=
  { w with headers := w.headers ++ [⟨n, p.formatted, ownOpened n p.opened, p.retired⟩] }

theorem State.mountHeaderEnd_eq (p : PageFindings) (phase : w.phase = .headers (n :: rest)) :
    (s.mountFreed w).mountHeaderEnd n p = (s.mountFreed w).mountHeadersNext (w.withHeader n p) rest := by
  have mounting : (s.mountFreed w).mount = some w := rfl
  unfold State.mountHeaderEnd MountWork.withHeader
  simp only [mounting, phase, List.drop_one, List.tail_cons]

/-- How a candidate's scan ends at a position: blank, corrupt, with a record that does not fit, or with one that ends
at page 127 (R140). -/
def scanEnds (w : MountWork) (n page : Nat) (found : Finding Record) (t : MountWork) : Prop :=
  (found = .blank ∧ t = w.endScan n .blank page) ∨
  (found = .corrupt ∧ t = w.endScan n .corrupt 128) ∨
  (∃ r : Record, found = .valid r ∧ 128 < page + pagesFor r.length ∧ t = w.endScan n .corrupt 128) ∨
  (∃ r : Record, found = .valid r ∧ page + pagesFor r.length = 128 ∧ t = (w.addRecord r n page).endScan n .full 128)

variable {page : Nat} (phase : w.phase = .scan (n :: rest) page)
include phase

/-- A record that leaves room for another: the position after it is read. -/
theorem State.mountScanEnd_valid {r : Record} (room : page + pagesFor r.length < 128) :
    (s.mountFreed w).mountScanEnd n page (.valid r) =
      s.mountReads { w.addRecord r n page with phase := .scan (n :: rest) (page + pagesFor r.length) }
        (.headerReadRecord n (page + pagesFor r.length)) := by
  have mounting : (s.mountFreed w).mount = some w := rfl
  have fits : ¬ Config.segmentPages < page + pagesFor r.length := by simp only [Config.segmentPages]; omega
  have more : page + pagesFor r.length ≠ Config.segmentPages := room.ne
  unfold State.mountScanEnd
  simp only [mounting, phase, fits, more, if_false]
  rfl

theorem State.mountScanEnd_ends {found : Finding Record} {t : MountWork} (ends : scanEnds w n page found t) :
    (s.mountFreed w).mountScanEnd n page found = (s.mountFreed w).mountScanNext t rest := by
  have mounting : (s.mountFreed w).mount = some w := rfl
  unfold State.mountScanEnd
  obtain ⟨rfl, rfl⟩ | ⟨rfl, rfl⟩ | ⟨r, rfl, beyond, rfl⟩ | ⟨r, rfl, full, rfl⟩ := ends
  · simp only [mounting, phase, List.drop_one, List.tail_cons]
  · simp only [mounting, phase, List.drop_one, List.tail_cons]
  · simp only [mounting, phase, beyond, if_true, List.drop_one, List.tail_cons]
  · simp only [mounting, phase, full, lt_irrefl, if_false, if_true, List.drop_one, List.tail_cons]

end

/-! ## The records of one candidate (R140, R141) -/

/-- Record `i` lies in a whole run (R141). -/
def inWholeRun (records : List (Record × Nat)) (i : Nat) : Prop :=
  ∃ j k b q : Nat, 2 ≤ k ∧ j ≤ i ∧ i < j + k ∧ runAt records j k k b q

/-- A whole run lies among the records. -/
theorem inWholeRun_iff {records : List (Record × Nat)} {i : Nat} :
    inWholeRun records i ↔ inRun records records.length i := by
  constructor
  · rintro ⟨j, k, b, q, two, low, high, run⟩
    obtain ⟨x, present, -⟩ := run (k - 1) (by omega)
    obtain ⟨within, -⟩ := List.getElem?_eq_some_iff.mp present
    exact ⟨j, k, b, q, two, low, high, by omega, run⟩
  · rintro ⟨j, k, b, q, two, low, high, -, run⟩
    exact ⟨j, k, b, q, two, low, high, run⟩

/-- The end of a scan breaks the run in progress, sets the candidate's scan end, write pointer and low sequence, and
counts a truncated one. -/
theorem MountWork.endScan_eq (w : MountWork) (n : Nat) (how : ScanEnd) (pointer : Nat) :
    let t := w.endScan n how pointer
    t.run = w.breakRun.run ∧ t.found = w.breakRun.found ∧ t.discarded = w.breakRun.discarded ∧
    t.highestSequence = w.highestSequence ∧
    t.candidates = w.candidates.map (fun c => if c.segment = n then
      { c with
        scanEnd := some how, writePointer := pointer
        lowSequence := if how = .corrupt then 1 else c.lowSequence }
      else c) ∧
    t.truncated = if how = .corrupt then w.truncated + 1 else w.truncated := by
  obtain ⟨found, run, discarded, broken⟩ := w.breakRun_keeps
  unfold MountWork.endScan MountWork.updateCandidate
  rw [broken]
  by_cases corrupt : how = .corrupt <;> simp [corrupt]

/-- The findings of a candidate after its scan: every record is found, those of no whole run discarded and counted. -/
theorem MountWork.scan_found (m : MountWork) (n : Nat) (records : List (Record × Nat)) (alone : m.run = none) :
    let w := (records.foldl (fun w x => w.addRecord x.1 n x.2) m).breakRun
    w.run = none ∧ w.found.length = m.found.length + records.length ∧ w.found.drop records.length = m.found ∧
    (∀ (i : Nat) (x : Record × Nat), records[i]? = some x → ∃ d : Bool,
      w.found[records.length - 1 - i]? = some ⟨x.1, n, x.2, d⟩ ∧
      (d = false ↔ x.1.position = none ∨ inWholeRun records i)) ∧
    w.discarded = m.discarded + (w.found.take records.length).countP (·.discarded) := by
  intro w
  obtain ⟨run, -, length, rest, count, d, found, stands⟩ := (RunsAfter.all records n m alone).broken
  refine ⟨run, length, rest, fun i x present => ⟨d i, ?_, ?_⟩, count⟩
  · obtain ⟨within, -⟩ := List.getElem?_eq_some_iff.mp present
    exact found i x within present
  · obtain ⟨within, -⟩ := List.getElem?_eq_some_iff.mp present
    rw [inWholeRun_iff]
    exact stands i within x present

/-! ## After the last header read (R138, R140, R143) -/

/-- The header slots are those of a candidate: row 2 of R138, to be retired, or row 7. -/
def HeaderInfo.isScanned (h : HeaderInfo) (q : Nat) (retire : Bool) : Prop :=
  h.opened = .valid q ∧
    ((h.retired = .corrupt ∧ retire = true) ∨
      (h.retired = .blank ∧ retire = false ∧ ∃ count : Nat, h.formatted = .valid count ∧ count ≠ 100000))

section
variable {s : State} {w u : MountWork}

/-- With a candidate among the segments the scan of the first begins. -/
theorem State.mountHeadersNext_scans (some_scanned : ∃ h ∈ u.headers, ∃ q retire, h.isScanned q retire) :
    ∃ (first : Candidate) (later : List Candidate),
      (s.mountFreed w).mountHeadersNext u [] =
        s.mountReads { u with candidates := first :: later, phase := .scan ((first :: later).map (·.segment)) 1 }
          (.headerReadRecord first.segment 1) ∧
      ((first :: later).map (·.segment)).Sublist (u.headers.map (·.segment)) ∧
      ∀ d : Candidate, d ∈ first :: later ↔ ∃ h ∈ u.headers, ∃ q retire, h.isScanned q retire ∧
        d = ⟨h.segment, q, retire, none, 1, 0⟩ := by
  have candidates := u.mem_startCandidates
  have ordered := u.startCandidates_sublist
  obtain ⟨h, mem, q, retire, row⟩ := some_scanned
  have listed := (candidates _).mpr ⟨h, mem, q, retire, row, rfl⟩
  cases list : u.startCandidates with
  | nil => simp [list] at listed
  | cons first later =>
    rw [list] at candidates ordered
    refine ⟨first, later, ?_, ordered, candidates⟩
    simp only [State.mountHeadersNext, list]
    rfl

/-- With no candidate mount ends with no segment OPEN. -/
theorem State.mountHeadersNext_ends (none_scanned : ∀ h ∈ u.headers, ∀ q retire, ¬ h.isScanned q retire) :
    s.mountHeadersNext u [] = s.mountEnd { u with candidates := [] } none 0 := by
  have empty : u.startCandidates = [] := List.eq_nil_iff_forall_not_mem.mpr fun d listed => by
    obtain ⟨h, mem, q, retire, row, -⟩ := (u.mem_startCandidates d).mp listed
    exact none_scanned h mem q retire row
  simp only [State.mountHeadersNext, empty]
  exact State.mountResolve_of_none (t := { u with candidates := [] }) rfl

end

/-- Settles O40: a header read that ends is taken by mount, which reads on, or, after the last, ends; and the records of
a candidate are found as R141 has them. -/
theorem headerReadsAreTakenByMount : Obligations.HeaderReadsAreTakenByMount := by
  refine ⟨fun c noise s m w f n on mounting flight there => ?_, fun m n records how pointer alone => ?_⟩
  · intro good mismatch timedOut reads
    refine ⟨fun rest p op phase taken => ?_, fun page rest found op phase taken => ?_⟩
    · obtain ⟨read, answer⟩ := exec_pageRead mounting on flight there op taken
      obtain ⟨same_phase, same_headers⟩ := read.keeps
      intro headers scanned
      have kept : w.withHeader n p = { w with headers := headers } := by
        simp only [MountWork.withHeader, same_headers, headers]
        obtain _ | ⟨sequence, number⟩ | _ := p.opened
        · rfl
        · rfl
        · rfl
      rw [State.mountHeaderEnd_eq p (same_phase.trans phase), kept] at answer
      refine ⟨fun next later more => ?_, fun last some_scanned => ?_, fun last none_scanned => ?_⟩
      · rw [answer, more]
        rfl
      · obtain ⟨first, later, scans, ordered, candidates⟩ := State.mountHeadersNext_scans (s := s) (w := w)
          (u := { w with headers := headers }) some_scanned
        refine ⟨first, later, ?_, ordered, candidates⟩
        rw [answer, last]
        exact congrArg (fun t => Host.Outcome.next t.finish) scans
      · have ended :=
          State.mountHeadersNext_ends (s := s.mountFreed w) (u := { w with headers := headers }) none_scanned
        obtain ⟨mount, -, segments, -⟩ :=
          (s.mountFreed w).mountEnd_closed { w with headers := headers, candidates := [] }
        refine ⟨_, ?_, mount, segments⟩
        rw [answer, last]
        exact congrArg (fun t => Host.Outcome.next t.finish) ended
    · obtain ⟨read, answer⟩ := exec_recordHeaderRead mounting on flight there op taken
      have scanning : w.phase = .scan (n :: rest) page := read.keeps.1.trans phase
      refine ⟨fun r valid room => ?_, fun t stops => ?_⟩
      · rw [answer, valid, State.mountScanEnd_valid scanning room]
        rfl
      · rw [State.mountScanEnd_ends scanning stops] at answer
        refine ⟨fun next later more => ?_, ?_⟩
        · rw [answer, more]
          rfl
        intro ends
        have ended (last : rest = [])
            (resolved : (s.mountFreed w).mountResolve t = (s.mountFreed w).mountEnd t none 0) : ends := by
          refine ⟨_, ?_, State.mountEnd_closed (s.mountFreed w) t⟩
          rw [answer, last]
          exact congrArg (fun t => Host.Outcome.next t.finish) resolved
        refine ⟨fun last retired => ended last (State.mountResolve_of_none (MountWork.openChoice_eq_none retired)),
          fun a mem last kept best => ?_⟩
        have choice := MountWork.openChoice_eq mem kept best
        refine ⟨fun blank => ?_, fun unblank => ended last (State.mountResolve_of_unblank choice unblank)⟩
        rw [answer, last]
        exact congrArg (fun t => Host.Outcome.next t.finish) (State.mountResolve_of_blank choice blank)
  · intro t whole
    obtain ⟨run, length, rest, stands, count⟩ := m.scan_found n records alone
    obtain ⟨above, all, attained, candidates, truncated⟩ := MountWork.foldl_addRecord records n m
    obtain ⟨t_run, t_found, t_discarded, t_highest, t_candidates, t_truncated⟩ :=
      (records.foldl (fun w x => w.addRecord x.1 n x.2) m).endScan_eq n how pointer
    change t.run = _ at t_run
    change t.found = _ at t_found
    change t.discarded = _ at t_discarded
    change t.highestSequence = _ at t_highest
    rw [t_run, t_found, t_discarded, t_highest]
    refine ⟨run, length, rest, stands, count, above, all, attained, ?_, ?_⟩
    · refine t_candidates.trans ?_
      rw [candidates, List.map_map]
      refine List.map_congr_left fun c _ => ?_
      by_cases own : c.segment = n <;> simp [own]
    · refine t_truncated.trans ?_
      rw [truncated]

end Sys2Proof.Machine
end

section
/-! SUPPORT. RESET# and the loss of the supply (R136), and PFW# asserted: what the part notes of it, how the command in
progress ends, what the Commit Engine does, and how a reclaim job is abandoned (R92, R116, R176-R179). -/

-- One theorem at a time: many short ones that wait at once take a thread each.
set_option Elab.async false

namespace Sys2Proof.Machine

/-! ## RESET# and the supply (R136) -/

/-- The part that RESET# holds, or that is without supply: the state of reset with no mount and nothing in flight, and
the medium as the cut leaves it. -/
theorem State.cutOff_eq (s : State) (power : Power) (cut : Remnant) : s.cutOff power cut = { State.reset with
    pending := s.pending, pfw := s.pfw, choices := s.choices, power := power, mount := none
    sequencer := ⟨none, ⟨.absent, .absent, .absent, .absent⟩, 0, none⟩
    medium := s.cutMedium cut } := rfl

/-- Settles O10: the supply and RESET# both cut the part off, but for RESET# in a part without supply. -/
theorem cutLosesChipState : Obligations.CutLosesChipState := by
  intro cut s lost
  have lost_eq (p : Power) : s.cutOff p cut = lost p := s.cutOff_eq p cut
  refine ⟨congrArg Host.Outcome.next (lost_eq .off), fun supplied => ?_, fun off => if_pos off⟩
  rw [← lost_eq]
  exact if_neg supplied

/-! ## What is noted of PFW# (R176-R178) -/

/-- With PFW# asserted and no command that ends by it: the port, with no command in progress, is DRAINING, the drain has
begun and a reclaim job is to be abandoned; or ERASE STORE has recorded the assertion, if no end before. -/
def State.notesPfw (s t : State) : Prop :=
  (s.port.activity = .none ∧ t = { s with
    pfw := true, port := { s.port with state := .draining }
    drain := { s.drain with running := true }, idle := ⟨none, false⟩
    reclaim := { s.reclaim with job := s.reclaim.job.map fun j => { j with abandoning := true } } }) ∨
  (∃ p : EraseProgress, s.port.activity = .eraseStore p ∧ t = { s with
    pfw := true, port := { s.port with
      activity := .eraseStore { p with firstEnd := some (p.firstEnd.getD .powerFail) } } })

/-- What is noted leaves the store, the PWL, the Commit Engine and the arbiter. -/
theorem State.notesPfw.keeps {s t : State} (noted : s.notesPfw t) : t.staging = s.staging ∧ t.index = s.index ∧
    t.space = s.space ∧ t.commit = s.commit ∧ t.sequencer = s.sequencer := by
  obtain ⟨-, rfl⟩ | ⟨p, -, rfl⟩ := noted
  · exact ⟨rfl, rfl, rfl, rfl, rfl⟩
  · exact ⟨rfl, rfl, rfl, rfl, rfl⟩

/-- An end recorded by ERASE STORE, of which the first counts (R176). -/
theorem State.recordEnd_of_erasing {s : State} {p : EraseProgress} (erasing : s.port.activity = .eraseStore p)
    (e : RecordedEnd) : s.recordEnd e = { s with port := { s.port with
      activity := .eraseStore { p with firstEnd := some (p.firstEnd.getD e) } } } := by
  have erasure : s.erasure = some p := by simp only [State.erasure, erasing]
  rw [State.recordEnd, erasure]
  cases first : p.firstEnd with
  | none => exact if_pos first
  | some x =>
    have stands : ({ p with firstEnd := some (p.firstEnd.getD e) } : EraseProgress) = p := by
      rw [first, Option.getD_some, ← first]
    rw [← first, stands, ← erasing]
    exact if_neg (by simp [first])

theorem State.erasing_eq_true_iff {s : State} : s.erasing = true ↔ ∃ p, s.port.activity = .eraseStore p := by
  unfold State.erasing
  cases s.port.activity <;> simp

theorem exec_pfwAsserted {s : State} (on : s.power = .on) (deasserted : s.pfw = false) :
    exec .pfwAsserted s = .next s.pfwAssert.finish := by
  have runs : exec .pfwAsserted s = s.run fun t => if t.pfw then t else t.pfwAssert := if_neg (by simp [on])
  rw [runs, State.run_of_on on, if_neg (by simp [deasserted])]

/-- During mount only the input is noted (R177). -/
theorem State.pfwAssert_of_mounting {s : State} (mounting : s.mount.isSome = true) :
    s.pfwAssert = { s with pfw := true } := if_pos mounting

section
variable {s : State} (mounted : s.mount = none)
include mounted

/-- Under ERASE STORE the assertion is recorded, and the Commit Engine acts on it. -/
theorem State.pfwAssert_of_erasing (erasing : s.erasing = true) :
    s.pfwAssert = (({ s with pfw := true } : State).recordEnd .powerFail).powerFailCommit :=
  (if_neg (by simp [mounted])).trans (if_pos erasing)

/-- Otherwise the port drains, a reclaim job is marked, and the Commit Engine acts on the assertion. -/
theorem State.pfwAssert_of_not_erasing (other : s.erasing = false) :
    s.pfwAssert = ({ s with pfw := true } : State).powerFailCommand.markAbandon.powerFailCommit :=
  (if_neg (by simp [mounted])).trans (if_neg (by exact ne_true_of_eq_false other))

/-- Where no command ends by it the assertion is noted, and the Commit Engine acts on it. -/
theorem State.pfwAssert_of_notesPfw {t : State} (noted : s.notesPfw t) : s.pfwAssert = t.powerFailCommit := by
  obtain ⟨quiet, rfl⟩ | ⟨p, erasing, rfl⟩ := noted
  · have other : s.erasing = false := by simp only [State.erasing, quiet]
    have drains :
        ({ s with pfw := true } : State).powerFailCommand = ({ s with pfw := true } : State).enterDraining := by
      simp only [State.powerFailCommand, quiet]
    rw [State.pfwAssert_of_not_erasing mounted other, drains]
    rfl
  · rw [State.pfwAssert_of_erasing mounted (State.erasing_eq_true_iff.mpr ⟨p, erasing⟩),
      State.recordEnd_of_erasing (by exact erasing)]

end

/-! ## The Commit Engine at the assertion (R90, R92, R179) -/

section
variable {t : State}

theorem State.powerFailCommit_of_waiting (waiting : t.commit.state = .waiting) : t.powerFailCommit = t.lodgeCommit :=
  if_pos waiting

theorem State.powerFailCommit_of_noSpace (halted : t.commit.state = .halted .noSpace) (free : t.space.freeList ≠ []) :
    t.powerFailCommit = t.leaveHalt :=
  (if_neg (by simp [halted])).trans (if_pos ⟨halted, List.length_pos_iff.mpr free⟩)

/-- An engine that neither waits nor is halted for space that there is goes on, or stays halted. -/
theorem State.powerFailCommit_of_going (awake : t.commit.state ≠ .waiting)
    (full : t.commit.state = .halted .noSpace → t.space.freeList = []) : t.powerFailCommit = t := by
  refine (if_neg awake).trans (if_neg ?_)
  rintro ⟨halted, free⟩
  simp [State.freeCount, full halted] at free

theorem State.powerFailCommit_port (quiet : t.port.activity.waits = false) : t.powerFailCommit.port = t.port := by
  unfold State.powerFailCommit
  split
  · rfl
  · split
    · exact State.leaveHalt_port quiet
    · rfl

theorem State.powerFailCommit_within : t.causes.within t.powerFailCommit.causes := by
  unfold State.powerFailCommit
  split
  · exact Causes.within_refl _
  · split
    · exact t.leaveHalt_within
    · exact Causes.within_refl _

end

/-! ## The command in progress (R177) -/

/-- A command in progress ends with POWER_FAIL in DRAINING, DONE being raised. -/
theorem State.powerFailCommand_ends {s : State} (asserted : s.pfw = true) (busy : s.port.activity ≠ .none) :
    s.powerFailCommand.port = ⟨.draining, .none, 0, .powerFail, 0, none⟩ ∧ s.powerFailCommand.causes.done = true := by
  have ends : s.powerFailCommand = s.leaveFetch.endCommand .powerFail 0 := by
    unfold State.powerFailCommand
    split
    · next none_in_progress => exact absurd none_in_progress busy
    · rfl
  obtain ⟨port, done, -⟩ := State.endCommand_draining (s := s.leaveFetch) (by simpa using asserted) .powerFail 0
  exact ends ▸ ⟨port, done⟩

/-- The end of the command stands at the end of the step. -/
theorem State.finish_pfwAssert_of_busy {s : State} (mounted : s.mount = none) (other : s.erasing = false)
    (busy : s.port.activity ≠ .none) :
    s.pfwAssert.finish.pfw = true ∧ s.pfwAssert.finish.port = ⟨.draining, .none, 0, .powerFail, 0, none⟩ ∧
      s.pfwAssert.finish.causes.done = true ∧ s.pfwAssert.finish.window = s.window := by
  obtain ⟨port, done⟩ := ({ s with pfw := true } : State).powerFailCommand_ends rfl busy
  rw [State.pfwAssert_of_not_erasing mounted other]
  generalize u_eq : ({ s with pfw := true } : State).powerFailCommand.markAbandon = u
  have u_port : u.port = ⟨.draining, .none, 0, .powerFail, 0, none⟩ := u_eq ▸ port
  have u_done : u.causes.done = true := u_eq ▸ done
  have u_port_after : u.powerFailCommit.port = u.port := State.powerFailCommit_port (by rw [u_port]; rfl)
  have kept : u.powerFailCommit.finish.port = u.powerFailCommit.port :=
    State.finish_port (by rw [u_port_after, u_port]; rfl)
  have raised := Causes.within_trans u.powerFailCommit_within u.powerFailCommit.finish_within
  exact ⟨by simp [← u_eq], kept.trans (u_port_after.trans u_port), raised.1 u_done, by simp [← u_eq]⟩

/-! ## The reclaim job (R116) -/

/-- A marked job none of whose operations is in flight: the job alone goes, or the lists with it under ERASE STORE; its
victim leaves RECLAIMING, and its request is withdrawn. -/
theorem jobAbandon_eq {s : State} {j : Job} (job : s.reclaim.job = some j) (marked : j.abandoning = true)
    (quiet : s.reclaimerInFlight = false) : ∃ q, q.requests.reclaimer = .absent ∧ jobAbandon s = some { s with
      space := { s.space with segments := s.space.segments.map (Segment.leaveJob (some j)) }
      reclaim := if s.erasing = true then ⟨none, [], [], none⟩ else { s.reclaim with job := none }
      sequencer := q } := by
  obtain ⟨q, -, absent, -, abandoned⟩ := s.abandonJob_eq
  refine ⟨q, absent (by simp [job]), ?_⟩
  have arises : jobAbandon s =
      some (if s.erasing then (s.abandonJob false).emptyReclaimLists else s.abandonJob false) := by
    simp [jobAbandon, job, marked, quiet]
  rw [arises, abandoned, job]
  cases s.erasing <;> rfl

/-- Settles O11: what is noted of the assertion, what the Commit Engine makes of it, the end of a command, and the
abandonment of the job. -/
theorem pfwAssertedDrains : Obligations.PfwAssertedDrains := by
  refine ⟨fun s on deasserted => ?_, fun s j job marked quiet => ?_⟩
  · rw [exec_pfwAsserted on deasserted]
    refine ⟨fun mounting => by rw [State.pfwAssert_of_mounting mounting], fun t mounted (noted : s.notesPfw t) => ?_,
      fun mounted other busy => ⟨_, rfl, State.finish_pfwAssert_of_busy mounted other busy⟩⟩
    obtain ⟨staging, index, space, commit, sequencer⟩ := noted.keeps
    rw [State.pfwAssert_of_notesPfw mounted noted]
    refine ⟨fun going => ?_, fun waiting => ?_, fun e rest halted free pwl kind alone writable left => ?_⟩
    · have awake : t.commit.state ≠ .waiting := by
        rw [commit]
        intro waiting
        simp [waiting] at going
      have full : t.commit.state = .halted .noSpace → t.space.freeList = [] := by
        rw [commit, space]
        intro halted
        simpa [halted] using going
      rw [State.powerFailCommit_of_going awake full]
    · rw [State.powerFailCommit_of_waiting (by rw [commit, waiting]), State.lodgeCommit, sequencer]
    · have readOnly : t.readOnly = false := by rw [← writable, State.readOnly, State.readOnly, space]
      rw [State.powerFailCommit_of_noSpace (by rw [commit, halted]) (by rw [space]; exact free),
        State.leaveHalt_of_write readOnly (by rw [staging, pwl]) kind alone (by rw [index]; exact left),
        staging, index, sequencer]
  · obtain ⟨q, absent, abandoned⟩ := jobAbandon_eq job marked quiet
    refine ⟨_, abandoned, by simp [consequences], rfl, absent, fun tag refresh => ?_, fun v segment => ?_,
      rfl, rfl, rfl, rfl⟩
    · simp only [Segment.leaveJob_refresh refresh, List.map_id]
    · refine congrArg (fun l => ({ s.space with segments := l } : Space)) (List.map_congr_left fun g _ => ?_)
      simp only [Segment.leaveJob, segment, JobKind.segment.injEq, eq_comm (a := v)]

end Sys2Proof.Machine
end

section
/-! SUPPORT. What every step keeps of the port: the agreement of its state, the command in progress, RESIDUE, the timer
and RESULT (R150, R153, R154, R156). One lemma per operation that changes the port or mount, and the step assembled
from them; an operation that changes neither takes its frame rule through `portLaw.of_same`. -/

-- One theorem at a time: many short ones that wait at once take a thread each.
set_option Elab.async false

namespace Sys2Proof.Machine

/-! ## The law -/

/-- A coherent port in the same state, with mount running or not as before, keeps the law. -/
theorem State.portLaw.of_coherent {s t : State} (h : s.portLaw) (coherent : t.port.coherent = true)
    (e : t.port.state = s.port.state ∧ t.power = s.power ∧ t.pfw = s.pfw ∧
      t.mount.isSome = s.mount.isSome := by simp) : t.portLaw := by
  obtain ⟨state, power, pfw, mount⟩ := e
  obtain ⟨-, mounting, off, draining⟩ := h
  rw [← Option.isNone_iff_eq_none, ← Option.not_isSome] at off
  refine ⟨coherent, ?_, ?_, ?_⟩
  · rwa [power, state, mount]
  · rwa [power, state, ← Option.isNone_iff_eq_none, ← Option.not_isSome, mount]
  · rwa [state, pfw]

/-- An operation that leaves the port and mount keeps the law. -/
theorem State.portLaw.of_same {s t : State} (h : s.portLaw)
    (e : t.port = s.port ∧ t.power = s.power ∧ t.pfw = s.pfw ∧ t.mount.isSome = s.mount.isSome := by simp) :
    t.portLaw := by
  obtain ⟨port, kept⟩ := e
  exact h.of_coherent (by rw [port]; exact h.1) ⟨by rw [port], kept⟩

/-- With mount ended a coherent port that is neither MOUNTING nor DRAINING meets the law. -/
theorem State.awake.portLaw {s : State} (awake : s.awake) (coherent : s.port.coherent = true)
    (mounted : s.port.state ≠ .mounting) (draining : s.port.state = .draining → s.pfw = true) : s.portLaw := by
  obtain ⟨on, ended⟩ := awake
  exact ⟨coherent, fun _ => by simp [mounted, ended], fun off => absurd on off, draining⟩

/-- A port that is not MOUNTING is that of a running part that has mounted. -/
theorem State.portLaw.awake {s : State} (h : s.portLaw) (mounted : s.port.state ≠ .mounting) : s.awake := by
  obtain ⟨-, mounting, off, -⟩ := h
  have on : s.power = .on := by
    by_contra other
    exact mounted (off other).1
  refine ⟨on, ?_⟩
  rw [← Option.isNone_iff_eq_none, ← Option.not_isSome]
  simpa using fun running => mounted ((mounting on).mpr running)

/-- A command is in progress, as far as RESULT shows: mount has ended, RESULT is NONE and its detail is 0 (R153). -/
def State.inCommand (s : State) : Prop := s.awake ∧ s.port.result = .none ∧ s.port.detail = 0

theorem State.inCommand.of_same {s t : State} (h : s.inCommand)
    (e : t.power = s.power ∧ t.mount = s.mount ∧ t.port.result = s.port.result ∧
      t.port.detail = s.port.detail := by simp) : t.inCommand := by
  obtain ⟨power, mount, result, detail⟩ := e
  obtain ⟨⟨on, mounted⟩, none_yet, no_detail⟩ := h
  exact ⟨⟨power.trans on, mount.trans mounted⟩, result.trans none_yet, detail.trans no_detail⟩

/-- An activity other than none is that of a command in progress. -/
theorem State.portLaw.inCommand {s : State} (h : s.portLaw) (busy : s.port.activity ≠ .none) : s.inCommand := by
  have coherent := h.1
  unfold Port.coherent at coherent
  have shown : s.port.state ≠ .mounting ∧ s.port.result = .none ∧ s.port.detail = 0 := by
    cases activity : s.port.activity <;> simp_all
  obtain ⟨mounted, clear⟩ := shown
  exact ⟨h.awake mounted, clear⟩

/-! ## The ends of a command (R52, R153) -/

theorem State.awake.leaveCommand {s : State} (awake : s.awake) : s.leaveCommand.portLaw := by
  have after : s.leaveCommand.awake := by simpa [State.awake] using awake
  obtain ⟨-, -, -, -, -, -, -, -, -, -, port⟩ := s.leaveCommand_keeps
  refine after.portLaw ?_ ?_ ?_ <;> cases pfw : s.pfw <;> simp [port, pfw, Port.coherent]

theorem State.awake.endCommand {s : State} (awake : s.awake) (code : ResultCode) (detail : Nat) :
    (s.endCommand code detail).portLaw :=
  (State.awake.leaveCommand (s := { s with port := { s.port with result := code, detail := detail } }) awake).of_same
    ⟨rfl, rfl, rfl, rfl⟩

/-- The wait that a halt ends, if any, is that of a command in progress. -/
theorem State.portLaw.endWaits {s : State} (h : s.portLaw) (code : ResultCode) : (s.endWaits code).portLaw := by
  have ends (busy : s.port.activity ≠ .none) : (s.endCommand code 0).portLaw := (h.inCommand busy).1.endCommand code 0
  unfold State.endWaits
  split
  · next activity => exact ends (by simp [activity])
  · next activity => exact ends (by simp [activity])
  · next activity => exact ends (by simp [activity])
  all_goals exact h

/-! ## The waits and the data phases (R50, R56, R154, R156) -/

/-- A command in progress that waits: EXECUTING, with no words left and the timer stopped. -/
theorem State.inCommand.waiting {s : State} (h : s.inCommand) {activity : Activity}
    (waits : activity.waits = true ∨ activity.isFetch = true)
    (port : s.port = ⟨.executing, activity, 0, s.port.result, s.port.detail, none⟩) : s.portLaw := by
  obtain ⟨awake, result, detail⟩ := h
  rw [result, detail] at port
  refine awake.portLaw ?_ (by simp [port]) (by simp [port])
  rw [port]
  cases activity <;> simp_all [Activity.waits, Activity.isFetch, Port.coherent]

theorem State.inCommand.completeAppend {s : State} (h : s.inCommand) (w : Work) (slots : List Nat) :
    (s.completeAppend w slots).portLaw := by
  unfold State.completeAppend
  split
  · split
    · exact h.1.endCommand _ 0
    all_goals exact State.inCommand.waiting (h.of_same) (.inl rfl) rfl
  · exact h.1.endCommand .none 0

theorem wordsFor_pos {n : Nat} (long : 0 < n) : 1 ≤ wordsFor n := by
  unfold wordsFor
  omega

theorem Work.lengthOf_pos_of_nextPayload {w : Work} {i j : Nat} (next : nextPayload w.members i = some j) :
    0 < w.lengthOf j := by
  have long := List.find?_some next
  unfold Work.lengthOf
  split at long
  · next m found => simpa [found] using long
  · cases long

theorem State.inCommand.proceed {s : State} (h : s.inCommand) (w : Work) (slots : List Nat) (i : Nat) :
    (s.proceed w slots i).portLaw := by
  unfold State.proceed
  split
  · next j next =>
    have words := wordsFor_pos (Work.lengthOf_pos_of_nextPayload next)
    obtain ⟨awake, result, detail⟩ := h
    refine State.awake.portLaw (by simpa [State.awake] using awake) ?_ ?_ ?_ <;>
      simp [State.enterPayload, State.restartTimer, State.raiseData, Port.coherent, words, result, detail]
  · exact State.inCommand.completeAppend (h.of_same) w slots

theorem State.inCommand.reserveAndProceed {s : State} (h : s.inCommand) (w : Work) :
    (s.reserveAndProceed w).portLaw := State.inCommand.proceed (h.of_same) w _ 0

theorem State.inCommand.enterReserve {s : State} (h : s.inCommand) (w : Work) : (s.enterReserve w).portLaw := by
  unfold State.enterReserve
  split
  · exact h.reserveAndProceed w
  · split
    · exact h.1.endCommand _ 0
    all_goals exact State.inCommand.waiting (h.of_same) (.inl rfl) rfl

theorem State.inCommand.enterSending {s : State} (h : s.inCommand) {n : Nat} (some_words : 1 ≤ n) :
    (s.enterSending n).portLaw := by
  obtain ⟨awake, result, detail⟩ := h
  refine State.awake.portLaw (by simpa [State.awake] using awake) ?_ ?_ ?_ <;>
    simp [State.enterSending, State.restartTimer, State.raiseData, Port.coherent, some_words, result, detail]

/-- A word of a data phase that is not the last: RESIDUE falls by one and the timer restarts. -/
theorem State.portLaw.wordTaken {s t : State} {timer : Nat} (h : s.portLaw) (more : 2 ≤ s.port.residue)
    (port : t.port = { s.port with residue := s.port.residue - 1, dataTimer := some timer })
    (e : t.power = s.power ∧ t.pfw = s.pfw ∧ t.mount = s.mount := by simp) : t.portLaw := by
  obtain ⟨power, pfw, mount⟩ := e
  refine h.of_coherent ?_ ⟨by rw [port], power, pfw, by rw [mount]⟩
  have coherent := h.1
  unfold Port.coherent at coherent ⊢
  rw [port]
  have left : 1 ≤ s.port.residue - 1 := by omega
  cases activity : s.port.activity <;> simp_all

/-! ## FETCH (R154, R168) -/

theorem State.inCommand.deliver {s : State} (h : s.inCommand) (payload : List Byte) (length sequence : Nat) :
    (s.deliver payload length sequence).portLaw := by
  have loaded : (((s.fillFrame (packWords payload)).loadLength length).loadSequence sequence).inCommand := h.of_same
  unfold State.deliver
  dsimp only
  split
  · exact loaded.1.endCommand .none 0
  · next long => exact loaded.enterSending (wordsFor_pos (by omega))

theorem State.inCommand.fetchLookup {s : State} (h : s.inCommand) (tag : Nat) : (s.fetchLookup tag).portLaw := by
  have requested (e : IndexEntry) : (s.requestRead e).portLaw :=
    State.inCommand.waiting (h.of_same ⟨rfl, rfl, rfl, rfl⟩) (.inr rfl) rfl
  unfold State.fetchLookup
  split
  · exact h.deliver _ _ 0
  · exact h.1.endCommand .notFound 0
  · exact State.awake.endCommand (by simpa [State.awake] using h.1) .lost 0
  · exact requested _
  · exact requested _

theorem State.inCommand.takeRead {s : State} (h : s.inCommand) (e : IndexEntry) (o : ReadOutcome) :
    (s.takeRead e o).portLaw := by
  unfold State.takeRead
  split
  · exact h.deliver _ _ _
  · exact h.deliver _ _ _
  · split
    · next claimed =>
      exact State.awake.endCommand (by simpa [State.awake, State.damagedClaim_frame claimed] using h.1) .unreadable 0
    · exact h.fetchLookup e.tag

theorem State.portLaw.fetchOutcome {s : State} (h : s.portLaw) (op : Op) (tag : Nat) (detached : Bool)
    (o : ReadOutcome) : (s.fetchOutcome op tag detached o).portLaw := by
  have offered : (s.offerAfter tag o).portLaw := h.of_same
  unfold State.fetchOutcome
  dsimp only
  split
  · exact offered.of_same
  · split
    · next fetching => exact (offered.inCommand (by rw [fetching]; exact nofun)).takeRead _ o
    · exact offered

/-! ## ERASE STORE (R174-R176) -/

/-- ERASE STORE stays in progress from one point of its work to another. -/
theorem State.portLaw.setErasure {s : State} (h : s.portLaw) {p : EraseProgress}
    (erasing : s.port.activity = .eraseStore p) (q : EraseProgress) : (s.setErasure q).portLaw := by
  refine h.of_coherent ?_ ⟨rfl, rfl, rfl, rfl⟩
  simpa [Port.coherent, erasing, State.setErasure] using h.1

theorem State.activity_of_erasure {s : State} {p : EraseProgress} (erasure : s.erasure = some p) :
    s.port.activity = .eraseStore p := by
  unfold State.erasure at erasure
  split at erasure
  · next activity =>
    cases erasure
    exact activity
  · cases erasure

theorem State.portLaw.recordEnd {s : State} (h : s.portLaw) (e : RecordedEnd) : (s.recordEnd e).portLaw := by
  unfold State.recordEnd
  split
  · next erasure =>
    split
    · exact h.setErasure (State.activity_of_erasure erasure) _
    · exact h
  · exact h

theorem State.portLaw.recordPortReset {s : State} (h : s.portLaw) : s.recordPortReset.portLaw := by
  unfold State.recordPortReset
  split
  · next erasure => exact h.setErasure (State.activity_of_erasure erasure) _
  · exact h

theorem State.portLaw.setTodo {s : State} (h : s.portLaw) (rest : List Nat) : (s.setTodo rest).portLaw := by
  unfold State.setTodo
  split
  · next erasure => exact h.setErasure (State.activity_of_erasure erasure) _
  · exact h

theorem State.portLaw.eraseStage {s : State} (h : s.portLaw) (n : Nat) (stage : EraseStage) :
    (s.eraseStage n stage).portLaw := by
  unfold State.eraseStage
  split
  · exact h
  · next p erasure =>
    have staged := h.setErasure (State.activity_of_erasure erasure) { p with hand := some (n, stage) }
    exact staged.of_same

theorem State.portLaw.endErasure {s : State} (h : s.portLaw) : s.endErasure.portLaw := by
  unfold State.endErasure
  split
  · exact h
  · next erasure =>
    have awake : s.awake := (h.inCommand (by simp [State.activity_of_erasure erasure])).1
    split
    · exact awake.leaveCommand
    · split
      · exact awake.endCommand _ 0
      · exact awake.endCommand .none 0

theorem State.portLaw.eraseFrom {s : State} (h : s.portLaw) (todo : List Nat) : (State.eraseFrom todo s).portLaw := by
  induction todo generalizing s with
  | nil => exact State.portLaw.endErasure (s := s.emptyStore) (h.of_same)
  | cons n rest ih =>
    have cleared : (s.clearSegment n).portLaw := h.of_same
    unfold State.eraseFrom
    split
    · exact State.portLaw.endErasure (s := { s with background := ⟨s.pendingErases, none⟩ }) h
    · dsimp only
      split
      · split
        · exact ih (cleared.of_same)
        · exact (cleared.setTodo rest).eraseStage n _
      · exact (cleared.setTodo rest).eraseStage n _

theorem State.portLaw.eraseStoreEnd {s : State} (h : s.portLaw) (o : MediumEnd) : (s.eraseStoreEnd o).portLaw := by
  unfold State.eraseStoreEnd
  split
  · exact h
  · next p erasure =>
    split
    · exact h
    · next n stage _ =>
      have ended : (s.eraserEnd n stage o).2.portLaw := h.of_same
      have erasing : (s.eraserEnd n stage o).2.port.activity = .eraseStore p := by
        simpa using State.activity_of_erasure erasure
      dsimp only
      split
      · exact ended.eraseStage n _
      · exact (ended.setErasure erasing _).eraseFrom p.todo

theorem State.portLaw.eraseStoreStart {s t : State} (h : s.portLaw) (e : eraseStoreStart s = some t) : t.portLaw := by
  unfold Machine.eraseStoreStart at e
  split at e
  · next p erasure =>
    have erasing : (s.clearWork p.discard).port.activity = .eraseStore p := by
      simpa using State.activity_of_erasure erasure
    have cleared : (s.clearWork p.discard).portLaw := h.of_same
    split at e
    · cases e
      exact (cleared.setErasure erasing _).eraseFrom _
    · cases e
  · cases e

/-! ## The Commit Engine (R80, R83, R91) -/

theorem State.portLaw.enterHalt {s : State} (h : s.portLaw) (r : HaltReason) : (s.enterHalt r).portLaw :=
  State.portLaw.endWaits (h.of_same) r.code

theorem State.portLaw.holdNumbers {s : State} (h : s.portLaw) (k prior : Nat) : (s.holdNumbers k prior).portLaw := by
  unfold State.holdNumbers
  split
  · next taken => exact h.of_same (by simp [State.takeNumbers_frame' taken])
  · next taken => exact State.portLaw.enterHalt (h.of_same (by simp [State.takeNumbers_frame' taken])) .readOnly

theorem State.portLaw.beginUnit {s : State} (h : s.portLaw) : s.beginUnit.portLaw := by
  unfold State.beginUnit
  split
  · exact h.enterHalt .readOnly
  · split
    · exact h
    · dsimp only
      split
      · exact State.portLaw.holdNumbers (h.of_same) _ 0
      · split
        · exact h.of_same
        · split
          · exact h.of_same
          · exact State.portLaw.holdNumbers (h.of_same) 1 _
          · exact State.portLaw.holdNumbers (h.of_same) 1 _

theorem State.portLaw.leaveHalt {s : State} (h : s.portLaw) : s.leaveHalt.portLaw :=
  State.portLaw.beginUnit (h.of_same)

theorem State.portLaw.commitNoRoom {s : State} (h : s.portLaw) : s.commitNoRoom.portLaw := by
  unfold State.commitNoRoom
  split
  · split
    · exact h.enterHalt .noSpace
    · exact h
  · exact State.portLaw.enterHalt (h.of_same) .noSpace

theorem State.portLaw.grantCommit {s : State} (h : s.portLaw) : s.grantCommit.portLaw := by
  unfold State.grantCommit
  split
  · exact h
  · dsimp only
    split
    · exact h.of_same
    · split
      · next claimed => exact h.of_same (by simp [State.claimPages_frame' claimed])
      · next claimed => exact h.of_same (by simp [State.claimPages_frame' claimed])
      · next claimed => exact h.of_same (by simp [State.claimPages_frame' claimed])
      · next claimed => exact State.portLaw.commitNoRoom (h.of_same (by simp [State.claimPages_frame' claimed]))

theorem State.portLaw.commitFailure {s : State} (h : s.portLaw) (segment k : Nat) (x : Failure) :
    (s.commitFailure segment k x).portLaw := by
  unfold State.commitFailure
  dsimp only
  split
  · exact h.of_same
  · split
    · exact h.of_same
    · exact State.portLaw.enterHalt (h.of_same) .medium

theorem State.portLaw.commitProgramEnd {s : State} (h : s.portLaw) (op : Op) (o : MediumEnd) :
    (s.commitProgramEnd op o).portLaw := by
  unfold State.commitProgramEnd
  split
  · split
    · exact h.of_same
    · exact h.commitFailure _ _ _
  · split
    · exact h.of_same
    · exact h.commitFailure _ 0 _
  all_goals exact h

theorem State.portLaw.commitBegin {s t : State} (h : s.portLaw) (e : commitBegin s = some t) : t.portLaw := by
  unfold Machine.commitBegin at e
  split at e
  · cases e
    exact h.beginUnit
  · cases e

theorem State.portLaw.commitStart {s t : State} (h : s.portLaw) (e : commitStart s = some t) : t.portLaw := by
  unfold Machine.commitStart at e
  split at e
  · exact h.commitBegin e
  · cases e

theorem State.portLaw.commitNext {s t : State} (h : s.portLaw) (e : commitNext s = some t) : t.portLaw := by
  unfold Machine.commitNext at e
  split at e
  · cases e
    split
    · exact h
    · exact h.beginUnit
  · cases e

theorem State.portLaw.commitHaltEnd {s t : State} (h : s.portLaw) (e : commitHaltEnd s = some t) : t.portLaw := by
  unfold Machine.commitHaltEnd at e
  split at e
  · cases e
    exact h.leaveHalt
  · cases e

/-! ## The consequences of a step -/

theorem State.portLaw.slotWaitEnd {s t : State} (h : s.portLaw) (e : slotWaitEnd s = some t) : t.portLaw := by
  unfold Machine.slotWaitEnd at e
  split at e
  · next w waiting =>
    split at e
    · cases e
      exact (h.inCommand (by simp [waiting])).reserveAndProceed w
    · cases e
  · cases e

theorem State.portLaw.writeThroughComplete {s t : State} (h : s.portLaw) (e : writeThroughComplete s = some t) :
    t.portLaw := by
  unfold Machine.writeThroughComplete at e
  split at e
  · next waiting =>
    split at e
    · cases e
    · cases e
      exact (h.inCommand (by simp [waiting])).1.endCommand .none 0
  · cases e

theorem State.portLaw.syncComplete {s t : State} (h : s.portLaw) (e : syncComplete s = some t) : t.portLaw := by
  unfold Machine.syncComplete at e
  split at e
  · next waiting =>
    split at e
    · cases e
      exact (h.inCommand (by simp [waiting])).1.endCommand .none 0
    · cases e
  · cases e

theorem State.portLaw.grant {s t : State} (h : s.portLaw) (e : grant s = some t) : t.portLaw := by
  unfold Machine.grant at e
  split at e
  · obtain ⟨a, -, rfl⟩ := Option.map_eq_some_iff.mp e
    unfold State.grantTo
    cases a with
    | commit => exact State.portLaw.grantCommit (h.of_same)
    | read => exact h.of_same (t := State.grantRead _)
    | background => exact h.of_same (t := State.grantBackground _)
    | reclaimer => exact h.of_same (t := State.grantReclaimer _)
  · cases e

theorem State.portLaw.consequence {s t : State} (e : consequence s = some t) (h : s.portLaw) : t.portLaw := by
  rcases consequence_cases e with e | e | e | e | e | e | e | e | e | e | e | e | e | e | e | e
  · exact h.of_same (by simp [healthRefresh_frame e])
  · exact h.of_same (by simp [spaceRefresh_frame e])
  · exact h.eraseStoreStart e
  · exact h.of_same (by simp [jobAbandon_frame e])
  · exact h.slotWaitEnd e
  · exact h.writeThroughComplete e
  · exact h.syncComplete e
  · exact h.commitHaltEnd e
  · exact h.commitNext e
  · exact h.commitStart e
  · exact h.of_same (by simp [drainEnd_frame e])
  · exact h.of_same (by simp [jobSelect_frame e])
  · exact h.of_same (by simp [reclaimSelection_frame e])
  · exact h.of_same (by simp [jobRequest_frame e])
  · exact h.of_same (by simp [backgroundRequest_frame e])
  · exact h.grant e

/-- The end of a step keeps the law. -/
theorem State.portLaw.finish {s : State} (h : s.portLaw) : s.finish.portLaw := by
  have settled := settle_induction (fun a b e => State.portLaw.consequence e) Config.settleRounds s h
  exact settled.of_same (t := s.finish) (by unfold State.finish; simp)

/-- A block's step as an event keeps the law when the step, where it has work to do, does. -/
theorem State.portLaw.ownStep {s : State} (h : s.portLaw) (work : State → Option State)
    (keeps : ∀ t, work s = some t → t.portLaw) : (if s.blocksRun then (work s).getD s else s).portLaw := by
  split
  · cases found : work s with
    | none => exact h
    | some t => exact keeps t found
  · exact h

/-! ## Mount (R135, R145) -/

/-- Mount leaves the port for IDLE, or for DRAINING with PFW# asserted. -/
theorem State.mountEnd_port (s : State) (m : MountWork) (opened : Option Nat) (torn : Nat) :
    (s.mountEnd m opened torn).port = { s.port with state := if s.pfw = true then .draining else .idle } ∧
      (s.mountEnd m opened torn).mount = none := by
  unfold State.mountEnd State.leaveMounting
  cases pfw : s.pfw <;> simp [State.enterDraining, State.enterIdle_eq]

section
variable {s : State} (h : s.portLaw) (mounting : s.mount.isSome = true)
include h mounting

theorem State.portLaw.on_of_mounting : s.power = .on := by
  obtain ⟨-, -, off, -⟩ := h
  by_contra other
  simp [(off other).2] at mounting

theorem State.portLaw.mountEnd (m : MountWork) (opened : Option Nat) (torn : Nat) :
    (s.mountEnd m opened torn).portLaw := by
  have on := h.on_of_mounting mounting
  obtain ⟨port, mounted⟩ := s.mountEnd_port m opened torn
  have awake : (s.mountEnd m opened torn).awake := ⟨by simpa using on, mounted⟩
  obtain ⟨coherent, running, -, -⟩ := h
  have state := (running on).mpr mounting
  refine awake.portLaw ?_ ?_ ?_
  · rw [port]
    unfold Port.coherent at coherent ⊢
    cases activity : s.port.activity <;> cases pfw : s.pfw <;> simp_all
  · cases pfw : s.pfw <;> simp [port, pfw]
  · cases pfw : s.pfw <;> simp [port, pfw]

theorem State.portLaw.mountIssue (m : MountWork) (op : Op) (allowed : Nat) : (s.mountIssue m op allowed).portLaw :=
  h.of_same ⟨rfl, rfl, rfl, by rw [mounting]; rfl⟩

theorem State.portLaw.mountScanNext (m : MountWork) (todo : List Nat) : (s.mountScanNext m todo).portLaw := by
  unfold State.mountScanNext
  split
  · unfold State.mountResolve
    split
    · split
      · exact h.mountIssue mounting _ _ _
      · exact h.mountEnd mounting m none 0
    · exact h.mountEnd mounting m none 0
  · exact h.mountIssue mounting _ _ _

theorem State.portLaw.mountHeadersNext (m : MountWork) (todo : List Nat) : (s.mountHeadersNext m todo).portLaw := by
  unfold State.mountHeadersNext
  split
  · exact h.mountScanNext mounting _ _
  · exact h.mountIssue mounting _ _ _

end

/-- Counting a read does not end mount. -/
@[simp] theorem State.isSome_mount_of_noted (s : State) : s.noteTimeout.mount.isSome = s.mount.isSome ∧
    s.noteRecovered.mount.isSome = s.mount.isSome ∧ s.noteUnreadable.mount.isSome = s.mount.isSome := by
  unfold State.noteTimeout State.noteRecovered State.noteUnreadable
  cases running : s.mount <;> simp [running]

section
variable {s : State} (h : s.portLaw)
include h

theorem State.portLaw.mountProbeEnd (answer : ProbeAnswer) : (s.mountProbeEnd answer).portLaw := by
  unfold State.mountProbeEnd
  split
  · exact h
  · next running =>
    have mounting : s.mount.isSome = true := by simp [running]
    split
    · extract_lets found
      split
      · exact h.mountIssue mounting _ _ _
      · split
        · exact h.mountEnd mounting found none 0
        · exact h.mountHeadersNext mounting found _
    all_goals exact h

theorem State.portLaw.mountHeaderEnd (segment : Nat) (p : PageFindings) : (s.mountHeaderEnd segment p).portLaw := by
  unfold State.mountHeaderEnd
  split
  · exact h
  · next running =>
    dsimp only
    split
    · exact h.mountHeadersNext (by simp [running]) _ _
    all_goals exact h

theorem State.portLaw.mountScanEnd (segment page : Nat) (finding : Finding Record) :
    (s.mountScanEnd segment page finding).portLaw := by
  unfold State.mountScanEnd
  split
  · exact h
  · next running =>
    have mounting : s.mount.isSome = true := by simp [running]
    split
    · split
      · exact h.mountScanNext mounting _ _
      · exact h.mountScanNext mounting _ _
      · dsimp only
        split
        · exact h.mountScanNext mounting _ _
        · split
          · exact h.mountScanNext mounting _ _
          · exact h.mountIssue mounting _ _ _
    all_goals exact h

theorem State.portLaw.mountBlankEnd (segment : Nat) (blank : Bool) : (s.mountBlankEnd segment blank).portLaw := by
  unfold State.mountBlankEnd
  split
  · exact h
  · next running =>
    split
    · exact h.mountEnd (by simp [running]) _ _ 0
    · exact h.mountEnd (by simp [running]) _ _ 1

/-! ## Reads (R124, R127) -/

theorem State.portLaw.recordOutcome (f : InFlight) (o : ReadOutcome) : (s.recordOutcome f o).portLaw := by
  unfold State.recordOutcome
  split
  · exact h.fetchOutcome _ _ _ o
  · split <;> exact h.of_same
  all_goals exact h

theorem State.portLaw.readUnreadable (f : InFlight) : (s.readUnreadable f).portLaw := by
  unfold State.readUnreadable
  extract_lets t
  have freed : t.portLaw := h.of_same (t := State.releasePort _)
  split
  · exact freed.mountHeaderEnd _ _
  · exact freed.mountScanEnd _ _ _
  · exact freed.recordOutcome f .unreadable
  · exact freed.mountBlankEnd _ false
  all_goals exact freed

theorem State.portLaw.attemptBad (f : InFlight) : (s.attemptBad f).portLaw := by
  unfold State.attemptBad
  dsimp only
  split
  · exact h
  · exact h.readUnreadable _

theorem State.portLaw.attemptTimeout (f : InFlight) : (s.attemptTimeout f).portLaw :=
  State.portLaw.attemptBad (h.of_same) f

theorem State.portLaw.attemptGood (f : InFlight) : (s.attemptGood f).portLaw := by
  unfold State.attemptGood
  split <;> exact h.of_same

theorem State.portLaw.headerEvent (f : InFlight) (a : ReadAttempt) : (s.headerEvent f a).portLaw := by
  unfold State.headerEvent
  split
  · unfold State.pageAttempt
    split
    · exact h.attemptBad _
    · exact (h.attemptGood f).mountHeaderEnd _ _
  · unfold State.recordAttempt
    split
    · exact h.attemptBad _
    · exact (h.attemptGood f).mountScanEnd _ _ _
  · exact h.attemptTimeout f
  · exact h.attemptTimeout f
  · exact h

theorem State.portLaw.recordEvent (f : InFlight) (a : ReadAttempt) : (s.recordEvent f a).portLaw := by
  unfold State.recordEvent
  split
  · unfold State.readAttempt
    split
    · exact (h.attemptGood f).recordOutcome f _
    · exact h.attemptBad f
  · exact h.attemptTimeout f
  · exact h

theorem State.portLaw.blankEvent (f : InFlight) (a : ReadAttempt) : (s.blankEvent f a).portLaw := by
  unfold State.blankEvent
  split
  · exact State.portLaw.mountBlankEnd (h.of_same) _ _
  · exact h.attemptTimeout f
  · exact h

theorem State.portLaw.probeEvent (f : InFlight) (answer : ProbeAnswer) : (s.probeEvent f answer).portLaw := by
  unfold State.probeEvent
  split
  · exact State.portLaw.mountProbeEnd (h.of_same) answer
  · exact h

/-! ## Programs and erases (R119-R122) -/

theorem State.portLaw.programEnd (f : InFlight) (o : MediumEnd) : (s.programEnd f o).portLaw := by
  unfold State.programEnd
  extract_lets t
  have freed : t.portLaw := h.of_same (t := State.releasePort _)
  split
  · exact freed.commitProgramEnd f.op o
  · exact freed.of_same
  · exact freed.of_same
  · exact freed.eraseStoreEnd o
  · exact freed
  · exact freed

theorem State.portLaw.timeoutEvent (f : InFlight) (left : Remnant) : (s.timeoutEvent f left).portLaw := by
  unfold State.timeoutEvent
  split
  · exact h.probeEvent f _
  · exact h.attemptTimeout f
  · exact h.attemptTimeout f
  · exact h.attemptTimeout f
  · exact h.attemptTimeout f
  · exact h.programEnd f _
  · exact h.programEnd f _
  · exact h.programEnd f _

theorem State.portLaw.recordProgramEvent (f : InFlight) (o : MediumEnd) : (s.recordProgramEvent f o).portLaw := by
  unfold State.recordProgramEvent
  split
  · exact h.programEnd f o
  · exact h

theorem State.portLaw.headerProgramEvent (f : InFlight) (o : MediumEnd) : (s.headerProgramEvent f o).portLaw := by
  unfold State.headerProgramEvent
  split
  · exact h.programEnd f o
  · exact h

theorem State.portLaw.eraseEvent (f : InFlight) (o : MediumEnd) : (s.eraseEvent f o).portLaw := by
  unfold State.eraseEvent
  split
  · exact h.programEnd f o
  · exact h

end

/-! ## The commands of the host (R153, R164-R174) -/

/-- A command has just been taken: EXECUTING with no activity yet, RESULT NONE and RESIDUE 0 (R153). -/
def State.justTaken (s : State) : Prop := s.awake ∧ s.port = ⟨.executing, .none, 0, .none, 0, none⟩

/-- SYNC on the state it finds ends, or goes on waiting. -/
theorem State.portLaw.syncOn {s : State} (h : s.portLaw) : s.syncOn.portLaw := by
  unfold State.syncOn
  split
  · next waiting =>
    have awake : s.awake := (h.inCommand (by simp [waiting])).1
    split
    · exact awake.endCommand .none 0
    · split
      · exact awake.endCommand _ 0
      all_goals exact h
  · exact h

section
variable {s : State} (h : s.justTaken)
include h

theorem State.justTaken.inCommand : s.inCommand := by
  obtain ⟨awake, port⟩ := h
  exact ⟨awake, by rw [port], by rw [port]⟩

theorem State.justTaken.endCommand (code : ResultCode) (detail : Nat) : (s.endCommand code detail).portLaw :=
  h.1.endCommand code detail

theorem State.justTaken.storeBody : s.storeBody.portLaw := by
  rw [State.storeBody_eq]
  split
  · exact h.inCommand.enterReserve _
  · exact h.endCommand _ 0

theorem State.justTaken.removeBody : s.removeBody.portLaw := by
  rw [State.removeBody_eq]
  split
  · exact h.inCommand.enterReserve _
  · exact h.endCommand _ 0

theorem State.justTaken.bundleBody : s.bundleBody.portLaw := by
  unfold State.bundleBody
  dsimp only
  split
  · exact h.endCommand .badParameter 0
  · next counted =>
    obtain ⟨awake, port⟩ := h
    refine State.awake.portLaw (by simpa [State.awake] using awake) ?_ ?_ ?_ <;>
      simp [State.restartTimer, State.raiseData, Port.coherent, port]
    omega

theorem State.justTaken.fetchBody : s.fetchBody.portLaw := by
  unfold State.fetchBody
  split
  · exact h.endCommand .badParameter 0
  · exact h.inCommand.fetchLookup _

theorem State.justTaken.describeBody : s.describeBody.portLaw := by
  unfold State.describeBody
  split
  · exact h.endCommand .badParameter 0
  · exact State.awake.endCommand (by simpa [State.awake] using h.1) .none 0

theorem State.justTaken.enumerateBody : s.enumerateBody.portLaw := by
  unfold State.enumerateBody
  dsimp only
  split
  · exact h.endCommand .badParameter 0
  · split
    · exact h.endCommand .badParameter 0
    · exact State.inCommand.enterSending (h.inCommand.of_same) (by omega)

theorem State.justTaken.reportBody : s.reportBody.portLaw :=
  State.inCommand.enterSending (h.inCommand.of_same) (by omega)

theorem State.justTaken.setOptionBody : s.setOptionBody.portLaw := by
  unfold State.setOptionBody
  split
  · exact State.awake.endCommand (by exact h.1) .none 0
  · exact h.endCommand .badParameter 0

theorem State.justTaken.readOptionBody : s.readOptionBody.portLaw := by
  unfold State.readOptionBody
  split
  · exact State.awake.endCommand (by exact h.1) .none 0
  · exact h.endCommand .badParameter 0

theorem State.justTaken.syncBody : s.syncBody.portLaw := by
  have waiting : ({ s with port := { s.port with activity := .syncWait } } : State).portLaw :=
    State.inCommand.waiting (h.inCommand.of_same ⟨rfl, rfl, rfl, rfl⟩) (.inl rfl) (by rw [h.2])
  unfold State.syncBody
  dsimp only
  split
  · exact waiting.leaveHalt.syncOn
  · exact waiting.syncOn

theorem State.justTaken.eraseBody : s.eraseBody.portLaw := by
  unfold State.eraseBody
  split
  · exact h.endCommand .pendingWrites 0
  · have erasing (p : EraseProgress) : (s.setErasure p).portLaw :=
      State.inCommand.waiting (activity := .eraseStore p) (h.inCommand.of_same ⟨rfl, rfl, rfl, rfl⟩) (.inl rfl)
        (by simp [State.setErasure, h.2])
    have going := erasing ⟨optDiscard s.window.option, true, [], none, none, false⟩
    exact going.of_same

theorem State.justTaken.commandBody (code : Word) : (State.commandBody code s).portLaw := by
  unfold State.commandBody
  split
  · exact h.storeBody
  · exact h.bundleBody
  · exact h.removeBody
  · exact h.fetchBody
  · exact h.describeBody
  · exact h.enumerateBody
  · exact h.syncBody
  · exact h.setOptionBody
  · exact h.readOptionBody
  · exact h.reportBody
  · exact h.eraseBody
  · exact h.endCommand .badCommand 0

end

theorem State.inCommand.bundleChecks {s : State} (h : s.inCommand) (n : Nat) (through : Bool) :
    (s.bundleChecks n through).portLaw := by
  unfold State.bundleChecks
  dsimp only
  split
  · exact h.1.endCommand .badParameter _
  · split
    · exact h.1.endCommand .readOnly 0
    · split
      · exact h.1.endCommand .storeFull 0
      · split
        · exact h.1.endCommand .tagProtected _
        · split
          · exact h.1.endCommand .indexFull _
          · exact State.inCommand.enterReserve (h.of_same) _

section
variable {s : State} (h : s.portLaw)
include h

/-- A COMMAND write keeps the law when the body it may run makes it hold after the taking. -/
theorem State.portLaw.accept (code : Word) {body : State → State}
    (keeps : ∀ t : State, t.justTaken → (body t).portLaw) : (s.accept code body).portLaw := by
  unfold State.accept
  split
  · next idle => exact keeps _ ⟨by simpa [State.awake] using h.awake (by simp [idle]), rfl⟩
  · exact h.of_same

theorem State.portLaw.commandWrite (code : Word) : (s.commandWrite code).portLaw :=
  h.accept code fun _ taken => taken.commandBody code

/-! ## The other accesses of the host (R151-R158) -/

theorem State.portLaw.dataWrite (word : Word) : (s.dataWrite word).portLaw := by
  unfold State.dataWrite
  split
  · split
    · next w slots i activity =>
      have taken : s.inCommand := h.inCommand (by simp [activity])
      by_cases more : 2 ≤ s.port.residue
      · rw [State.takePayloadWord_of_two_le more]
        exact h.wordTaken more rfl
      · unfold State.takePayloadWord
        dsimp only
        rw [if_pos (by omega)]
        exact State.inCommand.proceed (taken.of_same) w slots (i + 1)
    · next n through activity =>
      have taken : s.inCommand := h.inCommand (by simp [activity])
      by_cases more : 2 ≤ s.port.residue
      · rw [State.takeDescriptorWord_of_two_le more]
        exact h.wordTaken more rfl
      · unfold State.takeDescriptorWord
        dsimp only
        rw [if_pos (by omega)]
        exact State.inCommand.bundleChecks (taken.of_same) n through
    · exact h
  · exact h.of_same

theorem State.portLaw.dataRead : s.dataRead.portLaw := by
  unfold State.dataRead
  dsimp only
  split
  · next sending =>
    have awake : s.awake := h.awake (by simp [sending])
    split
    · exact State.awake.endCommand (by simpa [State.awake] using awake) .none 0
    · exact h.wordTaken (by omega) (t := State.restartTimer _) rfl
  · exact h.of_same

theorem State.portLaw.abort : s.abort.portLaw := by
  have ends (busy : s.port.activity ≠ .none) (d : Nat) : (s.endCommand .aborted d).portLaw :=
    (h.inCommand busy).1.endCommand .aborted d
  unfold State.abort
  split
  · exact h.of_same
  · exact h.of_same
  · exact h.recordEnd .abort
  all_goals next activity => exact ends (by simp [activity]) _

/-- The port's registers cleared outside a data phase. -/
theorem State.portLaw.clearPort (still : s.port.residue = 0 ∧ s.port.dataTimer = none) : s.clearPort.portLaw := by
  obtain ⟨residue, timer⟩ := still
  refine h.of_coherent ?_
  have coherent := h.1
  unfold Port.coherent at coherent ⊢
  cases activity : s.port.activity <;> simp_all [State.clearPort]

theorem State.portLaw.portReset : s.portReset.portLaw := by
  have coherent := h.1
  unfold Port.coherent at coherent
  unfold State.portReset
  split
  · next activity => exact (h.clearPort (by simp_all)).of_same
  · next activity =>
    refine h.recordPortReset.clearPort ?_
    unfold State.recordPortReset
    split <;> simp_all [State.setErasure]
  · next other _ =>
    have awake : s.leaveFetch.awake := by simpa [State.awake] using (h.inCommand other).1
    obtain ⟨-, -, -, -, -, -, -, -, -, -, port⟩ := s.leaveFetch.leaveCommand_keeps
    exact awake.leaveCommand.clearPort (by simp [port])

theorem State.portLaw.controlWrite (word : Word) : (s.controlWrite word).portLaw := by
  unfold State.controlWrite
  split
  · exact h.portReset
  · split
    · exact h.abort
    · exact h

theorem State.portLaw.registerWrite (address : BitVec 4) (word : Word) : (s.registerWrite address word).portLaw := by
  unfold State.registerWrite
  split
  · exact h.dataWrite word
  · exact h.of_same
  · exact h.of_same
  · exact h.of_same
  · exact h.of_same
  · exact h.of_same
  · exact h.commandWrite word
  · exact h.controlWrite word
  all_goals exact h.of_same

theorem State.portLaw.namedWrite (target : RefusedTarget) : (s.namedWrite target).portLaw := by
  cases target with
  | command code => exact h.commandWrite code
  | data word => exact h.dataWrite word

theorem State.portLaw.dataTimeout : s.dataTimeout.portLaw := by
  unfold State.dataTimeout
  split
  · next runs =>
    have mounted : s.port.state ≠ .mounting := by
      intro mounting
      simp [State.dataTimerRuns, mounting, PortState.dataRequest] at runs
    exact (h.awake mounted).endCommand .dataTimeout _
  · exact h

/-! ## PFW# (R177-R181) -/

theorem State.portLaw.powerFailCommit : s.powerFailCommit.portLaw := by
  unfold State.powerFailCommit
  split
  · exact h.of_same
  · split
    · exact h.leaveHalt
    · exact h

/-- With PFW# asserted the command in progress ends, or a port with no command in progress enters DRAINING. -/
theorem State.portLaw.powerFailCommand (asserted : s.pfw = true) (awake : s.awake) : s.powerFailCommand.portLaw := by
  unfold State.powerFailCommand
  split
  · next quiet =>
    have coherent := h.1
    unfold Port.coherent at coherent
    refine State.awake.portLaw (by simpa [State.awake] using awake) ?_ (by simp [State.enterDraining])
      fun _ => asserted
    simp_all [State.enterDraining, Port.coherent]
  · exact State.awake.endCommand (by simpa [State.awake] using awake) .powerFail 0

theorem State.portLaw.pfwAssert (on : s.power = .on) : s.pfwAssert.portLaw := by
  have asserted : ({ s with pfw := true } : State).portLaw := by
    obtain ⟨coherent, mounting, off, -⟩ := h
    exact ⟨coherent, mounting, off, fun _ => rfl⟩
  unfold State.pfwAssert
  dsimp only
  split
  · exact asserted
  · next mounted =>
    split
    · exact (asserted.recordEnd .powerFail).powerFailCommit
    · have drains := asserted.powerFailCommand rfl ⟨on, by simpa using mounted⟩
      exact State.portLaw.powerFailCommit (drains.of_same)

theorem State.portLaw.pfwRelease : s.pfwRelease.portLaw := by
  unfold State.pfwRelease
  dsimp only
  split
  · next draining =>
    have awake : s.awake := h.awake (by simp [show s.port.state = .draining from draining])
    have coherent := h.1
    unfold Port.coherent at coherent
    refine State.awake.portLaw (by simpa [State.awake] using awake) ?_ ?_ ?_ <;> simp [State.enterIdle_eq]
    cases activity : s.port.activity <;> simp_all [Port.coherent]
  · next other =>
    obtain ⟨coherent, mounting, off, -⟩ := h
    exact ⟨coherent, mounting, off, fun draining => absurd draining other⟩

end

/-! ## Resets and the step -/

/-- After a reset the port is MOUNTING and mount runs. -/
theorem State.portLaw_hardReset (s : State) (cut : Remnant) : (s.hardReset cut).portLaw :=
  ⟨rfl, fun _ => ⟨fun _ => rfl, fun _ => rfl⟩, fun off => absurd rfl off, fun draining => nomatch draining⟩

/-- The part held or without supply shows MOUNTING with no mount (log 12). -/
theorem State.portLaw_cutOff (s : State) {power : Power} (off : power ≠ .on) (cut : Remnant) :
    (s.cutOff power cut).portLaw :=
  ⟨rfl, fun on => absurd on off, fun _ => ⟨rfl, rfl⟩, fun draining => nomatch draining⟩

section
variable {s t : State} (h : s.portLaw)
include h

theorem State.portLaw.run {effect : State → State} (keeps : s.power = .on → (effect s).portLaw)
    (e : s.run effect = .next t) : t.portLaw := by
  obtain ⟨on, rfl⟩ | ⟨-, rfl⟩ := State.run_next e
  · exact (keeps on).finish
  · exact h

theorem State.portLaw.runOp {effect : State → InFlight → State} (keeps : ∀ f, (effect s f).portLaw)
    (e : s.runOp effect = .next t) : t.portLaw := by
  obtain ⟨f, -, -, -, rfl⟩ | ⟨-, -, rfl⟩ | ⟨-, rfl⟩ := State.runOp_next e
  · exact (keeps f).finish
  · exact h.finish
  · exact h

theorem State.portLaw.resetAsserted {cut : Remnant} (e : execResetAsserted cut s = .next t) : t.portLaw := by
  unfold execResetAsserted at e
  split at e <;> cases e
  · exact h
  · exact s.portLaw_cutOff (by decide) cut

/-- The level of the PFW# input alone changes while the part does not run. -/
theorem State.portLaw.setPfw (off : s.power ≠ .on) (level : Bool) : ({ s with pfw := level } : State).portLaw := by
  obtain ⟨coherent, mounting, held, -⟩ := h
  refine ⟨coherent, mounting, held, fun draining => ?_⟩
  simp [(held off).1] at draining

theorem State.portLaw.pfwAsserted (e : execPfwAsserted s = .next t) : t.portLaw := by
  unfold execPfwAsserted at e
  split at e
  · next off =>
    cases e
    exact h.setPfw off true
  · refine h.run (fun on => ?_) e
    split
    · exact h
    · exact h.pfwAssert on

theorem State.portLaw.pfwDeasserted (e : execPfwDeasserted s = .next t) : t.portLaw := by
  unfold execPfwDeasserted at e
  split at e
  · next off =>
    cases e
    exact h.setPfw off false
  · refine h.run (fun _ => ?_) e
    split
    · exact h.pfwRelease
    · exact h

/-- A command written into COMMAND keeps the law when its body makes it hold after the taking. -/
theorem State.portLaw.command (code : Word) (body : State → State)
    (keeps : ∀ t : State, t.justTaken → (body t).portLaw) (e : (s.run fun t => t.accept code body) = .next t) :
    t.portLaw :=
  h.run (effect := fun t => t.accept code body) (fun _ => h.accept code keeps) e

/-- Every command keeps the law. -/
theorem State.portLaw.exec (c : Instr) (e : exec c s = .next t) : t.portLaw := by
  cases c with
  | hardReset cut =>
    cases e
    exact s.portLaw_hardReset cut
  | powerLoss cut =>
    cases e
    exact s.portLaw_cutOff (by decide) cut
  | resetAsserted cut => exact h.resetAsserted e
  | pfwAsserted => exact h.pfwAsserted e
  | pfwDeasserted => exact h.pfwDeasserted e
  | store => exact h.command 0x10 State.storeBody (fun _ taken => taken.storeBody) e
  | storeBundle => exact h.command 0x11 State.bundleBody (fun _ taken => taken.bundleBody) e
  | remove => exact h.command 0x12 State.removeBody (fun _ taken => taken.removeBody) e
  | fetch => exact h.command 0x20 State.fetchBody (fun _ taken => taken.fetchBody) e
  | describe => exact h.command 0x21 State.describeBody (fun _ taken => taken.describeBody) e
  | enumerate => exact h.command 0x22 State.enumerateBody (fun _ taken => taken.enumerateBody) e
  | sync => exact h.command 0x30 State.syncBody (fun _ taken => taken.syncBody) e
  | setOption => exact h.command 0x40 State.setOptionBody (fun _ taken => taken.setOptionBody) e
  | readOption => exact h.command 0x41 State.readOptionBody (fun _ taken => taken.readOptionBody) e
  | healthReport => exact h.command 0x50 State.reportBody (fun _ taken => taken.reportBody) e
  | eraseStore => exact h.command 0x60 State.eraseBody (fun _ taken => taken.eraseBody) e
  | badCommand code => exact h.run (effect := fun t => t.commandWrite code) (fun _ => h.commandWrite code) e
  | dataWrite word => exact h.run (effect := fun t => t.dataWrite word) (fun _ => h.dataWrite word) e
  | registerWrite address word =>
    exact h.run (effect := fun t => t.registerWrite address word) (fun _ => h.registerWrite _ _) e
  | refusedWrite target => exact h.run (effect := fun t => t.namedWrite target) (fun _ => h.namedWrite target) e
  | acknowledge word => exact h.run (effect := fun t => t.acknowledge word) (fun _ => h.of_same) e
  | intmaskWrite word => exact h.run (effect := fun t => t.writeMask word) (fun _ => h.of_same) e
  | dataRead => exact h.run (effect := State.dataRead) (fun _ => h.dataRead) e
  | statusRead => exact h.run (effect := State.statusRead) (fun _ => h.of_same) e
  | abort => exact h.run (effect := State.abort) (fun _ => h.abort) e
  | portReset => exact h.run (effect := State.portReset) (fun _ => h.portReset) e
  | dataTimeout => exact h.run (effect := State.dataTimeout) (fun _ => h.dataTimeout) e
  | idleTimerExpiry => exact h.run (effect := State.idleExpiry) (fun _ => h.of_same) e
  | attemptTimeout left => exact h.runOp (effect := fun t f => t.timeoutEvent f left) (fun f => h.timeoutEvent f _) e
  | bankProbe answer => exact h.runOp (effect := fun t f => t.probeEvent f answer) (fun f => h.probeEvent f _) e
  | headerRead attempt => exact h.runOp (effect := fun t f => t.headerEvent f attempt) (fun f => h.headerEvent f _) e
  | recordRead attempt => exact h.runOp (effect := fun t f => t.recordEvent f attempt) (fun f => h.recordEvent f _) e
  | blankCheck attempt => exact h.runOp (effect := fun t f => t.blankEvent f attempt) (fun f => h.blankEvent f _) e
  | recordProgram outcome =>
    exact h.runOp (effect := fun t f => t.recordProgramEvent f outcome) (fun f => h.recordProgramEvent f _) e
  | headerProgram outcome =>
    exact h.runOp (effect := fun t f => t.headerProgramEvent f outcome) (fun f => h.headerProgramEvent f _) e
  | segmentErase outcome => exact h.runOp (effect := fun t f => t.eraseEvent f outcome) (fun f => h.eraseEvent f _) e
  | reclaimSelection => exact h.run (effect := State.selectionEvent) (fun _ => h.of_same) e
  | drainEnd => exact h.run (effect := State.drainEvent) (fun _ => h.of_same) e
  | commitBegin =>
    exact h.run (effect := State.commitBeginEvent) (fun _ => h.ownStep _ fun _ begun => h.commitBegin begun) e
  | slotWaitEnd =>
    exact h.run (effect := State.slotWaitEvent) (fun _ => h.ownStep _ fun _ ended => h.slotWaitEnd ended) e
  | writeThroughComplete =>
    exact h.run (effect := State.writeThroughEvent) (fun _ => h.ownStep _ fun _ ended => h.writeThroughComplete ended) e
  | syncComplete =>
    exact h.run (effect := State.syncEvent) (fun _ => h.ownStep _ fun _ ended => h.syncComplete ended) e
  | commitHaltEnd =>
    exact h.run (effect := State.haltEndEvent) (fun _ => h.ownStep _ fun _ ended => h.commitHaltEnd ended) e

end

/-- Settles O59, from `State.portLaw.exec`: a step executes the command at the front of the queue. -/
theorem stepKeepsPortLaw : Obligations.StepKeepsPortLaw := by
  intro s t h e
  unfold step at e
  split at e
  · exact State.portLaw.exec (h.of_same) _ e
  · cases e
    exact h

end Sys2Proof.Machine
end

section
/-! SUPPORT. Commands that end, or enter a data phase, in the step in which they are taken: an unknown code (R153), STORE
BUNDLE's check of COUNT (R154, R165), and SET OPTION and READ OPTION (R161, R173). -/

-- One theorem at a time: many short ones that wait at once take a thread each.
set_option Elab.async false

namespace Sys2Proof.Machine

/-! ## An unknown code (R153) -/

/-- A code that R186 gives no command ends the command with BAD_COMMAND. -/
theorem State.commandBody_of_unknown {code : Word} (unknown : code ∉ commandCodes) (s : State) :
    State.commandBody code s = s.endCommand .badCommand 0 := by
  have other (n : Nat) (named : BitVec.ofNat 16 n ∈ commandCodes) : code.toNat ≠ n := by
    rintro rfl
    exact unknown (by simpa using named)
  unfold State.commandBody
  split
  case h_12 => rfl
  all_goals next number => exact absurd number (other _ (by decide))

/-- Settles O13: the code is taken, and its body is BAD_COMMAND's. -/
theorem unknownCodeEndsBadCommand : Obligations.UnknownCodeEndsBadCommand := by
  intro code s ready unknown
  refine (ready.run_accept code (State.commandBody code)).trans ?_
  rw [State.commandBody_of_unknown unknown, State.take_endCommand ready.2.2]

/-! ## STORE BUNDLE (R154, R165) -/

/-- Settles O19: the check of COUNT, and the descriptor phase behind it. -/
theorem bundleCountCheck : Obligations.BundleCountCheck := by
  intro s ready n
  have taken : exec .storeBundle s = .next (s.take 0x11).bundleBody.finish := ready.run_accept 0x11 State.bundleBody
  rw [taken]
  refine ⟨fun outside => ?_, fun within => ?_⟩
  · have refused : (s.take 0x11).bundleBody = (s.take 0x11).endCommand .badParameter 0 := if_pos outside
    rw [refused, State.take_endCommand ready.2.2]
  · have inside : ¬ (n < 2 ∨ 8 < n) := by omega
    exact congrArg (fun t : State => Host.Outcome.next t.finish) (if_neg inside)

/-! ## The settings (R161, R173) -/

section
variable {o : Options} {code : Nat}

/-- A code names a setting exactly when the setting has a range. -/
theorem readSetting_eq_none_iff : readSetting o code = none ↔ settingRange code = none := by
  unfold readSetting settingRange
  split <;> simp

/-- A setting put in the table is read back, and every other setting reads as before. -/
theorem readSetting_putSetting (known : settingRange code ≠ none) (v other : Nat) :
    readSetting (putSetting o code v) other = if other = code then some v else readSetting o other := by
  by_cases same : other = code
  · subst same
    rw [if_pos rfl]
    unfold settingRange at known
    unfold putSetting
    split at known
    case h_10 => exact absurd rfl known
    all_goals rfl
  · rw [if_neg same]
    unfold putSetting
    split
    case h_10 => rfl
    all_goals
      unfold readSetting
      split <;> simp_all

theorem setSetting_of_within {lo hi v : Nat} (range : settingRange code = some (lo, hi)) (within : lo ≤ v ∧ v ≤ hi) :
    setSetting o code v = some (putSetting o code v) := by
  simp only [setSetting, range, if_pos within]

theorem setSetting_of_outside {lo hi v : Nat} (range : settingRange code = some (lo, hi)) (outside : v < lo ∨ hi < v) :
    setSetting o code v = none := by
  simp only [setSetting, range]
  exact if_neg (by omega)

theorem setSetting_of_unknown (unknown : settingRange code = none) (v : Nat) : setSetting o code v = none := by
  simp only [setSetting, unknown]

end

section
variable {s : State} (ready : s.ready)
include ready

theorem exec_setOption_put {o : Options}
    (put : setSetting s.window.options s.window.option.toNat s.window.value.toNat = some o) :
    exec .setOption s =
      .next (({ s with window := { s.window with options := o } } : State).endedAs 0x40 .none 0).finish := by
  have body : (s.take 0x40).setOptionBody =
      (({ s with window := { s.window with options := o } } : State).take 0x40).endCommand .none 0 := by
    have taken : setSetting (s.take 0x40).window.options (s.take 0x40).window.option.toNat
      (s.take 0x40).window.value.toNat = some o := put
    simp only [State.setOptionBody, taken]
    rfl
  refine (ready.run_accept 0x40 State.setOptionBody).trans ?_
  rw [body, State.take_endCommand (by exact ready.2.2)]

theorem exec_setOption_refused
    (refused : setSetting s.window.options s.window.option.toNat s.window.value.toNat = none) :
    exec .setOption s = .next (s.endedAs 0x40 .badParameter 0).finish := by
  have taken : setSetting (s.take 0x40).window.options (s.take 0x40).window.option.toNat
    (s.take 0x40).window.value.toNat = none := refused
  refine (ready.run_accept 0x40 State.setOptionBody).trans ?_
  simp only [State.setOptionBody, taken]
  rw [State.take_endCommand ready.2.2]

theorem exec_readOption_known {x : Nat} (known : readSetting s.window.options s.window.option.toNat = some x) :
    exec .readOption s = .next (({ s with window := { s.window with
      value := BitVec.ofNat 16 x } } : State).endedAs 0x41 .none 0).finish := by
  have body : (s.take 0x41).readOptionBody =
      (({ s with window := { s.window with value := BitVec.ofNat 16 x } } : State).take 0x41).endCommand .none 0 := by
    have taken : readSetting (s.take 0x41).window.options (s.take 0x41).window.option.toNat = some x := known
    simp only [State.readOptionBody, taken]
    rfl
  refine (ready.run_accept 0x41 State.readOptionBody).trans ?_
  rw [body, State.take_endCommand (by exact ready.2.2)]

theorem exec_readOption_unknown (unknown : readSetting s.window.options s.window.option.toNat = none) :
    exec .readOption s = .next (s.endedAs 0x41 .badParameter 0).finish := by
  have taken : readSetting (s.take 0x41).window.options (s.take 0x41).window.option.toNat = none := unknown
  refine (ready.run_accept 0x41 State.readOptionBody).trans ?_
  simp only [State.readOptionBody, taken]
  rw [State.take_endCommand ready.2.2]

end

/-- Settles O27: the setting's range decides SET OPTION, and the setting's code READ OPTION. -/
theorem settingsAreWrittenAndRead : Obligations.SettingsAreWrittenAndRead := by
  intro s ready code v after
  refine ⟨fun unknown => ?_, fun lo hi range => ⟨fun outside => ?_, fun within => ?_, ?_⟩⟩
  · exact ⟨exec_setOption_refused ready (setSetting_of_unknown unknown v),
      exec_readOption_unknown ready (readSetting_eq_none_iff.mpr unknown)⟩
  · exact exec_setOption_refused ready (setSetting_of_outside range outside)
  · have known : settingRange code ≠ none := by simp [range]
    refine ⟨exec_setOption_put ready (setSetting_of_within range within), ?_, fun other different => ?_⟩
    · rw [readSetting_putSetting known, if_pos rfl]
    · rw [readSetting_putSetting known, if_neg different]
  · have known : readSetting s.window.options code ≠ none := by simp [readSetting_eq_none_iff, range]
    obtain ⟨x, read⟩ := Option.ne_none_iff_exists'.mp known
    exact ⟨x, read, exec_readOption_known ready read⟩

end Sys2Proof.Machine
end

section
/-! SUPPORT. The host's accesses of the register window (R151, R152, R185): the writes that are refused, the parameters
stored, the reads of DATA and STATUS, the causes acknowledged and masked (R159), and the port's timers (R156, R162). -/

-- One theorem at a time: many short ones that wait at once take a thread each.
set_option Elab.async false

namespace Sys2Proof.Machine

/-! ## Writes refused and stored (R152, R185) -/

section
variable {s : State}

theorem State.accept_of_not_idle (busy : s.port.state ≠ .idle) (code : Word) (body : State → State) :
    s.accept code body = s.refuse := if_neg busy

theorem State.dataWrite_of_not_receiving (other : s.port.state ≠ .receiving) (word : Word) :
    s.dataWrite word = s.refuse := if_neg other

/-- The five parameter registers stand at the addresses 1 to 5, and take a write in IDLE alone. -/
theorem State.registerWrite_parameter {address : BitVec 4} (first : 1 ≤ address.toNat) (last : address.toNat ≤ 5)
    (word : Word) : s.registerWrite address word =
      if s.port.state = .idle then { s with window := s.window.setParameter address.toNat word } else s.refuse := by
  generalize place : address.toNat = n at first last ⊢
  simp only [State.registerWrite, place]
  interval_cases n <;> rfl

/-- The registers that are only read: STATUS, RESULT, RESIDUE, SEQLO, SEQHI and IDENT. -/
theorem State.registerWrite_readOnly {address : BitVec 4}
    (readOnly : address ∈ ([7, 8, 12, 13, 14, 15] : List (BitVec 4))) (word : Word) :
    s.registerWrite address word = s.refuse := by
  simp only [List.mem_cons, List.not_mem_nil, or_false] at readOnly
  obtain rfl | rfl | rfl | rfl | rfl | rfl := readOnly <;> rfl

variable (on : s.power = .on)
include on

/-- An access whose own effect is known. -/
theorem State.run_eq {effect : State → State} {t : State} (does : effect s = t) : s.run effect = .next t.finish := by
  rw [State.run_of_on on, does]

/-- A COMMAND write outside IDLE is refused, whichever row names it. -/
theorem exec_command_refused (busy : s.port.state ≠ .idle) {c : Instr}
    (command : c ∈ ([.store, .storeBundle, .remove, .fetch, .describe, .enumerate, .sync, .setOption, .readOption,
      .healthReport, .eraseStore] : List Instr)) : exec c s = .next s.refuse.finish := by
  have refused (code : Word) (body : State → State) : (s.run fun t => t.accept code body) = .next s.refuse.finish :=
    State.run_eq on (State.accept_of_not_idle busy code body)
  simp only [List.mem_cons, List.not_mem_nil, or_false] at command
  obtain rfl | rfl | rfl | rfl | rfl | rfl | rfl | rfl | rfl | rfl | rfl := command <;> exact refused _ _

end

/-- Settles O31: each write is refused by its state or by its address. -/
theorem refusedWritesSetRefused : Obligations.RefusedWritesSetRefused := by
  intro s on refused
  refine ⟨fun busy => ⟨fun c command => exec_command_refused on busy command, fun code => ?_,
    fun a w first last => ?_⟩, fun other w => ?_, fun a w readOnly => ?_⟩
  · have outside : s.commandWrite code = s.refuse := State.accept_of_not_idle busy code _
    exact ⟨State.run_eq (effect := fun t => t.commandWrite code) on outside,
      State.run_eq (effect := fun t => t.namedWrite (.command code)) on outside⟩
  · exact State.run_eq (effect := fun t => t.registerWrite a w) on
      ((State.registerWrite_parameter first last w).trans (if_neg busy))
  · have outside : s.dataWrite w = s.refuse := State.dataWrite_of_not_receiving other w
    exact ⟨State.run_eq (effect := fun t => t.dataWrite w) on outside,
      State.run_eq (effect := fun t => t.namedWrite (.data w)) on outside⟩
  · exact State.run_eq (effect := fun t => t.registerWrite a w) on (State.registerWrite_readOnly readOnly w)

/-- Settles O32: a parameter is stored at its address, and a CONTROL write with neither bit set does nothing. -/
theorem parameterWritesAreStored : Obligations.ParameterWritesAreStored := by
  intro w s on
  refine ⟨fun idle => ?_, fun no_abort no_reset => ?_⟩
  · have stored (a : BitVec 4) (first : 1 ≤ a.toNat) (last : a.toNat ≤ 5) : exec (.registerWrite a w) s =
        .next ({ s with window := s.window.setParameter a.toNat w } : State).finish :=
      State.run_eq (effect := fun t => t.registerWrite a w) on
        ((State.registerWrite_parameter first last w).trans (if_pos idle))
    exact ⟨stored 1 (by decide) (by decide), stored 2 (by decide) (by decide), stored 3 (by decide) (by decide),
      stored 4 (by decide) (by decide), stored 5 (by decide) (by decide)⟩
  · have nothing : s.controlWrite w = s := by
      rw [State.controlWrite, no_reset, no_abort]
      rfl
    exact State.run_eq (effect := fun t => t.registerWrite 9 w) on nothing

/-! ## DATA reads (R152, R154) -/

section
variable {s : State}

theorem State.dataWord_of_sending {n : Nat} (sending : s.port.state = .sending)
    (activity : s.port.activity = .sending n) : s.dataWord = s.window.frame.getD (n - s.port.residue) 0 := by
  simp only [State.dataWord, activity, if_pos sending, State.frameWord]

theorem State.dataWord_of_not_sending (other : s.port.state ≠ .sending) : s.dataWord = 0xFFFF := by
  unfold State.dataWord
  split
  · exact if_neg other
  · rfl

/-- A DATA read in SENDING with words left after it. -/
theorem State.dataRead_of_two_le (sending : s.port.state = .sending) (more : 2 ≤ s.port.residue) :
    s.dataRead = { s.drive s.dataWord with port := { s.port with
      residue := s.port.residue - 1, dataTimer := some s.window.options.dataTimeout } } := by
  unfold State.dataRead
  rw [if_pos sending, if_neg (by omega)]
  rfl

/-- The DATA read that gives the last word completes the command. -/
theorem State.dataRead_of_last (sending : s.port.state = .sending) (last : s.port.residue = 1) (pfw : s.pfw = false) :
    s.dataRead = (s.drive s.dataWord).completedAs .none 0 := by
  unfold State.dataRead
  rw [if_pos sending, if_pos last.le, State.endCommand_eq (by exact pfw)]
  rfl

theorem State.dataRead_of_not_sending (other : s.port.state ≠ .sending) : s.dataRead = s.drive 0xFFFF := by
  unfold State.dataRead
  rw [if_neg other, State.dataWord_of_not_sending other]

end

/-- Settles O33: the word by its place in the frame, and the read by the words left. -/
theorem dataReadGivesTheNextWord : Obligations.DataReadGivesTheNextWord := by
  intro s on
  refine ⟨fun n sending activity => ⟨fun more => ?_, fun last pfw => ?_⟩, fun other => ?_⟩
  · refine State.run_eq on ((State.dataRead_of_two_le sending more).trans ?_)
    rw [State.dataWord_of_sending sending activity]
    rfl
  · refine State.run_eq on ((State.dataRead_of_last sending last pfw).trans ?_)
    rw [State.dataWord_of_sending sending activity]
    rfl
  · exact State.run_eq on (State.dataRead_of_not_sending other)

/-! ## STATUS reads (R150, R151, R185) -/

/-- A flag stands in its own bit. -/
theorem getLsbD_flagBit (b : Bool) {place : Nat} (room : place < 16) (i : Nat) :
    (flagBit b place).getLsbD i = (b && decide (i = place)) := by
  cases b with
  | false => simp [flagBit]
  | true =>
    rw [Bool.eq_iff_iff]
    simp [flagBit, BitVec.getLsbD_shiftLeft, BitVec.getLsbD_one]
    omega

/-- The bits of STATUS: a flag in each of the bits 0 to 7. -/
theorem State.getLsbD_status (s : State) (i : Nat) : s.status.getLsbD i =
    ((s.port.state.busy && decide (i = 0)) || (s.port.state.dataRequest && decide (i = 1)) ||
      (decide (s.port.result ≠ .none) && decide (i = 2)) || (s.window.refused && decide (i = 3)) ||
      (!s.staging.pwl.isEmpty && decide (i = 4)) || (s.commit.state.isHalted && decide (i = 5)) ||
      (s.readOnly && decide (i = 6)) || (s.health.conditions.any && decide (i = 7))) := by
  simp only [State.status, BitVec.getLsbD_or, getLsbD_flagBit _ (show 0 < 16 by omega),
    getLsbD_flagBit _ (show 1 < 16 by omega), getLsbD_flagBit _ (show 2 < 16 by omega),
    getLsbD_flagBit _ (show 3 < 16 by omega), getLsbD_flagBit _ (show 4 < 16 by omega),
    getLsbD_flagBit _ (show 5 < 16 by omega), getLsbD_flagBit _ (show 6 < 16 by omega),
    getLsbD_flagBit _ (show 7 < 16 by omega)]

theorem PortState.busy_iff {p : PortState} : p.busy = true ↔ p = .mounting ∨ p = .executing ∨ p = .draining := by
  cases p <;> decide

theorem PortState.dataRequest_iff {p : PortState} : p.dataRequest = true ↔ p = .receiving ∨ p = .sending := by
  cases p <;> decide

theorem CommitState.isHalted_iff {c : CommitState} : c.isHalted = true ↔ ∃ r, c = .halted r := by
  cases c <;> simp [CommitState.isHalted]

/-- Settles O34, bit by bit from `State.getLsbD_status`. -/
theorem statusReadGivesTheFlags : Obligations.StatusReadGivesTheFlags := by
  intro s on
  refine ⟨State.run_eq on rfl, ?_⟩
  simp only [State.getLsbD_status]
  refine ⟨?_, ?_, ?_, ?_, ?_, ?_, ?_, ?_, fun i high => ?_⟩
  · simp [PortState.busy_iff]
  · simp [PortState.dataRequest_iff]
  · simp
  · simp
  · simp
  · simp [CommitState.isHalted_iff]
  · simp [State.readOnly, Reasons.readOnly, or_assoc]
  · simp [Conditions.any, or_assoc]
  · have named : i ≠ 0 ∧ i ≠ 1 ∧ i ≠ 2 ∧ i ≠ 3 ∧ i ≠ 4 ∧ i ≠ 5 ∧ i ≠ 6 ∧ i ≠ 7 := by omega
    simp [named]

/-! ## Causes (R159, R185) -/

/-- Settles O37: both writes name causes by the bits 0 to 5. -/
theorem causesAreAcknowledgedAndMasked : Obligations.CausesAreAcknowledgedAndMasked := by
  intro w s on
  refine ⟨State.run_eq (effect := fun t => t.acknowledge w) on rfl,
    State.run_eq (effect := fun t => t.writeMask w) on rfl, ?_⟩
  simp only [State.intAsserted, Causes.meets, Bool.or_eq_true, Bool.and_eq_true, or_assoc]

/-! ## The timers (R156, R162) -/

/-- The data-phase timer runs in a data phase with a length other than 0. -/
theorem State.dataTimerRuns_of_dataPhase {s : State} {n : Nat}
    (phase : s.port.state = .receiving ∨ s.port.state = .sending) (timer : s.port.dataTimer = some n) (long : n ≠ 0) :
    s.dataTimerRuns = true := by
  simp [State.dataTimerRuns, PortState.dataRequest_iff.mpr phase, timer, long]

/-- The detail of an end names a bundle's member while its payload is being received, and is 0 otherwise. -/
theorem Activity.detail_eq (a : Activity) : a.detail =
    match a with
    | .payload ⟨.bundle _, _, _⟩ _ i => i + 1
    | _ => 0 := by
  cases a with
  | payload w slots i =>
    obtain ⟨kind, members, through⟩ := w
    cases kind <;> rfl
  | _ => rfl

/-- Settles O38: each timer by its own rule. -/
theorem timersExpire : Obligations.TimersExpire := by
  intro s on
  refine ⟨fun n pfw phase timer long => ?_, fun n running => ?_⟩
  · have ends : s.dataTimeout = s.endCommand .dataTimeout s.port.activity.detail :=
      if_pos (State.dataTimerRuns_of_dataPhase phase timer long)
    exact State.run_eq on ((ends.trans (State.endCommand_eq pfw _ _)).trans
      (congrArg (s.completedAs .dataTimeout) (Activity.detail_eq _)))
  · refine State.run_eq on ?_
    simp only [State.idleExpiry, running]

end Sys2Proof.Machine
end

section
/-! SUPPORT. ABORT (R157) and PORT RESET (R158), by the activity of the command in progress, and CONTROL, which names
them (R185). -/

-- One theorem at a time: many short ones that wait at once take a thread each.
set_option Elab.async false

namespace Sys2Proof.Machine

/-! ## CONTROL (R185) -/

section
variable (s : State) {w : Word}

theorem State.controlWrite_reset (reset : w.getLsbD 1 = true) : s.controlWrite w = s.portReset := if_pos reset

theorem State.controlWrite_abort (abort : w.getLsbD 0 = true) (no_reset : w.getLsbD 1 = false) :
    s.controlWrite w = s.abort := by
  rw [State.controlWrite, no_reset, abort]
  rfl

end

/-! ## ABORT (R157) -/

section
variable {s : State} (busy : s.port.activity ≠ .none) (unerasing : ∀ p, s.port.activity ≠ .eraseStore p)
  (unfetching : ∀ e, s.port.activity ≠ .fetch e)
include busy unerasing unfetching

/-- A data phase or a wait ends with ABORTED, a bundle's payload with the position of its member. -/
theorem State.abort_ends (pfw : s.pfw = false) : s.abort = s.completedAs .aborted s.port.activity.detail := by
  have ends : s.abort = s.endCommand .aborted s.port.activity.detail := by
    unfold State.abort
    cases activity : s.port.activity with
    | none => exact absurd activity busy
    | eraseStore p => exact absurd activity (unerasing p)
    | fetch e => exact absurd activity (unfetching e)
    | _ => simp only [Activity.detail]
  rw [ends, State.endCommand_eq pfw]

end

/-- ERASE STORE that has recorded ABORT first, and no port reset, stops between two segments with ABORTED (R176). -/
theorem State.eraseFrom_aborted {s : State} {p : EraseProgress} (erasing : s.port.activity = .eraseStore p)
    (first : p.firstEnd = some .abort) (clear : p.portReset = false) (pfw : s.pfw = false) (n : Nat) (rest : List Nat) :
    State.eraseFrom (n :: rest) s =
      ({ s with background := ⟨s.pendingErases, none⟩ } : State).completedAs .aborted 0 := by
  rw [State.eraseFrom_stopped rest erasing (.inr (by simp [first])), State.stopErasure, State.endErasure,
    State.erasure_of_activity (by exact erasing)]
  simp only [clear, first]
  exact State.endCommand_eq (by exact pfw) .aborted 0

/-- Settles O35: the activity decides whether ABORT ends the command, is recorded or is refused. -/
theorem abortEndsPhasesAndWaits : Obligations.AbortEndsPhasesAndWaits := by
  intro s
  refine ⟨fun w abort no_reset => s.controlWrite_abort abort no_reset,
    fun p n rest erasing first clear pfw => State.eraseFrom_aborted erasing first clear pfw n rest, fun on => ?_⟩
  have ends (busy : s.port.activity ≠ .none) (unerasing : ∀ p, s.port.activity ≠ .eraseStore p)
      (unfetching : ∀ e, s.port.activity ≠ .fetch e) (d : Nat) (detail : s.port.activity.detail = d)
      (pfw : s.pfw = false) : exec .abort s = .next (s.completedAs .aborted d).finish :=
    State.run_eq on (detail ▸ State.abort_ends busy unerasing unfetching pfw)
  split
  · next activity => exact State.run_eq on (by simp only [State.abort, activity]; rfl)
  · next activity => exact State.run_eq on (by simp only [State.abort, activity]; rfl)
  · next p activity =>
    have records : s.abort = s.recordEnd .abort := by simp only [State.abort, activity]
    exact State.run_eq on (records.trans (State.recordEnd_of_erasing activity .abort))
  all_goals
    next activity =>
      exact ends (by simp [activity]) (by simp [activity]) (by simp [activity]) _ (by rw [activity]; rfl)

/-! ## PORT RESET (R158) -/

/-- With PFW# deasserted a command is left for IDLE. -/
theorem State.leaveCommand_eq {s : State} (pfw : s.pfw = false) : s.leaveCommand = { s with
    port := ⟨.idle, .none, 0, s.port.result, s.port.detail, none⟩
    idle := { s.idle with running :=
      (if s.staging.pwl = [] ∧ s.window.options.idleDelay ≠ 0 then some s.window.options.idleDelay else none) }
    staging := { s.staging with slots :=
      (s.staging.slots.map fun x => if x.state = .reserved then { x with state := .free } else x) } } := by
  simp [State.leaveCommand, pfw, State.enterIdle_eq, State.freeReserved]

/-- The idle timer as a port reset that leaves the port IDLE starts it (R162). -/
theorem State.resetIdle_eq (s : State) : s.resetIdle = { s with idle := { s.idle with running :=
    (if s.port.state = .idle ∧ s.staging.pwl = [] ∧ s.idle.running = none then
      if s.staging.pwl = [] ∧ s.window.options.idleDelay ≠ 0 then some s.window.options.idleDelay else none
    else s.idle.running) } } := by
  unfold State.resetIdle State.startIdle
  simp only [List.isEmpty_iff]
  split
  · next resets => simp [resets]
  · rfl

section
variable {s : State}

theorem State.portReset_quiet (quiet : s.port.activity = .none) : s.portReset = s.clearPort.resetIdle := by
  simp only [State.portReset, quiet]

theorem State.portReset_erasing {p : EraseProgress} (erasing : s.port.activity = .eraseStore p) :
    s.portReset = (s.setErasure { p with portReset := true }).clearPort := by
  simp only [State.portReset, erasing, State.recordPortReset, State.erasure_of_activity erasing]

theorem State.portReset_ends (busy : s.port.activity ≠ .none) (unerasing : ∀ p, s.port.activity ≠ .eraseStore p) :
    s.portReset = s.leaveFetch.leaveCommand.clearPort := by
  unfold State.portReset
  split
  · next quiet => exact absurd quiet busy
  · next p erasing => exact absurd erasing (unerasing p)
  · rfl

theorem State.leaveFetch_of_fetch {e : IndexEntry} (fetching : s.port.activity = .fetch e) :
    s.leaveFetch = { s with sequencer := { s.sequencer with
      requests := { s.sequencer.requests with read := .absent }
      inFlight := s.sequencer.inFlight.map InFlight.detach } } := by
  simp only [State.leaveFetch, fetching, Activity.isFetch]
  rfl

theorem State.leaveFetch_of_other (unfetching : ∀ e, s.port.activity ≠ .fetch e) : s.leaveFetch = s := by
  refine if_neg ?_
  unfold Activity.isFetch
  split
  · next e fetching => exact absurd fetching (unfetching e)
  · exact Bool.false_ne_true

/-- ERASE STORE that has recorded a port reset stops between two segments without RESULT or DONE (R176). -/
theorem State.eraseFrom_reset {p : EraseProgress} (erasing : s.port.activity = .eraseStore p)
    (reset : p.portReset = true) (n : Nat) (rest : List Nat) :
    State.eraseFrom (n :: rest) s = ({ s with background := ⟨s.pendingErases, none⟩ } : State).leaveCommand := by
  rw [State.eraseFrom_stopped rest erasing (.inl reset), State.stopErasure, State.endErasure,
    State.erasure_of_activity (by exact erasing)]
  exact if_pos reset

end

/-- Settles O36: CONTROL and ERASE STORE first, then a read without its command, then the reset by the activity. -/
theorem portResetClearsThePort : Obligations.PortResetClearsThePort := by
  intro s window started ended
  refine ⟨fun w reset => s.controlWrite_reset reset, fun p n rest erasing reset pfw => ?_, fun op tag outcome => ?_,
    fun on => ⟨fun quiet => ?_, fun p erasing => ?_, fun e fetching pfw => ?_,
      fun busy unerasing unfetching pfw => ?_⟩⟩
  · rw [State.eraseFrom_reset erasing reset n rest, State.leaveCommand_eq (by exact pfw)]
    exact ⟨rfl, rfl, rfl⟩
  · simp [State.fetchOutcome]
  · refine State.run_eq on ((State.portReset_quiet quiet).trans ?_)
    rw [State.resetIdle_eq]
    rfl
  · exact State.run_eq on (State.portReset_erasing erasing)
  · refine State.run_eq on ((State.portReset_ends (by simp [fetching]) (by simp [fetching])).trans ?_)
    rw [State.leaveFetch_of_fetch fetching, State.leaveCommand_eq (by exact pfw)]
    rfl
  · refine State.run_eq on ((State.portReset_ends busy unerasing).trans ?_)
    rw [State.leaveFetch_of_other unfetching, State.leaveCommand_eq pfw]
    rfl

end Sys2Proof.Machine
end

section
/-! SUPPORT. What the accesses of the host, the end of a data phase and the idle timer leave of the port's side of the
part (R152, R159, R173). -/

-- One theorem at a time: many short ones that wait at once take a thread each.
set_option Elab.async false

namespace Sys2Proof.Machine

/-- From the first state to the second the PFW# input, the supply, mount and its report stand, and so do the option
table, the mask and the rotation, each but for the one access that writes it. -/
def State.hostSideKeptBy (s : State) (c : Instr) (t : State) : Prop :=
  t.pfw = s.pfw ∧ t.power = s.power ∧ t.mount = s.mount ∧ t.mountReport = s.mountReport ∧
    (c ≠ .setOption → t.window.options = s.window.options) ∧
    ((∀ w, c ≠ .intmaskWrite w) → t.window.mask = s.window.mask) ∧
    ((∀ w, c ≠ .dataWrite w) → t.window.nextBundle = s.window.nextBundle)

namespace State.hostSideKeptBy
variable {c : Instr} {s t u : State}

theorem refl (c : Instr) (s : State) : s.hostSideKeptBy c s :=
  ⟨rfl, rfl, rfl, rfl, fun _ => rfl, fun _ => rfl, fun _ => rfl⟩

theorem trans (h : s.hostSideKeptBy c t) (k : t.hostSideKeptBy c u) : s.hostSideKeptBy c u := by
  obtain ⟨pfw, power, mount, report, options, mask, rotation⟩ := h
  obtain ⟨pfw', power', mount', report', options', mask', rotation'⟩ := k
  exact ⟨pfw'.trans pfw, power'.trans power, mount'.trans mount, report'.trans report,
    fun other => (options' other).trans (options other), fun other => (mask' other).trans (mask other),
    fun other => (rotation' other).trans (rotation other)⟩

/-- The end of a step keeps all of it. -/
theorem finish (c : Instr) (s : State) : s.hostSideKeptBy c s.finish := by simp [State.hostSideKeptBy]

/-- A command is taken, and refused, without a change to any of it. -/
theorem take (c : Instr) (s : State) (code : Word) : s.hostSideKeptBy c (s.take code) := by
  simp [State.hostSideKeptBy]

theorem refuse (c : Instr) (s : State) : s.hostSideKeptBy c s.refuse := by simp [State.hostSideKeptBy]

/-- A step keeps what its event keeps. -/
theorem of_run {effect : State → State} (answer : s.run effect = .next t)
    (keeps : s.hostSideKeptBy c (effect s) := by simp [State.hostSideKeptBy]) : s.hostSideKeptBy c t := by
  obtain ⟨-, rfl⟩ | ⟨-, rfl⟩ := State.run_next answer
  · exact keeps.trans (finish c _)
  · exact refl c _

/-- A write of COMMAND keeps what the command's body keeps. -/
theorem of_accept {code : Word} {body : State → State} (answer : (s.run fun v => v.accept code body) = .next t)
    (keeps : ∀ v : State, v.hostSideKeptBy c (body v) := by simp [State.hostSideKeptBy]) :
    s.hostSideKeptBy c t := by
  refine of_run answer ?_
  unfold State.accept
  split
  · exact (take c s code).trans (keeps _)
  · exact refuse c s

end State.hostSideKeptBy

open State.hostSideKeptBy in
/-- Settles O5: each access by the frame of what it does. -/
theorem hostAccessFrame : Obligations.HostAccessFrame := by
  intro c s t accesses answer
  change s.hostSideKeptBy c t
  obtain plain | ⟨w, rfl⟩ | ⟨w, rfl⟩ | ⟨w, rfl⟩ := accesses
  · simp only [List.mem_cons, List.not_mem_nil, or_false] at plain
    obtain rfl | rfl | rfl | rfl | rfl | rfl | rfl | rfl | rfl | rfl | rfl | rfl | rfl | rfl | rfl | rfl | rfl :=
      plain
    · exact of_accept (body := State.storeBody) answer
    · exact of_accept (body := State.bundleBody) answer
    · exact of_accept (body := State.removeBody) answer
    · exact of_accept (body := State.fetchBody) answer
    · exact of_accept (body := State.describeBody) answer
    · exact of_accept (body := State.enumerateBody) answer
    · exact of_accept (body := State.syncBody) answer
    · exact of_accept (body := State.setOptionBody) answer
    · exact of_accept (body := State.readOptionBody) answer
    · exact of_accept (body := State.reportBody) answer
    · exact of_accept (body := State.eraseBody) answer
    · exact of_run (effect := State.dataRead) answer
    · exact of_run (effect := State.statusRead) answer
    · exact of_run (effect := State.abort) answer
    · exact of_run (effect := State.portReset) answer
    · exact of_run (effect := State.dataTimeout) answer
    · exact of_run (effect := State.idleExpiry) answer
  · exact of_run (effect := (·.dataWrite w)) answer
  · exact of_run (effect := (·.acknowledge w)) answer
  · exact of_run (effect := (·.writeMask w)) answer

end Sys2Proof.Machine
end

section
/-! SUPPORT. The commands that end in the step in which they are taken for what they find: a STORE or REMOVE that fails a
check (R164, R167), and DESCRIBE (R37, R169). -/

-- One theorem at a time: many short ones that wait at once take a thread each.
set_option Elab.async false

namespace Sys2Proof.Machine

/-! ## The checks of STORE and REMOVE (R164, R167) -/

/-- A command whose body ends it in the step in which it is taken leaves the state as `endedAs` says. -/
theorem State.ready.run_accept_ends {s : State} (ready : s.ready) {code : Word} {body : State → State}
    {r : ResultCode} {d : Nat} (ends : body (s.take code) = (s.take code).endCommand r d) :
    (s.run fun t => t.accept code body) = .next (s.endedAs code r d).finish := by
  rw [ready.run_accept, ends, State.take_endCommand ready.2.2]

/-- Settles O14: taking the command changes nothing that a check reads, and the first check that fails gives the
code. -/
theorem storeChecksInOrder : Obligations.StoreChecksInOrder := by
  intro s ready failed
  have verdict : (s.take 0x10).storeVerdict = s.storeVerdict := rfl
  refine ready.run_accept_ends (body := State.storeBody) ?_
  rw [State.storeBody_eq, verdict, if_neg failed]

/-- Settles O18: taking the command changes nothing that a check reads, and the first check that fails gives the
code. -/
theorem removeChecksInOrder : Obligations.RemoveChecksInOrder := by
  intro s ready failed
  have verdict : (s.take 0x12).removeVerdict = s.removeVerdict := rfl
  refine ready.run_accept_ends (body := State.removeBody) ?_
  rw [State.removeBody_eq, verdict, if_neg failed]

/-! ## DESCRIBE (R37, R169) -/

/-- LENGTH, VALUE, SEQLO and SEQHI loaded with a visible state, as DESCRIBE reports it (R37). -/
def State.loadVisible (s : State) (v : Visible) : State :=
  { s with window := { s.window with
    length := word v.length, value := v.word, seqlo := word v.sequence, seqhi := word (v.sequence / 65536) } }

/-- DESCRIBE refuses an invalid tag, and else ends with the tag's visible state loaded. -/
theorem State.describeBody_eq (s : State) :
    s.describeBody = if s.window.tag.toNat < 1 ∨ 65534 < s.window.tag.toNat then s.endCommand .badParameter 0
      else (s.loadVisible (s.visible s.window.tag.toNat)).endCommand .none 0 := by
  unfold State.describeBody
  simp only [Bool.not_eq_true', validTag_eq_false_iff]
  rfl

section
variable {s : State} (ready : s.ready)
include ready

theorem exec_describe_refused (invalid : s.window.tag.toNat < 1 ∨ 65534 < s.window.tag.toNat) :
    exec .describe s = .next (s.endedAs 0x21 .badParameter 0).finish := by
  refine ready.run_accept_ends (body := State.describeBody) ?_
  rw [State.describeBody_eq]
  exact if_pos invalid

theorem exec_describe_loads (valid : 1 ≤ s.window.tag.toNat ∧ s.window.tag.toNat ≤ 65534) :
    exec .describe s =
      .next ((s.loadVisible (s.visible s.window.tag.toNat)).endedAs 0x21 .none 0).finish := by
  have passes : ¬ (s.window.tag.toNat < 1 ∨ 65534 < s.window.tag.toNat) := by omega
  have body : (s.take 0x21).describeBody =
      ((s.loadVisible (s.visible s.window.tag.toNat)).take 0x21).endCommand .none 0 := by
    rw [State.describeBody_eq]
    exact if_neg passes
  refine (ready.run_accept 0x21 State.describeBody).trans ?_
  rw [body, State.take_endCommand (by exact ready.2.2)]

end

/-- Settles O22: the state that is loaded, read off for each of the five visible states. -/
theorem describeReportsVisibleState : Obligations.DescribeReportsVisibleState := by
  intro s ready tag loaded
  refine ⟨exec_describe_refused ready, fun valid => ?_⟩
  have loads := exec_describe_loads ready valid
  split
  case h_1 seen | h_2 seen | h_3 seen | h_4 seen | h_5 seen =>
    rw [seen] at loads
    exact loads

end Sys2Proof.Machine
end

section
/-! SUPPORT. The two ends of a drain: PFW# deasserted cuts it short and returns the port to IDLE (R162, R180, R181), and
with no entry left to commit, or with a HALTED engine, it is reported as ended (R180). -/

namespace Sys2Proof.Machine

variable {s : State}

/-! ## PFW# deasserted (R180, R181) -/

theorem State.cutDrain_eq (s : State) :
    s.cutDrain = { s with drain :=
      if s.drain.running = true then ⟨false, .cutShort, s.staging.pwl.length⟩ else s.drain } := by
  unfold State.cutDrain
  split <;> rfl

theorem State.pfwRelease_of_draining (draining : s.port.state = .draining) :
    s.pfwRelease = ({ s with pfw := false } : State).cutDrain.enterIdle := if_pos draining

theorem exec_pfwDeasserted (on : s.power = .on) (asserted : s.pfw = true) :
    exec .pfwDeasserted s = .next s.pfwRelease.finish := by
  have runs : exec .pfwDeasserted s = s.run fun t => if t.pfw then t.pfwRelease else t := if_neg (by simp [on])
  exact runs.trans (State.run_eq on (if_pos asserted))

/-- Settles O12: the drain is cut short first, and the entry into IDLE then looks at the list for the idle timer. -/
theorem pfwDeassertedEndsDrain : Obligations.PfwDeassertedEndsDrain := by
  intro s on asserted draining
  rw [exec_pfwDeasserted on asserted, State.pfwRelease_of_draining draining, State.cutDrain_eq, State.enterIdle_eq]

/-! ## The end of the drain (R180) -/

section
variable (draining : s.port.state = .draining) (running : s.drain.running = true)
include draining running

theorem drainEnd_emptied (empty : s.staging.pwl = []) :
    drainEnd s = some ({ s with drain := ⟨false, .emptied, 0⟩ } : State).raiseDrained :=
  (if_pos ⟨draining, running⟩).trans (if_pos (by simp [empty]))

theorem drainEnd_halted (staged : s.staging.pwl ≠ []) (halted : s.commit.state.isHalted = true) :
    drainEnd s = some ({ s with drain := ⟨false, .halted, s.staging.pwl.length⟩ } : State).raiseDrained :=
  (if_pos ⟨draining, running⟩).trans ((if_neg (by simp [staged])).trans (if_pos halted))

end

theorem exec_drainEnd {t : State} (awake : s.awake) (ends : drainEnd s = some t) :
    exec .drainEnd s = .next t.finish := by
  have does : s.drainEvent = t := by rw [State.drainEvent, if_pos awake.blocksRun, ends, Option.getD_some]
  exact State.run_eq awake.1 does

/-- Settles O51: an empty list comes first, and only then the halt of the Commit Engine. -/
theorem drainEndIsReported : Obligations.DrainEndIsReported := by
  intro s awake draining running
  exact ⟨fun empty => exec_drainEnd awake (drainEnd_emptied draining running empty),
    fun r staged halted => exec_drainEnd awake
      (drainEnd_halted draining running staged (CommitState.isHalted_iff.mpr ⟨r, halted⟩))⟩

end Sys2Proof.Machine
end

section
/-! SUPPORT. What a step does with the queue: an equation for a queue with a front command and one for an empty queue
(log 2). -/

namespace Sys2Proof.Machine

variable {s : State}

theorem step_of_front {c : Instr} {rest : List Instr} (front : s.pending = c :: rest) :
    step s = exec c { s with pending := rest } := by
  unfold step
  rw [front]

theorem step_of_empty (empty : s.pending = []) : step s = .next s := by
  unfold step
  rw [empty]

/-- Settles O1: the two forms of the queue are the two cases of a step. -/
theorem stepRunsFrontCommand : Obligations.StepRunsFrontCommand :=
  ⟨fun _ _ _ => step_of_front rfl, fun _ => step_of_empty⟩

end Sys2Proof.Machine
end
